-- ==== Sys2Proof/Word.lean ====
section
/-! DEFINITION. The one word type of the codec core: the byte (spec rule R62). -/

namespace Sys2Proof

/-- A byte of any memory, of the wire stream, or of a command word (R62, R95). -/
abbrev Byte := BitVec 8

end Sys2Proof
end

