-- ==== Sys2Proof/Config.lean ====
section
/-! DEFINITION. What is fixed for an instance or for the whole machine: the wire layout (W, L), the
configuration register CFG with the constants derived from it, and the two open parameters of the
spec (R9, R22). -/

namespace Sys2Proof

/-- The wire layout both ends of a stream agree on out of band (R3, R83): the widths of a
backreference token's two fields. -/
structure Layout where
  /-- W, the width of the distance field. -/
  windowBits : Nat
  /-- L, the width of the length field. -/
  lookaheadBits : Nat
  deriving DecidableEq, Repr

/-- The legal pairs (W, L) of R3: W from 4 to 15 and L from 3 to W - 1. -/
abbrev Layout.legal (ly : Layout) : Prop :=
  4 ≤ ly.windowBits ∧ ly.windowBits ≤ 15 ∧ 3 ≤ ly.lookaheadBits ∧ ly.lookaheadBits + 1 ≤ ly.windowBits

/-- The smallest legal layout, W = 4 and L = 3. -/
def Layout.smallest : Layout := ⟨4, 3⟩

/-- The configuration register CFG of an instance (R22). CONSTRUCT writes it and nothing else does. -/
structure Cfg where
  /-- W, `CFG.windowBits`. -/
  windowBits : Nat
  /-- L, `CFG.lookaheadBits`. -/
  lookaheadBits : Nat
  /-- IBS, `CFG.inputBufferSize`; for an encoder it is the batch capacity B (R9). -/
  ibs : Nat
  /-- OBS, `CFG.outputBufferSize`. -/
  obs : Nat
  deriving DecidableEq, Repr

/-- H = 2^W, the window size (R9). -/
abbrev Cfg.window (c : Cfg) : Nat := 2 ^ c.windowBits

/-- LA = 2^L, the greatest match length (R9). -/
abbrev Cfg.lookahead (c : Cfg) : Nat := 2 ^ c.lookaheadBits

/-- BE = 1 + W + L, the bits of one backreference token (R9). -/
abbrev Cfg.breakEven (c : Cfg) : Nat := 1 + c.windowBits + c.lookaheadBits

/-- H + B, the size of E.HBUF and of E.INDEX (R25). -/
abbrev Cfg.hbufSize (c : Cfg) : Nat := c.window + c.ibs

/-- The wire layout of a configured instance. -/
def Cfg.layout (c : Cfg) : Layout := ⟨c.windowBits, c.lookaheadBits⟩

/-- The values of the open parameter P_DEC_FINISH_IN_LITERAL (R9, R185). -/
inductive FinishInLiteral where
  /-- FINISH answers MORE in YIELD_LITERAL whatever is buffered (the spec's default). -/
  | more
  /-- FINISH answers DONE in YIELD_LITERAL when no input byte is buffered. -/
  | doneIfEmpty
  deriving DecidableEq, Repr

/-- The two parameters the spec leaves open for every instance (R9). They are plain data that no
command reads back and no step changes, so that a statement over every state holds for each of
their four settings. -/
structure Params where
  /-- P_ZERO_HISTORY: whether the encoder may match the zero history before the first input byte. -/
  zeroHistory : Bool
  /-- P_DEC_FINISH_IN_LITERAL: what the decoder's FINISH answers in YIELD_LITERAL. -/
  finishInLiteral : FinishInLiteral
  deriving DecidableEq, Repr

/-- The defaults the spec states for the open parameters (R9). -/
def Params.default : Params := ⟨true, .more⟩

end Sys2Proof
end

