-- ==== Sys2Proof/Syntax.lean ====
section
/-! DEFINITION. The instructions: one constructor per row of spec/opcode_table.json (R99), the names of
the two state machines' states (R93, R94), a command's operands (R95), and the four shapes in which
an encoded instruction reaches the machine (R80). -/

namespace Sys2Proof

/-- The ten encoder states, in the order of their codes (R93). -/
inductive EncState where
  | notFull
  | filled
  | search
  | yieldTagBit
  | yieldLiteral
  | yieldBrIndex
  | yieldBrLength
  | saveBacklog
  | flushBits
  | done
  deriving DecidableEq, Repr

/-- The seven decoder states, in the order of their codes (R94). -/
inductive DecState where
  | tagBit
  | yieldLiteral
  | backrefIndexMsb
  | backrefIndexLsb
  | backrefCountMsb
  | backrefCountLsb
  | yieldBackref
  deriving DecidableEq, Repr

/-- What the host sends after a command word (R95, R97). A command reads the operands its OP names. -/
structure Operands where
  /-- CFG0, the first operand of CONSTRUCT: W in bits 3:0 and L in bits 7:4 (R97). -/
  cfg0 : Byte
  /-- The second operand of CONSTRUCT. -/
  ibs : Nat
  /-- The third operand of CONSTRUCT. -/
  obs : Nat
  /-- The byte sequence of SINK. -/
  data : List Byte
  deriving DecidableEq, Repr

/-- No operand at all. -/
def Operands.none : Operands := ⟨0, 0, 0, []⟩

/-- The instructions of the codec core, one constructor per row of the opcode map (R99): two wire
tokens, ten encoder steps, seven decoder steps, six commands for each unit. -/
inductive Instr where
  /-- `LIT b`: the wire token of the byte `b` (R82). -/
  | lit (b : Byte)
  /-- `BREF d,n`: the wire token that repeats `n` bytes from distance `d`, both 1-based (R83). -/
  | bref (d n : Nat)
  /-- One step of the encoder in NOT_FULL (R147). -/
  | encStepNotFull
  /-- One step of the encoder in FILLED (R148). -/
  | encStepFilled
  /-- One step of the encoder in SEARCH (R149). -/
  | encStepSearch
  /-- One step of the encoder in YIELD_TAG_BIT (R150). -/
  | encStepYieldTagBit
  /-- One step of the encoder in YIELD_LITERAL (R151). -/
  | encStepYieldLiteral
  /-- One step of the encoder in YIELD_BR_INDEX (R152). -/
  | encStepYieldBrIndex
  /-- One step of the encoder in YIELD_BR_LENGTH (R153). -/
  | encStepYieldBrLength
  /-- One step of the encoder in SAVE_BACKLOG (R154). -/
  | encStepSaveBacklog
  /-- One step of the encoder in FLUSH_BITS (R155). -/
  | encStepFlushBits
  /-- One step of the encoder in DONE (R156). -/
  | encStepDone
  /-- One step of the decoder in TAG_BIT (R187). -/
  | decStepTagBit
  /-- One step of the decoder in YIELD_LITERAL (R188). -/
  | decStepYieldLiteral
  /-- One step of the decoder in BACKREF_INDEX_MSB (R189). -/
  | decStepBackrefIndexMsb
  /-- One step of the decoder in BACKREF_INDEX_LSB (R190). -/
  | decStepBackrefIndexLsb
  /-- One step of the decoder in BACKREF_COUNT_MSB (R191). -/
  | decStepBackrefCountMsb
  /-- One step of the decoder in BACKREF_COUNT_LSB (R192). -/
  | decStepBackrefCountLsb
  /-- One step of the decoder in YIELD_BACKREF (R193). -/
  | decStepYieldBackref
  /-- `ENC.CONSTRUCT`: `w` and `l` are CFG0's two 4-bit fields (R140, R97). -/
  | encConstruct (w l ibs obs : Nat)
  /-- `ENC.RESET` (R141). -/
  | encReset
  /-- `ENC.SINK data` (R142, R143). -/
  | encSink (data : List Byte)
  /-- `ENC.POLL` (R144). -/
  | encPoll
  /-- `ENC.DRAIN` (R146). -/
  | encDrain
  /-- `ENC.FINISH` (R145). -/
  | encFinish
  /-- `DEC.CONSTRUCT`: `w` and `l` are CFG0's two 4-bit fields (R180, R97). -/
  | decConstruct (w l ibs obs : Nat)
  /-- `DEC.RESET` (R181). -/
  | decReset
  /-- `DEC.SINK data` (R182, R183). -/
  | decSink (data : List Byte)
  /-- `DEC.POLL` (R184). -/
  | decPoll
  /-- `DEC.DRAIN` (R186). -/
  | decDrain
  /-- `DEC.FINISH` (R185). -/
  | decFinish
  deriving DecidableEq, Repr

/-- An encoded instruction in one of the three encoding domains of R80: bits of the wire stream
(domain 1), the state code of one of the two units (domain 2), or a command word with its operands
(domain 3). -/
inductive Code where
  /-- Stream bits in transmission order, the token's first bit first (R81). -/
  | token (bits : List Bool)
  /-- The 4-bit value of E.state (R93). -/
  | encState (code : BitVec 4)
  /-- The 3-bit value of D.state (R94). -/
  | decState (code : BitVec 3)
  /-- A command word and its operands (R95). -/
  | command (word : Byte) (ops : Operands)
  deriving DecidableEq, Repr

end Sys2Proof
end

