-- ==== Sys2Proof/WellFormed.lean ====
section
/-! DEFINITION. Which instruction terms have an encoding under a wire layout (R82 to R84, R97). -/

namespace Sys2Proof

/-- A backreference's distance and length fit the layout's fields, each stored minus one (R84): the
distance is from 1 to 2^W and the length from 1 to 2^L. -/
def brefFits (ly : Layout) (d n : Nat) : Bool :=
  decide (1 ≤ d) && decide (d ≤ 2 ^ ly.windowBits) && decide (1 ≤ n) && decide (n ≤ 2 ^ ly.lookaheadBits)

/-- CFG0's fields are four bits each (R97). A value inside four bits and outside the legal range is
well formed: CONSTRUCT answers it with CONFIG_ERROR. -/
def cfg0Fits (w l : Nat) : Bool := decide (w < 16) && decide (l < 16)

/-- The instruction has an encoding under the layout. Every other operand is a whole byte, a byte
sequence or a natural number with no width limit, so nothing else needs a check. -/
def Instr.wellFormed (ly : Layout) : Instr → Bool
  | .lit _ => true
  | .bref d n => brefFits ly d n
  | .encStepNotFull => true
  | .encStepFilled => true
  | .encStepSearch => true
  | .encStepYieldTagBit => true
  | .encStepYieldLiteral => true
  | .encStepYieldBrIndex => true
  | .encStepYieldBrLength => true
  | .encStepSaveBacklog => true
  | .encStepFlushBits => true
  | .encStepDone => true
  | .decStepTagBit => true
  | .decStepYieldLiteral => true
  | .decStepBackrefIndexMsb => true
  | .decStepBackrefIndexLsb => true
  | .decStepBackrefCountMsb => true
  | .decStepBackrefCountLsb => true
  | .decStepYieldBackref => true
  | .encConstruct w l _ _ => cfg0Fits w l
  | .encReset => true
  | .encSink _ => true
  | .encPoll => true
  | .encDrain => true
  | .encFinish => true
  | .decConstruct w l _ _ => cfg0Fits w l
  | .decReset => true
  | .decSink _ => true
  | .decPoll => true
  | .decDrain => true
  | .decFinish => true

end Sys2Proof
end

