-- ==== Sys2Proof/Decode.lean ====
section
/-! DEFINITION. The decoder of the three encoding domains (R80 to R99), total on any input and rejecting
by name, the encoder written from the same tables, and the reading of a bare opcode-table number. -/

namespace Sys2Proof

/-- Why an encoded instruction is rejected. -/
inductive Reject where
  /-- A command word with one of the bits 6:3 set (R98). -/
  | reservedBits
  /-- A command word whose OP is 6 or 7 (R98). -/
  | reservedOp
  /-- A state code that is never written: 10 to 15 for the encoder, 7 for the decoder (R93, R94). -/
  | unusedStateCode
  /-- Stream bits that end before the token they begin (R88, R89). -/
  | incompleteToken
  deriving DecidableEq, Repr

/-! ### Bit sequences, most significant bit first (R13) -/

/-- The `n` low bits of `v` as a bit sequence, bit n - 1 first (R13). -/
def bitsOf : Nat → Nat → List Bool
  | 0, _ => []
  | n + 1, v => v.testBit n :: bitsOf n v

/-- A byte's eight bits in stream order, bit 7 first (R13). -/
def byteBits (b : Byte) : List Bool := bitsOf 8 b.toNat

/-- The number a bit sequence spells, its first bit the most significant, after `acc`. -/
def numberFrom (acc : Nat) : List Bool → Nat
  | [] => acc
  | b :: rest => numberFrom (2 * acc + b.toNat) rest

/-- Takes an `n`-bit field off the front of a bit sequence, most significant bit first. -/
def takeField (n : Nat) (bits : List Bool) : Except Reject (Nat × List Bool) :=
  if n ≤ bits.length then .ok (numberFrom 0 (bits.take n), bits.drop n) else .error .incompleteToken

/-! ### Domain 1: wire tokens (R81 to R84) -/

/-- The nine bits of a literal token: the tag 1, then the byte (R82). -/
def litBits (b : Byte) : List Bool := true :: byteBits b

/-- The 1 + W + L bits of a backreference token: the tag 0, then the distance and the length, each
minus one (R83). -/
def brefBits (ly : Layout) (d n : Nat) : List Bool :=
  false :: (bitsOf ly.windowBits (d - 1) ++ bitsOf ly.lookaheadBits (n - 1))

/-- Reads the token a bit sequence begins with and answers it with the bits after it. Its first bit
fixes its length (R86): 1 begins a 9-bit literal, 0 a backreference of 1 + W + L bits. -/
def decodeToken (ly : Layout) : List Bool → Except Reject (Instr × List Bool)
  | [] => .error .incompleteToken
  | true :: rest => do
    let (v, rest) ← takeField 8 rest
    return (.lit (BitVec.ofNat 8 v), rest)
  | false :: rest => do
    let (d, rest) ← takeField ly.windowBits rest
    let (n, rest) ← takeField ly.lookaheadBits rest
    return (.bref (d + 1) (n + 1), rest)

/-! ### Domain 2: state codes (R93, R94) -/

/-- The code of an encoder state (R93). -/
def EncState.code : EncState → BitVec 4
  | .notFull => 0
  | .filled => 1
  | .search => 2
  | .yieldTagBit => 3
  | .yieldLiteral => 4
  | .yieldBrIndex => 5
  | .yieldBrLength => 6
  | .saveBacklog => 7
  | .flushBits => 8
  | .done => 9

/-- The encoder state of a code; 10 to 15 are never written (R93). -/
def encStateOf (code : BitVec 4) : Option EncState :=
  match code.toNat with
  | 0 => some .notFull
  | 1 => some .filled
  | 2 => some .search
  | 3 => some .yieldTagBit
  | 4 => some .yieldLiteral
  | 5 => some .yieldBrIndex
  | 6 => some .yieldBrLength
  | 7 => some .saveBacklog
  | 8 => some .flushBits
  | 9 => some .done
  | _ => none

/-- The code of a decoder state (R94). -/
def DecState.code : DecState → BitVec 3
  | .tagBit => 0
  | .yieldLiteral => 1
  | .backrefIndexMsb => 2
  | .backrefIndexLsb => 3
  | .backrefCountMsb => 4
  | .backrefCountLsb => 5
  | .yieldBackref => 6

/-- The decoder state of a code; 7 is never written (R94). -/
def decStateOf (code : BitVec 3) : Option DecState :=
  match code.toNat with
  | 0 => some .tagBit
  | 1 => some .yieldLiteral
  | 2 => some .backrefIndexMsb
  | 3 => some .backrefIndexLsb
  | 4 => some .backrefCountMsb
  | 5 => some .backrefCountLsb
  | 6 => some .yieldBackref
  | _ => none

/-- The step instruction an encoder state selects (R99). -/
def EncState.instr : EncState → Instr
  | .notFull => .encStepNotFull
  | .filled => .encStepFilled
  | .search => .encStepSearch
  | .yieldTagBit => .encStepYieldTagBit
  | .yieldLiteral => .encStepYieldLiteral
  | .yieldBrIndex => .encStepYieldBrIndex
  | .yieldBrLength => .encStepYieldBrLength
  | .saveBacklog => .encStepSaveBacklog
  | .flushBits => .encStepFlushBits
  | .done => .encStepDone

/-- The step instruction a decoder state selects (R99). -/
def DecState.instr : DecState → Instr
  | .tagBit => .decStepTagBit
  | .yieldLiteral => .decStepYieldLiteral
  | .backrefIndexMsb => .decStepBackrefIndexMsb
  | .backrefIndexLsb => .decStepBackrefIndexLsb
  | .backrefCountMsb => .decStepBackrefCountMsb
  | .backrefCountLsb => .decStepBackrefCountLsb
  | .yieldBackref => .decStepYieldBackref

/-- The step instruction of an encoder state code. -/
def decodeEncState (code : BitVec 4) : Except Reject Instr :=
  match encStateOf code with
  | some q => .ok q.instr
  | none => .error .unusedStateCode

/-- The step instruction of a decoder state code. -/
def decodeDecState (code : BitVec 3) : Except Reject Instr :=
  match decStateOf code with
  | some q => .ok q.instr
  | none => .error .unusedStateCode

/-! ### Domain 3: command words (R95 to R98) -/

/-- Bit 7 of a command word, U: true for the decoder (R95). -/
def commandUnit (word : Byte) : Bool := word.getLsbD 7

/-- Bits 6:3 of a command word, which must be 0 (R95). -/
def commandReserved (word : Byte) : Nat := word.toNat / 8 % 16

/-- Bits 2:0 of a command word, OP (R95). -/
def commandOp (word : Byte) : Nat := word.toNat % 8

/-- CFG0's bits 3:0, W (R97). -/
def cfg0Window (cfg0 : Byte) : Nat := cfg0.toNat % 16

/-- CFG0's bits 7:4, L (R97). -/
def cfg0Lookahead (cfg0 : Byte) : Nat := cfg0.toNat / 16

/-- The six commands of the encoder, by OP (R95). -/
def decodeEncOp (op : Nat) (ops : Operands) : Except Reject Instr :=
  match op with
  | 0 => .ok (.encConstruct (cfg0Window ops.cfg0) (cfg0Lookahead ops.cfg0) ops.ibs ops.obs)
  | 1 => .ok .encReset
  | 2 => .ok (.encSink ops.data)
  | 3 => .ok .encPoll
  | 4 => .ok .encDrain
  | 5 => .ok .encFinish
  | _ => .error .reservedOp

/-- The six commands of the decoder, by OP (R95). -/
def decodeDecOp (op : Nat) (ops : Operands) : Except Reject Instr :=
  match op with
  | 0 => .ok (.decConstruct (cfg0Window ops.cfg0) (cfg0Lookahead ops.cfg0) ops.ibs ops.obs)
  | 1 => .ok .decReset
  | 2 => .ok (.decSink ops.data)
  | 3 => .ok .decPoll
  | 4 => .ok .decDrain
  | 5 => .ok .decFinish
  | _ => .error .reservedOp

/-- Reads a command word with its operands (R95). A word with a reserved bit set or a reserved OP is
malformed (R98). -/
def decodeCommand (word : Byte) (ops : Operands) : Except Reject Instr :=
  if commandReserved word ≠ 0 then .error .reservedBits
  else if commandUnit word then decodeDecOp (commandOp word) ops
  else decodeEncOp (commandOp word) ops

/-! ### All domains -/

/-- The instruction an encoded instruction stands for. Of stream bits it is the token they begin
with. -/
def decode (ly : Layout) : Code → Except Reject Instr
  | .token bits => (decodeToken ly bits).map Prod.fst
  | .encState code => decodeEncState code
  | .decState code => decodeDecState code
  | .command word ops => decodeCommand word ops

/-- CFG0 with the given fields (R97). -/
def cfg0Of (w l : Nat) : Byte := BitVec.ofNat 8 (16 * l + w)

/-- A command word with no operand. -/
def bareCommand (word : Byte) : Code := .command word Operands.none

/-- The encoding of an instruction under a wire layout, from the tables of R82, R83, R93 to R95 and
R97. -/
def encode (ly : Layout) : Instr → Code
  | .lit b => .token (litBits b)
  | .bref d n => .token (brefBits ly d n)
  | .encStepNotFull => .encState EncState.notFull.code
  | .encStepFilled => .encState EncState.filled.code
  | .encStepSearch => .encState EncState.search.code
  | .encStepYieldTagBit => .encState EncState.yieldTagBit.code
  | .encStepYieldLiteral => .encState EncState.yieldLiteral.code
  | .encStepYieldBrIndex => .encState EncState.yieldBrIndex.code
  | .encStepYieldBrLength => .encState EncState.yieldBrLength.code
  | .encStepSaveBacklog => .encState EncState.saveBacklog.code
  | .encStepFlushBits => .encState EncState.flushBits.code
  | .encStepDone => .encState EncState.done.code
  | .decStepTagBit => .decState DecState.tagBit.code
  | .decStepYieldLiteral => .decState DecState.yieldLiteral.code
  | .decStepBackrefIndexMsb => .decState DecState.backrefIndexMsb.code
  | .decStepBackrefIndexLsb => .decState DecState.backrefIndexLsb.code
  | .decStepBackrefCountMsb => .decState DecState.backrefCountMsb.code
  | .decStepBackrefCountLsb => .decState DecState.backrefCountLsb.code
  | .decStepYieldBackref => .decState DecState.yieldBackref.code
  | .encConstruct w l ibs obs => .command 0x00 ⟨cfg0Of w l, ibs, obs, []⟩
  | .encReset => bareCommand 0x01
  | .encSink data => .command 0x02 ⟨0, 0, 0, data⟩
  | .encPoll => bareCommand 0x03
  | .encDrain => bareCommand 0x04
  | .encFinish => bareCommand 0x05
  | .decConstruct w l ibs obs => .command 0x80 ⟨cfg0Of w l, ibs, obs, []⟩
  | .decReset => bareCommand 0x81
  | .decSink data => .command 0x82 ⟨0, 0, 0, data⟩
  | .decPoll => bareCommand 0x83
  | .decDrain => bareCommand 0x84
  | .decFinish => bareCommand 0x85

/-! ### A bare number of the opcode table

The five groups of R99 number their rows independently, so one number can stand in several groups.
The width says which group is meant where it can: 1 bit and 9 bits or more are a wire token, 3 bits a
decoder state code, 4 bits an encoder state code, anything else an 8-bit command word. An 8-bit
number that is no command word and is an encoder state code is read as that code. DESIGN CHOICE, log
entry 13, safe. -/

/-- Bits 0, 1, 2, ... of a table number, and zeros after them up to the longest token (30 bits). -/
def tableBits (nbits w : Nat) : List Bool :=
  (List.range nbits).map w.testBit ++ List.replicate 30 false

/-- The encoded instruction a number of the opcode table stands for, every bit above it 0. -/
def tableCode (nbits w : Nat) : Code :=
  if nbits = 1 ∨ 9 ≤ nbits then .token (tableBits nbits w)
  else if nbits = 3 then .decState (BitVec.ofNat 3 w)
  else if nbits = 4 then .encState (BitVec.ofNat 4 w)
  else match decodeCommand (BitVec.ofNat 8 w) Operands.none with
    | .ok _ => bareCommand (BitVec.ofNat 8 w)
    | .error _ => if w < 10 then .encState (BitVec.ofNat 4 w) else bareCommand (BitVec.ofNat 8 w)

/-- The instruction the decoder reads from a number of the opcode table. -/
def decodeTableWord (nbits w : Nat) : Option Instr :=
  match decode Layout.smallest (tableCode nbits w) with
  | .ok i => some i
  | .error _ => none

end Sys2Proof
end

