-- ==== Sys2Proof/Machine/State.lean ====
section
/-! DEFINITION. The state of the machine as plain data: an encoder port and a decoder port with every
register and memory the spec gives their instances (R20 to R28), the open parameters (R9), and the
host's side of the ports: the requests it has placed and the responses it has been given. -/

namespace Sys2Proof.Machine

/-- A byte memory: the (index, byte) pairs that do not read as the cleared byte 0, indexes strictly
rising. An index not listed reads as 0, the reset value of every byte memory (R35). -/
abbrev Memory := List Host.Cell

/-- E.INDEX: the (index, entry) pairs that do not read as -1, indexes strictly rising. An index not
listed reads as -1, the "none" sentinel and the reset value of every entry (R25, R126). -/
abbrev IndexTable := List (Nat × Int)

/-- The registers and memories of an encoder instance (R22, R24, R25). Registers other than bytes are
exact natural numbers (R10). -/
structure Encoder where
  /-- CFG (R22). -/
  cfg : Cfg
  /-- E.state. -/
  state : EncState
  /-- E.inputSize: bytes in the batch region of E.HBUF. -/
  inputSize : Nat
  /-- E.msi: batch offset of the next byte not yet encoded. -/
  msi : Nat
  /-- E.finishing, the block's one flag (R30). -/
  finishing : Bool
  /-- E.matchLen: length of the pending backreference, 0 for a literal. -/
  matchLen : Nat
  /-- E.matchDist: distance of the pending backreference. -/
  matchDist : Nat
  /-- E.acc: the partial output byte. -/
  acc : Byte
  /-- E.wbits: bits already placed in E.acc, from bit 7 down. -/
  wbits : Nat
  /-- E.outBits: the field being emitted. -/
  outBits : Nat
  /-- E.outCount: low bits of E.outBits not yet emitted. -/
  outCount : Nat
  /-- E.histFill: real input bytes in the history region, counted from its top. -/
  histFill : Nat
  /-- E.outSize: bytes in E.OUT. -/
  outSize : Nat
  /-- E.HBUF: history at [0, H), batch at [H, H + B). -/
  hbuf : Memory
  /-- E.INDEX: the MatchIndex. -/
  index : IndexTable
  /-- E.OUT: the output buffer. -/
  out : Memory
  deriving DecidableEq, Repr

/-- The registers and memories of a decoder instance (R22, R27, R28). -/
structure Decoder where
  /-- CFG (R22). -/
  cfg : Cfg
  /-- D.state. -/
  state : DecState
  /-- D.inSize: the input buffer's write cursor. -/
  inSize : Nat
  /-- D.inHead: the input buffer's read cursor. -/
  inHead : Nat
  /-- D.curByte: the input byte being taken apart. -/
  curByte : Byte
  /-- D.rbits: bits of D.curByte not yet read. -/
  rbits : Nat
  /-- D.offset: the backreference distance. -/
  offset : Nat
  /-- D.count: backreference bytes still to copy. -/
  count : Nat
  /-- D.head: the window's monotonically increasing cursor. -/
  head : Nat
  /-- D.outSize: bytes in D.OUT. -/
  outSize : Nat
  /-- D.IN: the input buffer. -/
  inp : Memory
  /-- D.WIN: the circular window. -/
  win : Memory
  /-- D.OUT: the output buffer. -/
  out : Memory
  deriving DecidableEq, Repr

/-- The command port a request goes to and a response comes from: one for the encoder instance, one
for the decoder instance (R95). -/
inductive Port where
  | encoder
  | decoder
  deriving DecidableEq, Repr

/-- What a command is answered with (R96). The status code ILLEGAL has no constructor: the model
refuses a malformed command (R239). -/
inductive Result where
  /-- OK of CONSTRUCT and RESET. -/
  | ok
  /-- CONFIG_ERROR. -/
  | configError
  /-- OK of SINK with the accepted count. -/
  | accepted (n : Nat)
  /-- FULL with the count 0 (decoder SINK). -/
  | full
  /-- MISUSE with the count 0 (encoder SINK). -/
  | misuse
  /-- POLL_EMPTY. -/
  | pollEmpty
  /-- POLL_MORE. -/
  | pollMore
  /-- OK of DRAIN with the bytes taken. -/
  | drained (bytes : List Byte)
  /-- DONE of FINISH. -/
  | done
  /-- MORE of FINISH. -/
  | more
  deriving DecidableEq, Repr

/-- One response at a port. -/
structure Response where
  port : Port
  result : Result
  deriving DecidableEq, Repr

/-- One thing for the machine to do. The core's host places commands only (R95). The other three are
the model's own: they fetch one handler step of a unit or one wire token by itself, which the core
does inside a POLL (R29, R81). DESIGN CHOICE, log entry 2, safe. -/
inductive Request where
  /-- A command at a port: the word and the operands after it. -/
  | command (word : Byte) (ops : Operands)
  /-- The encoder handler that E.state selects. -/
  | encStep
  /-- The decoder handler that D.state selects. -/
  | decStep
  /-- The wire token at the decoder's read position. -/
  | token
  deriving DecidableEq, Repr

/-- The whole machine. DESIGN CHOICE: one port for each unit, log entry 1, safe. -/
structure State where
  /-- The open parameters of the spec (R9). DESIGN CHOICE to hold them here, log entry 8, safe. -/
  params : Params
  /-- The encoder instance; `none` when the port holds no instance (R20, R98). -/
  enc : Option Encoder
  /-- The decoder instance; `none` when the port holds no instance (R20, R98). -/
  dec : Option Decoder
  /-- Requests not yet run, the next one first. -/
  requests : List Request
  /-- Responses given so far, the first one first (R66, R71). DESIGN CHOICE, log entry 14, safe. -/
  responses : List Response
  deriving DecidableEq, Repr

/-- Why the machine stops with a fault. No rule of the spec leads to one: each is an event the spec
says cannot occur, met only from a register or memory content that no command leaves behind. Every
one is safe: the model stops where the spec gives no behaviour. -/
inductive Fault where
  /-- A memory access outside the memory's index range. Raised by every memory read and write; R60
  says that it cannot occur. Safe. -/
  | indexOutOfRange
  /-- A difference of two registers that would be negative. Raised by every subtraction whose result
  is a register or an index; R10 says every value stays inside its range. Safe. -/
  | negativeDifference
  /-- getBits asked for no bits or for more than 15. Raised by the BitReader; R106 says that no rule
  issues it. Safe. -/
  | bitCountOutOfRange
  /-- A loop of the spec ran past the bound the spec gives it. Raised by the chain walk of the match
  search (R128), by POLL (R160, R199) and by the host procedures (R213, R214). Safe. -/
  | loopBoundExceeded
  deriving DecidableEq, Repr

/-- Why the machine gives a request no meaning. -/
inductive Refusal where
  /-- The instruction has no meaning in the model yet. Raised by exec's own arms only. Safe. -/
  | notModelled (mnemonic : String)
  /-- A malformed command word, the ILLEGAL that R98, R223 and R239 have a model refuse. Raised by step.
  The reasons incompleteToken and unusedStateCode never get here: a token request on bits that end too
  early stalls (stallInToken), and a state register holds no unused code. Safe. -/
  | illegal (why : Reject)
  /-- No instance has been constructed on the port: ILLEGAL by R98 for every command but CONSTRUCT,
  and no register to select a step or a token by. Raised by every such meaning. Safe. -/
  | noInstance
  /-- A handler step of a state the unit is not in: R99 selects a step row by the state register.
  Raised by the meanings of the seventeen step instructions; step never leads to it. Safe. -/
  | stepNotSelected
  /-- A wire token while the decoder is in the middle of one: only TAG_BIT begins a token (R187).
  Raised by the meanings of the two tokens and by stallInToken; log entry 5. Safe. -/
  | tokenNotExpected
  /-- A backreference whose distance or length the decoder's fields cannot hold (R84). Raised by the
  meaning of BREF; step never leads to it. Safe. -/
  | tokenNotEncodable
  deriving DecidableEq, Repr

/-- The machine before any command: the open parameters at their defaults, no instance on either
port (R240), nothing asked and nothing answered. An instance's own reset state, the reset column of
R24, R25, R27 and R28, is what CONSTRUCT and RESET put in it. -/
def State.reset : State :=
  { params := Params.default, enc := none, dec := none, requests := [], responses := [] }

end Sys2Proof.Machine
end

