-- ==== Sys2Proof/Machine/Ops.lean ====
section
/-! DEFINITION. The named operations over memories and registers: canonical cells, range-checked
accesses, exact subtraction, the IOBuffer, BitReader and BitWriter primitives of 40_bitio.md, the
reset states, and the ways an instruction reaches an instance and answers at a port. The core takes
no exception and has no trap (R220, R229), so there is no operation that takes one. -/

namespace Sys2Proof.Machine

/-! ### Cells: a memory in canonical form -/

/-- Reads an index; one not listed reads as `dflt`. -/
def Cells.read {α : Type} (dflt : α) : List (Nat × α) → Nat → α
  | [], _ => dflt
  | (k, v) :: rest, i => if k = i then v else Cells.read dflt rest i

/-- Writes an index and keeps the form canonical: rising indexes, no entry equal to `dflt`. -/
def Cells.write {α : Type} [DecidableEq α] (dflt : α) :
    List (Nat × α) → Nat → α → List (Nat × α)
  | [], i, v => if v = dflt then [] else [(i, v)]
  | (k, w) :: rest, i, v =>
    if k < i then (k, w) :: Cells.write dflt rest i v
    else if k = i then (if v = dflt then rest else (i, v) :: rest)
    else if v = dflt then (k, w) :: rest else (i, v) :: (k, w) :: rest

/-- The canonical form: indexes strictly rising and no entry equal to `dflt`. -/
def Cells.wf {α : Type} [DecidableEq α] (dflt : α) : List (Nat × α) → Bool
  | [] => true
  | (k, v) :: rest => decide (v ≠ dflt) && rest.all (fun c => decide (k < c.1)) && Cells.wf dflt rest

/-- Every listed index lies below `n`. -/
def Cells.below {α : Type} (n : Nat) (cells : List (Nat × α)) : Bool :=
  cells.all fun c => decide (c.1 < n)

/-- A byte memory is in canonical form. -/
def Memory.wf (m : Memory) : Bool := Cells.wf 0#8 m

/-! ### Accesses and arithmetic that answer or fault -/

/-- What an operation answers: its result, or the fault that stops the machine. -/
abbrev Res (α : Type) := Except Fault α

/-- Reads an index of a memory of `size` entries (R60). -/
def readAt {α : Type} (dflt : α) (size : Nat) (cells : List (Nat × α)) (i : Nat) : Res α :=
  if i < size then .ok (Cells.read dflt cells i) else .error .indexOutOfRange

/-- Writes an index of a memory of `size` entries (R60). -/
def writeAt {α : Type} [DecidableEq α] (dflt : α) (size : Nat) (cells : List (Nat × α)) (i : Nat)
    (v : α) : Res (List (Nat × α)) :=
  if i < size then .ok (Cells.write dflt cells i v) else .error .indexOutOfRange

/-- Reads a byte of a memory of `size` bytes. -/
def readByteAt (size : Nat) (m : Memory) (i : Nat) : Res Byte := readAt 0#8 size m i

/-- Writes a byte of a memory of `size` bytes. -/
def writeByteAt (size : Nat) (m : Memory) (i : Nat) (v : Byte) : Res Memory := writeAt 0#8 size m i v

/-- `a - b` as an exact difference that stays a natural number (R10). -/
def minus (a b : Nat) : Res Nat := if b ≤ a then .ok (a - b) else .error .negativeDifference

/-- Writes bytes at rising indexes from `i` on. -/
def writeRun (size : Nat) (m : Memory) (i : Nat) : List Byte → Res Memory
  | [] => .ok m
  | b :: rest => do writeRun size (← writeByteAt size m i b) (i + 1) rest

/-- Reads `n` bytes at rising indexes from `i` on. -/
def readRun (size : Nat) (m : Memory) (i : Nat) : Nat → Res (List Byte)
  | 0 => .ok []
  | n + 1 => do
    let b ← readByteAt size m i
    let rest ← readRun size m (i + 1) n
    return b :: rest

/-! ### Reset states (R35, R141, R181) -/

/-- An encoder instance in its reset state under a configuration: the reset column of R24 and R25. -/
def Encoder.initial (cfg : Cfg) : Encoder :=
  { cfg := cfg, state := .notFull, inputSize := 0, msi := 0, finishing := false, matchLen := 0,
    matchDist := 0, acc := 0, wbits := 0, outBits := 0, outCount := 0, histFill := 0, outSize := 0,
    hbuf := [], index := [], out := [] }

/-- A decoder instance in its reset state under a configuration: the reset column of R27 and R28. -/
def Decoder.initial (cfg : Cfg) : Decoder :=
  { cfg := cfg, state := .tagBit, inSize := 0, inHead := 0, curByte := 0, rbits := 0, offset := 0,
    count := 0, head := 0, outSize := 0, inp := [], win := [], out := [] }

/-! ### IOBuffers (R100 to R104, R112, R113) -/

/-- `room(E.OUT)` (R100). -/
abbrev Encoder.room (e : Encoder) : Prop := e.outSize < e.cfg.obs

/-- `room(D.OUT)` (R100). -/
abbrev Decoder.room (d : Decoder) : Prop := d.outSize < d.cfg.obs

/-- Reads a byte of E.HBUF. -/
def Encoder.hbufAt (e : Encoder) (i : Nat) : Res Byte := readByteAt e.cfg.hbufSize e.hbuf i

/-- `append(D.IN, data)` (R101): takes as many bytes as fit and answers how many. -/
def Decoder.append (data : List Byte) (d : Decoder) : Res (Nat × Decoder) := do
  let space ← minus d.cfg.ibs d.inSize
  let taken := data.take space
  let inp ← writeRun d.cfg.ibs d.inp d.inSize taken
  return (taken.length, { d with inp := inp, inSize := d.inSize + taken.length })

/-- `resetIfDrained()` (R103): both input cursors return to 0 when the read cursor reaches the write
cursor. -/
def Decoder.resetIfDrained (d : Decoder) : Decoder :=
  if d.inHead = d.inSize then { d with inHead := 0, inSize := 0 } else d

/-- `readByte(D.IN)` (R102). -/
def Decoder.readByte (d : Decoder) : Res (Byte × Decoder) := do
  let v ← readByteAt d.cfg.ibs d.inp d.inHead
  return (v, Decoder.resetIfDrained { d with inHead := d.inHead + 1 })

/-- `emitByte(D.OUT, c)` (R112). -/
def Decoder.emitByte (c : Byte) (d : Decoder) : Res Decoder := do
  let out ← writeByteAt d.cfg.obs d.out d.outSize c
  return { d with out := out, outSize := d.outSize + 1 }

/-- `takeAll(E.OUT)` (R113): the bytes stay in place and the cursor returns to 0. -/
def Encoder.takeAll (e : Encoder) : Res (List Byte × Encoder) := do
  let bytes ← readRun e.cfg.obs e.out 0 e.outSize
  return (bytes, { e with outSize := 0 })

/-- `takeAll(D.OUT)` (R113). -/
def Decoder.takeAll (d : Decoder) : Res (List Byte × Decoder) := do
  let bytes ← readRun d.cfg.obs d.out 0 d.outSize
  return (bytes, { d with outSize := 0 })

/-! ### BitReader (R105, R106) -/

/-- D.inSize - D.inHead: the whole input bytes not yet loaded into the BitReader. -/
def Decoder.buffered (d : Decoder) : Res Nat := minus d.inSize d.inHead

/-- Loads the next input byte when no bit of D.curByte is left (R105). -/
def Decoder.refill (d : Decoder) : Res Decoder :=
  if d.rbits = 0 then do
    let (v, d) ← Decoder.readByte d
    return { d with curByte := v, rbits := 8 }
  else .ok d

/-- Takes one bit, with a refill first when it is needed (the body of R105's loop). -/
def Decoder.takeBit (d : Decoder) : Res (Bool × Decoder) := do
  let d ← Decoder.refill d
  return (d.curByte.getLsbD (d.rbits - 1), { d with rbits := d.rbits - 1 })

/-- Takes `n` bits, most significant first, after the number `acc` (R105's loop). -/
def Decoder.takeBits : Nat → Nat → Decoder → Res (Nat × Decoder)
  | 0, acc, d => .ok (acc, d)
  | n + 1, acc, d => do
    let (b, d) ← Decoder.takeBit d
    Decoder.takeBits n (2 * acc + b.toNat) d

/-- `getBits(n)` (R105): all `n` bits as a number, or the separate result `none`, the spec's NONE,
with nothing changed. -/
def Decoder.getBits (n : Nat) (d : Decoder) : Res (Option (Nat × Decoder)) :=
  if n = 0 ∨ 15 < n then .error .bitCountOutOfRange
  else do
    let whole ← Decoder.buffered d
    if d.rbits + 8 * whole < n then return none
    else return some (← Decoder.takeBits n 0 d)

/-- Reads an `n`-bit field and goes on with its value, or stalls with nothing changed. -/
def Decoder.readField (n : Nat) (use : Nat → Decoder → Res Decoder) (d : Decoder) : Res Decoder := do
  match ← Decoder.getBits n d with
  | none => return d
  | some (v, d') => use v d'

/-! ### BitWriter (R107, R108, R110, R111) -/

/-- Writes the byte E.acc to E.OUT and clears the accumulator (R108, R110). -/
def Encoder.pushByte (acc : Byte) (e : Encoder) : Res Encoder := do
  let out ← writeByteAt e.cfg.obs e.out e.outSize acc
  return { e with out := out, outSize := e.outSize + 1, acc := 0, wbits := 0 }

/-- Writes one bit, and the whole byte when it is the eighth (the body of R108's loop). -/
def Encoder.pushBit (b : Bool) (e : Encoder) : Res Encoder := do
  let place ← minus 7 e.wbits
  let acc := if b then e.acc ||| (1#8 <<< place) else e.acc
  if e.wbits + 1 = 8 then Encoder.pushByte acc e
  else return { e with acc := acc, wbits := e.wbits + 1 }

/-- `pushBits(count, bits)` (R108): the low `count` bits of `bits`, most significant first. -/
def Encoder.pushBits : Nat → Nat → Encoder → Res Encoder
  | 0, _, e => .ok e
  | count + 1, bits, e => do Encoder.pushBits count bits (← Encoder.pushBit (bits.testBit count) e)

/-- `flushBits()` (R110). -/
def Encoder.flushBits (e : Encoder) : Res Encoder :=
  if 0 < e.wbits then Encoder.pushByte e.acc e else .ok e

/-- How many bits the next push of the outgoing field takes: at most 8 (R111). -/
def Encoder.outgoingCount (e : Encoder) : Nat := if 8 < e.outCount then 8 else e.outCount

/-- The value of the next push of the outgoing field (R111). -/
def Encoder.outgoingValue (e : Encoder) : Nat :=
  if 8 < e.outCount then (e.outBits >>> (e.outCount - 8)) % 256 else e.outBits % 2 ^ e.outCount

/-- `pushOutgoing()` (R111): emits up to 8 bits of the outgoing field and answers how many. -/
def Encoder.pushOutgoing (e : Encoder) : Res (Nat × Encoder) :=
  if 0 < Encoder.outgoingCount e then do
    let e' ← Encoder.pushBits (Encoder.outgoingCount e) (Encoder.outgoingValue e) e
    return (Encoder.outgoingCount e, { e' with outCount := e'.outCount - Encoder.outgoingCount e })
  else .ok (0, e)

/-! ### Responses and instances -/

/-- The 2-bit status code of a result (R96). -/
def Result.status : Result → BitVec 2
  | .ok => 0
  | .configError => 1
  | .accepted _ => 0
  | .full => 1
  | .misuse => 2
  | .pollEmpty => 0
  | .pollMore => 1
  | .drained _ => 0
  | .done => 0
  | .more => 1

/-- Gives a response at a port. -/
def State.respond (port : Port) (r : Result) (s : State) : State :=
  { s with responses := s.responses ++ [⟨port, r⟩] }

/-- Puts an encoder instance on the encoder port, or takes the port's instance away. -/
def State.setEnc (e : Option Encoder) (s : State) : State := { s with enc := e }

/-- Puts a decoder instance on the decoder port, or takes the port's instance away. -/
def State.setDec (d : Option Decoder) (s : State) : State := { s with dec := d }

/-- Runs a command on the encoder port's instance and responds. Without an instance the command is
malformed (R98). -/
def encCommand (f : Params → Encoder → Res (Encoder × Result)) (s : State) :
    Host.Outcome State Fault Refusal :=
  match s.enc with
  | none => .refused .noInstance
  | some e =>
    match f s.params e with
    | .ok (e', r) => .next ((s.setEnc (some e')).respond .encoder r)
    | .error x => .fault x

/-- Runs a command on the decoder port's instance and responds. Without an instance the command is
malformed (R98). -/
def decCommand (f : Params → Decoder → Res (Decoder × Result)) (s : State) :
    Host.Outcome State Fault Refusal :=
  match s.dec with
  | none => .refused .noInstance
  | some d =>
    match f s.params d with
    | .ok (d', r) => .next ((s.setDec (some d')).respond .decoder r)
    | .error x => .fault x

/-- Runs the encoder handler of the state `q`, which E.state must select (R99). DESIGN CHOICE: refused
otherwise, log entry 5, safe. -/
def encStep (q : EncState) (f : Params → Encoder → Res Encoder) (s : State) :
    Host.Outcome State Fault Refusal :=
  match s.enc with
  | none => .refused .noInstance
  | some e =>
    if e.state = q then
      match f s.params e with
      | .ok e' => .next (s.setEnc (some e'))
      | .error x => .fault x
    else .refused .stepNotSelected

/-- Runs the decoder handler of the state `q`, which D.state must select (R99). DESIGN CHOICE: refused
otherwise, log entry 5, safe. -/
def decStep (q : DecState) (f : Decoder → Res Decoder) (s : State) :
    Host.Outcome State Fault Refusal :=
  match s.dec with
  | none => .refused .noInstance
  | some d =>
    if d.state = q then
      match f d with
      | .ok d' => .next (s.setDec (some d'))
      | .error x => .fault x
    else .refused .stepNotSelected

/-- Runs a wire token on the decoder, which must be at the beginning of a token (R187). DESIGN CHOICE,
log entry 5, safe. -/
def onToken (f : Decoder → Res Decoder) (s : State) : Host.Outcome State Fault Refusal :=
  match s.dec with
  | none => .refused .noInstance
  | some d =>
    if d.state = .tagBit then
      match f d with
      | .ok d' => .next (s.setDec (some d'))
      | .error x => .fault x
    else .refused .tokenNotExpected

end Sys2Proof.Machine
end

