-- ==== Sys2Proof/Machine/Operands.lean ====
section
/-! DEFINITION. The operand form that has a meaning of its own: CONSTRUCT's configuration operands with
the check of their bounds (R97, R140, R180). SINK's byte sequence is taken as it is, by the buffer
primitives (R101, R142), and no other command has an operand (R95). -/

namespace Sys2Proof.Machine

/-- The bounds an encoder's CONSTRUCT checks, all together (R140). -/
abbrev legalEncoder (c : Cfg) : Prop :=
  4 ≤ c.windowBits ∧ c.windowBits ≤ 15 ∧ 3 ≤ c.lookaheadBits ∧ c.lookaheadBits + 1 ≤ c.windowBits ∧
    2 ^ c.lookaheadBits ≤ c.ibs ∧ 1 ≤ c.obs

/-- The bounds a decoder's CONSTRUCT checks, all together (R180). -/
abbrev legalDecoder (c : Cfg) : Prop :=
  4 ≤ c.windowBits ∧ c.windowBits ≤ 15 ∧ 3 ≤ c.lookaheadBits ∧ c.lookaheadBits + 1 ≤ c.windowBits ∧
    1 ≤ c.ibs ∧ 1 ≤ c.obs

/-- The configuration an encoder's CONSTRUCT operands ask for, or none when a bound fails (R140). -/
def encoderCfg (w l ibs obs : Nat) : Option Cfg :=
  if legalEncoder ⟨w, l, ibs, obs⟩ then some ⟨w, l, ibs, obs⟩ else none

/-- The configuration a decoder's CONSTRUCT operands ask for, or none when a bound fails (R180). -/
def decoderCfg (w l ibs obs : Nat) : Option Cfg :=
  if legalDecoder ⟨w, l, ibs, obs⟩ then some ⟨w, l, ibs, obs⟩ else none

end Sys2Proof.Machine
end

