-- ==== Sys2Proof/Machine/Flags.lean ====
section
/-! DEFINITION. The block's one flag, E.finishing (R30): who sets it, and everything that is decided
from it. -/

namespace Sys2Proof.Machine

/-- FINISH sets E.finishing, and the batch counts as filled when the encoder waits for input (R145). -/
def Encoder.setFinishing (e : Encoder) : Encoder :=
  { e with finishing := true, state := if e.state = .notFull then .filled else e.state }

/-- SINK is accepted only in NOT_FULL and before FINISH (R142, R143). -/
abbrev Encoder.accepting (e : Encoder) : Prop := e.finishing = false ∧ e.state = .notFull

/-- The bytes SEARCH needs before it goes on: one when finishing, else a whole lookahead (R149). -/
def Encoder.needed (e : Encoder) : Nat := if e.finishing then 1 else e.cfg.lookahead

/-- Where SEARCH goes when the batch is consumed (R149). -/
def Encoder.afterBatch (e : Encoder) : EncState := if e.finishing then .flushBits else .saveBacklog

end Sys2Proof.Machine
end

