-- ==== Sys2Proof/Machine/History.lean ====
section
/-! DEFINITION. The two history structures of 41_window_index.md: the decoder's WindowBuffer, and the
encoder's MatchIndex with the longest-match search. -/

namespace Sys2Proof.Machine

/-! ### WindowBuffer (R120 to R122) -/

/-- The window index `back` positions before the head, reduced modulo H (R120, R122). -/
def Decoder.windowSlot (back : Nat) (d : Decoder) : Nat :=
  (((d.head : Int) - (back : Int)) % (d.cfg.window : Int)).toNat

/-- `windowPush(c)` (R121). -/
def Decoder.windowPush (c : Byte) (d : Decoder) : Res Decoder := do
  let win ← writeByteAt d.cfg.window d.win (Decoder.windowSlot 0 d) c
  return { d with win := win, head := d.head + 1 }

/-- `windowCopy(offset)` (R122): the read comes before the write. -/
def Decoder.windowCopy (offset : Nat) (d : Decoder) : Res (Byte × Decoder) := do
  let c ← readByteAt d.cfg.window d.win (Decoder.windowSlot offset d)
  let d' ← Decoder.windowPush c d
  return (c, d')

/-- `n` bytes copied from the distance D.offset to the window and to D.OUT, one after the other
(R193). -/
def Decoder.copyBytes : Nat → Decoder → Res Decoder
  | 0, d => .ok d
  | n + 1, d => do
    let (c, d) ← Decoder.windowCopy d.offset d
    let d ← Decoder.emitByte c d
    Decoder.copyBytes n d

/-! ### MatchIndex (R126, R127) -/

/-- The loop of `buildIndex()` (R127): `n` positions from `i` on, with the table `last` of the last
position seen of each byte value. -/
def Encoder.linkFrom (e : Encoder) : Nat → Nat → IndexTable → IndexTable → Res IndexTable
  | 0, _, _, index => .ok index
  | n + 1, i, last, index => do
    let v ← Encoder.hbufAt e i
    let index ← writeAt (-1) e.cfg.hbufSize index i (Cells.read (-1) last v.toNat)
    Encoder.linkFrom e n (i + 1) (Cells.write (-1) last v.toNat (i : Int)) index

/-- `buildIndex()` (R127): every position below H + E.inputSize is linked to the previous position of
the same byte; entries at or above it stay as they are. -/
def Encoder.buildIndex (e : Encoder) : Res Encoder := do
  let index ← Encoder.linkFrom e (e.cfg.window + e.inputSize) 0 [] e.index
  return { e with index := index }

/-! ### Longest-match search (R129, R132) -/

/-- How many bytes from `p` and from `stop` on agree, counted from `len` with `n` more allowed
(R129's inner loop). -/
def Encoder.matchLength (e : Encoder) (p stop : Nat) : Nat → Nat → Res Nat
  | 0, len => .ok len
  | n + 1, len => do
    let a ← Encoder.hbufAt e (p + len)
    let b ← Encoder.hbufAt e (stop + len)
    if a = b then Encoder.matchLength e p stop n (len + 1) else return len

/-- The length of the best match so far, 0 when there is none (R129). -/
def bestLength : Option (Nat × Nat) → Nat
  | none => 0
  | some (len, _) => len

/-- The walk of the chain from the candidate `p` (R129's outer loop), at most `fuel` rounds of it. The
best match so far is its length and position; `none` is R129's (0, NONE). -/
def Encoder.walkChain (e : Encoder) (stop lo maxlen : Nat) :
    Nat → Option (Nat × Nat) → Int → Res (Option (Nat × Nat))
  | 0, _, _ => .error .loopBoundExceeded
  | fuel + 1, best, p =>
    if p = -1 ∨ p < (lo : Int) then .ok best
    else do
      let len ← Encoder.matchLength e p.toNat stop maxlen 0
      let best := if bestLength best < len then some (len, p.toNat) else best
      if bestLength best = maxlen then return best
      let p ← readAt (-1) e.cfg.hbufSize e.index p.toNat
      Encoder.walkChain e stop lo maxlen fuel best p

/-- `longestMatch(end, lo, maxlen)` (R129). A chain whose links go down, as R128's do, has at most
`stop` candidates. -/
def Encoder.longestMatch (e : Encoder) (stop lo maxlen : Nat) : Res (Option (Nat × Nat)) := do
  let p ← readAt (-1) e.cfg.hbufSize e.index stop
  Encoder.walkChain e stop lo maxlen (stop + 1) none p

/-- The lowest candidate position of a search at `stop` (R132). -/
def Encoder.searchFloor (p : Params) (e : Encoder) (stop : Nat) : Res Nat :=
  if p.zeroHistory then minus stop e.cfg.window
  else minus stop (min e.cfg.window (e.histFill + e.msi))

/-- Break-even acceptance of a match length (R131). -/
abbrev accepts (c : Cfg) (len : Nat) : Prop := 0 < len ∧ c.breakEven < 8 * len

end Sys2Proof.Machine
end

