-- ==== Sys2Proof/Machine/DecSteps.lean ====
section
/-! DEFINITION. The seven state handlers of the decoder (R187 to R193), the dispatch over them that POLL
uses, and the meanings of the seven decoder step instructions. What a handler does with a field once
it is read is a definition of its own, because a wire token uses it too. -/

namespace Sys2Proof.Machine

/-! ### What is done with a field that has been read -/

/-- After the tag bit `b` (R187). -/
def tagBitRead (b : Nat) (d : Decoder) : Res Decoder :=
  if b = 1 then .ok { d with state := .yieldLiteral }
  else if 8 < d.cfg.windowBits then .ok { d with state := .backrefIndexMsb }
  else .ok { d with offset := 0, state := .backrefIndexLsb }

/-- After the eight bits of a literal (R188). -/
def literalRead (v : Nat) (d : Decoder) : Res Decoder := do
  let d ← Decoder.windowPush (BitVec.ofNat 8 v) d
  let d ← Decoder.emitByte (BitVec.ofNat 8 v) d
  return { d with state := .tagBit }

/-- After the upper bits of the distance field (R189). -/
def indexMsbRead (v : Nat) (d : Decoder) : Res Decoder :=
  .ok { d with offset := v <<< 8, state := .backrefIndexLsb }

/-- After the low bits of the distance field (R190). -/
def indexLsbRead (v : Nat) (d : Decoder) : Res Decoder :=
  .ok { d with
    offset := (d.offset ||| v) + 1, count := 0,
    state := if 8 < d.cfg.lookaheadBits then .backrefCountMsb else .backrefCountLsb }

/-- After the upper bits of the length field (R191). -/
def countMsbRead (v : Nat) (d : Decoder) : Res Decoder :=
  .ok { d with count := v <<< 8, state := .backrefCountLsb }

/-- After the low bits of the length field (R192). -/
def countLsbRead (v : Nat) (d : Decoder) : Res Decoder :=
  .ok { d with count := (d.count ||| v) + 1, state := .yieldBackref }

/-! ### Handlers -/

/-- TAG_BIT (R187). -/
def decTagBit (d : Decoder) : Res Decoder := Decoder.readField 1 tagBitRead d

/-- YIELD_LITERAL (R188): the room check comes before the bit read. -/
def decYieldLiteral (d : Decoder) : Res Decoder :=
  if ¬ d.room then .ok d else Decoder.readField 8 literalRead d

/-- BACKREF_INDEX_MSB (R189). -/
def decBackrefIndexMsb (d : Decoder) : Res Decoder := do
  Decoder.readField (← minus d.cfg.windowBits 8) indexMsbRead d

/-- BACKREF_INDEX_LSB (R190). -/
def decBackrefIndexLsb (d : Decoder) : Res Decoder :=
  Decoder.readField (min d.cfg.windowBits 8) indexLsbRead d

/-- BACKREF_COUNT_MSB (R191). -/
def decBackrefCountMsb (d : Decoder) : Res Decoder := do
  Decoder.readField (← minus d.cfg.lookaheadBits 8) countMsbRead d

/-- BACKREF_COUNT_LSB (R192). -/
def decBackrefCountLsb (d : Decoder) : Res Decoder :=
  Decoder.readField (min d.cfg.lookaheadBits 8) countLsbRead d

/-- YIELD_BACKREF (R193): copies as many bytes as D.OUT has room for. -/
def decYieldBackref (d : Decoder) : Res Decoder := do
  let space ← minus d.cfg.obs d.outSize
  if space = 0 then return d
  let n := min space d.count
  let d' ← Decoder.copyBytes n d
  return { d' with
    count := d.count - n, state := if d.count - n = 0 then .tagBit else d'.state }

/-- The handler a decoder state selects (R29, R94). -/
def decHandler : DecState → Decoder → Res Decoder
  | .tagBit => decTagBit
  | .yieldLiteral => decYieldLiteral
  | .backrefIndexMsb => decBackrefIndexMsb
  | .backrefIndexLsb => decBackrefIndexLsb
  | .backrefCountMsb => decBackrefCountMsb
  | .backrefCountLsb => decBackrefCountLsb
  | .yieldBackref => decYieldBackref

/-! ### Meanings of the step instructions -/

/-- DEC.STEP.TAG_BIT (R187). -/
def execDecStepTagBit (s : State) : Host.Outcome State Fault Refusal := decStep .tagBit decTagBit s

/-- DEC.STEP.YIELD_LITERAL (R188). -/
def execDecStepYieldLiteral (s : State) : Host.Outcome State Fault Refusal :=
  decStep .yieldLiteral decYieldLiteral s

/-- DEC.STEP.BACKREF_INDEX_MSB (R189). -/
def execDecStepBackrefIndexMsb (s : State) : Host.Outcome State Fault Refusal :=
  decStep .backrefIndexMsb decBackrefIndexMsb s

/-- DEC.STEP.BACKREF_INDEX_LSB (R190). -/
def execDecStepBackrefIndexLsb (s : State) : Host.Outcome State Fault Refusal :=
  decStep .backrefIndexLsb decBackrefIndexLsb s

/-- DEC.STEP.BACKREF_COUNT_MSB (R191). -/
def execDecStepBackrefCountMsb (s : State) : Host.Outcome State Fault Refusal :=
  decStep .backrefCountMsb decBackrefCountMsb s

/-- DEC.STEP.BACKREF_COUNT_LSB (R192). -/
def execDecStepBackrefCountLsb (s : State) : Host.Outcome State Fault Refusal :=
  decStep .backrefCountLsb decBackrefCountLsb s

/-- DEC.STEP.YIELD_BACKREF (R193). -/
def execDecStepYieldBackref (s : State) : Host.Outcome State Fault Refusal :=
  decStep .yieldBackref decYieldBackref s

end Sys2Proof.Machine
end

