-- ==== Sys2Proof/Machine/DecCommands.lean ====
section
/-! DEFINITION. The six port commands of the decoder (R180 to R186). -/

namespace Sys2Proof.Machine

/-- The most handler steps one decoder POLL runs, the stall among them (R199). -/
def decPollBound (c : Cfg) : Nat := 8 * c.ibs + c.obs + 9

/-- POLL's loop (R184), at most `fuel` rounds of it. -/
def decPollLoop : Nat → Decoder → Res (Decoder × Result)
  | 0, _ => .error .loopBoundExceeded
  | fuel + 1, d => do
    let d' ← decHandler d.state d
    if d'.state = d.state then
      return (d', if d'.outSize = d'.cfg.obs then .pollMore else .pollEmpty)
    decPollLoop fuel d'

/-- POLL on a decoder instance (R184). -/
def decPoll (_ : Params) (d : Decoder) : Res (Decoder × Result) := decPollLoop (decPollBound d.cfg) d

/-- SINK on a decoder instance (R182, R183). -/
def decSink (data : List Byte) (_ : Params) (d : Decoder) : Res (Decoder × Result) :=
  if d.inSize = d.cfg.ibs then .ok (d, .full)
  else do
    let (n, d) ← Decoder.append data d
    return (d, .accepted n)

/-- What the decoder's FINISH answers (R185), from its state and the bytes buffered. -/
def finishAnswer (p : Params) (q : DecState) (buffered : Nat) : Result :=
  match q with
  | .tagBit => if buffered = 0 then .done else .more
  | .backrefIndexMsb => if buffered = 0 then .done else .more
  | .backrefIndexLsb => if buffered = 0 then .done else .more
  | .backrefCountMsb => if buffered = 0 then .done else .more
  | .backrefCountLsb => if buffered = 0 then .done else .more
  | .yieldLiteral => if p.finishInLiteral = .doneIfEmpty ∧ buffered = 0 then .done else .more
  | .yieldBackref => .more

/-- FINISH on a decoder instance (R185): it changes no state. -/
def decFinish (p : Params) (d : Decoder) : Res (Decoder × Result) := do
  let whole ← Decoder.buffered d
  return (d, finishAnswer p d.state whole)

/-- DRAIN on a decoder instance (R186). -/
def decDrain (_ : Params) (d : Decoder) : Res (Decoder × Result) := do
  let (bytes, d) ← Decoder.takeAll d
  return (d, .drained bytes)

/-- RESET on a decoder instance (R181): everything but CFG returns to its reset value. -/
def decReset (_ : Params) (d : Decoder) : Res (Decoder × Result) := .ok (Decoder.initial d.cfg, .ok)

/-! ### Meanings -/

/-- DEC.CONSTRUCT (R180): a new instance in its reset state, or CONFIG_ERROR and no instance,
DEDUCED for a port that had one, log entry 7, unsafe. -/
def execDecConstruct (w l ibs obs : Nat) (s : State) : Host.Outcome State Fault Refusal :=
  match decoderCfg w l ibs obs with
  | some cfg => .next ((s.setDec (some (Decoder.initial cfg))).respond .decoder .ok)
  | none => .next ((s.setDec none).respond .decoder .configError)

/-- DEC.RESET (R181). -/
def execDecReset (s : State) : Host.Outcome State Fault Refusal := decCommand decReset s

/-- DEC.SINK (R182, R183). -/
def execDecSink (data : List Byte) (s : State) : Host.Outcome State Fault Refusal :=
  decCommand (decSink data) s

/-- DEC.POLL (R184). -/
def execDecPoll (s : State) : Host.Outcome State Fault Refusal := decCommand decPoll s

/-- DEC.DRAIN (R186). -/
def execDecDrain (s : State) : Host.Outcome State Fault Refusal := decCommand decDrain s

/-- DEC.FINISH (R185). -/
def execDecFinish (s : State) : Host.Outcome State Fault Refusal := decCommand decFinish s

end Sys2Proof.Machine
end

