-- ==== Sys2Proof/Machine/EncSteps.lean ====
section
/-! DEFINITION. The ten state handlers of the encoder (R147 to R156), the dispatch over them that POLL
uses, and the meanings of the ten encoder step instructions. -/

namespace Sys2Proof.Machine

/-! ### Handlers -/

/-- NOT_FULL (R147): no handler runs; the encoder waits for SINK, FINISH or RESET. DESIGN CHOICE: as a
step it changes nothing, log entry 18, safe. -/
def encNotFull (_ : Params) (e : Encoder) : Res Encoder := .ok e

/-- FILLED (R148): builds the match index. -/
def encFilled (_ : Params) (e : Encoder) : Res Encoder := do
  let e ← Encoder.buildIndex e
  return { e with state := .search }

/-- SEARCH's choice at the scan position: a backreference to wait for its fields, or a literal, which
advances the scan at once (R149). -/
def Encoder.decide (e : Encoder) (stop : Nat) (found : Option (Nat × Nat)) : Res Encoder :=
  match found with
  | some (len, pos) =>
    if accepts e.cfg len then do
      let dist ← minus stop pos
      return { e with matchLen := len, matchDist := dist, state := .yieldTagBit }
    else return { e with msi := e.msi + 1, matchLen := 0, state := .yieldTagBit }
  | none => return { e with msi := e.msi + 1, matchLen := 0, state := .yieldTagBit }

/-- SEARCH (R149): ends the batch, or decides the next token. -/
def encSearch (p : Params) (e : Encoder) : Res Encoder :=
  if e.inputSize < e.msi + Encoder.needed e then .ok { e with state := Encoder.afterBatch e }
  else do
    let lo ← Encoder.searchFloor p e (e.cfg.window + e.msi)
    let left ← minus e.inputSize e.msi
    let found ← Encoder.longestMatch e (e.cfg.window + e.msi) lo (min e.cfg.lookahead left)
    Encoder.decide e (e.cfg.window + e.msi) found

/-- YIELD_TAG_BIT (R150): the tag bit 1 for a literal, or 0 with the distance field loaded. -/
def encYieldTagBit (_ : Params) (e : Encoder) : Res Encoder :=
  if ¬ e.room then .ok e
  else if e.matchLen = 0 then do
    let e ← Encoder.pushBits 1 1 e
    return { e with state := .yieldLiteral }
  else do
    let e ← Encoder.pushBits 1 0 e
    let field ← minus e.matchDist 1
    return { e with outBits := field, outCount := e.cfg.windowBits, state := .yieldBrIndex }

/-- YIELD_LITERAL (R151): the byte before the scan position. -/
def encYieldLiteral (_ : Params) (e : Encoder) : Res Encoder :=
  if ¬ e.room then .ok e
  else do
    let b ← Encoder.hbufAt e (← minus (e.cfg.window + e.msi) 1)
    let e ← Encoder.pushBits 8 b.toNat e
    return { e with state := .search }

/-- YIELD_BR_INDEX (R152): the distance field, then the length field is loaded. -/
def encYieldBrIndex (_ : Params) (e : Encoder) : Res Encoder :=
  if ¬ e.room then .ok e
  else do
    let (pushed, e) ← Encoder.pushOutgoing e
    if 0 < pushed then return e
    let field ← minus e.matchLen 1
    return { e with outBits := field, outCount := e.cfg.lookaheadBits, state := .yieldBrLength }

/-- YIELD_BR_LENGTH (R153): the length field, then the matched bytes are consumed. -/
def encYieldBrLength (_ : Params) (e : Encoder) : Res Encoder :=
  if ¬ e.room then .ok e
  else do
    let (pushed, e) ← Encoder.pushOutgoing e
    if 0 < pushed then return e
    return { e with msi := e.msi + e.matchLen, matchLen := 0, state := .search }

/-- SAVE_BACKLOG's move (R154): `n` bytes of E.HBUF from index `i` on, each replaced by the byte `m`
above it, in ascending order. -/
def slideDown (size m : Nat) : Nat → Nat → Memory → Res Memory
  | 0, _, hbuf => .ok hbuf
  | n + 1, i, hbuf => do
    let b ← readByteAt size hbuf (m + i)
    let hbuf ← writeByteAt size hbuf i b
    slideDown size m n (i + 1) hbuf

/-- SAVE_BACKLOG (R154): keeps the window and carries the unconsumed tail into the next batch. -/
def encSaveBacklog (_ : Params) (e : Encoder) : Res Encoder := do
  let left ← minus e.inputSize e.msi
  let hbuf ← slideDown e.cfg.hbufSize e.msi (e.cfg.window + left) 0 e.hbuf
  return { e with hbuf := hbuf, inputSize := left, msi := 0,
                  histFill := min e.cfg.window (e.histFill + e.msi), state := .notFull }

/-- FLUSH_BITS (R155): pads and writes out the partial byte. -/
def encFlushBits (_ : Params) (e : Encoder) : Res Encoder :=
  if e.wbits = 0 then .ok { e with state := .done }
  else if ¬ e.room then .ok e
  else do
    let e ← Encoder.flushBits e
    return { e with state := .done }

/-- DONE (R156): no handler runs; the stream is complete until RESET. DESIGN CHOICE: as a step it
changes nothing, log entry 18, safe. -/
def encDone (_ : Params) (e : Encoder) : Res Encoder := .ok e

/-- The handler an encoder state selects (R29, R93). -/
def encHandler : EncState → Params → Encoder → Res Encoder
  | .notFull => encNotFull
  | .filled => encFilled
  | .search => encSearch
  | .yieldTagBit => encYieldTagBit
  | .yieldLiteral => encYieldLiteral
  | .yieldBrIndex => encYieldBrIndex
  | .yieldBrLength => encYieldBrLength
  | .saveBacklog => encSaveBacklog
  | .flushBits => encFlushBits
  | .done => encDone

/-! ### Meanings of the step instructions -/

/-- ENC.STEP.NOT_FULL (R147). -/
def execEncStepNotFull (s : State) : Host.Outcome State Fault Refusal := encStep .notFull encNotFull s

/-- ENC.STEP.FILLED (R148). -/
def execEncStepFilled (s : State) : Host.Outcome State Fault Refusal := encStep .filled encFilled s

/-- ENC.STEP.SEARCH (R149). -/
def execEncStepSearch (s : State) : Host.Outcome State Fault Refusal := encStep .search encSearch s

/-- ENC.STEP.YIELD_TAG_BIT (R150). -/
def execEncStepYieldTagBit (s : State) : Host.Outcome State Fault Refusal :=
  encStep .yieldTagBit encYieldTagBit s

/-- ENC.STEP.YIELD_LITERAL (R151). -/
def execEncStepYieldLiteral (s : State) : Host.Outcome State Fault Refusal :=
  encStep .yieldLiteral encYieldLiteral s

/-- ENC.STEP.YIELD_BR_INDEX (R152). -/
def execEncStepYieldBrIndex (s : State) : Host.Outcome State Fault Refusal :=
  encStep .yieldBrIndex encYieldBrIndex s

/-- ENC.STEP.YIELD_BR_LENGTH (R153). -/
def execEncStepYieldBrLength (s : State) : Host.Outcome State Fault Refusal :=
  encStep .yieldBrLength encYieldBrLength s

/-- ENC.STEP.SAVE_BACKLOG (R154). -/
def execEncStepSaveBacklog (s : State) : Host.Outcome State Fault Refusal :=
  encStep .saveBacklog encSaveBacklog s

/-- ENC.STEP.FLUSH_BITS (R155). -/
def execEncStepFlushBits (s : State) : Host.Outcome State Fault Refusal :=
  encStep .flushBits encFlushBits s

/-- ENC.STEP.DONE (R156). -/
def execEncStepDone (s : State) : Host.Outcome State Fault Refusal := encStep .done encDone s

end Sys2Proof.Machine
end

