-- ==== Sys2Proof/Machine/EncCommands.lean ====
section
/-! DEFINITION. The six port commands of the encoder (R140 to R146). -/

namespace Sys2Proof.Machine

/-- The most handler steps one encoder POLL runs (R160), B = IBS. -/
def encPollBound (c : Cfg) : Nat :=
  8 * (c.ibs + 1) * (4 + (c.windowBits + 7) / 8 + (c.lookaheadBits + 7) / 8) + 4

/-- POLL's loop (R144), at most `fuel` rounds of it. -/
def encPollLoop (p : Params) : Nat → Encoder → Res (Encoder × Result)
  | 0, _ => .error .loopBoundExceeded
  | fuel + 1, e =>
    if e.state = .notFull ∨ e.state = .done then .ok (e, .pollEmpty)
    else do
      let e' ← encHandler e.state p e
      if e'.state = e.state ∧ e'.outSize = e'.cfg.obs then return (e', .pollMore)
      encPollLoop p fuel e'

/-- POLL on an encoder instance (R144): the bound's steps and the round that answers. -/
def encPoll (p : Params) (e : Encoder) : Res (Encoder × Result) :=
  encPollLoop p (encPollBound e.cfg + 1) e

/-- SINK on an encoder instance (R142, R143). DESIGN CHOICE: MISUSE is a value (R224), log entry 6,
unsafe for claims about correct hosts. -/
def encSink (data : List Byte) (_ : Params) (e : Encoder) : Res (Encoder × Result) :=
  if ¬ e.accepting then .ok (e, .misuse)
  else do
    let space ← minus e.cfg.ibs e.inputSize
    let taken := data.take space
    let hbuf ← writeRun e.cfg.hbufSize e.hbuf (e.cfg.window + e.inputSize) taken
    let e := { e with hbuf := hbuf, inputSize := e.inputSize + taken.length,
                      state := if taken.length = space then .filled else e.state }
    return (e, .accepted taken.length)

/-- FINISH on an encoder instance (R145). -/
def encFinish (_ : Params) (e : Encoder) : Res (Encoder × Result) :=
  let e := Encoder.setFinishing e
  .ok (e, if e.state = .done then .done else .more)

/-- DRAIN on an encoder instance (R146). -/
def encDrain (_ : Params) (e : Encoder) : Res (Encoder × Result) := do
  let (bytes, e) ← Encoder.takeAll e
  return (e, .drained bytes)

/-- RESET on an encoder instance (R141): everything but CFG returns to its reset value. -/
def encReset (_ : Params) (e : Encoder) : Res (Encoder × Result) := .ok (Encoder.initial e.cfg, .ok)

/-! ### Meanings -/

/-- ENC.CONSTRUCT (R140): a new instance in its reset state, or CONFIG_ERROR and no instance,
DEDUCED for a port that had one, log entry 7, unsafe. -/
def execEncConstruct (w l ibs obs : Nat) (s : State) : Host.Outcome State Fault Refusal :=
  match encoderCfg w l ibs obs with
  | some cfg => .next ((s.setEnc (some (Encoder.initial cfg))).respond .encoder .ok)
  | none => .next ((s.setEnc none).respond .encoder .configError)

/-- ENC.RESET (R141). -/
def execEncReset (s : State) : Host.Outcome State Fault Refusal := encCommand encReset s

/-- ENC.SINK (R142, R143). -/
def execEncSink (data : List Byte) (s : State) : Host.Outcome State Fault Refusal :=
  encCommand (encSink data) s

/-- ENC.POLL (R144). -/
def execEncPoll (s : State) : Host.Outcome State Fault Refusal := encCommand encPoll s

/-- ENC.DRAIN (R146). -/
def execEncDrain (s : State) : Host.Outcome State Fault Refusal := encCommand encDrain s

/-- ENC.FINISH (R145). -/
def execEncFinish (s : State) : Host.Outcome State Fault Refusal := encCommand encFinish s

end Sys2Proof.Machine
end

