-- ==== Sys2Proof/Machine/Tokens.lean ====
section
/-! DEFINITION. The two wire tokens as instructions of the decoder (R82, R83). The decoder consumes the
token's bits at its read position field by field, as its handlers do from TAG_BIT on (R187 to R193),
and stalls where they stall: for want of bits, or for want of room. The field values are the
token's. DESIGN CHOICE, log entry 5, safe. -/

namespace Sys2Proof.Machine

/-- Consumes an `n`-bit field of a token, whose value is `v`, and goes on with `next`; stalls with
nothing changed when the bits are not there. -/
def feedField (n v : Nat) (use : Nat → Decoder → Res Decoder) (next : Decoder → Res Decoder)
    (d : Decoder) : Res Decoder := do
  match ← Decoder.getBits n d with
  | none => return d
  | some (_, d') => next (← use v d')

/-- Consumes `LIT b` (R82, R187, R188). -/
def consumeLit (b : Byte) (d : Decoder) : Res Decoder :=
  feedField 1 1 tagBitRead
    (fun d => if ¬ d.room then .ok d else feedField 8 b.toNat literalRead .ok d) d

/-- The low bits of a field that the LSB step reads, of a field of `c` bits (R84). -/
def fieldLow (c v : Nat) : Nat := v % 2 ^ min c 8

/-- Consumes the length field `n` of a backreference, then copies (R191 to R193). -/
def consumeLength (n : Nat) (d : Decoder) : Res Decoder :=
  let low := feedField (min d.cfg.lookaheadBits 8) (fieldLow d.cfg.lookaheadBits n) countLsbRead
    decYieldBackref
  if 8 < d.cfg.lookaheadBits then feedField (d.cfg.lookaheadBits - 8) (n >>> 8) countMsbRead low d
  else low d

/-- Consumes the distance field `dist` of a backreference, then the length field `n` (R189, R190). -/
def consumeDistance (dist n : Nat) (d : Decoder) : Res Decoder :=
  let low := feedField (min d.cfg.windowBits 8) (fieldLow d.cfg.windowBits dist) indexLsbRead
    (consumeLength n)
  if 8 < d.cfg.windowBits then feedField (d.cfg.windowBits - 8) (dist >>> 8) indexMsbRead low d
  else low d

/-- Consumes a backreference token whose fields hold `dist` and `n` (R83, R187). -/
def consumeBref (dist n : Nat) (d : Decoder) : Res Decoder :=
  feedField 1 0 tagBitRead (consumeDistance dist n) d

/-- The wire layout tokens are read by: the decoder's, or the smallest one when there is none. -/
def State.layout (s : State) : Layout :=
  match s.dec with
  | some d => d.cfg.layout
  | none => Layout.smallest

/-- LIT (R82). -/
def execLit (b : Byte) (s : State) : Host.Outcome State Fault Refusal := onToken (consumeLit b) s

/-- BREF (R83): the fields hold the distance and the length minus one (R84). -/
def execBref (d n : Nat) (s : State) : Host.Outcome State Fault Refusal :=
  if brefFits s.layout d n then onToken (consumeBref (d - 1) (n - 1)) s
  else .refused .tokenNotEncodable

/-- A token request when the unread bits end before a whole token (R88): the decoder's handlers take the
bits that are there and stall in the middle of the token, as in a POLL (R184) but without a response.
DESIGN CHOICE, log entry 5, safe. -/
def stallInToken (s : State) : Host.Outcome State Fault Refusal :=
  onToken (fun d => (decPollLoop (decPollBound d.cfg) d).map Prod.fst) s

end Sys2Proof.Machine
end

