-- ==== Sys2Proof/Machine/Dispatch.lean ====
section
/-! DEFINITION. The meaning of every instruction: one arm per constructor of Instr. -/

namespace Sys2Proof.Machine

def exec (i : Instr) (s : State) : Host.Outcome State Fault Refusal :=
  match i with
  -- wire tokens (R82, R83)
  | .lit b => Sys2Proof.Machine.execLit b s
  | .bref d n => Sys2Proof.Machine.execBref d n s
  -- encoder steps (R147 to R156)
  | .encStepNotFull => Sys2Proof.Machine.execEncStepNotFull s
  | .encStepFilled => Sys2Proof.Machine.execEncStepFilled s
  | .encStepSearch => Sys2Proof.Machine.execEncStepSearch s
  | .encStepYieldTagBit => Sys2Proof.Machine.execEncStepYieldTagBit s
  | .encStepYieldLiteral => Sys2Proof.Machine.execEncStepYieldLiteral s
  | .encStepYieldBrIndex => Sys2Proof.Machine.execEncStepYieldBrIndex s
  | .encStepYieldBrLength => Sys2Proof.Machine.execEncStepYieldBrLength s
  | .encStepSaveBacklog => Sys2Proof.Machine.execEncStepSaveBacklog s
  | .encStepFlushBits => Sys2Proof.Machine.execEncStepFlushBits s
  | .encStepDone => Sys2Proof.Machine.execEncStepDone s
  -- decoder steps (R187 to R193)
  | .decStepTagBit => Sys2Proof.Machine.execDecStepTagBit s
  | .decStepYieldLiteral => Sys2Proof.Machine.execDecStepYieldLiteral s
  | .decStepBackrefIndexMsb => Sys2Proof.Machine.execDecStepBackrefIndexMsb s
  | .decStepBackrefIndexLsb => Sys2Proof.Machine.execDecStepBackrefIndexLsb s
  | .decStepBackrefCountMsb => Sys2Proof.Machine.execDecStepBackrefCountMsb s
  | .decStepBackrefCountLsb => Sys2Proof.Machine.execDecStepBackrefCountLsb s
  | .decStepYieldBackref => Sys2Proof.Machine.execDecStepYieldBackref s
  -- encoder commands (R140 to R146)
  | .encConstruct w l ibs obs => Sys2Proof.Machine.execEncConstruct w l ibs obs s
  | .encReset => Sys2Proof.Machine.execEncReset s
  | .encSink data => Sys2Proof.Machine.execEncSink data s
  | .encPoll => Sys2Proof.Machine.execEncPoll s
  | .encDrain => Sys2Proof.Machine.execEncDrain s
  | .encFinish => Sys2Proof.Machine.execEncFinish s
  -- decoder commands (R180 to R186)
  | .decConstruct w l ibs obs => Sys2Proof.Machine.execDecConstruct w l ibs obs s
  | .decReset => Sys2Proof.Machine.execDecReset s
  | .decSink data => Sys2Proof.Machine.execDecSink data s
  | .decPoll => Sys2Proof.Machine.execDecPoll s
  | .decDrain => Sys2Proof.Machine.execDecDrain s
  | .decFinish => Sys2Proof.Machine.execDecFinish s

end Sys2Proof.Machine
end

