-- ==== Sys2Proof/Machine/Fetch.lean ====
section
/-! DEFINITION. Fetching the encoded instruction of a request (R80), and placing a number of the opcode
table where the next step fetches. -/

namespace Sys2Proof.Machine

/-- The bytes D.IN[i], D.IN[i + 1], ... as stream bits, `n` bytes of them. -/
def Decoder.inputBits (d : Decoder) (i n : Nat) : Res (List Bool) := do
  let bytes ← readRun d.cfg.ibs d.inp i n
  return bytes.flatMap byteBits

/-- The stream bits the decoder holds and has not read, in stream order: what is left of D.curByte,
then the unread bytes of D.IN (R62, R105). -/
def Decoder.unreadBits (d : Decoder) : Res (List Bool) := do
  let whole ← Decoder.buffered d
  let rest ← Decoder.inputBits d d.inHead whole
  return bitsOf d.rbits d.curByte.toNat ++ rest

/-- The encoded instruction a request leads to: a command's own word, the state code that selects a
unit's next handler (R29), or the stream bits at the decoder's read position. -/
def fetch (s : State) : Request → Host.Outcome Code Fault Refusal
  | .command word ops => .next (.command word ops)
  | .encStep =>
    match s.enc with
    | some e => .next (.encState e.state.code)
    | none => .refused .noInstance
  | .decStep =>
    match s.dec with
    | some d => .next (.decState d.state.code)
    | none => .refused .noInstance
  | .token =>
    match s.dec with
    | some d =>
      match Decoder.unreadBits d with
      | .ok bits => .next (.token bits)
      | .error x => .fault x
    | none => .refused .noInstance

/-- Puts a request in front of the others. -/
def State.place (r : Request) (s : State) : State := { s with requests := r :: s.requests }

/-- Takes the first request away. -/
def State.dropRequest (s : State) : State := { s with requests := s.requests.tail }

/-- The encoder on the port, or the smallest legal one in its reset state. -/
def State.someEncoder (s : State) : Encoder := s.enc.getD (Encoder.initial ⟨4, 3, 8, 8⟩)

/-- The decoder on the port, or the smallest-layout one with 8-byte buffers in its reset state. -/
def State.someDecoder (s : State) : Decoder := s.dec.getD (Decoder.initial ⟨4, 3, 8, 8⟩)

/-- The bytes a bit sequence fills, the last one padded with zeros (R13, R87); `n` of them. -/
def packBits : Nat → List Bool → List Byte
  | 0, _ => []
  | n + 1, bits => BitVec.ofNat 8 (numberFrom 0 ((bits ++ List.replicate 8 false).take 8)) :: packBits n (bits.drop 8)

/-- The cells of a memory that holds the bytes from index 0 on and 0 everywhere else. -/
def cellsOf (i : Nat) : List Byte → Memory
  | [] => []
  | b :: rest => if b = 0 then cellsOf (i + 1) rest else (i, b) :: cellsOf (i + 1) rest

/-- Makes the decoder hold exactly these stream bits unread, at the beginning of a token. No instruction
and no step does this: it only stands for the placing of a token (withFetchWord). It writes D.state,
the input cursors, D.rbits and D.IN, and it raises CFG.IBS of the instance, immutable otherwise (R22),
to the number of bytes placed where it is smaller, so that they fit in D.IN. DESIGN CHOICE, log entry
2, safe. -/
def Decoder.loadStream (bits : List Bool) (d : Decoder) : Decoder :=
  let bytes := packBits ((bits.length + 7) / 8) bits
  { d with state := .tagBit, inHead := 0, inSize := bytes.length, rbits := 0, inp := cellsOf 0 bytes,
           cfg := { d.cfg with ibs := max d.cfg.ibs bytes.length } }

/-- Gives the port a command needs an instance when it has none; CONSTRUCT needs none. -/
def State.prepareCommand (word : Byte) (s : State) : State :=
  if commandOp word = 0 then s
  else if commandUnit word then s.setDec (some s.someDecoder)
  else s.setEnc (some s.someEncoder)

/-- Places an encoded instruction so that the very next step fetches it, with all that this takes:
an instance on the port, the state register that selects a handler, or the stream bits in D.IN, with
CFG.IBS raised where they need it (Decoder.loadStream). DESIGN CHOICE, log entry 2, safe. -/
def State.placeCode (c : Code) (s : State) : State :=
  match c with
  | .command word ops => (s.prepareCommand word).place (.command word ops)
  | .encState code =>
    match encStateOf code with
    | some q => (s.setEnc (some { s.someEncoder with state := q })).place .encStep
    | none => s.place .encStep
  | .decState code =>
    match decStateOf code with
    | some q => (s.setDec (some { s.someDecoder with state := q })).place .decStep
    | none => s.place .decStep
  | .token bits => (s.setDec (some (Decoder.loadStream bits s.someDecoder))).place .token

end Sys2Proof.Machine
end

