-- ==== Sys2Proof/Machine/Step.lean ====
section
/-! DEFINITION. One step of the machine: the first request is fetched, decoded and run. With no request
the core does nothing (R237). -/

namespace Sys2Proof.Machine

/-- One step. A command word that is rejected is the ILLEGAL of R98, which the model refuses, as R98, R223
and R239 say. A token request whose unread bits end before a whole token is no rejected encoding (R88,
R89): the decoder stalls in it. DESIGN CHOICE to ask for a token by itself, log entry 5, safe. -/
def step (s : State) : Host.Outcome State Fault Refusal :=
  match s.requests with
  | [] => .next s
  | r :: _ =>
    match fetch s r with
    | .fault x => .fault x
    | .refused x => .refused x
    | .next c =>
      match decode s.layout c with
      | .error .incompleteToken => stallInToken s.dropRequest
      | .error why => .refused (.illegal why)
      | .ok i => exec i s.dropRequest

/-- The state with a number of the opcode table placed where the next step fetches. -/
def State.withFetchWord (s : State) (nbits w : Nat) : State := s.placeCode (tableCode nbits w)

end Sys2Proof.Machine
end

