-- ==== Sys2Proof/Machine/Process.lean ====
section
/-! DEFINITION. The host's two procedures of 44_host_driver.md, ENC.PROCESS and DEC.PROCESS, over the
commands SINK, POLL, DRAIN and FINISH of one instance. They are not part of the core: no request and
no step runs them (R92). -/

namespace Sys2Proof.Machine

/-- How many bytes a SINK response says were accepted. -/
def Result.count : Result → Nat
  | .accepted n => n
  | _ => 0

/-- A chunk list with a chunk after it, unless the chunk is empty. -/
def withChunk (chunks : List (List Byte)) (bytes : List Byte) : List (List Byte) :=
  if bytes = [] then chunks else chunks ++ [bytes]

/-- R211 (b) and (c): POLL, and DRAIN after every POLL_MORE, until POLL answers POLL_EMPTY. -/
def encPump (p : Params) : Nat → List (List Byte) → Encoder → Res (List (List Byte) × Encoder)
  | 0, _, _ => .error .loopBoundExceeded
  | fuel + 1, chunks, e => do
    let (e, r) ← encPoll p e
    if r = .pollMore then
      let (bytes, e) ← Encoder.takeAll e
      encPump p fuel (chunks ++ [bytes]) e
    else return (chunks, e)

/-- R211's loop, at most `fuel` passes of it. -/
def encProcessLoop (p : Params) (final : Bool) :
    Nat → List Byte → List (List Byte) → Encoder → Res (List (List Byte) × Encoder)
  | 0, _, _, _ => .error .loopBoundExceeded
  | fuel + 1, data, chunks, e => do
    let (e, r) ←
      if data ≠ [] then encSink data p e
      else if final then encFinish p e
      else .ok (e, .more)
    if data = [] ∧ r = .done then return (chunks, e)
    let data := data.drop r.count
    let (chunks, e) ← encPump p (encPollBound e.cfg + 2) chunks e
    if data = [] then
      let (bytes, e) ← Encoder.takeAll e
      if final then encProcessLoop p final fuel data (withChunk chunks bytes) e
      else return (withChunk chunks bytes, e)
    else encProcessLoop p final fuel data chunks e

/-- `ENC.PROCESS(data, final)` (R211): the chunks, the boundary flag, and the instance afterwards. -/
def encProcess (p : Params) (data : List Byte) (final : Bool) (e : Encoder) :
    Res (List (List Byte) × Bool × Encoder) := do
  let (chunks, e) ← encProcessLoop p final (data.length + 3) data [] e
  return (chunks, final, e)

/-- R212 (b) and (c): POLL, and DRAIN after every POLL_MORE, until POLL answers POLL_EMPTY. -/
def decPump (p : Params) : Nat → List (List Byte) → Decoder → Res (List (List Byte) × Decoder)
  | 0, _, _ => .error .loopBoundExceeded
  | fuel + 1, chunks, d => do
    let (d, r) ← decPoll p d
    if r = .pollMore then
      let (bytes, d) ← Decoder.takeAll d
      decPump p fuel (chunks ++ [bytes]) d
    else return (chunks, d)

/-- The most chunks one pass of R212 drains: the bytes the buffered input can stand for. -/
def decPumpBound (c : Cfg) : Nat := (c.ibs + 2) * c.lookahead + 2

/-- R212's loop, at most `fuel` passes of it. -/
def decProcessLoop (p : Params) :
    Nat → List Byte → List (List Byte) → Decoder → Res (List (List Byte) × Decoder)
  | 0, _, _, _ => .error .loopBoundExceeded
  | fuel + 1, data, chunks, d => do
    let (d, r) ← if data ≠ [] then decSink data p d else .ok (d, .full)
    let data := data.drop r.count
    let (chunks, d) ← decPump p (decPumpBound d.cfg) chunks d
    if data = [] then
      let (bytes, d) ← Decoder.takeAll d
      return (withChunk chunks bytes, d)
    else decProcessLoop p fuel data chunks d

/-- `DEC.PROCESS(data)` (R212): the chunks, the boundary flag, and the instance afterwards. -/
def decProcess (p : Params) (data : List Byte) (d : Decoder) :
    Res (List (List Byte) × Bool × Decoder) := do
  let (chunks, d) ← decProcessLoop p (data.length + 2) data [] d
  let (d, r) ← decFinish p d
  return (chunks, decide (r = .done), d)

end Sys2Proof.Machine
end

