-- ==== Sys2Proof/Machine/Reference.lean ====
section
/-! DEFINITION. The two functions the spec describes the codec by: ENCODE_REF, the bytes an encoder gives
for its whole input (R158), and DECODE_REF, the bytes a decoder gives for a bit stream (R197). -/

namespace Sys2Proof.Machine

/-! ### ENCODE_REF (R158) -/

/-- Entry `i` of a byte sequence; R158 reads inside the sequence only. -/
def byteAt (v : List Byte) (i : Nat) : Byte := v.getD i 0

/-- ml(p): how many bytes from `p` on agree with those from `pos` on, at most `n` (R158). -/
def agreement (v : List Byte) (p pos : Nat) : Nat → Nat
  | 0 => 0
  | n + 1 => if byteAt v p = byteAt v pos then agreement v (p + 1) (pos + 1) n + 1 else 0

/-- The best of a candidate list and a best so far: the greatest length, and of equal lengths the
later one in the list (R158). Lengths are positive, so (0, _) says that there is none. -/
def bestOf (v : List Byte) (pos maxlen : Nat) : List Nat → Nat × Nat → Nat × Nat
  | [], best => best
  | p :: rest, best =>
    bestOf v pos maxlen rest
      (if 0 < agreement v p pos maxlen ∧ best.1 ≤ agreement v p pos maxlen
        then (agreement v p pos maxlen, p) else best)

/-- The token a search result decides at position `pos`, with the number of bytes it stands for (R131,
R158). -/
def tokenOf (ly : Layout) (v : List Byte) (pos : Nat) (best : Nat × Nat) : Instr × Nat :=
  if 0 < best.1 ∧ 1 + ly.windowBits + ly.lookaheadBits < 8 * best.1
    then (.bref (pos - best.2) best.1, best.1) else (.lit (byteAt v pos), 1)

/-- The token at position `pos` of the virtual stream `v` (R158). -/
def tokenAt (p : Params) (ly : Layout) (v : List Byte) (pos : Nat) : Instr × Nat :=
  let window := 2 ^ ly.windowBits
  let maxlen := min (2 ^ ly.lookaheadBits) (v.length - pos)
  let lo := if p.zeroHistory then pos - window else max window (pos - window)
  tokenOf ly v pos (bestOf v pos maxlen ((List.range (pos - lo)).map (lo + ·)) (0, 0))

/-- The tokens from position `pos` on; every token stands for at least one byte, so `fuel` bytes to go
need at most `fuel` tokens (R158). -/
def tokensFrom (p : Params) (ly : Layout) (v : List Byte) : Nat → Nat → List Instr
  | 0, _ => []
  | fuel + 1, pos =>
    if pos < v.length then
      (tokenAt p ly v pos).1 :: tokensFrom p ly v fuel (pos + (tokenAt p ly v pos).2)
    else []

/-- The tokens of ENCODE_REF(x) (R158). -/
def encodeTokens (p : Params) (ly : Layout) (x : List Byte) : List Instr :=
  tokensFrom p ly (List.replicate (2 ^ ly.windowBits) 0 ++ x) x.length (2 ^ ly.windowBits)

/-- The stream bits of a wire token; an instruction that is no token has none (R82, R83). -/
def tokenBits (ly : Layout) (i : Instr) : List Bool :=
  match encode ly i with
  | .token bits => bits
  | _ => []

/-- Zero bits up to a byte boundary (R87). -/
def padding (n : Nat) : List Bool := List.replicate ((8 - n % 8) % 8) false

/-- ENCODE_REF(x) as stream bits, padding included (R158). -/
def encodeRef (p : Params) (ly : Layout) (x : List Byte) : List Bool :=
  let bits := (encodeTokens p ly x).flatMap (tokenBits ly)
  bits ++ padding bits.length

/-! ### DECODE_REF (R197) -/

/-- The byte `dist` positions before the end of the virtual stream 0^H ++ out (R197). -/
def historyByte (ly : Layout) (out : List Byte) (dist : Nat) : Byte :=
  byteAt (List.replicate (2 ^ ly.windowBits) 0 ++ out) (2 ^ ly.windowBits + out.length - dist)

/-- `n` bytes copied from distance `dist`, one after the other (R197). -/
def expand (ly : Layout) (dist : Nat) : Nat → List Byte → List Byte
  | 0, out => out
  | n + 1, out => expand ly dist n (out ++ [historyByte ly out dist])

/-- What a token adds to the decoded stream (R82, R83); other instructions add nothing. -/
def expandToken (ly : Layout) (i : Instr) (out : List Byte) : List Byte :=
  match i with
  | .lit b => out ++ [b]
  | .bref d n => expand ly d n out
  | _ => out

/-- DECODE_REF's loop; every token takes at least one bit, so `fuel` bits need at most `fuel` tokens. -/
def decodeFrom (ly : Layout) : Nat → List Bool → List Byte → List Byte
  | 0, _, out => out
  | fuel + 1, bits, out =>
    match decodeToken ly bits with
    | .ok (i, rest) => decodeFrom ly fuel rest (expandToken ly i out)
    | .error _ => out

/-- DECODE_REF(z) (R197). -/
def decodeRef (ly : Layout) (z : List Bool) : List Byte := decodeFrom ly z.length z []

end Sys2Proof.Machine
end

