-- ==== Sys2Proof/Safety.lean ====
section
/-! DEFINITION. What a safe state is, in the terms the statements use: how a buffer's content is read as
bytes and as stream bits, the reset states register by register, the ranges and invariants of R24,
R25, R27, R28 and R33, and what POLL's loop amounts to. -/

namespace Sys2Proof.Machine

/-! ### What a memory reads as -/

/-- Byte `i` of E.HBUF. -/
abbrev Encoder.hbufByte (e : Encoder) (i : Nat) : Byte := Cells.read 0#8 e.hbuf i

/-- Entry `i` of E.INDEX. -/
abbrev Encoder.link (e : Encoder) (i : Nat) : Int := Cells.read (-1) e.index i

/-- Byte `i` of E.OUT. -/
abbrev Encoder.outByte (e : Encoder) (i : Nat) : Byte := Cells.read 0#8 e.out i

/-- Byte `i` of D.IN. -/
abbrev Decoder.inByte (d : Decoder) (i : Nat) : Byte := Cells.read 0#8 d.inp i

/-- Byte `i` of D.WIN. -/
abbrev Decoder.winByte (d : Decoder) (i : Nat) : Byte := Cells.read 0#8 d.win i

/-- Byte `i` of D.OUT. -/
abbrev Decoder.outByte (d : Decoder) (i : Nat) : Byte := Cells.read 0#8 d.out i

/-- The pending output of an encoder, the bytes [0, E.outSize) of E.OUT (R25). -/
def Encoder.pending (e : Encoder) : List Byte := (List.range e.outSize).map e.outByte

/-- The pending output of a decoder, the bytes [0, D.outSize) of D.OUT (R28). -/
def Decoder.pending (d : Decoder) : List Byte := (List.range d.outSize).map d.outByte

/-- The stream bits an encoder has written and not yet handed out: the pending bytes, then the E.wbits
upper bits of E.acc (R71, R107). -/
def Encoder.written (e : Encoder) : List Bool :=
  e.pending.flatMap byteBits ++ (byteBits e.acc).take e.wbits

/-- The stream bits a decoder holds and has not read: the D.rbits lower bits of D.curByte, then the
unread bytes of D.IN (R105). -/
def Decoder.unread (d : Decoder) : List Bool :=
  bitsOf d.rbits d.curByte.toNat ++
    ((List.range (d.inSize - d.inHead)).map fun i => d.inByte (d.inHead + i)).flatMap byteBits

/-- The byte the decoder output `back` bytes ago, as the window holds it (R122, R123). -/
def Decoder.windowByte (d : Decoder) (back : Nat) : Byte := d.winByte (Decoder.windowSlot back d)

/-! ### Reset states (R24, R25, R27, R28, R35) -/

/-- Every register and memory of an encoder but CFG is at its reset value (R24, R25). -/
structure Encoder.AtReset (e : Encoder) : Prop where
  state : e.state = .notFull
  inputSize : e.inputSize = 0
  msi : e.msi = 0
  finishing : e.finishing = false
  matchLen : e.matchLen = 0
  matchDist : e.matchDist = 0
  acc : e.acc = 0
  wbits : e.wbits = 0
  outBits : e.outBits = 0
  outCount : e.outCount = 0
  histFill : e.histFill = 0
  outSize : e.outSize = 0
  hbuf : ∀ i, e.hbufByte i = 0
  index : ∀ i, e.link i = -1
  out : ∀ i, e.outByte i = 0

/-- Every register and memory of a decoder but CFG is at its reset value (R27, R28). -/
structure Decoder.AtReset (d : Decoder) : Prop where
  state : d.state = .tagBit
  inSize : d.inSize = 0
  inHead : d.inHead = 0
  curByte : d.curByte = 0
  rbits : d.rbits = 0
  offset : d.offset = 0
  count : d.count = 0
  head : d.head = 0
  outSize : d.outSize = 0
  inp : ∀ i, d.inByte i = 0
  win : ∀ i, d.winByte i = 0
  out : ∀ i, d.outByte i = 0

/-! ### Invariants -/

/-- An encoder's registers are inside their ranges and its memories in canonical form and inside
theirs (R24, R25, R33), with what the state register adds to that. -/
structure Encoder.Inv (e : Encoder) : Prop where
  /-- CFG passed CONSTRUCT's check (R140). -/
  legal : legalEncoder e.cfg
  /-- R33 item 1. -/
  scan : e.msi ≤ e.inputSize
  /-- R33 item 1. -/
  batch : e.inputSize ≤ e.cfg.ibs
  /-- R33 item 2. -/
  outSize : e.outSize ≤ e.cfg.obs
  /-- R33 item 4. -/
  wbits : e.wbits ≤ 7
  /-- R24: the range of E.matchLen. -/
  matchLen : e.matchLen ≤ e.cfg.lookahead
  /-- R24: the range of E.matchDist. -/
  matchDist : e.matchDist ≤ e.cfg.window
  /-- R24: the range of E.outBits. -/
  outBits : e.outBits < 2 ^ 15
  /-- R24: the range of E.outCount. -/
  outCount : e.outCount ≤ 15
  /-- R24: the range of E.histFill. -/
  histFill : e.histFill ≤ e.cfg.window
  /-- R33 item 5. -/
  pendingMatch : 0 < e.matchLen → 1 ≤ e.matchDist ∧ e.msi + e.matchLen ≤ e.inputSize
  /-- A backreference is pending only between SEARCH's choice and the end of its length field. -/
  matchState : 0 < e.matchLen → e.state = .yieldTagBit ∨ e.state = .yieldBrIndex ∨ e.state = .yieldBrLength
  /-- R33 item 7, and a backreference is pending there. -/
  brIndex : e.state = .yieldBrIndex → 0 < e.matchLen ∧ e.outCount ≤ e.cfg.windowBits
  /-- R33 item 7, and a backreference is pending there. -/
  brLength : e.state = .yieldBrLength → 0 < e.matchLen ∧ e.outCount ≤ e.cfg.lookaheadBits
  /-- R151: the scan has passed the literal that is to be emitted. -/
  literal : (e.state = .yieldTagBit ∧ e.matchLen = 0) ∨ e.state = .yieldLiteral → 1 ≤ e.msi
  /-- R142: a waiting encoder has space for a byte, and its scan is at the batch's beginning. -/
  waiting : e.state = .notFull → e.inputSize < e.cfg.ibs ∧ e.msi = 0
  /-- R148: FILLED begins at the batch's beginning. -/
  filled : e.state = .filled → e.msi = 0
  /-- R154: without FINISH only a full batch leaves NOT_FULL. -/
  fullBatch : e.finishing = false → e.state ≠ .notFull → e.inputSize = e.cfg.ibs
  /-- R154: m is at least 1. -/
  backlog : e.state = .saveBacklog → e.inputSize = e.cfg.ibs ∧ 1 ≤ e.msi
  /-- R149: only FINISH leads to the end of the stream. -/
  ending : e.state = .flushBits ∨ e.state = .done → e.finishing = true
  /-- R155: a complete stream leaves no partial byte. -/
  flushed : e.state = .done → e.wbits = 0
  /-- R108: the bits of E.acc below the write position are 0. -/
  accLow : ∀ k, k + e.wbits < 8 → e.acc.getLsbD k = false
  /-- E.HBUF in canonical form. -/
  hbufWf : Memory.wf e.hbuf = true
  /-- E.HBUF inside its index range. -/
  hbufBelow : Cells.below e.cfg.hbufSize e.hbuf = true
  /-- E.OUT in canonical form. -/
  outWf : Memory.wf e.out = true
  /-- E.OUT inside its index range. -/
  outBelow : Cells.below e.cfg.obs e.out = true
  /-- E.INDEX in canonical form. -/
  indexWf : Cells.wf (-1) e.index = true
  /-- E.INDEX inside its index range. -/
  indexBelow : Cells.below e.cfg.hbufSize e.index = true
  /-- R25: an entry is -1 or an index less than its own. -/
  linkDown : ∀ i, -1 ≤ e.link i ∧ e.link i < (i : Int)

/-- A decoder's registers are inside their ranges and its memories in canonical form and inside
theirs (R27, R28, R33), with what the state register adds to that. -/
structure Decoder.Inv (d : Decoder) : Prop where
  /-- CFG passed CONSTRUCT's check (R180). -/
  legal : legalDecoder d.cfg
  /-- R33 item 3. -/
  cursors : d.inHead ≤ d.inSize
  /-- R33 item 3. -/
  inSize : d.inSize ≤ d.cfg.ibs
  /-- R33 item 3: the cursors meet only at 0. -/
  drained : d.inHead = d.inSize → d.inSize = 0
  /-- R33 item 2. -/
  outSize : d.outSize ≤ d.cfg.obs
  /-- R33 item 4. -/
  rbits : d.rbits ≤ 8
  /-- R27: the range of D.offset. -/
  offset : d.offset ≤ d.cfg.window
  /-- R27: the range of D.count. -/
  count : d.count ≤ d.cfg.lookahead
  /-- R189: the MSB states are entered only for wide fields. -/
  indexMsb : d.state = .backrefIndexMsb → 8 < d.cfg.windowBits
  /-- R187, R189: what is assembled so far leaves the low bits free. -/
  indexLsb : d.state = .backrefIndexLsb →
    d.offset % 2 ^ min d.cfg.windowBits 8 = 0 ∧ d.offset + 2 ^ min d.cfg.windowBits 8 ≤ d.cfg.window
  /-- R191: the MSB states are entered only for wide fields. -/
  countMsb : d.state = .backrefCountMsb → 8 < d.cfg.lookaheadBits
  /-- R190, R191: what is assembled so far leaves the low bits free. -/
  countLsb : d.state = .backrefCountLsb →
    d.count % 2 ^ min d.cfg.lookaheadBits 8 = 0 ∧
      d.count + 2 ^ min d.cfg.lookaheadBits 8 ≤ d.cfg.lookahead
  /-- R190: the distance is complete from here on. -/
  distance : d.state = .backrefCountMsb ∨ d.state = .backrefCountLsb ∨ d.state = .yieldBackref →
    1 ≤ d.offset
  /-- R33 item 6. -/
  copying : d.state = .yieldBackref → 1 ≤ d.count
  /-- D.IN in canonical form. -/
  inWf : Memory.wf d.inp = true
  /-- D.IN inside its index range. -/
  inBelow : Cells.below d.cfg.ibs d.inp = true
  /-- D.WIN in canonical form. -/
  winWf : Memory.wf d.win = true
  /-- D.WIN inside its index range; entries the head has not reached yet are still 0 (R123). -/
  winBelow : Cells.below (min d.head d.cfg.window) d.win = true
  /-- D.OUT in canonical form. -/
  outWf : Memory.wf d.out = true
  /-- D.OUT inside its index range. -/
  outBelow : Cells.below d.cfg.obs d.out = true

/-! ### What a bit write, a bit read and an output byte do to an instance -/

/-- What the BitWriter needs of an encoder: its output side in range and in canonical form. -/
structure Encoder.Writable (e : Encoder) : Prop where
  outSize : e.outSize ≤ e.cfg.obs
  wbits : e.wbits ≤ 7
  accLow : ∀ k, k + e.wbits < 8 → e.acc.getLsbD k = false
  outWf : Memory.wf e.out = true
  outBelow : Cells.below e.cfg.obs e.out = true

/-- `e'` is `e` with the stream bits `bits` written after what was written before. -/
structure Encoder.Pushed (bits : List Bool) (e e' : Encoder) : Prop where
  rest : e' = { e with out := e'.out, outSize := e'.outSize, acc := e'.acc, wbits := e'.wbits }
  writable : e'.Writable
  written : e'.written = e.written ++ bits
  total : 8 * e'.outSize + e'.wbits = 8 * e.outSize + e.wbits + bits.length
  kept : ∀ a, a < e.outSize ∨ e'.outSize ≤ a → e'.outByte a = e.outByte a

/-- What the BitReader needs of a decoder: its input side in range. -/
structure Decoder.Readable (d : Decoder) : Prop where
  cursors : d.inHead ≤ d.inSize
  inSize : d.inSize ≤ d.cfg.ibs
  drained : d.inHead = d.inSize → d.inSize = 0
  rbits : d.rbits ≤ 8

/-- `d'` is `d` with the first `n` unread bits taken. -/
structure Decoder.Consumed (n : Nat) (d d' : Decoder) : Prop where
  rest : d' = { d with inHead := d'.inHead, inSize := d'.inSize, curByte := d'.curByte, rbits := d'.rbits }
  readable : d'.Readable
  unread : d'.unread = d.unread.drop n

/-- What the decoder's output side needs: the window and D.OUT in range and in canonical form. -/
structure Decoder.Emittable (d : Decoder) : Prop where
  outSize : d.outSize ≤ d.cfg.obs
  winWf : Memory.wf d.win = true
  winBelow : Cells.below (min d.head d.cfg.window) d.win = true
  outWf : Memory.wf d.out = true
  outBelow : Cells.below d.cfg.obs d.out = true

/-- `d'` is `d` with the bytes `cs` output: appended to the pending bytes and to the window. -/
structure Decoder.Emitted (cs : List Byte) (d d' : Decoder) : Prop where
  rest : d' = { d with win := d'.win, head := d'.head, out := d'.out, outSize := d'.outSize }
  emittable : d'.Emittable
  head : d'.head = d.head + cs.length
  outSize : d'.outSize = d.outSize + cs.length
  pending : d'.pending = d.pending ++ cs
  window : ∀ j, 1 ≤ j → j ≤ d.cfg.window → d'.windowByte j =
    if j ≤ cs.length then cs.getD (cs.length - j) 0 else d.windowByte (j - cs.length)
  kept : ∀ a, a < d.outSize ∨ d'.outSize ≤ a → d'.outByte a = d.outByte a

/-- Both instances are safe. -/
structure State.Inv (s : State) : Prop where
  enc : ∀ e, s.enc = some e → e.Inv
  dec : ∀ d, s.dec = some d → d.Inv

/-- E.INDEX links every position below H + E.inputSize to the nearest earlier position of the same
byte, or to none (R128). -/
def Encoder.Linked (e : Encoder) : Prop :=
  ∀ i, i < e.cfg.window + e.inputSize →
    (e.link i = -1 ∧ ∀ j, j < i → e.hbufByte j ≠ e.hbufByte i) ∨
    (∃ k, k < i ∧ e.link i = (k : Int) ∧ e.hbufByte k = e.hbufByte i ∧
      ∀ j, k < j → j < i → e.hbufByte j ≠ e.hbufByte i)

/-- The states between FILLED and the end of the batch, where E.INDEX is meaningful (R26). -/
def scanning : EncState → Bool
  | .search => true
  | .yieldTagBit => true
  | .yieldLiteral => true
  | .yieldBrIndex => true
  | .yieldBrLength => true
  | _ => false

/-- While a batch is scanned its index is right (R26, R128). -/
def State.LinkedWhileScanning (s : State) : Prop :=
  ∀ e, s.enc = some e → scanning e.state = true → e.Linked

/-- A request of the core's host: a command (R95). -/
def Request.isCommand : Request → Bool
  | .command _ _ => true
  | _ => false

/-- Between the commands of a host that places nothing but commands: POLL leaves the encoder only
where it waits, is complete, is blocked or has just been filled, and a waiting encoder has not been
told to finish (R144, R145, R248). -/
structure State.CommandInv (s : State) : Prop where
  requests : s.requests.all Request.isCommand = true
  rest : ∀ e, s.enc = some e → e.state ≠ .search ∧ e.state ≠ .saveBacklog
  waiting : ∀ e, s.enc = some e → e.state = .notFull → e.finishing = false

/-! ### POLL as a run of handlers (R144, R184) -/

/-- `n` handler steps of an encoder, each selected by E.state (R29). -/
def encRun (p : Params) : Nat → Encoder → Res Encoder
  | 0, e => .ok e
  | n + 1, e => do encRun p n (← encHandler e.state p e)

/-- `n` handler steps of a decoder, each selected by D.state (R29). -/
def decRun : Nat → Decoder → Res Decoder
  | 0, d => .ok d
  | n + 1, d => do decRun n (← decHandler d.state d)

/-- The two states in which POLL runs no handler (R144). -/
def resting (q : EncState) : Bool := q == .notFull || q == .done

/-! ### The longest match (R130) -/

/-- How many bytes from `p` on agree with those from `stop` on, at most `n` (matchlen of R130). -/
def Encoder.agree (e : Encoder) (p stop : Nat) : Nat → Nat
  | 0 => 0
  | n + 1 => if e.hbufByte p = e.hbufByte stop then Encoder.agree e (p + 1) (stop + 1) n + 1 else 0

/-- (best, bestPos) is the pair R130 determines among the candidates [lo, stop): the greatest length,
and the nearest candidate that attains it. -/
def Encoder.BestMatch (e : Encoder) (stop lo maxlen best pos : Nat) : Prop :=
  lo ≤ pos ∧ pos < stop ∧ 0 < best ∧ Encoder.agree e pos stop maxlen = best ∧
    (∀ q, lo ≤ q → q < stop → Encoder.agree e q stop maxlen ≤ best) ∧
    ∀ q, pos < q → q < stop → Encoder.agree e q stop maxlen < best

/-- The lowest candidate position at the scan position, as R132 gives it. -/
def searchLow (p : Params) (e : Encoder) : Nat :=
  if p.zeroHistory then e.cfg.window + e.msi - e.cfg.window
  else e.cfg.window + e.msi - min e.cfg.window (e.histFill + e.msi)

/-! ### An encoder on its way to ENCODE_REF (R124, R125, R158) -/

/-- The virtual stream 0^H ++ x (R124). -/
def virtualStream (ly : Layout) (x : List Byte) : List Byte := List.replicate (2 ^ ly.windowBits) 0 ++ x

/-- The bits of ENCODE_REF's tokens from a position of the virtual stream on (R158). -/
def bitsFrom (p : Params) (ly : Layout) (v : List Byte) (pos : Nat) : List Bool :=
  (tokensFrom p ly v (v.length - pos) pos).flatMap (tokenBits ly)

/-- E.HBUF holds the virtual stream of the accepted bytes `x` from index `c` on, where `c` bytes have
been moved out (R124, R125). -/
structure Encoder.Reads (x : List Byte) (c : Nat) (e : Encoder) : Prop where
  /-- Every accepted byte has been moved out or stands in the batch. -/
  total : c + e.inputSize = x.length
  /-- R124, item 1. -/
  bytes : ∀ i, i < e.cfg.window + e.inputSize → e.hbufByte i = byteAt (virtualStream e.cfg.layout x) (c + i)
  /-- R125: the real input bytes of the history. -/
  fill : e.histFill = min e.cfg.window c

/-- The bits of the token under way that are not written yet, and the batch offset after it (R149 to
R153). -/
def Encoder.underWay (e : Encoder) : List Bool × Nat :=
  match e.state with
  | .yieldTagBit =>
    if e.matchLen = 0 then (litBits (e.hbufByte (e.cfg.window + e.msi - 1)), e.msi)
    else (brefBits e.cfg.layout e.matchDist e.matchLen, e.msi + e.matchLen)
  | .yieldLiteral => (byteBits (e.hbufByte (e.cfg.window + e.msi - 1)), e.msi)
  | .yieldBrIndex =>
    (bitsOf e.outCount e.outBits ++ bitsOf e.cfg.lookaheadBits (e.matchLen - 1), e.msi + e.matchLen)
  | .yieldBrLength => (bitsOf e.outCount e.outBits, e.msi + e.matchLen)
  | _ => ([], e.msi)

/-- The bits an encoder still has to write when the whole virtual stream is `v`. -/
def Encoder.owed (p : Params) (v : List Byte) (c : Nat) (e : Encoder) : List Bool :=
  e.underWay.1 ++ bitsFrom p e.cfg.layout v (c + e.cfg.window + e.underWay.2)

/-- An encoder that has accepted `x` and handed out the bits `drained` is on its way to ENCODE_REF. -/
structure Encoder.Faithful (p : Params) (drained : List Bool) (x : List Byte) (e : Encoder) : Prop where
  inv : e.Inv
  /-- Whole bytes are handed out (R71). -/
  aligned : drained.length % 8 = 0
  /-- E.INDEX is right while a batch is scanned (R26, R128). -/
  linked : scanning e.state = true → e.Linked
  /-- R149: the stream ends where the batch does. -/
  consumed : e.state = .flushBits → e.msi = e.inputSize
  /-- R124, R158: E.HBUF holds what has been accepted, and for every later input the bits handed out,
  written and still to be written are the token bits of ENCODE_REF; after FINISH there is no later
  input. -/
  owes : ∃ c, e.Reads x c ∧ (e.state ≠ .done → ∀ y, (e.finishing = true → y = []) →
    drained ++ e.written ++ e.owed p (virtualStream e.cfg.layout (x ++ y)) c =
      bitsFrom p e.cfg.layout (virtualStream e.cfg.layout (x ++ y)) e.cfg.window)
  /-- R158: a complete stream is ENCODE_REF of the accepted bytes, padding included. -/
  complete : e.state = .done → drained ++ e.written = encodeRef p e.cfg.layout x

/-- The encoder, where there is one, is on its way to ENCODE_REF of some accepted bytes. -/
def State.Faithful (s : State) : Prop :=
  ∀ e, s.enc = some e → ∃ drained x, Encoder.Faithful s.params drained x e

/-! ### Transitions of the state registers (R157, R194) -/

/-- A handler step can take E.state from the first state to the second (R157). -/
def encEdge : EncState → EncState → Bool
  | .notFull, q => q == .notFull
  | .filled, q => q == .search
  | .search, q => q == .saveBacklog || q == .flushBits || q == .yieldTagBit
  | .yieldTagBit, q => q == .yieldTagBit || q == .yieldLiteral || q == .yieldBrIndex
  | .yieldLiteral, q => q == .yieldLiteral || q == .search
  | .yieldBrIndex, q => q == .yieldBrIndex || q == .yieldBrLength
  | .yieldBrLength, q => q == .yieldBrLength || q == .search
  | .saveBacklog, q => q == .notFull
  | .flushBits, q => q == .flushBits || q == .done
  | .done, q => q == .done

/-- A handler step under a configuration can take D.state from the first state to the second (R194). -/
def decEdge (c : Cfg) : DecState → DecState → Bool
  | .tagBit, q => q == .tagBit || q == .yieldLiteral ||
      q == (if 8 < c.windowBits then .backrefIndexMsb else .backrefIndexLsb)
  | .yieldLiteral, q => q == .yieldLiteral || q == .tagBit
  | .backrefIndexMsb, q => q == .backrefIndexMsb || q == .backrefIndexLsb
  | .backrefIndexLsb, q => q == .backrefIndexLsb ||
      q == (if 8 < c.lookaheadBits then .backrefCountMsb else .backrefCountLsb)
  | .backrefCountMsb, q => q == .backrefCountMsb || q == .backrefCountLsb
  | .backrefCountLsb, q => q == .backrefCountLsb || q == .yieldBackref
  | .yieldBackref, q => q == .yieldBackref || q == .tagBit

/-- How many handlers a token's bits go through, the last one copying (R187 to R194). -/
def handlerSteps (c : Cfg) : Instr → Nat
  | .lit _ => 2
  | .bref _ _ => 1 + (if 8 < c.windowBits then 2 else 1) + (if 8 < c.lookaheadBits then 2 else 1) + 1
  | _ => 0

/-! ### Groups of instructions -/

/-- The six commands of a port (R95). -/
def commandOf : Port → Instr → Bool
  | .encoder, .encConstruct _ _ _ _ => true
  | .encoder, .encReset => true
  | .encoder, .encSink _ => true
  | .encoder, .encPoll => true
  | .encoder, .encDrain => true
  | .encoder, .encFinish => true
  | .decoder, .decConstruct _ _ _ _ => true
  | .decoder, .decReset => true
  | .decoder, .decSink _ => true
  | .decoder, .decPoll => true
  | .decoder, .decDrain => true
  | .decoder, .decFinish => true
  | _, _ => false

/-- An encoder handler step (R93). -/
def encoderStep : Instr → Bool
  | .encStepNotFull => true
  | .encStepFilled => true
  | .encStepSearch => true
  | .encStepYieldTagBit => true
  | .encStepYieldLiteral => true
  | .encStepYieldBrIndex => true
  | .encStepYieldBrLength => true
  | .encStepSaveBacklog => true
  | .encStepFlushBits => true
  | .encStepDone => true
  | _ => false

/-- What acts on a port's instance: its commands and its handler steps, and the wire tokens for the
decoder (R80). -/
def actsOn (port : Port) (i : Instr) : Bool :=
  (commandOf .encoder i || encoderStep i) == (port == .encoder)

/-- The commands that carry a stream: all but CONSTRUCT and RESET. -/
def streamOf : Port → Instr → Bool
  | .encoder, .encSink _ => true
  | .encoder, .encPoll => true
  | .encoder, .encDrain => true
  | .encoder, .encFinish => true
  | .decoder, .decSink _ => true
  | .decoder, .decPoll => true
  | .decoder, .decDrain => true
  | .decoder, .decFinish => true
  | _, _ => false

/-! ### Streams: many commands, one after the other (R70, R71) -/

/-- The instructions of a list, one after the other. -/
def execAll : List Instr → State → Host.Outcome State Fault Refusal
  | [], s => .next s
  | i :: rest, s =>
    match exec i s with
    | .next t => execAll rest t
    | .fault x => .fault x
    | .refused x => .refused x

/-- The bytes the SINK commands of a list had accepted, by the responses given to the list (R210). -/
def acceptedBytes : List Instr → List Response → List Byte
  | .encSink data :: rest, r :: rs => data.take r.result.count ++ acceptedBytes rest rs
  | .decSink data :: rest, r :: rs => data.take r.result.count ++ acceptedBytes rest rs
  | _ :: rest, _ :: rs => acceptedBytes rest rs
  | _, _ => []

/-- The bytes handed out by a list of responses (R71). -/
def drainedBytes (rs : List Response) : List Byte :=
  rs.flatMap fun r => match r.result with
    | .drained bytes => bytes
    | _ => []

end Sys2Proof.Machine
end

