-- ==== Sys2Proof/Certificates/Slice0/Obligations.lean ====
section
/-! DEFINITION. The statements for the provers. Where a statement is about an instance, its premise is
the invariant Encoder.Inv or Decoder.Inv (R24, R25, R27, R28, R33); StepKeepsInvariant states that
every step keeps it. -/

open Sys2Proof Sys2Proof.Machine

/-! ### Encodings -/

/-- R82, R83, R93 to R95, R97: no bit of an encoding is dropped, for all 31 instructions. -/
def Obligations.DecodeOfEncode : Prop :=
  ∀ (ly : Layout) (i : Instr), i.wellFormed ly = true → decode ly (encode ly i) = .ok i

/-- R86, R89: a token read off a bit sequence is well formed and its own bits are the front of the
sequence; its first bit fixes its length; and reading fails only where the bits end too early. -/
def Obligations.TokenBoundaries : Prop :=
  ∀ (ly : Layout) (tag : Bool) (bits : List Bool),
    (∀ i rest, decodeToken ly (tag :: bits) = .ok (i, rest) →
      i.wellFormed ly = true ∧ tag :: bits = tokenBits ly i ++ rest ∧
        (tokenBits ly i).length = if tag then 9 else 1 + ly.windowBits + ly.lookaheadBits) ∧
    ((∃ why, decodeToken ly (tag :: bits) = .error why) ↔
      bits.length + 1 < if tag then 9 else 1 + ly.windowBits + ly.lookaheadBits) ∧
    decodeToken ly [] = .error .incompleteToken

/-- R95, R98: a command word decodes exactly when bits 6:3 are 0 and OP is at most 5, to an instruction
whose own word it is, of the unit that bit 7 names. -/
def Obligations.CommandWords : Prop :=
  ∀ (ly : Layout) (word : Byte) (ops : Operands),
    ((∃ i, decode ly (.command word ops) = .ok i) ↔ word.toNat / 8 % 16 = 0 ∧ word.toNat % 8 ≤ 5) ∧
    ∀ i, decode ly (.command word ops) = .ok i →
      i.wellFormed ly = true ∧ commandOf (if word.getLsbD 7 then .decoder else .encoder) i = true ∧
        ∃ ops', encode ly i = .command word ops'

/-- R82, R83, R93, R94, R95, R97: encodings written out from the spec's tables and examples. -/
def Obligations.WrittenOutEncodings : Prop :=
  decode ⟨4, 3⟩ (.token [true, false, true, false, false, false, false, false, true]) = .ok (.lit 0x41) ∧
  decode ⟨4, 3⟩ (.token [false, false, false, false, false, false, true, false]) = .ok (.bref 1 3) ∧
  decode ⟨4, 3⟩ (.token [false, true, true, true, true, true, true, true]) = .ok (.bref 16 8) ∧
  decode ⟨4, 3⟩ (.encState 4) = .ok .encStepYieldLiteral ∧
  decode ⟨4, 3⟩ (.encState 9) = .ok .encStepDone ∧
  decode ⟨4, 3⟩ (.encState 10) = .error .unusedStateCode ∧
  decode ⟨4, 3⟩ (.decState 6) = .ok .decStepYieldBackref ∧
  decode ⟨4, 3⟩ (.decState 7) = .error .unusedStateCode ∧
  decode ⟨4, 3⟩ (.command 0x00 ⟨0x48, 16, 2, []⟩) = .ok (.encConstruct 8 4 16 2) ∧
  decode ⟨4, 3⟩ (.command 0x02 ⟨0, 0, 0, [0x41]⟩) = .ok (.encSink [0x41]) ∧
  decode ⟨4, 3⟩ (.command 0x83 Operands.none) = .ok .decPoll

/-! ### Steps -/

/-- A step is the meaning of the decoded instruction, with the request taken away; with no request the
core does nothing (R237). A command is fetched as it is, a handler step by the state register (R29),
and a token at the decoder's read position. That a handler step or a token can be asked for by itself
is the model's choice (log entry 2). -/
def Obligations.StepRunsDecodedInstruction : Prop :=
  (∀ s : State, s.requests = [] → step s = .next s) ∧
  (∀ (s : State) r rest c i, s.requests = r :: rest → fetch s r = .next c → decode s.layout c = .ok i →
    step s = exec i { s with requests := rest }) ∧
  (∀ (s : State) word ops, fetch s (.command word ops) = .next (.command word ops)) ∧
  (∀ (s : State) e, s.enc = some e → fetch s .encStep = .next (.encState e.state.code)) ∧
  (∀ (s : State) d, s.dec = some d → fetch s .decStep = .next (.decState d.state.code)) ∧
  (∀ (s : State) d, s.dec = some d → d.Inv → fetch s .token = .next (.token d.unread))

/-- R98, R223: a malformed command word is refused, and so is every command but CONSTRUCT on a port
without an instance, which is what a CONSTRUCT that answers CONFIG_ERROR leaves. That it leaves none
even where there was one is read from R98, R140, R221 and D23 against R229 (log entry 7); that the
answer ILLEGAL is a refusal is log entry 4. -/
def Obligations.MalformedCommandsAreRefused : Prop :=
  (∀ (s : State) word ops rest, s.requests = .command word ops :: rest → word.toNat / 8 % 16 ≠ 0 →
    step s = .refused (.illegal .reservedBits)) ∧
  (∀ (s : State) word ops rest, s.requests = .command word ops :: rest → word.toNat / 8 % 16 = 0 →
    6 ≤ word.toNat % 8 → step s = .refused (.illegal .reservedOp)) ∧
  (∀ (s : State) word ops rest, s.requests = .command word ops :: rest → word.toNat / 8 % 16 = 0 →
    word.toNat % 8 ≤ 5 → word.toNat % 8 ≠ 0 →
    (if word.getLsbD 7 then s.dec = none else s.enc = none) → step s = .refused .noInstance) ∧
  (∀ (s t : State) w l ibs obs, exec (.encConstruct w l ibs obs) s = .next t →
    t.responses = s.responses ++ [⟨.encoder, .configError⟩] → t.enc = none) ∧
  (∀ (s t : State) w l ibs obs, exec (.decConstruct w l ibs obs) s = .next t →
    t.responses = s.responses ++ [⟨.decoder, .configError⟩] → t.dec = none)

/-- The model's choice (log entry 5): a handler step runs only in the state that selects it (R29, R99),
a token only at the beginning of a token (R187) and only when its fields fit (R84), and neither without
an instance; a backreference's fields are then judged by the smallest layout. -/
def Obligations.StepsOutsideTheirState : Prop :=
  (∀ (s : State) e q, s.enc = some e → e.state ≠ q → exec q.instr s = .refused .stepNotSelected) ∧
  (∀ (s : State) d q, s.dec = some d → d.state ≠ q → exec q.instr s = .refused .stepNotSelected) ∧
  (∀ (s : State) d b, s.dec = some d → d.state ≠ .tagBit → exec (.lit b) s = .refused .tokenNotExpected) ∧
  (∀ (s : State) d dist n, s.dec = some d → brefFits d.cfg.layout dist n = true → d.state ≠ .tagBit →
    exec (.bref dist n) s = .refused .tokenNotExpected) ∧
  (∀ (s : State) d dist n, s.dec = some d → brefFits d.cfg.layout dist n = false →
    exec (.bref dist n) s = .refused .tokenNotEncodable) ∧
  (∀ (s : State) q, s.enc = none → exec (EncState.instr q) s = .refused .noInstance) ∧
  (∀ (s : State) q, s.dec = none → exec (DecState.instr q) s = .refused .noInstance) ∧
  (∀ (s : State) b, s.dec = none → exec (.lit b) s = .refused .noInstance) ∧
  (∀ (s : State) dist n, s.dec = none → brefFits Layout.smallest dist n = true →
    exec (.bref dist n) s = .refused .noInstance) ∧
  (∀ (s : State) dist n, s.dec = none → brefFits Layout.smallest dist n = false →
    exec (.bref dist n) s = .refused .tokenNotEncodable)

/-! ### Invariants and whole-machine rules -/

/-- R240: before any command there is no instance; the open parameters are at their defaults (R9). -/
def Obligations.ResetHoldsNoInstance : Prop :=
  State.reset.enc = none ∧ State.reset.dec = none ∧ State.reset.params.zeroHistory = true ∧
    State.reset.params.finishInLiteral = .more

/-- R33: the invariants hold before any command. -/
def Obligations.InvariantsAtReset : Prop :=
  State.reset.Inv ∧ State.reset.LinkedWhileScanning ∧ State.reset.CommandInv

/-- R33's seven items, the ranges of R24, R25, R27 and R28, and what the state registers add to them:
every step keeps them all. That the memories stay in canonical form belongs to the model (log entry
9). -/
def Obligations.StepKeepsInvariant : Prop :=
  ∀ s t : State, s.Inv → step s = .next t → t.Inv

/-- R26, R128: while a batch is scanned, E.INDEX is the backward-link table of what E.HBUF holds. -/
def Obligations.StepKeepsIndexRight : Prop :=
  ∀ s t : State, s.Inv → s.LinkedWhileScanning → step s = .next t → t.LinkedWhileScanning

/-- R145, R213, R248: under a host that places commands only, between commands the encoder is never in
SEARCH or SAVE_BACKLOG, and one that waits for input has not been told to finish. -/
def Obligations.CommandsKeepEncoderAtRest : Prop :=
  ∀ s t : State, s.Inv → s.CommandInv → step s = .next t → t.CommandInv

/-- R10, R60, R106, R160, R199: no access outside a memory, no negative difference, no getBits outside
1 to 15 and no loop past its bound, whatever the instruction. -/
def Obligations.NoFaultWithinInvariant : Prop :=
  ∀ (i : Instr) (s : State) (x : Fault), s.Inv → exec i s ≠ .fault x

/-- R22: only CONSTRUCT writes CFG, and nothing changes the open parameters (R9). -/
def Obligations.ConfigurationIsImmutable : Prop :=
  ∀ (i : Instr) (s t : State), exec i s = .next t → t.params = s.params ∧
    ((∀ w l ibs obs, i ≠ .encConstruct w l ibs obs) → t.enc.map Encoder.cfg = s.enc.map Encoder.cfg) ∧
    ((∀ w l ibs obs, i ≠ .decConstruct w l ibs obs) → t.dec.map Decoder.cfg = s.dec.map Decoder.cfg)

/-- R20, R235: what acts on one port changes nothing of the other instance and depends on nothing of
it, on no request and on no earlier response. One instance on each port is the model's choice (log
entry 1). -/
def Obligations.InstancesShareNothing : Prop :=
  (∀ (i : Instr) (s t : State), actsOn .encoder i = true → exec i s = .next t → t.dec = s.dec) ∧
  (∀ (i : Instr) (s t : State), actsOn .decoder i = true → exec i s = .next t → t.enc = s.enc) ∧
  (∀ (i : Instr) (s s' t : State), actsOn .encoder i = true → s.params = s'.params → s.enc = s'.enc →
    exec i s = .next t → ∃ t' rs, exec i s' = .next t' ∧ t'.enc = t.enc ∧
      t.responses = s.responses ++ rs ∧ t'.responses = s'.responses ++ rs) ∧
  (∀ (i : Instr) (s s' t : State), actsOn .decoder i = true → s.params = s'.params → s.dec = s'.dec →
    exec i s = .next t → ∃ t' rs, exec i s' = .next t' ∧ t'.dec = t.dec ∧
      t.responses = s.responses ++ rs ∧ t'.responses = s'.responses ++ rs)

/-- R66, R95: a command is answered with one response at its port, a handler step and a token with
none, and no instruction touches the requests that wait. -/
def Obligations.OneResponsePerCommand : Prop :=
  ∀ (i : Instr) (s t : State), exec i s = .next t → t.requests = s.requests ∧
    (∀ port, commandOf port i = true → ∃ r, t.responses = s.responses ++ [⟨port, r⟩]) ∧
    (commandOf .encoder i = false → commandOf .decoder i = false → t.responses = s.responses)

/-- R30: FINISH sets E.finishing, only CONSTRUCT and RESET clear it, and nothing else writes it. -/
def Obligations.FinishingFlag : Prop :=
  ∀ (i : Instr) (s t : State) (e e' : Encoder), s.enc = some e → t.enc = some e' → exec i s = .next t →
    e'.finishing = match i with
      | .encFinish => true
      | .encReset => false
      | .encConstruct _ _ _ _ => false
      | _ => e.finishing

/-- R157: the transitions of E.state, POLL being a run of handler steps. -/
def Obligations.EncoderTransitions : Prop :=
  (∀ (q : EncState) (s t : State) (e e' : Encoder), s.enc = some e → t.enc = some e' →
    exec q.instr s = .next t → encEdge e.state e'.state = true) ∧
  (∀ (s t : State) (e e' : Encoder) data, s.enc = some e → t.enc = some e' →
    exec (.encSink data) s = .next t →
    e'.state = e.state ∨ e.state = .notFull ∧ e'.state = .filled ∧ e'.inputSize = e'.cfg.ibs) ∧
  (∀ (s t : State) (e e' : Encoder), s.enc = some e → t.enc = some e' → exec .encFinish s = .next t →
    e'.state = if e.state = .notFull then .filled else e.state) ∧
  (∀ (s t : State) (e e' : Encoder), s.enc = some e → t.enc = some e' → exec .encDrain s = .next t →
    e'.state = e.state) ∧
  (∀ (s t : State) (e e' : Encoder), s.enc = some e → t.enc = some e' → exec .encReset s = .next t →
    e'.state = .notFull)

/-- R194: the transitions of D.state, POLL being a run of handler steps. -/
def Obligations.DecoderTransitions : Prop :=
  (∀ (q : DecState) (s t : State) (d d' : Decoder), s.dec = some d → t.dec = some d' →
    exec q.instr s = .next t → decEdge d.cfg d.state d'.state = true) ∧
  (∀ (i : Instr) (s t : State) (d d' : Decoder), s.dec = some d → t.dec = some d' → exec i s = .next t →
    i = .decDrain ∨ i = .decFinish ∨ (∃ data, i = .decSink data) → d'.state = d.state) ∧
  (∀ (s t : State) (d d' : Decoder), s.dec = some d → t.dec = some d' → exec .decReset s = .next t →
    d'.state = .tagBit)

/-! ### CONSTRUCT and RESET -/

/-- R140, R35: an encoder in its reset state under the operands, or CONFIG_ERROR and no instance, even
where there was one (log entry 7). -/
def Obligations.EncoderConstruct : Prop :=
  ∀ (w l ibs obs : Nat) (s : State),
    (4 ≤ w ∧ w ≤ 15 ∧ 3 ≤ l ∧ l + 1 ≤ w ∧ 2 ^ l ≤ ibs ∧ 1 ≤ obs →
      ∃ e, exec (.encConstruct w l ibs obs) s = .next ((s.setEnc (some e)).respond .encoder .ok) ∧
        e.cfg = ⟨w, l, ibs, obs⟩ ∧ e.AtReset) ∧
    (¬ (4 ≤ w ∧ w ≤ 15 ∧ 3 ≤ l ∧ l + 1 ≤ w ∧ 2 ^ l ≤ ibs ∧ 1 ≤ obs) →
      exec (.encConstruct w l ibs obs) s = .next ((s.setEnc none).respond .encoder .configError))

/-- R180, R35: a decoder in its reset state under the operands, or CONFIG_ERROR and no instance, even
where there was one (log entry 7). -/
def Obligations.DecoderConstruct : Prop :=
  ∀ (w l ibs obs : Nat) (s : State),
    (4 ≤ w ∧ w ≤ 15 ∧ 3 ≤ l ∧ l + 1 ≤ w ∧ 1 ≤ ibs ∧ 1 ≤ obs →
      ∃ d, exec (.decConstruct w l ibs obs) s = .next ((s.setDec (some d)).respond .decoder .ok) ∧
        d.cfg = ⟨w, l, ibs, obs⟩ ∧ d.AtReset) ∧
    (¬ (4 ≤ w ∧ w ≤ 15 ∧ 3 ≤ l ∧ l + 1 ≤ w ∧ 1 ≤ ibs ∧ 1 ≤ obs) →
      exec (.decConstruct w l ibs obs) s = .next ((s.setDec none).respond .decoder .configError))

/-- R141, R164: RESET returns every register and memory of the encoder but CFG to its reset value, in
every state, and leaves what CONSTRUCT leaves with the same configuration. -/
def Obligations.EncoderReset : Prop :=
  ∀ (s : State) (e : Encoder), s.enc = some e →
    ∃ e', exec .encReset s = .next ((s.setEnc (some e')).respond .encoder .ok) ∧ e'.cfg = e.cfg ∧
      e'.AtReset ∧
      (e.Inv → exec (.encConstruct e.cfg.windowBits e.cfg.lookaheadBits e.cfg.ibs e.cfg.obs) s =
        .next ((s.setEnc (some e')).respond .encoder .ok))

/-- R181, R200: RESET returns every register and memory of the decoder but CFG to its reset value, in
every state, and leaves what CONSTRUCT leaves with the same configuration. -/
def Obligations.DecoderReset : Prop :=
  ∀ (s : State) (d : Decoder), s.dec = some d →
    ∃ d', exec .decReset s = .next ((s.setDec (some d')).respond .decoder .ok) ∧ d'.cfg = d.cfg ∧
      d'.AtReset ∧
      (d.Inv → exec (.decConstruct d.cfg.windowBits d.cfg.lookaheadBits d.cfg.ibs d.cfg.obs) s =
        .next ((s.setDec (some d')).respond .decoder .ok))

/-! ### SINK, DRAIN and FINISH -/

/-- R142: an accepting encoder takes as many bytes as fit behind the batch, and is FILLED when that
fills it; nothing else changes. -/
def Obligations.EncoderSinkAccepted : Prop :=
  ∀ (s : State) (e : Encoder) (data : List Byte), s.enc = some e → e.Inv → e.finishing = false →
    e.state = .notFull →
    ∃ e', exec (.encSink data) s = .next ((s.setEnc (some e')).respond .encoder
        (.accepted (min (e.cfg.ibs - e.inputSize) data.length))) ∧
      e' = { e with
        hbuf := e'.hbuf,
        inputSize := e.inputSize + min (e.cfg.ibs - e.inputSize) data.length,
        state := if min (e.cfg.ibs - e.inputSize) data.length = e.cfg.ibs - e.inputSize
          then .filled else .notFull } ∧
      (∀ k, k < min (e.cfg.ibs - e.inputSize) data.length →
        e'.hbufByte (e.cfg.window + e.inputSize + k) = data.getD k 0) ∧
      ∀ a, a < e.cfg.window + e.inputSize ∨
          e.cfg.window + e.inputSize + min (e.cfg.ibs - e.inputSize) data.length ≤ a →
        e'.hbufByte a = e.hbufByte a

/-- R143: an encoder that is not accepting answers MISUSE and changes nothing. That MISUSE is a value
after which the run goes on, and no fault, is the model's choice between R224's two treatments (log
entry 6). -/
def Obligations.EncoderSinkRefused : Prop :=
  ∀ (s : State) (e : Encoder) (data : List Byte), s.enc = some e →
    e.finishing = true ∨ e.state ≠ .notFull → exec (.encSink data) s = .next (s.respond .encoder .misuse)

/-- R182, R101: the decoder takes as many bytes as fit behind the unread ones; nothing else changes. -/
def Obligations.DecoderSinkAccepted : Prop :=
  ∀ (s : State) (d : Decoder) (data : List Byte), s.dec = some d → d.Inv → d.inSize < d.cfg.ibs →
    ∃ d', exec (.decSink data) s = .next ((s.setDec (some d')).respond .decoder
        (.accepted (min (d.cfg.ibs - d.inSize) data.length))) ∧
      d' = { d with inp := d'.inp, inSize := d.inSize + min (d.cfg.ibs - d.inSize) data.length } ∧
      (∀ k, k < min (d.cfg.ibs - d.inSize) data.length → d'.inByte (d.inSize + k) = data.getD k 0) ∧
      ∀ a, a < d.inSize ∨ d.inSize + min (d.cfg.ibs - d.inSize) data.length ≤ a →
        d'.inByte a = d.inByte a

/-- R183: a decoder without input space answers FULL and changes nothing. -/
def Obligations.DecoderSinkFull : Prop :=
  ∀ (s : State) (d : Decoder) (data : List Byte), s.dec = some d → d.inSize = d.cfg.ibs →
    exec (.decSink data) s = .next (s.respond .decoder .full)

/-- R146, R186, R113: DRAIN answers the pending bytes, first byte first, and empties the buffer by its
cursor alone; the bytes and everything else stay. -/
def Obligations.Drains : Prop :=
  (∀ (s : State) (e : Encoder), s.enc = some e → e.Inv →
    exec .encDrain s = .next ((s.setEnc (some { e with outSize := 0 })).respond .encoder
      (.drained ((List.range e.outSize).map e.outByte)))) ∧
  (∀ (s : State) (d : Decoder), s.dec = some d → d.Inv →
    exec .decDrain s = .next ((s.setDec (some { d with outSize := 0 })).respond .decoder
      (.drained ((List.range d.outSize).map d.outByte))))

/-- R145: FINISH sets E.finishing, takes NOT_FULL to FILLED and no other state anywhere, and answers
DONE in DONE and MORE elsewhere. -/
def Obligations.EncoderFinish : Prop :=
  ∀ (s : State) (e : Encoder), s.enc = some e →
    exec .encFinish s = .next ((s.setEnc (some { e with
        finishing := true, state := if e.state = .notFull then .filled else e.state })).respond .encoder
      (if e.state = .done then .done else .more))

/-- R185: the decoder's FINISH changes nothing and answers by its state and the whole bytes buffered. -/
def Obligations.DecoderFinish : Prop :=
  ∀ (s : State) (d : Decoder), s.dec = some d → d.Inv →
    (d.state = .tagBit ∨ d.state = .backrefIndexMsb ∨ d.state = .backrefIndexLsb ∨
        d.state = .backrefCountMsb ∨ d.state = .backrefCountLsb →
      exec .decFinish s = .next (s.respond .decoder (if d.inSize - d.inHead = 0 then .done else .more))) ∧
    (d.state = .yieldLiteral →
      exec .decFinish s = .next (s.respond .decoder
        (if s.params.finishInLiteral = .doneIfEmpty ∧ d.inSize - d.inHead = 0 then .done else .more))) ∧
    (d.state = .yieldBackref → exec .decFinish s = .next (s.respond .decoder .more))

/-! ### POLL -/

/-- R144, R160: POLL runs handlers, each selected by E.state, until E.state is NOT_FULL or DONE
(POLL_EMPTY) or a handler has left E.state unchanged with E.OUT full (POLL_MORE); it stops at the
first such point, within the bound. -/
def Obligations.EncoderPoll : Prop :=
  ∀ (s : State) (e : Encoder), s.enc = some e → e.Inv →
    ∃ n e' r, n ≤ 8 * (e.cfg.ibs + 1) * (4 + (e.cfg.windowBits + 7) / 8 + (e.cfg.lookaheadBits + 7) / 8) + 4 ∧
      encRun s.params n e = .ok e' ∧
      exec .encPoll s = .next ((s.setEnc (some e')).respond .encoder r) ∧
      ((r = .pollEmpty ∧ (e'.state = .notFull ∨ e'.state = .done)) ∨
        (r = .pollMore ∧ e'.outSize = e'.cfg.obs ∧ e'.state ≠ .notFull ∧ e'.state ≠ .done ∧
          ∃ m e1, n = m + 1 ∧ encRun s.params m e = .ok e1 ∧ e1.state = e'.state)) ∧
      ∀ m, m < n → ∃ a, encRun s.params m e = .ok a ∧ a.state ≠ .notFull ∧ a.state ≠ .done ∧
        ∀ b, m + 1 < n → encRun s.params (m + 1) e = .ok b → ¬ (b.state = a.state ∧ b.outSize = b.cfg.obs)

/-- R184, R199: POLL runs handlers, each selected by D.state, up to and including the first that leaves
D.state unchanged, within the bound, and answers POLL_MORE when D.OUT is full then and POLL_EMPTY
otherwise. -/
def Obligations.DecoderPoll : Prop :=
  ∀ (s : State) (d : Decoder), s.dec = some d → d.Inv →
    ∃ n d1 d', n + 1 ≤ 8 * d.cfg.ibs + d.cfg.obs + 9 ∧ decRun n d = .ok d1 ∧
      decHandler d1.state d1 = .ok d' ∧ d'.state = d1.state ∧
      exec .decPoll s = .next ((s.setDec (some d')).respond .decoder
        (if d'.outSize = d'.cfg.obs then .pollMore else .pollEmpty)) ∧
      ∀ m, m < n → ∃ a b, decRun m d = .ok a ∧ decRun (m + 1) d = .ok b ∧ b.state ≠ a.state

/-- R67, R246: a POLL right after a POLL changes nothing and answers the same. -/
def Obligations.PollIsIdempotent : Prop :=
  (∀ (s t u : State), s.Inv → exec .encPoll s = .next t → exec .encPoll t = .next u →
    u.enc = t.enc ∧ ∃ r, t.responses = s.responses ++ [r] ∧ u.responses = t.responses ++ [r]) ∧
  (∀ (s t u : State), s.Inv → exec .decPoll s = .next t → exec .decPoll t = .next u →
    u.dec = t.dec ∧ ∃ r, t.responses = s.responses ++ [r] ∧ u.responses = t.responses ++ [r])

/-! ### The encoder's handlers -/

/-- R147, R156: NOT_FULL and DONE run no handler and change nothing; that their rows of the opcode table
are steps without an effect is log entry 18. -/
def Obligations.EncoderRestingSteps : Prop :=
  ∀ (s : State) (e : Encoder), s.enc = some e →
    (e.state = .notFull → exec .encStepNotFull s = .next s) ∧
    (e.state = .done → exec .encStepDone s = .next s)

/-- R148, R127, R128: FILLED links every position below H + E.inputSize to the nearest earlier position
of the same byte, leaves the entries above, and goes to SEARCH; nothing else changes. -/
def Obligations.EncoderFilled : Prop :=
  ∀ (s : State) (e : Encoder), s.enc = some e → e.Inv → e.state = .filled →
    ∃ e', exec .encStepFilled s = .next (s.setEnc (some e')) ∧
      e' = { e with index := e'.index, state := .search } ∧
      (∀ i, i < e.cfg.window + e.inputSize →
        (e'.link i = -1 ∧ ∀ j, j < i → e.hbufByte j ≠ e.hbufByte i) ∨
        (∃ k, k < i ∧ e'.link i = (k : Int) ∧ e.hbufByte k = e.hbufByte i ∧
          ∀ j, k < j → j < i → e.hbufByte j ≠ e.hbufByte i)) ∧
      ∀ i, e.cfg.window + e.inputSize ≤ i → e'.link i = e.link i

/-- R149, R130 to R132: SEARCH ends the batch when too few bytes are left, and otherwise decides a
backreference to the longest, nearest match when it pays, and a literal when it does not; nothing
else changes. -/
def Obligations.EncoderSearch : Prop :=
  ∀ (s : State) (e : Encoder), s.enc = some e → e.Inv → e.Linked → e.state = .search →
    (e.inputSize < e.msi + (if e.finishing then 1 else e.cfg.lookahead) →
      exec .encStepSearch s = .next (s.setEnc (some { e with
        state := if e.finishing then .flushBits else .saveBacklog }))) ∧
    (e.msi + (if e.finishing then 1 else e.cfg.lookahead) ≤ e.inputSize →
      (∀ best pos, e.BestMatch (e.cfg.window + e.msi) (searchLow s.params e)
          (min e.cfg.lookahead (e.inputSize - e.msi)) best pos →
        1 + e.cfg.windowBits + e.cfg.lookaheadBits < 8 * best →
        exec .encStepSearch s = .next (s.setEnc (some { e with
          matchLen := best, matchDist := e.cfg.window + e.msi - pos, state := .yieldTagBit }))) ∧
      ((∀ best pos, e.BestMatch (e.cfg.window + e.msi) (searchLow s.params e)
          (min e.cfg.lookahead (e.inputSize - e.msi)) best pos →
        8 * best ≤ 1 + e.cfg.windowBits + e.cfg.lookaheadBits) →
        exec .encStepSearch s = .next (s.setEnc (some { e with
          msi := e.msi + 1, matchLen := 0, state := .yieldTagBit }))))

/-- R150: the tag bit 1 before a literal, or 0 with the distance field loaded; a stall without room. -/
def Obligations.EncoderYieldTagBit : Prop :=
  ∀ (s : State) (e : Encoder), s.enc = some e → e.Inv → e.state = .yieldTagBit →
    (e.outSize = e.cfg.obs → exec .encStepYieldTagBit s = .next s) ∧
    (e.outSize < e.cfg.obs → e.matchLen = 0 → ∃ e1, Encoder.Pushed [true] e e1 ∧
      exec .encStepYieldTagBit s = .next (s.setEnc (some { e1 with state := .yieldLiteral }))) ∧
    (e.outSize < e.cfg.obs → 0 < e.matchLen → ∃ e1, Encoder.Pushed [false] e e1 ∧
      exec .encStepYieldTagBit s = .next (s.setEnc (some { e1 with
        outBits := e.matchDist - 1, outCount := e.cfg.windowBits, state := .yieldBrIndex })))

/-- R151: the eight bits of the byte before the scan position; a stall without room. -/
def Obligations.EncoderYieldLiteral : Prop :=
  ∀ (s : State) (e : Encoder), s.enc = some e → e.Inv → e.state = .yieldLiteral →
    (e.outSize = e.cfg.obs → exec .encStepYieldLiteral s = .next s) ∧
    (e.outSize < e.cfg.obs → ∃ e1,
      Encoder.Pushed (byteBits (e.hbufByte (e.cfg.window + e.msi - 1))) e e1 ∧
      exec .encStepYieldLiteral s = .next (s.setEnc (some { e1 with state := .search })))

/-- R152, R111: up to eight of the distance field's remaining bits, or, when none is left, the length
field loaded; a stall without room in either case. -/
def Obligations.EncoderYieldBrIndex : Prop :=
  ∀ (s : State) (e : Encoder), s.enc = some e → e.Inv → e.state = .yieldBrIndex →
    (e.outSize = e.cfg.obs → exec .encStepYieldBrIndex s = .next s) ∧
    (e.outSize < e.cfg.obs → 0 < e.outCount → ∃ e1,
      Encoder.Pushed ((bitsOf e.outCount e.outBits).take 8) e e1 ∧
      exec .encStepYieldBrIndex s =
        .next (s.setEnc (some { e1 with outCount := e.outCount - min 8 e.outCount }))) ∧
    (e.outSize < e.cfg.obs → e.outCount = 0 →
      exec .encStepYieldBrIndex s = .next (s.setEnc (some { e with
        outBits := e.matchLen - 1, outCount := e.cfg.lookaheadBits, state := .yieldBrLength })))

/-- R153, R111: up to eight of the length field's remaining bits, or, when none is left, the matched
bytes consumed; a stall without room in either case. -/
def Obligations.EncoderYieldBrLength : Prop :=
  ∀ (s : State) (e : Encoder), s.enc = some e → e.Inv → e.state = .yieldBrLength →
    (e.outSize = e.cfg.obs → exec .encStepYieldBrLength s = .next s) ∧
    (e.outSize < e.cfg.obs → 0 < e.outCount → ∃ e1,
      Encoder.Pushed ((bitsOf e.outCount e.outBits).take 8) e e1 ∧
      exec .encStepYieldBrLength s =
        .next (s.setEnc (some { e1 with outCount := e.outCount - min 8 e.outCount }))) ∧
    (e.outSize < e.cfg.obs → e.outCount = 0 →
      exec .encStepYieldBrLength s = .next (s.setEnc (some { e with
        msi := e.msi + e.matchLen, matchLen := 0, state := .search })))

/-- R154: SAVE_BACKLOG moves everything from the scan position minus H on down by E.msi and waits for
input; bytes above the moved ones stay, and nothing else changes. -/
def Obligations.EncoderSaveBacklog : Prop :=
  ∀ (s : State) (e : Encoder), s.enc = some e → e.Inv → e.state = .saveBacklog →
    ∃ e', exec .encStepSaveBacklog s = .next (s.setEnc (some e')) ∧
      e' = { e with
        hbuf := e'.hbuf, inputSize := e.inputSize - e.msi, msi := 0,
        histFill := min e.cfg.window (e.histFill + e.msi), state := .notFull } ∧
      (∀ i, i < e.cfg.window + e.inputSize - e.msi → e'.hbufByte i = e.hbufByte (e.msi + i)) ∧
      ∀ i, e.cfg.window + e.inputSize - e.msi ≤ i → e'.hbufByte i = e.hbufByte i

/-- R155, R110: FLUSH_BITS goes to DONE at once when the stream is byte-aligned, and otherwise writes
the partial byte out, padded with zeros, when there is room. -/
def Obligations.EncoderFlushBits : Prop :=
  ∀ (s : State) (e : Encoder), s.enc = some e → e.Inv → e.state = .flushBits →
    (e.wbits = 0 → exec .encStepFlushBits s = .next (s.setEnc (some { e with state := .done }))) ∧
    (0 < e.wbits → e.outSize = e.cfg.obs → exec .encStepFlushBits s = .next s) ∧
    (0 < e.wbits → e.outSize < e.cfg.obs → ∃ e1,
      Encoder.Pushed (List.replicate (8 - e.wbits) false) e e1 ∧ e1.wbits = 0 ∧ e1.acc = 0 ∧
      exec .encStepFlushBits s = .next (s.setEnc (some { e1 with state := .done })))

/-! ### The decoder's handlers -/

/-- R105, R102, R103: getBits is all or nothing. With fewer than n bits unread it answers none; else it
answers the number they spell, and a byte is loaded from D.IN exactly when no bit of the last one is
left, both cursors going back to 0 when the last byte is loaded. -/
def Obligations.GetBits : Prop :=
  ∀ (d : Decoder) (n : Nat), d.Inv → 1 ≤ n → n ≤ 15 →
    (d.unread.length < n → Decoder.getBits n d = .ok none) ∧
    (n ≤ d.unread.length → ∃ d', Decoder.getBits n d = .ok (some (numberFrom 0 (d.unread.take n), d')) ∧
      d'.unread = d.unread.drop n ∧
      d' = { d with
        rbits := d.rbits + 8 * ((n - d.rbits + 7) / 8) - n,
        curByte := if n ≤ d.rbits then d.curByte else d.inByte (d.inHead + (n - d.rbits + 7) / 8 - 1),
        inHead := if d.inHead + (n - d.rbits + 7) / 8 = d.inSize then 0
          else d.inHead + (n - d.rbits + 7) / 8,
        inSize := if d.inHead + (n - d.rbits + 7) / 8 = d.inSize then 0 else d.inSize })

/-- R187: TAG_BIT takes one bit and goes by it; nothing else changes, and nothing at all without one. -/
def Obligations.DecoderTagBit : Prop :=
  ∀ (s : State) (d : Decoder), s.dec = some d → d.Inv → d.state = .tagBit →
    (d.unread = [] → exec .decStepTagBit s = .next s) ∧
    (∀ b rest, d.unread = b :: rest → ∃ d1, Decoder.getBits 1 d = .ok (some (b.toNat, d1)) ∧
      Decoder.Consumed 1 d d1 ∧
      exec .decStepTagBit s = .next (s.setDec (some (
        if b then { d1 with state := .yieldLiteral }
        else if 8 < d.cfg.windowBits then { d1 with state := .backrefIndexMsb }
        else { d1 with offset := 0, state := .backrefIndexLsb }))))

/-- R188: YIELD_LITERAL takes eight bits and outputs the byte they spell, when there is room and they
are there; nothing changes otherwise. -/
def Obligations.DecoderYieldLiteral : Prop :=
  ∀ (s : State) (d : Decoder), s.dec = some d → d.Inv → d.state = .yieldLiteral →
    (d.outSize = d.cfg.obs ∨ d.unread.length < 8 → exec .decStepYieldLiteral s = .next s) ∧
    (∀ b rest, d.outSize < d.cfg.obs → d.unread = byteBits b ++ rest → ∃ d1 d2,
      Decoder.getBits 8 d = .ok (some (b.toNat, d1)) ∧ Decoder.Consumed 8 d d1 ∧
      Decoder.Emitted [b] d1 d2 ∧
      exec .decStepYieldLiteral s = .next (s.setDec (some { d2 with state := .tagBit })))

/-- R189, R191: the MSB states take the upper bits of a wide field; nothing else changes, and nothing at
all without the bits. -/
def Obligations.DecoderFieldMsb : Prop :=
  (∀ (s : State) (d : Decoder), s.dec = some d → d.Inv → d.state = .backrefIndexMsb →
    (d.unread.length < d.cfg.windowBits - 8 → exec .decStepBackrefIndexMsb s = .next s) ∧
    (d.cfg.windowBits - 8 ≤ d.unread.length → ∃ d1 v,
      Decoder.getBits (d.cfg.windowBits - 8) d = .ok (some (v, d1)) ∧
      Decoder.Consumed (d.cfg.windowBits - 8) d d1 ∧ v = numberFrom 0 (d.unread.take (d.cfg.windowBits - 8)) ∧
      exec .decStepBackrefIndexMsb s = .next (s.setDec (some { d1 with
        offset := 256 * v, state := .backrefIndexLsb })))) ∧
  (∀ (s : State) (d : Decoder), s.dec = some d → d.Inv → d.state = .backrefCountMsb →
    (d.unread.length < d.cfg.lookaheadBits - 8 → exec .decStepBackrefCountMsb s = .next s) ∧
    (d.cfg.lookaheadBits - 8 ≤ d.unread.length → ∃ d1 v,
      Decoder.getBits (d.cfg.lookaheadBits - 8) d = .ok (some (v, d1)) ∧
      Decoder.Consumed (d.cfg.lookaheadBits - 8) d d1 ∧
      v = numberFrom 0 (d.unread.take (d.cfg.lookaheadBits - 8)) ∧
      exec .decStepBackrefCountMsb s = .next (s.setDec (some { d1 with
        count := 256 * v, state := .backrefCountLsb }))))

/-- R190: the low bits of the distance field complete the distance, stored value plus one. -/
def Obligations.DecoderIndexLsb : Prop :=
  ∀ (s : State) (d : Decoder), s.dec = some d → d.Inv → d.state = .backrefIndexLsb →
    (d.unread.length < min d.cfg.windowBits 8 → exec .decStepBackrefIndexLsb s = .next s) ∧
    (min d.cfg.windowBits 8 ≤ d.unread.length → ∃ d1 v,
      Decoder.getBits (min d.cfg.windowBits 8) d = .ok (some (v, d1)) ∧
      Decoder.Consumed (min d.cfg.windowBits 8) d d1 ∧
      v = numberFrom 0 (d.unread.take (min d.cfg.windowBits 8)) ∧ (d.offset ||| v) = d.offset + v ∧
      exec .decStepBackrefIndexLsb s = .next (s.setDec (some { d1 with
        offset := d.offset + v + 1, count := 0,
        state := if 8 < d.cfg.lookaheadBits then .backrefCountMsb else .backrefCountLsb })))

/-- R192: the low bits of the length field complete the length, stored value plus one. -/
def Obligations.DecoderCountLsb : Prop :=
  ∀ (s : State) (d : Decoder), s.dec = some d → d.Inv → d.state = .backrefCountLsb →
    (d.unread.length < min d.cfg.lookaheadBits 8 → exec .decStepBackrefCountLsb s = .next s) ∧
    (min d.cfg.lookaheadBits 8 ≤ d.unread.length → ∃ d1 v,
      Decoder.getBits (min d.cfg.lookaheadBits 8) d = .ok (some (v, d1)) ∧
      Decoder.Consumed (min d.cfg.lookaheadBits 8) d d1 ∧
      v = numberFrom 0 (d.unread.take (min d.cfg.lookaheadBits 8)) ∧ (d.count ||| v) = d.count + v ∧
      exec .decStepBackrefCountLsb s = .next (s.setDec (some { d1 with
        count := d.count + v + 1, state := .yieldBackref })))

/-- R193, R122: YIELD_BACKREF outputs as many of the owed bytes as D.OUT has room for, each the byte
D.offset positions before it, which may be one it has just output; it goes to TAG_BIT when none is
owed any more. -/
def Obligations.DecoderYieldBackref : Prop :=
  ∀ (s : State) (d : Decoder), s.dec = some d → d.Inv → d.state = .yieldBackref →
    ∃ d1 cs, Decoder.Emitted cs d d1 ∧ cs.length = min (d.cfg.obs - d.outSize) d.count ∧
      (∀ i, i < cs.length → cs.getD i 0 =
        if i < d.offset then d.windowByte (d.offset - i) else cs.getD (i - d.offset) 0) ∧
      exec .decStepYieldBackref s = .next (s.setDec (some { d1 with
        count := d.count - cs.length,
        state := if cs.length = d.count then .tagBit else .yieldBackref }))

/-! ### Tokens -/

/-- R82, R187, R188: LIT at the beginning of a token: nothing without a bit; the tag alone without room
or without all nine bits; else nine bits taken and its byte output. How a token runs by itself is the
model's choice (log entry 5). -/
def Obligations.LiteralToken : Prop :=
  ∀ (s : State) (d : Decoder) (b : Byte), s.dec = some d → d.Inv → d.state = .tagBit →
    (d.unread = [] → exec (.lit b) s = .next s) ∧
    (d.unread ≠ [] → d.outSize = d.cfg.obs ∨ d.unread.length < 9 → ∃ d1, Decoder.Consumed 1 d d1 ∧
      exec (.lit b) s = .next (s.setDec (some { d1 with state := .yieldLiteral }))) ∧
    (9 ≤ d.unread.length → d.outSize < d.cfg.obs → ∃ d1 d2, Decoder.Consumed 9 d d1 ∧
      Decoder.Emitted [b] d1 d2 ∧ exec (.lit b) s = .next (s.setDec (some d2)))

/-- R83, R193: BREF at the beginning of a token: with all its bits there it takes them and outputs as
many of its n bytes as there is room for, each the byte dist positions before it, and owes the rest;
with fewer bits it takes some of them and outputs nothing. How a token runs by itself is the model's
choice (log entry 5). -/
def Obligations.BackreferenceToken : Prop :=
  ∀ (s : State) (d : Decoder) (dist n : Nat), s.dec = some d → d.Inv → d.state = .tagBit →
    1 ≤ dist → dist ≤ d.cfg.window → 1 ≤ n → n ≤ d.cfg.lookahead →
    (d.unread.length < 1 + d.cfg.windowBits + d.cfg.lookaheadBits → ∃ d1 k o c q, k ≤ d.unread.length ∧
      Decoder.Consumed k { d with offset := o, count := c, state := q } d1 ∧
      exec (.bref dist n) s = .next (s.setDec (some d1))) ∧
    (1 + d.cfg.windowBits + d.cfg.lookaheadBits ≤ d.unread.length → ∃ d1 d2 cs,
      Decoder.Consumed (1 + d.cfg.windowBits + d.cfg.lookaheadBits)
        { d with offset := dist, count := n, state := .yieldBackref } d1 ∧
      Decoder.Emitted cs d1 d2 ∧ cs.length = min (d.cfg.obs - d.outSize) n ∧
      (∀ i, i < cs.length → cs.getD i 0 =
        if i < dist then d.windowByte (dist - i) else cs.getD (i - dist) 0) ∧
      exec (.bref dist n) s = .next (s.setDec (some { d2 with
        count := n - cs.length, state := if cs.length = n then .tagBit else .yieldBackref })))

/-- R84, R187 to R193: the token the unread bits begin with does what the handlers do on those bits,
which is what the model's choice of log entry 5 comes down to. -/
def Obligations.TokenIsARunOfHandlers : Prop :=
  ∀ (s : State) (d : Decoder) (i : Instr) (rest : List Bool), s.dec = some d → d.Inv →
    d.state = .tagBit → decodeToken d.cfg.layout d.unread = .ok (i, rest) →
    ∃ d', decRun (handlerSteps d.cfg i) d = .ok d' ∧ exec i s = .next (s.setDec (some d'))

/-! ### Streams -/

/-- R88, R195: up to seven zero bits never form a token under a legal layout. -/
def Obligations.PaddingIsNoToken : Prop :=
  ∀ (ly : Layout) (k : Nat), ly.legal → k ≤ 7 →
    decodeToken ly (List.replicate k false) = .error .incompleteToken

/-- R90, R162: every token of ENCODE_REF is a literal or a backreference that pays, with a distance and
a length that fit; together they stand for as many bytes as the input has. -/
def Obligations.EncodedTokensPay : Prop :=
  ∀ (p : Params) (ly : Layout) (x : List Byte),
    (∀ i, i ∈ encodeTokens p ly x → (∃ b, i = .lit b ∧ b ∈ x) ∨
      ∃ d n, i = .bref d n ∧ 1 ≤ d ∧ d ≤ 2 ^ ly.windowBits ∧ 1 ≤ n ∧ n ≤ 2 ^ ly.lookaheadBits ∧
        1 + ly.windowBits + ly.lookaheadBits < 8 * n) ∧
    ((encodeTokens p ly x).map fun i => match i with
      | .bref _ n => n
      | _ => 1).sum = x.length

/-- R159: at most nine token bits for each input byte. -/
def Obligations.EncodedSizeBound : Prop :=
  ∀ (p : Params) (ly : Layout) (x : List Byte),
    ((encodeTokens p ly x).flatMap (tokenBits ly)).length ≤ 9 * x.length

/-- R196, its reference form: DECODE_REF of ENCODE_REF is the input, for every legal layout, either
setting of P_ZERO_HISTORY and every input. -/
def Obligations.ReferenceRoundTrip : Prop :=
  ∀ (p : Params) (ly : Layout) (x : List Byte), ly.legal → decodeRef ly (encodeRef p ly x) = x

/-- R158: after any sequence of SINK, POLL, DRAIN and FINISH on a fresh encoder, the bits handed out
and written are a prefix of the token bits of ENCODE_REF of the accepted bytes and whatever may
follow, until FINISH; and they are ENCODE_REF of the accepted bytes once FINISH answers DONE. -/
def Obligations.EncoderIsEncodeRef : Prop :=
  ∀ (w l ibs obs : Nat) (s s0 : State) (is : List Instr),
    4 ≤ w ∧ w ≤ 15 ∧ 3 ≤ l ∧ l + 1 ≤ w ∧ 2 ^ l ≤ ibs ∧ 1 ≤ obs →
    exec (.encConstruct w l ibs obs) s = .next s0 → (∀ i, i ∈ is → streamOf .encoder i = true) →
    ∃ t e rs, execAll is s0 = .next t ∧ t.enc = some e ∧ t.responses = s0.responses ++ rs ∧
      (e.finishing = false → ∀ y,
        (drainedBytes rs).flatMap byteBits ++ e.written <+:
          (encodeTokens s.params ⟨w, l⟩ (acceptedBytes is rs ++ y)).flatMap (tokenBits ⟨w, l⟩)) ∧
      (rs.getLast? = some ⟨.encoder, .done⟩ →
        (drainedBytes rs).flatMap byteBits ++ e.written = encodeRef s.params ⟨w, l⟩ (acceptedBytes is rs))

/-- R197, R198: after any sequence of SINK, POLL, DRAIN and FINISH on a fresh decoder, the bytes handed
out and pending are a prefix of DECODE_REF of the accepted bytes, and all of it when the last command
is a POLL that answers POLL_EMPTY. -/
def Obligations.DecoderIsDecodeRef : Prop :=
  ∀ (w l ibs obs : Nat) (s s0 : State) (is : List Instr),
    4 ≤ w ∧ w ≤ 15 ∧ 3 ≤ l ∧ l + 1 ≤ w ∧ 1 ≤ ibs ∧ 1 ≤ obs →
    exec (.decConstruct w l ibs obs) s = .next s0 → (∀ i, i ∈ is → streamOf .decoder i = true) →
    ∃ t d rs, execAll is s0 = .next t ∧ t.dec = some d ∧ t.responses = s0.responses ++ rs ∧
      drainedBytes rs ++ d.pending <+: decodeRef ⟨w, l⟩ ((acceptedBytes is rs).flatMap byteBits) ∧
      (rs.getLast? = some ⟨.decoder, .pollEmpty⟩ →
        drainedBytes rs ++ d.pending = decodeRef ⟨w, l⟩ ((acceptedBytes is rs).flatMap byteBits))

/-- R124, R125, R158: a constructed or reset encoder is on its way to ENCODE_REF of nothing; whatever one
handler step, SINK, POLL, DRAIN or FINISH does, an encoder on its way from the accepted bytes `x` is on
its way from them and those it accepts now; and so every step of the machine leaves the encoder on its
way. That a handler step can be asked for by itself is the model's choice (log entry 2). -/
def Obligations.EncoderStaysFaithful : Prop :=
  (∀ (s t : State) (e' : Encoder) w l ibs obs, exec (.encConstruct w l ibs obs) s = .next t →
    t.enc = some e' → Encoder.Faithful t.params [] [] e') ∧
  (∀ (s t : State) (e e' : Encoder), s.enc = some e → e.Inv → exec .encReset s = .next t →
    t.enc = some e' → Encoder.Faithful t.params [] [] e') ∧
  (∀ (i : Instr) (s t : State) (e e' : Encoder) (drained : List Bool) (x : List Byte), s.enc = some e →
    Encoder.Faithful s.params drained x e → encoderStep i = true ∨ streamOf .encoder i = true →
    exec i s = .next t → t.enc = some e' → ∃ rs, t.responses = s.responses ++ rs ∧
      Encoder.Faithful t.params (drained ++ (drainedBytes rs).flatMap byteBits)
        (x ++ acceptedBytes [i] rs) e') ∧
  (∀ s t : State, s.Faithful → step s = .next t → t.Faithful)

/-! ### Token requests -/

/-- R88, R184: a token request whose unread bits end before the token does runs the handlers until one
changes nothing. Bits are taken and nothing is output; the decoder stays in TAG_BIT without a bit, stops
in YIELD_LITERAL after a tag 1 and in one of the four field states after a tag 0. That there is such a
request is the model's choice (log entry 5). -/
def Obligations.IncompleteTokenStalls : Prop :=
  ∀ (s : State) (d : Decoder) (why : Reject) (rest : List Request), s.dec = some d → d.Inv →
    d.state = .tagBit → s.requests = .token :: rest → decodeToken d.cfg.layout d.unread = .error why →
    ∃ n d1 k o c q, decRun n d = .ok d1 ∧ decHandler d1.state d1 = .ok d1 ∧ k ≤ d.unread.length ∧
      Decoder.Consumed k { d with offset := o, count := c, state := q } d1 ∧
      (q = .tagBit ↔ d.unread = []) ∧ (q = .yieldLiteral ↔ d.unread.head? = some true) ∧
      q ≠ .yieldBackref ∧
      step s = .next (({ s with requests := rest } : State).setDec (some d1))
end

