-- ==== Sys2Proof/Laws/Bits.lean ====
section
/-! SUPPORT. The laws of bit sequences: lengths, and that a number's bits spell the number and the other
way about. -/

namespace Sys2Proof

@[simp] theorem bitsOf_length (n v : Nat) : (bitsOf n v).length = n := by
  induction n with
  | zero => rfl
  | succ n ih => simp [bitsOf, ih]

@[simp] theorem byteBits_length (b : Byte) : (byteBits b).length = 8 := bitsOf_length 8 b.toNat

/-- A byte's bits one by one, bit 7 first (R13). -/
theorem byteBits_eq (b : Byte) :
    byteBits b = [b.getLsbD 7, b.getLsbD 6, b.getLsbD 5, b.getLsbD 4, b.getLsbD 3, b.getLsbD 2,
      b.getLsbD 1, b.getLsbD 0] := by
  simp only [byteBits, bitsOf, BitVec.testBit_toNat]

theorem numberFrom_append (acc : Nat) (a b : List Bool) :
    numberFrom acc (a ++ b) = numberFrom (numberFrom acc a) b := by
  induction a generalizing acc with
  | nil => rfl
  | cons x a ih => simp [numberFrom, ih]

/-- What a number spelled so far contributes: its value shifted over the bits to come. -/
theorem numberFrom_acc (acc : Nat) (bits : List Bool) :
    numberFrom acc bits = acc * 2 ^ bits.length + numberFrom 0 bits := by
  induction bits generalizing acc with
  | nil => simp [numberFrom]
  | cons b rest ih =>
    simp only [numberFrom, List.length_cons, Nat.mul_zero, Nat.zero_add]
    rw [ih (2 * acc + b.toNat), ih b.toNat]
    ring

/-- A bit sequence spells a number of as many bits. -/
theorem numberFrom_lt (bits : List Bool) : numberFrom 0 bits < 2 ^ bits.length := by
  induction bits with
  | nil => simp [numberFrom]
  | cons b rest ih =>
    simp only [numberFrom, List.length_cons, Nat.mul_zero, Nat.zero_add]
    rw [numberFrom_acc]
    have : b.toNat ≤ 1 := Bool.toNat_le b
    have h2 : b.toNat * 2 ^ rest.length ≤ 1 * 2 ^ rest.length := Nat.mul_le_mul_right _ this
    rw [Nat.pow_succ]
    omega

/-- The low bits of a number, and one more bit above them. -/
theorem mod_two_pow_succ_testBit (v n : Nat) :
    v % 2 ^ (n + 1) = (v.testBit n).toNat * 2 ^ n + v % 2 ^ n := by
  rw [Nat.mod_pow_succ, Nat.toNat_testBit, Nat.add_comm, Nat.mul_comm]

/-- A number's bits spell the number (R13). -/
theorem numberFrom_bitsOf (n v : Nat) : numberFrom 0 (bitsOf n v) = v % 2 ^ n := by
  induction n with
  | zero => simp [bitsOf, numberFrom, Nat.mod_one]
  | succ n ih =>
    simp only [bitsOf, numberFrom, Nat.mul_zero, Nat.zero_add]
    rw [numberFrom_acc, ih, bitsOf_length, mod_two_pow_succ_testBit]

/-- Only a number's low bits are in its bit sequence. -/
theorem bitsOf_congr {n a b : Nat} (h : a % 2 ^ n = b % 2 ^ n) : bitsOf n a = bitsOf n b := by
  induction n with
  | zero => rfl
  | succ n ih =>
    have hn : a % 2 ^ n = b % 2 ^ n := by
      have := congrArg (· % 2 ^ n) h
      simpa [Nat.mod_mod_of_dvd _ (Nat.pow_dvd_pow 2 (Nat.le_succ n))] using this
    have ht : a.testBit n = b.testBit n := by
      have := congrArg (fun x => x.testBit n) h
      simpa [Nat.testBit_mod_two_pow] using this
    simp [bitsOf, ih hn, ht]

/-- The bits of the number a bit sequence spells are that sequence (R13). -/
theorem bitsOf_numberFrom (bits : List Bool) : bitsOf bits.length (numberFrom 0 bits) = bits := by
  induction bits with
  | nil => rfl
  | cons b rest ih =>
    simp only [List.length_cons, bitsOf, numberFrom, Nat.mul_zero, Nat.zero_add]
    have hlt := numberFrom_lt rest
    rw [numberFrom_acc]
    have h1 : (b.toNat * 2 ^ rest.length + numberFrom 0 rest).testBit rest.length = b := by
      rw [Nat.testBit_eq_decide_div_mod_eq, Nat.mul_comm,
        Nat.mul_add_div (Nat.two_pow_pos _), Nat.div_eq_of_lt hlt]
      cases b <;> rfl
    have h2 : bitsOf rest.length (b.toNat * 2 ^ rest.length + numberFrom 0 rest) = rest := by
      rw [bitsOf_congr (b := numberFrom 0 rest), ih]
      rw [Nat.mul_comm, Nat.mul_add_mod]
    rw [h1, h2]

/-- Reading a field that was written in front of other bits gives its number and those bits. -/
theorem takeField_bitsOf (n v : Nat) (rest : List Bool) (h : v < 2 ^ n) :
    takeField n (bitsOf n v ++ rest) = .ok (v, rest) := by
  have hl := bitsOf_length n v
  simp [takeField, hl, numberFrom_bitsOf, Nat.mod_eq_of_lt h]

/-- A field that is read is the front of the bits, and its number has that many bits. -/
theorem takeField_ok {n v : Nat} {bits rest : List Bool} (h : takeField n bits = .ok (v, rest)) :
    v < 2 ^ n ∧ bits = bitsOf n v ++ rest := by
  unfold takeField at h
  split at h
  · injection h with h
    injection h with h1 h2
    have hl : (bits.take n).length = n := by simp; omega
    subst h1 h2
    refine ⟨?_, ?_⟩
    · have := numberFrom_lt (bits.take n); rwa [hl] at this
    · conv_lhs => rw [← List.take_append_drop n bits]
      congr 1
      have := bitsOf_numberFrom (bits.take n)
      rw [hl] at this
      exact this.symm
  · cases h

/-- A field is read exactly when its bits are there. -/
theorem takeField_isOk_iff (n : Nat) (bits : List Bool) :
    (∃ r, takeField n bits = .ok r) ↔ n ≤ bits.length := by
  unfold takeField
  split
  · simp_all
  · simp_all

/-- The upper bits of a field, then its low bits. -/
theorem bitsOf_add (a b v : Nat) : bitsOf (a + b) v = bitsOf a (v >>> b) ++ bitsOf b v := by
  induction a with
  | zero => simp [bitsOf]
  | succ a ih =>
    rw [show a + 1 + b = (a + b) + 1 by omega]
    simp only [bitsOf, ih, List.cons_append, Nat.testBit_shiftRight]
    rw [Nat.add_comm a b]

theorem byteBits_ofNat {v : Nat} (h : v < 256) : byteBits (BitVec.ofNat 8 v) = bitsOf 8 v := by
  simp [byteBits, Nat.mod_eq_of_lt h]

end Sys2Proof
end

