-- ==== Sys2Proof/Laws/Codes.lean ====
section
/-! SUPPORT. Decoding what the encoder of the spec's tables wrote: a token at the front of a bit sequence
(R82, R83) and CONSTRUCT's configuration byte (R97). -/

namespace Sys2Proof

theorem decodeToken_litBits (ly : Layout) (b : Byte) (rest : List Bool) :
    decodeToken ly (litBits b ++ rest) = .ok (.lit b, rest) := by
  simp only [litBits, List.cons_append, decodeToken, byteBits]
  rw [takeField_bitsOf _ _ _ b.isLt]
  simp [bind, Except.bind, pure, Except.pure]

theorem decodeToken_brefBits {ly : Layout} {d n : Nat} (h : brefFits ly d n = true) (rest : List Bool) :
    decodeToken ly (brefBits ly d n ++ rest) = .ok (.bref d n, rest) := by
  simp only [brefFits, Bool.and_eq_true, decide_eq_true_eq] at h
  simp only [brefBits, List.cons_append, decodeToken, List.append_assoc]
  rw [takeField_bitsOf _ _ _ (by omega)]
  simp only [bind, Except.bind]
  rw [takeField_bitsOf _ _ _ (by omega)]
  simp only [pure, Except.pure]
  rw [show d - 1 + 1 = d by omega, show n - 1 + 1 = n by omega]

theorem cfg0Of_fields {w l : Nat} (h : cfg0Fits w l = true) :
    cfg0Window (cfg0Of w l) = w ∧ cfg0Lookahead (cfg0Of w l) = l := by
  simp only [cfg0Fits, Bool.and_eq_true, decide_eq_true_eq] at h
  simp only [cfg0Window, cfg0Lookahead, cfg0Of, BitVec.toNat_ofNat]
  omega

theorem takeField_of_le {n : Nat} {bits : List Bool} (h : n ≤ bits.length) :
    takeField n bits = .ok (numberFrom 0 (bits.take n), bits.drop n) := by
  simp [takeField, h]

theorem takeField_of_lt {n : Nat} {bits : List Bool} (h : bits.length < n) :
    takeField n bits = .error .incompleteToken := by
  simp [takeField, Nat.not_le.2 h]

end Sys2Proof
end

