-- ==== Sys2Proof/Laws/Memory.lean ====
section
/-! SUPPORT. The laws of cells in canonical form: a read after a write, that every write keeps the form
and the index range, and that equal memories are equal data. -/

namespace Sys2Proof.Machine

variable {α : Type} [DecidableEq α] {dflt : α}

theorem Cells.wf_cons {k : Nat} {v : α} {rest : List (Nat × α)} :
    Cells.wf dflt ((k, v) :: rest) = true ↔
      v ≠ dflt ∧ (∀ c ∈ rest, k < c.1) ∧ Cells.wf dflt rest = true := by
  simp [Cells.wf, and_assoc]

omit [DecidableEq α] in
/-- An index below every listed one reads as the default. -/
theorem Cells.read_of_all_above {cells : List (Nat × α)} {i : Nat}
    (h : ∀ c ∈ cells, i < c.1) : Cells.read dflt cells i = dflt := by
  induction cells with
  | nil => rfl
  | cons c rest ih =>
    obtain ⟨k, v⟩ := c
    have hk : i < k := h (k, v) (by simp)
    simp only [Cells.read, if_neg (Nat.ne_of_gt hk)]
    exact ih fun c hc => h c (by simp [hc])

omit [DecidableEq α] in
/-- An index at or above a bound on the listed ones reads as the default. -/
theorem Cells.read_of_below {cells : List (Nat × α)} {n i : Nat}
    (h : Cells.below n cells = true) (hi : n ≤ i) : Cells.read dflt cells i = dflt := by
  induction cells with
  | nil => rfl
  | cons c rest ih =>
    obtain ⟨k, v⟩ := c
    simp only [Cells.below, List.all_cons, Bool.and_eq_true, decide_eq_true_eq] at h
    simp only [Cells.read, if_neg (by omega : k ≠ i)]
    exact ih h.2

/-- What a write puts in the list: the new cell, or a cell that was there. -/
theorem Cells.mem_write {cells : List (Nat × α)} {i : Nat} {v : α} {c : Nat × α}
    (h : c ∈ Cells.write dflt cells i v) : c = (i, v) ∨ c ∈ cells := by
  induction cells with
  | nil =>
    simp only [Cells.write] at h
    split at h <;> simp_all
  | cons b rest ih =>
    obtain ⟨k, w⟩ := b
    simp only [Cells.write] at h
    split at h
    · rcases List.mem_cons.1 h with h | h
      · simp [h]
      · rcases ih h with h | h <;> simp [h]
    · split at h
      · split at h
        · simp [h]
        · rcases List.mem_cons.1 h with h | h <;> simp [h]
      · split at h
        · simp only [List.mem_cons] at h ⊢; tauto
        · simp only [List.mem_cons] at h ⊢; tauto

/-- A write keeps the canonical form. -/
theorem Cells.wf_write {cells : List (Nat × α)} {i : Nat} {v : α}
    (h : Cells.wf dflt cells = true) : Cells.wf dflt (Cells.write dflt cells i v) = true := by
  induction cells with
  | nil => simp only [Cells.write]; split <;> simp_all [Cells.wf]
  | cons b rest ih =>
    obtain ⟨k, w⟩ := b
    obtain ⟨hw, hk, hr⟩ := Cells.wf_cons.1 h
    simp only [Cells.write]
    split
    · refine Cells.wf_cons.2 ⟨hw, fun c hc => ?_, ih hr⟩
      rcases Cells.mem_write hc with rfl | hc
      · assumption
      · exact hk c hc
    · split
      · split
        · exact hr
        · subst_vars; exact Cells.wf_cons.2 ⟨by assumption, hk, hr⟩
      · split
        · exact h
        · refine Cells.wf_cons.2 ⟨by assumption, fun c hc => ?_, h⟩
          rcases List.mem_cons.1 hc with rfl | hc
          · simp only; omega
          · have := hk c hc; omega

/-- A write inside a bound keeps every listed index inside it. -/
theorem Cells.below_write {cells : List (Nat × α)} {n i : Nat} {v : α}
    (h : Cells.below n cells = true) (hi : i < n) :
    Cells.below n (Cells.write dflt cells i v) = true := by
  simp only [Cells.below, List.all_eq_true, decide_eq_true_eq] at h ⊢
  intro c hc
  rcases Cells.mem_write hc with rfl | hc
  · exact hi
  · exact h c hc

omit [DecidableEq α] in
/-- A greater bound holds too. -/
theorem Cells.below_mono {cells : List (Nat × α)} {m n : Nat}
    (h : Cells.below m cells = true) (hmn : m ≤ n) : Cells.below n cells = true := by
  simp only [Cells.below, List.all_eq_true, decide_eq_true_eq] at h ⊢
  intro c hc
  have := h c hc
  omega

/-- A read of the index just written. -/
theorem Cells.read_write_same {cells : List (Nat × α)} {i : Nat} {v : α}
    (h : Cells.wf dflt cells = true) : Cells.read dflt (Cells.write dflt cells i v) i = v := by
  induction cells with
  | nil => simp only [Cells.write]; split <;> simp_all [Cells.read]
  | cons b rest ih =>
    obtain ⟨k, w⟩ := b
    obtain ⟨hw, hk, hr⟩ := Cells.wf_cons.1 h
    simp only [Cells.write]
    split
    · simp only [Cells.read, if_neg (by omega : k ≠ i)]; exact ih hr
    · split
      · split
        · subst_vars; exact Cells.read_of_all_above hk
        · simp [Cells.read]
      · split
        · subst_vars
          simp only [Cells.read, if_neg (by assumption : ¬ k = i)]
          exact Cells.read_of_all_above fun c hc => by have := hk c hc; omega
        · simp [Cells.read]

/-- A read of any other index. -/
theorem Cells.read_write_other {cells : List (Nat × α)} {i j : Nat} {v : α} (hij : j ≠ i) :
    Cells.read dflt (Cells.write dflt cells i v) j = Cells.read dflt cells j := by
  induction cells with
  | nil => simp only [Cells.write]; split <;> simp [Cells.read, Ne.symm hij]
  | cons b rest ih =>
    obtain ⟨k, w⟩ := b
    simp only [Cells.write]
    split
    · simp only [Cells.read, ih]
    · split
      · subst_vars
        split <;> simp [Cells.read, Ne.symm hij]
      · split <;> simp [Cells.read, Ne.symm hij]

/-- Both cases of a read after a write, for memories in canonical form. -/
theorem Cells.read_write {cells : List (Nat × α)} {i j : Nat} {v : α}
    (h : Cells.wf dflt cells = true) :
    Cells.read dflt (Cells.write dflt cells i v) j = if j = i then v else Cells.read dflt cells j := by
  split
  · subst_vars; exact Cells.read_write_same h
  · exact Cells.read_write_other (by assumption)

/-- Canonical forms that read the same are the same list. -/
theorem Cells.ext_of_read {a b : List (Nat × α)} (ha : Cells.wf dflt a = true)
    (hb : Cells.wf dflt b = true) (h : ∀ i, Cells.read dflt a i = Cells.read dflt b i) : a = b := by
  induction a generalizing b with
  | nil =>
    cases b with
    | nil => rfl
    | cons c rest =>
      obtain ⟨k, v⟩ := c
      have := h k
      simp [Cells.read] at this
      exact absurd this.symm (Cells.wf_cons.1 hb).1
  | cons c rest ih =>
    obtain ⟨k, v⟩ := c
    obtain ⟨hv, hk, hr⟩ := Cells.wf_cons.1 ha
    cases b with
    | nil =>
      have := h k
      simp [Cells.read] at this
      exact absurd this hv
    | cons c' rest' =>
      obtain ⟨k', v'⟩ := c'
      obtain ⟨hv', hk', hr'⟩ := Cells.wf_cons.1 hb
      have hkk : k = k' := by
        rcases Nat.lt_trichotomy k k' with hlt | heq | hgt
        · have h1 := h k
          simp only [Cells.read, if_neg (Nat.ne_of_gt hlt), if_true] at h1
          rw [Cells.read_of_all_above fun c hc => Nat.lt_trans hlt (hk' c hc)] at h1
          exact absurd h1 hv
        · exact heq
        · have h1 := h k'
          simp only [Cells.read, if_neg (Nat.ne_of_gt hgt), if_true] at h1
          rw [Cells.read_of_all_above fun c hc => Nat.lt_trans hgt (hk c hc)] at h1
          exact absurd h1.symm hv'
      subst hkk
      have hvv : v = v' := by simpa [Cells.read] using h k
      subst hvv
      congr 1
      refine ih hr hr' fun i => ?_
      by_cases hi : k = i
      · subst hi
        rw [Cells.read_of_all_above hk, Cells.read_of_all_above hk']
      · simpa [Cells.read, hi] using h i

/-! ### The accesses -/

omit [DecidableEq α] in
@[simp] theorem readAt_of_lt {size i : Nat} {cells : List (Nat × α)} (h : i < size) :
    readAt dflt size cells i = .ok (Cells.read dflt cells i) := if_pos h

@[simp] theorem writeAt_of_lt {size i : Nat} {cells : List (Nat × α)} {v : α} (h : i < size) :
    writeAt dflt size cells i v = .ok (Cells.write dflt cells i v) := if_pos h

omit [DecidableEq α] in
/-- A read that answers was inside the memory. -/
theorem readAt_ok {size i : Nat} {cells : List (Nat × α)} {v : α}
    (h : readAt dflt size cells i = .ok v) : i < size ∧ v = Cells.read dflt cells i := by
  unfold readAt at h
  split at h
  · exact ⟨by assumption, by injection h with h; exact h.symm⟩
  · cases h

/-- A write that answers was inside the memory. -/
theorem writeAt_ok {size i : Nat} {cells cells' : List (Nat × α)} {v : α}
    (h : writeAt dflt size cells i v = .ok cells') :
    i < size ∧ cells' = Cells.write dflt cells i v := by
  unfold writeAt at h
  split at h
  · exact ⟨by assumption, by injection h with h; exact h.symm⟩
  · cases h

@[simp] theorem readByteAt_of_lt {size i : Nat} {m : Memory} (h : i < size) :
    readByteAt size m i = .ok (Cells.read 0#8 m i) := if_pos h

@[simp] theorem writeByteAt_of_lt {size i : Nat} {m : Memory} {v : Byte} (h : i < size) :
    writeByteAt size m i v = .ok (Cells.write 0#8 m i v) := if_pos h

@[simp] theorem minus_of_le {a b : Nat} (h : b ≤ a) : minus a b = .ok (a - b) := if_pos h

/-- A difference that answers is exact. -/
theorem minus_ok {a b c : Nat} (h : minus a b = .ok c) : b ≤ a ∧ c = a - b := by
  unfold minus at h
  split at h
  · exact ⟨by assumption, by injection h with h; exact h.symm⟩
  · cases h

theorem Memory.wf_write {m : Memory} {i : Nat} {v : Byte} (h : Memory.wf m = true) :
    Memory.wf (Cells.write 0#8 m i v) = true := Cells.wf_write h

/-- Everything a run of writes inside the memory does: it answers a memory in canonical form and in
range, the run's indexes hold its bytes, and every other index reads as before. -/
theorem writeRun_spec {size : Nat} (bytes : List Byte) {m : Memory} {i : Nat}
    (hm : Memory.wf m = true) (hb : Cells.below size m = true) (hi : i + bytes.length ≤ size) :
    ∃ m', writeRun size m i bytes = .ok m' ∧ Memory.wf m' = true ∧ Cells.below size m' = true ∧
      (∀ k, (hk : k < bytes.length) → Cells.read 0#8 m' (i + k) = bytes[k]) ∧
      ∀ a, a < i ∨ i + bytes.length ≤ a → Cells.read 0#8 m' a = Cells.read 0#8 m a := by
  induction bytes generalizing m i with
  | nil => exact ⟨m, rfl, hm, hb, fun k hk => absurd hk (by simp), fun _ _ => rfl⟩
  | cons b rest ih =>
    simp only [List.length_cons] at hi
    have hlt : i < size := by omega
    obtain ⟨m', h1, h2, h3, h4, h5⟩ :=
      ih (m := Cells.write 0#8 m i b) (i := i + 1) (Memory.wf_write hm) (Cells.below_write hb hlt) (by omega)
    refine ⟨m', ?_, h2, h3, fun k hk => ?_, fun a ha => ?_⟩
    · simp only [writeRun, writeByteAt_of_lt hlt]; exact h1
    · cases k with
      | zero =>
        rw [h5 (i + 0) (by omega)]
        simpa using Cells.read_write_same hm
      | succ k =>
        have := h4 k (by simpa using hk)
        simpa [Nat.add_assoc, Nat.add_comm 1 k] using this
    · simp only [List.length_cons] at ha
      rw [h5 a (by omega), Cells.read_write_other (by omega)]

/-- A run of reads inside the memory answers the bytes there. -/
theorem readRun_spec {size : Nat} {m : Memory} (n i : Nat) (h : i + n ≤ size) :
    readRun size m i n = .ok ((List.range n).map fun k => Cells.read 0#8 m (i + k)) := by
  induction n generalizing i with
  | zero => rfl
  | succ n ih =>
    have hlt : i < size := by omega
    simp only [readRun, readByteAt_of_lt hlt, ih (i + 1) (by omega)]
    rw [List.range_succ_eq_map]
    simp [bind, Except.bind, pure, Except.pure, List.map_map, Function.comp_def, Nat.add_comm, Nat.add_left_comm]

end Sys2Proof.Machine
end

