-- ==== Sys2Proof/Laws/State.lean ====
section
/-! SUPPORT. One lemma per field per update of State, each true by rfl, and the small lemmas of Res. -/

namespace Sys2Proof.Machine

section
variable (s : State) (port : Port) (r : Result) (e : Option Encoder) (d : Option Decoder) (q : Request)

@[simp] theorem State.respond_params : (s.respond port r).params = s.params := rfl
@[simp] theorem State.respond_enc : (s.respond port r).enc = s.enc := rfl
@[simp] theorem State.respond_dec : (s.respond port r).dec = s.dec := rfl
@[simp] theorem State.respond_requests : (s.respond port r).requests = s.requests := rfl
@[simp] theorem State.respond_responses :
    (s.respond port r).responses = s.responses ++ [⟨port, r⟩] := rfl

@[simp] theorem State.setEnc_params : (s.setEnc e).params = s.params := rfl
@[simp] theorem State.setEnc_enc : (s.setEnc e).enc = e := rfl
@[simp] theorem State.setEnc_dec : (s.setEnc e).dec = s.dec := rfl
@[simp] theorem State.setEnc_requests : (s.setEnc e).requests = s.requests := rfl
@[simp] theorem State.setEnc_responses : (s.setEnc e).responses = s.responses := rfl

@[simp] theorem State.setDec_params : (s.setDec d).params = s.params := rfl
@[simp] theorem State.setDec_enc : (s.setDec d).enc = s.enc := rfl
@[simp] theorem State.setDec_dec : (s.setDec d).dec = d := rfl
@[simp] theorem State.setDec_requests : (s.setDec d).requests = s.requests := rfl
@[simp] theorem State.setDec_responses : (s.setDec d).responses = s.responses := rfl

@[simp] theorem State.place_params : (s.place q).params = s.params := rfl
@[simp] theorem State.place_enc : (s.place q).enc = s.enc := rfl
@[simp] theorem State.place_dec : (s.place q).dec = s.dec := rfl
@[simp] theorem State.place_requests : (s.place q).requests = q :: s.requests := rfl
@[simp] theorem State.place_responses : (s.place q).responses = s.responses := rfl

@[simp] theorem State.dropRequest_params : s.dropRequest.params = s.params := rfl
@[simp] theorem State.dropRequest_enc : s.dropRequest.enc = s.enc := rfl
@[simp] theorem State.dropRequest_dec : s.dropRequest.dec = s.dec := rfl
@[simp] theorem State.dropRequest_requests : s.dropRequest.requests = s.requests.tail := rfl
@[simp] theorem State.dropRequest_responses : s.dropRequest.responses = s.responses := rfl
end

/-! ### Sequencing of Res -/

@[simp] theorem Res.ok_bind {α β : Type} (a : α) (f : α → Res β) :
    ((Except.ok a : Res α) >>= f) = f a := rfl

@[simp] theorem Res.error_bind {α β : Type} (x : Fault) (f : α → Res β) :
    ((Except.error x : Res α) >>= f) = .error x := rfl

@[simp] theorem Res.pure_eq {α : Type} (a : α) : (pure a : Res α) = .ok a := rfl

/-- A sequence that answers ran its first part and its second part. -/
theorem Res.bind_ok {α β : Type} {x : Res α} {f : α → Res β} {b : β} (h : (x >>= f) = .ok b) :
    ∃ a, x = .ok a ∧ f a = .ok b := by
  cases x with
  | ok a => exact ⟨a, rfl, h⟩
  | error e => cases h

/-! ### What the four ways into an instance can answer -/

theorem encCommand_next {f : Params → Encoder → Res (Encoder × Result)} {s t : State}
    (h : encCommand f s = .next t) :
    ∃ e e' r, s.enc = some e ∧ f s.params e = .ok (e', r) ∧
      t = (s.setEnc (some e')).respond .encoder r := by
  unfold encCommand at h
  split at h
  · cases h
  · split at h
    · injection h with h; exact ⟨_, _, _, by assumption, by assumption, h.symm⟩
    · cases h

theorem decCommand_next {f : Params → Decoder → Res (Decoder × Result)} {s t : State}
    (h : decCommand f s = .next t) :
    ∃ d d' r, s.dec = some d ∧ f s.params d = .ok (d', r) ∧
      t = (s.setDec (some d')).respond .decoder r := by
  unfold decCommand at h
  split at h
  · cases h
  · split at h
    · injection h with h; exact ⟨_, _, _, by assumption, by assumption, h.symm⟩
    · cases h

theorem encStep_next {q : EncState} {f : Params → Encoder → Res Encoder} {s t : State}
    (h : encStep q f s = .next t) :
    ∃ e e', s.enc = some e ∧ e.state = q ∧ f s.params e = .ok e' ∧ t = s.setEnc (some e') := by
  unfold encStep at h
  split at h
  · cases h
  · split at h
    · split at h
      · injection h with h; exact ⟨_, _, by assumption, by assumption, by assumption, h.symm⟩
      · cases h
    · cases h

theorem decStep_next {q : DecState} {f : Decoder → Res Decoder} {s t : State}
    (h : decStep q f s = .next t) :
    ∃ d d', s.dec = some d ∧ d.state = q ∧ f d = .ok d' ∧ t = s.setDec (some d') := by
  unfold decStep at h
  split at h
  · cases h
  · split at h
    · split at h
      · injection h with h; exact ⟨_, _, by assumption, by assumption, by assumption, h.symm⟩
      · cases h
    · cases h

theorem onToken_next {f : Decoder → Res Decoder} {s t : State} (h : onToken f s = .next t) :
    ∃ d d', s.dec = some d ∧ d.state = .tagBit ∧ f d = .ok d' ∧ t = s.setDec (some d') := by
  unfold onToken at h
  split at h
  · cases h
  · split at h
    · split at h
      · injection h with h; exact ⟨_, _, by assumption, by assumption, by assumption, h.symm⟩
      · cases h
    · cases h

theorem encCommand_of_ok {f : Params → Encoder → Res (Encoder × Result)} {s : State} {e e' : Encoder}
    {r : Result} (he : s.enc = some e) (h : f s.params e = .ok (e', r)) :
    encCommand f s = .next ((s.setEnc (some e')).respond .encoder r) := by
  simp [encCommand, he, h]

theorem decCommand_of_ok {f : Params → Decoder → Res (Decoder × Result)} {s : State} {d d' : Decoder}
    {r : Result} (hd : s.dec = some d) (h : f s.params d = .ok (d', r)) :
    decCommand f s = .next ((s.setDec (some d')).respond .decoder r) := by
  simp [decCommand, hd, h]

theorem encStep_of_ok {q : EncState} {f : Params → Encoder → Res Encoder} {s : State} {e e' : Encoder}
    (he : s.enc = some e) (hq : e.state = q) (h : f s.params e = .ok e') :
    encStep q f s = .next (s.setEnc (some e')) := by
  simp [encStep, he, hq, h]

theorem decStep_of_ok {q : DecState} {f : Decoder → Res Decoder} {s : State} {d d' : Decoder}
    (hd : s.dec = some d) (hq : d.state = q) (h : f d = .ok d') :
    decStep q f s = .next (s.setDec (some d')) := by
  simp [decStep, hd, hq, h]

theorem onToken_of_ok {f : Decoder → Res Decoder} {s : State} {d d' : Decoder}
    (hd : s.dec = some d) (hq : d.state = .tagBit) (h : f d = .ok d') :
    onToken f s = .next (s.setDec (some d')) := by
  simp [onToken, hd, hq, h]

end Sys2Proof.Machine
end

