-- ==== Sys2Proof/Laws/Reader.lean ====
section
/-! SUPPORT. What the BitReader's operations do: they take bits off the front of the unread stream and
change nothing but D.inHead, D.inSize, D.curByte and D.rbits. -/

namespace Sys2Proof.Machine

theorem Decoder.Inv.readable {d : Decoder} (h : d.Inv) : d.Readable :=
  ⟨h.cursors, h.inSize, h.drained, h.rbits⟩

theorem Decoder.Consumed.refl {d : Decoder} (h : d.Readable) : Decoder.Consumed 0 d d := ⟨rfl, h, rfl⟩

theorem Decoder.Consumed.trans {m n : Nat} {d d' d'' : Decoder} (h : Decoder.Consumed m d d')
    (h' : Decoder.Consumed n d' d'') : Decoder.Consumed (m + n) d d'' := by
  refine ⟨?_, h'.readable, ?_⟩
  · rw [h'.rest, h.rest]
  · rw [h'.unread, h.unread, List.drop_drop]

/-- How many bits are unread: R105's `avail`. -/
theorem Decoder.unread_length (d : Decoder) :
    d.unread.length = d.rbits + 8 * (d.inSize - d.inHead) := by
  have : ∀ l : List Byte, (l.flatMap byteBits).length = 8 * l.length := by
    intro l
    induction l with
    | nil => rfl
    | cons b l ih => simp only [List.flatMap_cons, List.length_append, byteBits_length, ih,
        List.length_cons]; omega
  simp only [Decoder.unread, List.length_append, bitsOf_length, this, List.length_map, List.length_range]

/-- A refill moves one byte from D.IN to D.curByte and leaves the unread stream as it was. -/
theorem Decoder.refill_spec {d : Decoder} (h : d.Readable) (hz : d.rbits = 0)
    (hb : 0 < d.inSize - d.inHead) :
    ∃ d', Decoder.refill d = .ok d' ∧ Decoder.Consumed 0 d d' ∧ d'.rbits = 8 := by
  have hlt : d.inHead < d.cfg.ibs := by have := h.inSize; omega
  simp only [Decoder.refill, if_pos hz, Decoder.readByte, readByteAt_of_lt hlt, Res.ok_bind, Res.pure_eq]
  obtain ⟨m, hm⟩ : ∃ m, d.inSize - d.inHead = m + 1 := ⟨d.inSize - d.inHead - 1, by omega⟩
  have hun : d.unread = byteBits (d.inByte d.inHead) ++
      ((List.range m).map fun i => d.inByte (d.inHead + 1 + i)).flatMap byteBits := by
    simp only [Decoder.unread, hz, hm, bitsOf, List.nil_append, List.range_succ_eq_map, List.map_cons,
      List.flatMap_cons, List.map_map, Nat.add_zero]
    congr 2
    refine List.map_congr_left fun i _ => ?_
    simp only [Function.comp, Nat.succ_eq_add_one]
    congr 1
    omega
  unfold Decoder.resetIfDrained
  split
  case isTrue heq =>
    simp only at heq
    have hm0 : m = 0 := by omega
    refine ⟨_, rfl, ⟨rfl, ⟨?_, ?_, ?_, ?_⟩, ?_⟩, rfl⟩
    · simp
    · simp
    · simp
    · simp
    · rw [List.drop_zero, hun, hm0]
      simp [Decoder.unread, byteBits]
  case isFalse hne =>
    simp only at hne
    refine ⟨_, rfl, ⟨rfl, ⟨?_, ?_, ?_, ?_⟩, ?_⟩, rfl⟩
    · simp only; omega
    · exact h.inSize
    · simp only; intro he; omega
    · simp
    · rw [List.drop_zero, hun]
      have hm2 : d.inSize - (d.inHead + 1) = m := by omega
      simp [Decoder.unread, byteBits, hm2]

/-- One bit, when one is unread. -/
theorem Decoder.takeBit_spec {d : Decoder} {b : Bool} {rest : List Bool} (h : d.Readable)
    (hu : d.unread = b :: rest) :
    ∃ d', Decoder.takeBit d = .ok (b, d') ∧ Decoder.Consumed 1 d d' := by
  have aux : ∀ d1 : Decoder, d1.Readable → d1.unread = b :: rest → 0 < d1.rbits →
      d1.curByte.getLsbD (d1.rbits - 1) = b ∧
        Decoder.Consumed 1 d1 { d1 with rbits := d1.rbits - 1 } := by
    intro d1 h1 hu1 hr
    obtain ⟨m, hm⟩ : ∃ m, d1.rbits = m + 1 := ⟨d1.rbits - 1, by omega⟩
    simp only [Decoder.unread, hm, bitsOf, List.cons_append, List.cons.injEq] at hu1
    refine ⟨?_, rfl, ⟨h1.cursors, h1.inSize, h1.drained, ?_⟩, ?_⟩
    · rw [hm, ← hu1.1, BitVec.testBit_toNat]; rfl
    · have := h1.rbits; simp only; omega
    · simp only [Decoder.unread, hm, bitsOf, List.cons_append, List.drop_one, List.tail_cons]
      rfl
  by_cases hz : d.rbits = 0
  · have hb : 0 < d.inSize - d.inHead := by
      have := Decoder.unread_length d
      rw [hu, List.length_cons] at this
      omega
    obtain ⟨d1, e1, c1, r1⟩ := Decoder.refill_spec h hz hb
    have hu1 : d1.unread = b :: rest := by rw [c1.unread, List.drop_zero, hu]
    obtain ⟨hbit, c2⟩ := aux d1 c1.readable hu1 (by omega)
    refine ⟨_, ?_, by simpa using c1.trans c2⟩
    simp only [Decoder.takeBit, e1, Res.ok_bind, Res.pure_eq, hbit]
  · obtain ⟨hbit, c2⟩ := aux d h hu (by omega)
    refine ⟨_, ?_, c2⟩
    simp only [Decoder.takeBit, Decoder.refill, if_neg hz, Res.ok_bind, Res.pure_eq, hbit]

/-- `n` bits, when they are unread: they spell the number, most significant first. -/
theorem Decoder.takeBits_spec (n acc : Nat) {d : Decoder} (h : d.Readable) (hn : n ≤ d.unread.length) :
    ∃ d', Decoder.takeBits n acc d = .ok (numberFrom acc (d.unread.take n), d') ∧
      Decoder.Consumed n d d' := by
  induction n generalizing acc d with
  | zero => exact ⟨d, rfl, Decoder.Consumed.refl h⟩
  | succ n ih =>
    match hu : d.unread with
    | [] => rw [hu] at hn; simp at hn
    | b :: rest =>
      obtain ⟨d1, e1, c1⟩ := Decoder.takeBit_spec h hu
      have hu1 : d1.unread = rest := by rw [c1.unread, hu]; rfl
      rw [hu, List.length_cons] at hn
      obtain ⟨d2, e2, c2⟩ := ih (2 * acc + b.toNat) c1.readable (by rw [hu1]; omega)
      refine ⟨d2, ?_, by simpa [Nat.add_comm] using c1.trans c2⟩
      simp only [Decoder.takeBits, e1, Res.ok_bind, e2, hu1, List.take_succ_cons, numberFrom]

/-- `getBits(n)` (R105): the separate result none when fewer than `n` bits are unread, and otherwise
the number the first `n` spell, with exactly those taken. -/
theorem Decoder.getBits_spec {n : Nat} {d : Decoder} (h : d.Readable) (h1 : 1 ≤ n) (h15 : n ≤ 15) :
    (d.unread.length < n ∧ Decoder.getBits n d = .ok none) ∨
    (n ≤ d.unread.length ∧ ∃ d', Decoder.getBits n d = .ok (some (numberFrom 0 (d.unread.take n), d')) ∧
      Decoder.Consumed n d d') := by
  have hb : Decoder.buffered d = .ok (d.inSize - d.inHead) := by simp [Decoder.buffered, h.cursors]
  have hl := Decoder.unread_length d
  unfold Decoder.getBits
  rw [if_neg (by omega), hb, Res.ok_bind]
  split
  · exact .inl ⟨by omega, rfl⟩
  · obtain ⟨d', e, c⟩ := Decoder.takeBits_spec n 0 h (by omega)
    exact .inr ⟨by omega, d', by simp [e], c⟩

/-- `readField`: a stall that changes nothing, or the field's number handed on with its bits taken. -/
theorem Decoder.readField_spec {n : Nat} {use : Nat → Decoder → Res Decoder} {d : Decoder}
    (h : d.Readable) (h1 : 1 ≤ n) (h15 : n ≤ 15) :
    (d.unread.length < n ∧ Decoder.readField n use d = .ok d) ∨
    (n ≤ d.unread.length ∧ ∃ d', Decoder.Consumed n d d' ∧
      Decoder.readField n use d = use (numberFrom 0 (d.unread.take n)) d') := by
  rcases Decoder.getBits_spec h h1 h15 with ⟨hl, e⟩ | ⟨hl, d', e, c⟩
  · exact .inl ⟨hl, by simp [Decoder.readField, e]⟩
  · exact .inr ⟨hl, d', c, by simp [Decoder.readField, e]⟩

/-- `feedField`: a stall that changes nothing, or the token's value handed on with the bits taken. -/
theorem feedField_spec {n v : Nat} {use : Nat → Decoder → Res Decoder} {next : Decoder → Res Decoder}
    {d : Decoder} (h : d.Readable) (h1 : 1 ≤ n) (h15 : n ≤ 15) :
    (d.unread.length < n ∧ feedField n v use next d = .ok d) ∨
    (n ≤ d.unread.length ∧ ∃ d', Decoder.Consumed n d d' ∧
      feedField n v use next d = (use v d' >>= next)) := by
  rcases Decoder.getBits_spec h h1 h15 with ⟨hl, e⟩ | ⟨hl, d', e, c⟩
  · exact .inl ⟨hl, by simp [feedField, e]⟩
  · exact .inr ⟨hl, d', c, by simp [feedField, e]⟩

/-- The fetch of a token reads the unread bits and nothing else. -/
theorem Decoder.unreadBits_spec {d : Decoder} (h : d.Readable) : Decoder.unreadBits d = .ok d.unread := by
  have hb : Decoder.buffered d = .ok (d.inSize - d.inHead) := by simp [Decoder.buffered, h.cursors]
  have hr := readRun_spec (size := d.cfg.ibs) (m := d.inp) (d.inSize - d.inHead) d.inHead
    (by have := h.cursors; have := h.inSize; omega)
  simp [Decoder.unreadBits, Decoder.inputBits, hb, hr, Decoder.unread]

end Sys2Proof.Machine
end

