-- ==== Sys2Proof/Laws/Window.lean ====
section
/-! SUPPORT. What the decoder's output side does: a byte goes to the window and to D.OUT, and a copy
repeats what the window holds. -/

namespace Sys2Proof.Machine

theorem Decoder.Inv.emittable {d : Decoder} (h : d.Inv) : d.Emittable :=
  ⟨h.outSize, h.winWf, h.winBelow, h.outWf, h.outBelow⟩

theorem Decoder.Emitted.cfg {cs : List Byte} {d d' : Decoder} (h : Decoder.Emitted cs d d') :
    d'.cfg = d.cfg := by rw [h.rest]

theorem Decoder.Emitted.refl {d : Decoder} (h : d.Emittable) : Decoder.Emitted [] d d :=
  ⟨rfl, h, rfl, rfl, by simp, fun j hj _ => by simp [Nat.ne_of_gt hj], fun _ _ => rfl⟩

theorem Decoder.Emitted.trans {a b : List Byte} {d d' d'' : Decoder} (h : Decoder.Emitted a d d')
    (h' : Decoder.Emitted b d' d'') : Decoder.Emitted (a ++ b) d d'' := by
  refine ⟨?_, h'.emittable, ?_, ?_, ?_, fun j h1 h2 => ?_, fun x hx => ?_⟩
  · rw [h'.rest, h.rest]
  · rw [h'.head, h.head, List.length_append]; omega
  · rw [h'.outSize, h.outSize, List.length_append]; omega
  · rw [h'.pending, h.pending, List.append_assoc]
  · rw [h'.window j h1 (by rw [h.cfg]; exact h2), List.length_append]
    by_cases hb : j ≤ b.length
    · rw [if_pos hb, if_pos (by omega), List.getD_append_right _ _ _ _ (by omega)]
      congr 1; omega
    · rw [if_neg hb, h.window (j - b.length) (by omega) (by omega)]
      by_cases ha : j ≤ a.length + b.length
      · rw [if_pos ha, if_pos (by omega), List.getD_append _ _ _ _ (by omega)]
        congr 1; omega
      · rw [if_neg ha, if_neg (by omega)]
        congr 1; omega
  · have h1 := h.outSize; have h2 := h'.outSize
    rw [h'.kept x (by omega), h.kept x (by omega)]

theorem Decoder.windowSlot_lt (back : Nat) (d : Decoder) : Decoder.windowSlot back d < d.cfg.window := by
  have hpos : (0 : Int) < (d.cfg.window : Int) := by exact_mod_cast Nat.two_pow_pos _
  have h1 := Int.emod_nonneg ((d.head : Int) - back) (Int.ne_of_gt hpos)
  have h2 := Int.emod_lt_of_pos ((d.head : Int) - back) hpos
  unfold Decoder.windowSlot
  omega

/-- One position further back from one position further on is the same slot. -/
theorem Decoder.windowSlot_succ (back : Nat) (d : Decoder) (win : Memory) :
    Decoder.windowSlot (back + 1) { d with win := win, head := d.head + 1 } =
      Decoder.windowSlot back d := by
  have : ((d.head + 1 : Nat) : Int) - ((back + 1 : Nat) : Int) = (d.head : Int) - (back : Int) := by
    push_cast; ring
  simp only [Decoder.windowSlot, this]

/-- The slot about to be written is none of the H - 1 most recent ones. -/
theorem Decoder.windowSlot_ne {back : Nat} {d : Decoder} (h1 : 1 ≤ back) (h2 : back < d.cfg.window) :
    Decoder.windowSlot back d ≠ Decoder.windowSlot 0 d := by
  have hpos : (0 : Int) < (d.cfg.window : Int) := by exact_mod_cast Nat.two_pow_pos _
  intro h
  have e1 := Int.emod_nonneg ((d.head : Int) - back) (Int.ne_of_gt hpos)
  have e2 := Int.emod_nonneg ((d.head : Int) - (0 : Nat)) (Int.ne_of_gt hpos)
  unfold Decoder.windowSlot at h
  have heq : ((d.head : Int) - back) % (d.cfg.window : Int) =
      ((d.head : Int) - (0 : Nat)) % (d.cfg.window : Int) := by omega
  have hsub : (d.cfg.window : Int) ∣ (back : Int) := by
    have := Int.ModEq.dvd (show Int.ModEq _ _ _ from heq)
    simpa using this
  obtain ⟨c, hc⟩ := hsub
  have hb : (back : Int) < d.cfg.window := by exact_mod_cast h2
  have hb1 : (1 : Int) ≤ back := by exact_mod_cast h1
  rcases lt_trichotomy c 0 with hlt | rfl | hgt
  · nlinarith
  · simp at hc; omega
  · nlinarith

/-- The slot about to be written lies below the head, or wraps. -/
theorem Decoder.windowSlot_zero_lt (d : Decoder) :
    Decoder.windowSlot 0 d < min (d.head + 1) d.cfg.window := by
  have h := Decoder.windowSlot_lt 0 d
  have : Decoder.windowSlot 0 d = d.head % d.cfg.window := by
    unfold Decoder.windowSlot
    simp only [Nat.cast_zero, sub_zero]
    rw [← Int.natCast_emod, Int.toNat_natCast]
  have := Nat.mod_le d.head d.cfg.window
  omega

/-- A byte to the window and to D.OUT, with room for it (R112, R121). -/
theorem Decoder.emit_spec {d : Decoder} (c : Byte) (h : d.Emittable) (hr : d.outSize < d.cfg.obs) :
    ∃ d', (Decoder.windowPush c d >>= Decoder.emitByte c) = .ok d' ∧ Decoder.Emitted [c] d d' := by
  have hs := Decoder.windowSlot_lt 0 d
  simp only [Decoder.windowPush, writeByteAt_of_lt hs, Res.ok_bind, Res.pure_eq, Decoder.emitByte,
    writeByteAt_of_lt hr]
  refine ⟨_, rfl, rfl, ⟨?_, ?_, ?_, ?_, ?_⟩, rfl, rfl, ?_, fun j h1 h2 => ?_, fun a ha => ?_⟩
  · exact hr
  · exact Memory.wf_write h.winWf
  · refine Cells.below_write (Cells.below_mono h.winBelow ?_) (Decoder.windowSlot_zero_lt d)
    simp only; omega
  · exact Memory.wf_write h.outWf
  · exact Cells.below_write h.outBelow hr
  · simp only [Decoder.pending]
    rw [List.range_succ, List.map_append, List.map_singleton]
    congr 1
    · refine List.map_congr_left fun i hi => ?_
      exact Cells.read_write_other (by have := List.mem_range.1 hi; omega)
    · simp only [Decoder.outByte]
      rw [Cells.read_write_same h.outWf]
  · obtain ⟨k, rfl⟩ : ∃ k, j = k + 1 := ⟨j - 1, by omega⟩
    have hslot : Decoder.windowSlot (k + 1)
        { d with win := Cells.write 0#8 d.win (Decoder.windowSlot 0 d) c, head := d.head + 1,
                 out := Cells.write 0#8 d.out d.outSize c, outSize := d.outSize + 1 } =
        Decoder.windowSlot k d := Decoder.windowSlot_succ k d d.win
    simp only [Decoder.windowByte, hslot, Decoder.winByte, List.length_singleton]
    rw [Cells.read_write h.winWf]
    by_cases hk : k = 0
    · subst hk; simp
    · rw [if_neg (Decoder.windowSlot_ne (by omega) (by omega)), if_neg (by omega)]
      simp
  · exact Cells.read_write_other (by simp only at ha; omega)

/-- `windowCopy` and the output of its byte, with room for it (R122): the read comes first. -/
theorem Decoder.copy_spec {d : Decoder} (h : d.Emittable) (hr : d.outSize < d.cfg.obs) (offset : Nat) :
    ∃ d', (Decoder.windowCopy offset d >>= fun x => Decoder.emitByte x.1 x.2) = .ok d' ∧
      Decoder.Emitted [d.windowByte offset] d d' := by
  have hs := Decoder.windowSlot_lt offset d
  obtain ⟨d', e, p⟩ := Decoder.emit_spec (d.windowByte offset) h hr
  refine ⟨d', ?_, p⟩
  rw [← e]
  simp only [Decoder.windowCopy, readByteAt_of_lt hs, Res.ok_bind, Res.pure_eq]
  rw [show Cells.read 0#8 d.win (Decoder.windowSlot offset d) = d.windowByte offset from rfl]
  cases Decoder.windowPush (d.windowByte offset) d <;> rfl

/-- `n` copied bytes, with room for them (R122, R193): each is the byte the window held `offset` bytes
before it, or one of the copied bytes themselves when the copy overlaps its own output. -/
theorem Decoder.copyBytes_spec (n : Nat) {d : Decoder} (h : d.Emittable)
    (hr : d.outSize + n ≤ d.cfg.obs) (h1 : 1 ≤ d.offset) (h2 : d.offset ≤ d.cfg.window) :
    ∃ d' cs, Decoder.copyBytes n d = .ok d' ∧ Decoder.Emitted cs d d' ∧ cs.length = n ∧
      ∀ i, i < n → cs.getD i 0 =
        if i < d.offset then d.windowByte (d.offset - i) else cs.getD (i - d.offset) 0 := by
  induction n generalizing d with
  | zero => exact ⟨d, [], rfl, Decoder.Emitted.refl h, rfl, fun i hi => absurd hi (by omega)⟩
  | succ n ih =>
    obtain ⟨d1, e1, p1⟩ := Decoder.copy_spec h (by omega) d.offset
    have ho : d1.offset = d.offset := by rw [p1.rest]
    have hs := p1.outSize
    simp only [List.length_singleton] at hs
    obtain ⟨d2, cs, e2, p2, hl, hc⟩ := ih p1.emittable (by rw [p1.cfg]; omega) (by rw [ho]; exact h1)
      (by rw [ho, p1.cfg]; exact h2)
    refine ⟨d2, d.windowByte d.offset :: cs, ?_, p1.trans p2, by simp [hl], fun i hi => ?_⟩
    · simp only [Decoder.copyBytes]
      rw [← e2]
      have : ∀ x : Res (Byte × Decoder), (x >>= fun y => Decoder.emitByte y.1 y.2) = .ok d1 →
          (do let (c, d) ← x
              let d ← Decoder.emitByte c d
              Decoder.copyBytes n d) = Decoder.copyBytes n d1 := by
        intro x hx
        cases x with
        | error y => cases hx
        | ok y => simp only [Res.ok_bind] at hx ⊢; rw [hx]; rfl
      exact this _ e1
    · cases i with
      | zero => simp [Nat.lt_of_lt_of_le Nat.zero_lt_one h1]
      | succ i =>
        have hi' := hc i (by omega)
        rw [List.getD_cons_succ, hi', ho]
        by_cases hlt : i + 1 < d.offset
        · rw [if_pos (by omega), if_pos hlt, p1.window _ (by omega) (by omega),
            if_neg (by simp only [List.length_singleton]; omega)]
          congr 1
        · rw [if_neg hlt]
          by_cases heq : i + 1 = d.offset
          · rw [if_pos (by omega), p1.window _ (by omega) (by omega)]
            have h3 : d.offset - i = 1 := by omega
            have h4 : i + 1 - d.offset = 0 := by omega
            simp [h3, h4]
          · rw [if_neg (by omega)]
            have h3 : i + 1 - d.offset = (i - d.offset) + 1 := by omega
            rw [h3, List.getD_cons_succ]

end Sys2Proof.Machine
end

