-- ==== Sys2Proof/Laws/Decoder.lean ====
section
/-! SUPPORT. One lemma per decoder handler, command and token that says everything it does on a decoder
that meets the invariant: what it answers, that the invariant is kept, and that a handler that
changes the state makes progress. -/

namespace Sys2Proof.Machine

theorem Decoder.Inv.window_pos {d : Decoder} (_ : d.Inv) : 0 < d.cfg.window := Nat.two_pow_pos _

theorem Decoder.Inv.lookahead_pos {d : Decoder} (_ : d.Inv) : 0 < d.cfg.lookahead := Nat.two_pow_pos _

/-- A freshly constructed or reset decoder meets the invariant (R35). -/
theorem Decoder.initial_inv {cfg : Cfg} (h : legalDecoder cfg) : (Decoder.initial cfg).Inv where
  legal := h
  cursors := Nat.le_refl _
  inSize := Nat.zero_le _
  drained := fun _ => rfl
  outSize := Nat.zero_le _
  rbits := Nat.zero_le _
  offset := Nat.zero_le _
  count := Nat.zero_le _
  indexMsb := by simp [Decoder.initial]
  indexLsb := by simp [Decoder.initial]
  countMsb := by simp [Decoder.initial]
  countLsb := by simp [Decoder.initial]
  distance := by simp [Decoder.initial]
  copying := by simp [Decoder.initial]
  inWf := rfl
  inBelow := rfl
  winWf := rfl
  winBelow := rfl
  outWf := rfl
  outBelow := rfl

theorem Decoder.Consumed.cfg {n : Nat} {d d' : Decoder} (c : Decoder.Consumed n d d') : d'.cfg = d.cfg := by
  rw [c.rest]

theorem Decoder.Consumed.state {n : Nat} {d d' : Decoder} (c : Decoder.Consumed n d d') :
    d'.state = d.state := by rw [c.rest]

theorem Decoder.Consumed.outSize {n : Nat} {d d' : Decoder} (c : Decoder.Consumed n d d') :
    d'.outSize = d.outSize := by rw [c.rest]

/-- Taking bits keeps the invariant. -/
theorem Decoder.Consumed.inv {n : Nat} {d d' : Decoder} (h : d.Inv) (c : Decoder.Consumed n d d') :
    d'.Inv := by
  obtain ⟨c1, c2, c3, c4⟩ := c.readable
  have hr := c.rest
  generalize d'.inHead = ih, d'.inSize = is, d'.curByte = cb, d'.rbits = rb at c1 c2 c3 c4 hr
  subst hr
  exact { h with cursors := c1, inSize := c2, drained := c3, rbits := c4 }

/-- Outputting bytes in a state that stays keeps the invariant. -/
theorem Decoder.Emitted.inv {cs : List Byte} {d d' : Decoder} (h : d.Inv) (c : Decoder.Emitted cs d d') :
    d'.Inv := by
  obtain ⟨c1, c2, c3, c4, c5⟩ := c.emittable
  have hr := c.rest
  generalize d'.win = w, d'.head = hd, d'.out = o, d'.outSize = os at c1 c2 c3 c4 c5 hr
  subst hr
  exact { h with outSize := c1, winWf := c2, winBelow := c3, outWf := c4, outBelow := c5 }

/-! ### What is done with a field -/

theorem tagBitRead_inv {d : Decoder} (h : d.Inv) (b : Nat) :
    ∃ d', tagBitRead b d = .ok d' ∧ d'.Inv := by
  unfold tagBitRead
  have h1 := h.legal.1
  split
  · refine ⟨_, rfl, { h with
      indexMsb := ?_, indexLsb := ?_, countMsb := ?_, countLsb := ?_, distance := ?_, copying := ?_ }⟩ <;>
      simp
  · split
    case isTrue hw =>
      refine ⟨_, rfl, { h with
        indexMsb := fun _ => hw, indexLsb := ?_, countMsb := ?_, countLsb := ?_, distance := ?_,
        copying := ?_ }⟩ <;> simp
    case isFalse hw =>
      refine ⟨_, rfl, { h with
        offset := Nat.zero_le _, indexMsb := ?_, indexLsb := ?_, countMsb := ?_, countLsb := ?_,
        distance := ?_, copying := ?_ }⟩
      · simp
      · intro _
        refine ⟨Nat.zero_mod _, ?_⟩
        simp only [Nat.zero_add]
        exact Nat.pow_le_pow_right (by decide) (Nat.min_le_left _ _)
      · simp
      · simp
      · simp
      · simp

theorem indexMsbRead_inv {d : Decoder} (h : d.Inv) (hq : d.state = .backrefIndexMsb) {v : Nat}
    (hv : v < 2 ^ (d.cfg.windowBits - 8)) : ∃ d', indexMsbRead v d = .ok d' ∧ d'.Inv := by
  have hw := h.indexMsb hq
  have hpow : 2 ^ d.cfg.windowBits = 2 ^ (d.cfg.windowBits - 8) * 256 := by
    rw [show (256 : Nat) = 2 ^ 8 from rfl, ← Nat.pow_add, Nat.sub_add_cancel (by omega)]
  have hsh : v <<< 8 = v * 256 := Nat.shiftLeft_eq v 8
  have hmin : min d.cfg.windowBits 8 = 8 := by omega
  refine ⟨_, rfl, { h with
    offset := ?_, indexMsb := ?_, indexLsb := ?_, countMsb := ?_, countLsb := ?_, distance := ?_,
    copying := ?_ }⟩
  · simp only [hsh, Cfg.window, hpow]; omega
  · simp
  · intro _
    simp only [hsh, Cfg.window, hpow, hmin]
    omega
  · simp
  · simp
  · simp
  · simp

theorem countMsbRead_inv {d : Decoder} (h : d.Inv) (hq : d.state = .backrefCountMsb) {v : Nat}
    (hv : v < 2 ^ (d.cfg.lookaheadBits - 8)) : ∃ d', countMsbRead v d = .ok d' ∧ d'.Inv := by
  have hw := h.countMsb hq
  have ho := h.distance (.inl hq)
  have hpow : 2 ^ d.cfg.lookaheadBits = 2 ^ (d.cfg.lookaheadBits - 8) * 256 := by
    rw [show (256 : Nat) = 2 ^ 8 from rfl, ← Nat.pow_add, Nat.sub_add_cancel (by omega)]
  have hsh : v <<< 8 = v * 256 := Nat.shiftLeft_eq v 8
  have hmin : min d.cfg.lookaheadBits 8 = 8 := by omega
  refine ⟨_, rfl, { h with
    count := ?_, indexMsb := ?_, indexLsb := ?_, countMsb := ?_, countLsb := ?_, distance := ?_,
    copying := ?_ }⟩
  · simp only [hsh, Cfg.lookahead, hpow]; omega
  · simp
  · simp
  · simp
  · intro _
    simp only [hsh, Cfg.lookahead, hpow, hmin]
    omega
  · intro _; exact ho
  · simp

/-- A multiple of 2^n together with a number below 2^n is their sum. -/
theorem or_eq_add {a v n : Nat} (ha : a % 2 ^ n = 0) (hv : v < 2 ^ n) : a ||| v = a + v := by
  obtain ⟨k, rfl⟩ := Nat.dvd_of_mod_eq_zero ha
  exact (Nat.two_pow_add_eq_or_of_lt hv k).symm

theorem indexLsbRead_inv {d : Decoder} (h : d.Inv) (hq : d.state = .backrefIndexLsb) {v : Nat}
    (hv : v < 2 ^ min d.cfg.windowBits 8) : ∃ d', indexLsbRead v d = .ok d' ∧ d'.Inv := by
  obtain ⟨h1, h2⟩ := h.indexLsb hq
  have hor := or_eq_add h1 hv
  refine ⟨_, rfl, { h with
    offset := ?_, count := Nat.zero_le _, indexMsb := ?_, indexLsb := ?_, countMsb := ?_,
    countLsb := ?_, distance := ?_, copying := ?_ }⟩
  · simp only [hor]; omega
  · simp only; split <;> simp
  · simp only; split <;> simp
  · simp only
    split
    · intro _; assumption
    · simp
  · intro _
    refine ⟨Nat.zero_mod _, ?_⟩
    simp only [Nat.zero_add]
    exact Nat.pow_le_pow_right (by decide) (Nat.min_le_left _ _)
  · intro _; simp
  · simp only; split <;> simp

theorem countLsbRead_inv {d : Decoder} (h : d.Inv) (hq : d.state = .backrefCountLsb) {v : Nat}
    (hv : v < 2 ^ min d.cfg.lookaheadBits 8) : ∃ d', countLsbRead v d = .ok d' ∧ d'.Inv := by
  obtain ⟨h1, h2⟩ := h.countLsb hq
  have ho := h.distance (.inr (.inl hq))
  have hor := or_eq_add h1 hv
  refine ⟨_, rfl, { h with
    count := ?_, indexMsb := ?_, indexLsb := ?_, countMsb := ?_,
    countLsb := ?_, distance := ?_, copying := ?_ }⟩
  · simp only [hor]; omega
  · simp
  · simp
  · simp
  · simp
  · intro _; exact ho
  · simp

theorem literalRead_spec {d : Decoder} (h : d.Inv) (hr : d.room) (v : Nat) :
    ∃ d1, Decoder.Emitted [BitVec.ofNat 8 v] d d1 ∧ literalRead v d = .ok { d1 with state := .tagBit } ∧
      ({ d1 with state := .tagBit } : Decoder).Inv := by
  obtain ⟨d1, e1, p1⟩ := Decoder.emit_spec (BitVec.ofNat 8 v) h.emittable hr
  refine ⟨d1, p1, ?_, ?_⟩
  · simp only [literalRead]
    cases hw : Decoder.windowPush (BitVec.ofNat 8 v) d with
    | error x => rw [hw] at e1; cases e1
    | ok y => rw [hw, Res.ok_bind] at e1; simp only [Res.ok_bind, e1, Res.pure_eq]
  · have h1 := p1.inv h
    refine { h1 with
      indexMsb := ?_, indexLsb := ?_, countMsb := ?_, countLsb := ?_, distance := ?_, copying := ?_ } <;>
      simp

/-- YIELD_BACKREF (R193). -/
theorem decYieldBackref_spec {d : Decoder} (h : d.Inv) (hq : d.state = .yieldBackref) :
    ∃ d1 cs, Decoder.Emitted cs d d1 ∧ cs.length = min (d.cfg.obs - d.outSize) d.count ∧
      (∀ i, i < cs.length → cs.getD i 0 =
        if i < d.offset then d.windowByte (d.offset - i) else cs.getD (i - d.offset) 0) ∧
      decYieldBackref d = .ok { d1 with
        count := d.count - cs.length,
        state := if d.count - cs.length = 0 then .tagBit else .yieldBackref } ∧
      ({ d1 with
        count := d.count - cs.length,
        state := if d.count - cs.length = 0 then .tagBit else .yieldBackref } : Decoder).Inv := by
  have ho := h.outSize
  have hd := h.distance (.inr (.inr hq))
  have hc := h.copying hq
  have hinv : ∀ (d1 : Decoder) (n : Nat), d1.Inv → d1.offset = d.offset → n ≤ d.count → d1.cfg = d.cfg →
      ({ d1 with count := d.count - n,
                 state := if d.count - n = 0 then .tagBit else .yieldBackref } : Decoder).Inv := by
    intro d1 n h1 ho1 hn hcfg
    have := h.count
    refine { h1 with
      count := ?_, indexMsb := ?_, indexLsb := ?_, countMsb := ?_, countLsb := ?_, distance := ?_,
      copying := ?_ }
    · simp only [hcfg]; omega
    · simp only; split <;> simp
    · simp only; split <;> simp
    · simp only; split <;> simp
    · simp only; split <;> simp
    · intro _; simp only [ho1]; exact hd
    · simp only; split
      · simp
      · intro _; omega
  unfold decYieldBackref
  rw [minus_of_le ho, Res.ok_bind]
  by_cases hz : d.cfg.obs - d.outSize = 0
  · have hne : ¬ d.count = 0 := by omega
    refine ⟨d, [], Decoder.Emitted.refl h.emittable, by simp [hz], by simp, ?_, ?_⟩
    · simp only [hz, if_true, Res.pure_eq, List.length_nil, Nat.sub_zero, if_neg hne, ← hq]
    · have := hinv d 0 h rfl (by omega) rfl
      simpa using this
  · obtain ⟨d1, cs, e1, p1, hl, hcs⟩ := Decoder.copyBytes_spec (min (d.cfg.obs - d.outSize) d.count)
      h.emittable (by omega) hd h.offset
    refine ⟨d1, cs, p1, hl, by rw [hl]; exact hcs, ?_, ?_⟩
    · have hst : d1.state = .yieldBackref := by rw [p1.rest]; exact hq
      simp only [if_neg hz, e1, Res.ok_bind, Res.pure_eq, hl, hst]
    · exact hinv d1 cs.length (p1.inv h) (by rw [p1.rest]) (by omega) p1.cfg

/-! ### Handlers -/

/-- How many handler steps are left, at most, before POLL answers: every step but the last takes a bit
or outputs a byte. -/
def Decoder.stepsLeft (d : Decoder) : Nat := d.unread.length + (d.cfg.obs - d.outSize)

/-- What one handler step amounts to: the invariant and CFG are kept, and the state either stays, which
ends a POLL, or there are fewer steps left. -/
structure Decoder.Stepped (d d' : Decoder) : Prop where
  inv : d'.Inv
  cfg : d'.cfg = d.cfg
  progress : d'.state = d.state ∧ (d' = d ∨ d'.outSize = d.cfg.obs) ∨
    d'.state ≠ d.state ∧ d'.stepsLeft < d.stepsLeft

theorem Decoder.Stepped.refl {d : Decoder} (h : d.Inv) : Decoder.Stepped d d :=
  ⟨h, rfl, .inl ⟨rfl, .inl rfl⟩⟩

/-- A handler that reads a field and then sets registers and the state. -/
theorem readField_stepped {n : Nat} {use : Nat → Decoder → Res Decoder} {d : Decoder} (h : d.Inv)
    (h1 : 1 ≤ n) (h15 : n ≤ 15)
    (huse : ∀ d1 v, Decoder.Consumed n d d1 → v < 2 ^ n → n ≤ d.unread.length → ∃ d', use v d1 = .ok d' ∧
      d'.Inv ∧ d'.cfg = d1.cfg ∧ d'.state ≠ d.state ∧ d'.unread = d1.unread ∧ d1.outSize ≤ d'.outSize) :
    ∃ d', Decoder.readField n use d = .ok d' ∧ Decoder.Stepped d d' := by
  rcases Decoder.readField_spec (use := use) h.readable h1 h15 with ⟨-, e⟩ | ⟨hl, d1, c, e⟩
  · exact ⟨d, e, Decoder.Stepped.refl h⟩
  · have hv : numberFrom 0 (d.unread.take n) < 2 ^ n := by
      have := numberFrom_lt (d.unread.take n)
      rwa [List.length_take, Nat.min_eq_left hl] at this
    obtain ⟨d', g1, g2, g3, g4, g5, g6⟩ := huse d1 _ c hv hl
    refine ⟨d', by rw [e, g1], g2, by rw [g3, c.cfg], .inr ⟨g4, ?_⟩⟩
    have hu : d'.unread.length = d.unread.length - n := by rw [g5, c.unread, List.length_drop]
    simp only [Decoder.stepsLeft, hu, g3, c.cfg]
    rw [c.outSize] at g6
    omega

theorem decTagBit_stepped {d : Decoder} (h : d.Inv) (hq : d.state = .tagBit) :
    ∃ d', decTagBit d = .ok d' ∧ Decoder.Stepped d d' := by
  refine readField_stepped h (by decide) (by decide) fun d1 v c _ _ => ?_
  obtain ⟨d', e, hi⟩ := tagBitRead_inv (c.inv h) v
  refine ⟨d', e, hi, ?_⟩
  unfold tagBitRead at e
  split at e
  · injection e with e; subst e; simp [hq, Decoder.unread, Decoder.inByte]
  · split at e <;> (injection e with e; subst e; simp [hq, Decoder.unread, Decoder.inByte])

theorem decYieldLiteral_stepped {d : Decoder} (h : d.Inv) (hq : d.state = .yieldLiteral) :
    ∃ d', decYieldLiteral d = .ok d' ∧ Decoder.Stepped d d' := by
  unfold decYieldLiteral
  by_cases hr : d.room
  · rw [if_neg (not_not_intro hr)]
    refine readField_stepped h (by decide) (by decide) fun d1 v c _ _ => ?_
    have hr1 : d1.room := by simp only [Decoder.room, c.cfg, c.outSize]; exact hr
    obtain ⟨d2, p, e, hi⟩ := literalRead_spec (c.inv h) hr1 v
    refine ⟨_, e, hi, p.cfg, by simp [hq], ?_, ?_⟩
    · show d2.unread = d1.unread
      rw [p.rest]; rfl
    · simp only [p.outSize]; omega
  · rw [if_pos hr]; exact ⟨d, rfl, Decoder.Stepped.refl h⟩

theorem decBackrefIndexMsb_stepped {d : Decoder} (h : d.Inv) (hq : d.state = .backrefIndexMsb) :
    ∃ d', decBackrefIndexMsb d = .ok d' ∧ Decoder.Stepped d d' := by
  have hw := h.indexMsb hq
  have h15 := h.legal.2.1
  simp only [decBackrefIndexMsb, minus_of_le (Nat.le_of_lt hw), Res.ok_bind]
  refine readField_stepped h (by omega) (by omega) fun d1 v c hv _ => ?_
  obtain ⟨d', e, hi⟩ := indexMsbRead_inv (c.inv h) (by rw [c.state, hq]) (by rw [c.cfg]; exact hv)
  refine ⟨d', e, hi, ?_⟩
  injection e with e; subst e; simp [hq, Decoder.unread, Decoder.inByte]

theorem decBackrefIndexLsb_stepped {d : Decoder} (h : d.Inv) (hq : d.state = .backrefIndexLsb) :
    ∃ d', decBackrefIndexLsb d = .ok d' ∧ Decoder.Stepped d d' := by
  have h4 := h.legal.1
  refine readField_stepped h (by omega) (by omega) fun d1 v c hv _ => ?_
  obtain ⟨d', e, hi⟩ := indexLsbRead_inv (c.inv h) (by rw [c.state, hq]) (by rw [c.cfg]; exact hv)
  refine ⟨d', e, hi, ?_⟩
  injection e with e; subst e
  refine ⟨rfl, ?_, rfl, Nat.le_refl _⟩
  simp only [hq]; split <;> simp

theorem decBackrefCountMsb_stepped {d : Decoder} (h : d.Inv) (hq : d.state = .backrefCountMsb) :
    ∃ d', decBackrefCountMsb d = .ok d' ∧ Decoder.Stepped d d' := by
  have hw := h.countMsb hq
  have h15 := h.legal.2.1
  have hlw := h.legal.2.2.2.1
  simp only [decBackrefCountMsb, minus_of_le (Nat.le_of_lt hw), Res.ok_bind]
  refine readField_stepped h (by omega) (by omega) fun d1 v c hv _ => ?_
  obtain ⟨d', e, hi⟩ := countMsbRead_inv (c.inv h) (by rw [c.state, hq]) (by rw [c.cfg]; exact hv)
  refine ⟨d', e, hi, ?_⟩
  injection e with e; subst e; simp [hq, Decoder.unread, Decoder.inByte]

theorem decBackrefCountLsb_stepped {d : Decoder} (h : d.Inv) (hq : d.state = .backrefCountLsb) :
    ∃ d', decBackrefCountLsb d = .ok d' ∧ Decoder.Stepped d d' := by
  have h3 := h.legal.2.2.1
  refine readField_stepped h (by omega) (by omega) fun d1 v c hv _ => ?_
  obtain ⟨d', e, hi⟩ := countLsbRead_inv (c.inv h) (by rw [c.state, hq]) (by rw [c.cfg]; exact hv)
  refine ⟨d', e, hi, ?_⟩
  injection e with e; subst e; simp [hq, Decoder.unread, Decoder.inByte]

theorem decYieldBackref_stepped {d : Decoder} (h : d.Inv) (hq : d.state = .yieldBackref) :
    ∃ d', decYieldBackref d = .ok d' ∧ Decoder.Stepped d d' := by
  obtain ⟨d1, cs, p, hl, -, e, hi⟩ := decYieldBackref_spec h hq
  have ho := h.outSize
  have hc := h.copying hq
  refine ⟨_, e, hi, p.cfg, ?_⟩
  by_cases hz : d.count - cs.length = 0
  · refine .inr ⟨by simp [hz, hq], ?_⟩
    have hu : d1.unread = d.unread := by rw [p.rest]; rfl
    have hlen : 0 < cs.length ∨ d.cfg.obs - d.outSize = 0 := by omega
    have : ({ d1 with
        count := d.count - cs.length,
        state := if d.count - cs.length = 0 then .tagBit else .yieldBackref } : Decoder).stepsLeft =
        d.unread.length + (d.cfg.obs - (d.outSize + cs.length)) := by
      show d1.unread.length + (d1.cfg.obs - d1.outSize) = _
      rw [hu, p.cfg, p.outSize]
    rw [this]
    simp only [Decoder.stepsLeft]
    omega
  · refine .inl ⟨by simp [hz, hq], .inr ?_⟩
    show d1.outSize = d.cfg.obs
    rw [p.outSize]; omega

/-- One handler step keeps the invariant, and makes progress when it changes the state. -/
theorem decHandler_stepped {d : Decoder} (h : d.Inv) :
    ∃ d', decHandler d.state d = .ok d' ∧ Decoder.Stepped d d' := by
  match hs : d.state with
  | .tagBit => exact decTagBit_stepped h hs
  | .yieldLiteral => exact decYieldLiteral_stepped h hs
  | .backrefIndexMsb => exact decBackrefIndexMsb_stepped h hs
  | .backrefIndexLsb => exact decBackrefIndexLsb_stepped h hs
  | .backrefCountMsb => exact decBackrefCountMsb_stepped h hs
  | .backrefCountLsb => exact decBackrefCountLsb_stepped h hs
  | .yieldBackref => exact decYieldBackref_stepped h hs

/-! ### POLL -/

/-- Where POLL's loop stops: after the first handler step that leaves the state as it was (R184). -/
theorem decPollLoop_spec (fuel : Nat) {d : Decoder} (h : d.Inv) (hf : d.stepsLeft < fuel) :
    ∃ d' r n d1, decPollLoop fuel d = .ok (d', r) ∧ n ≤ d.stepsLeft ∧ decRun n d = .ok d1 ∧ d1.Inv ∧
      decHandler d1.state d1 = .ok d' ∧ d'.state = d1.state ∧ d'.Inv ∧ d'.cfg = d.cfg ∧
      (d' = d1 ∨ d'.outSize = d'.cfg.obs) ∧
      r = (if d'.outSize = d'.cfg.obs then .pollMore else .pollEmpty) ∧
      ∀ m, m < n → ∃ a b, decRun m d = .ok a ∧ decRun (m + 1) d = .ok b ∧ b.state ≠ a.state := by
  induction fuel generalizing d with
  | zero => omega
  | succ fuel ih =>
    obtain ⟨d1, e1, st⟩ := decHandler_stepped h
    simp only [decPollLoop, e1, Res.ok_bind]
    rcases st.progress with ⟨hs, hp⟩ | ⟨hs, hp⟩
    · rw [if_pos hs]
      refine ⟨d1, _, 0, d, rfl, Nat.zero_le _, rfl, h, e1, hs, st.inv, st.cfg, ?_, rfl,
        fun m hm => absurd hm (Nat.not_lt_zero m)⟩
      rw [st.cfg]; exact hp
    · rw [if_neg hs]
      obtain ⟨d', r, n, d2, g1, g2, g3, g4, g5, g6, g7, g8, g9, g10, g11⟩ := ih st.inv (by omega)
      refine ⟨d', r, n + 1, d2, g1, by omega, by simp only [decRun, e1, Res.ok_bind, g3], g4, g5, g6, g7,
        by rw [g8, st.cfg], g9, g10, fun m hm => ?_⟩
      cases m with
      | zero => exact ⟨d, d1, rfl, by simp only [decRun, e1, Res.ok_bind], hs⟩
      | succ m =>
        obtain ⟨a, b, ha, hb, hab⟩ := g11 m (by omega)
        exact ⟨a, b, by simp only [decRun, e1, Res.ok_bind, ha],
          by rw [decRun, e1, Res.ok_bind, hb], hab⟩

/-- The steps left are within R199's bound. -/
theorem Decoder.stepsLeft_lt {d : Decoder} (h : d.Inv) : d.stepsLeft < decPollBound d.cfg := by
  have h1 := h.rbits
  have h2 := h.inSize
  have h3 := Decoder.unread_length d
  simp only [Decoder.stepsLeft, decPollBound]
  omega

/-- POLL on a decoder that meets the invariant (R184, R199). -/
theorem decPoll_spec {p : Params} {d : Decoder} (h : d.Inv) :
    ∃ d' r n d1, decPoll p d = .ok (d', r) ∧ n + 1 ≤ decPollBound d.cfg ∧ decRun n d = .ok d1 ∧ d1.Inv ∧
      decHandler d1.state d1 = .ok d' ∧ d'.state = d1.state ∧ d'.Inv ∧ d'.cfg = d.cfg ∧
      (d' = d1 ∨ d'.outSize = d'.cfg.obs) ∧
      r = (if d'.outSize = d'.cfg.obs then .pollMore else .pollEmpty) ∧
      ∀ m, m < n → ∃ a b, decRun m d = .ok a ∧ decRun (m + 1) d = .ok b ∧ b.state ≠ a.state := by
  have hlt := Decoder.stepsLeft_lt h
  obtain ⟨d', r, n, d1, g1, g2, g3⟩ := decPollLoop_spec (decPollBound d.cfg) h hlt
  exact ⟨d', r, n, d1, g1, by omega, g3⟩

/-! ### The other commands -/

/-- `append(D.IN, data)` with space (R101, R182). -/
theorem decSink_spec {p : Params} {d : Decoder} {data : List Byte} (h : d.Inv)
    (hs : d.inSize ≠ d.cfg.ibs) :
    ∃ inp', decSink data p d = .ok
        ({ d with inp := inp', inSize := d.inSize + min (d.cfg.ibs - d.inSize) data.length },
          .accepted (min (d.cfg.ibs - d.inSize) data.length)) ∧
      Memory.wf inp' = true ∧ Cells.below d.cfg.ibs inp' = true ∧
      (∀ k, k < min (d.cfg.ibs - d.inSize) data.length →
        Cells.read 0#8 inp' (d.inSize + k) = data.getD k 0) ∧
      ∀ a, a < d.inSize ∨ d.inSize + min (d.cfg.ibs - d.inSize) data.length ≤ a →
        Cells.read 0#8 inp' a = d.inByte a := by
  have hb := h.inSize
  have hlen : (data.take (d.cfg.ibs - d.inSize)).length = min (d.cfg.ibs - d.inSize) data.length := by
    simp
  obtain ⟨inp', h1, h2, h3, h4, h5⟩ := writeRun_spec (size := d.cfg.ibs)
    (data.take (d.cfg.ibs - d.inSize)) (i := d.inSize) h.inWf h.inBelow (by rw [hlen]; omega)
  refine ⟨inp', ?_, h2, h3, fun k hk => ?_, fun a ha' => h5 a (by rw [hlen]; exact ha')⟩
  · simp only [decSink, if_neg hs, Decoder.append, minus_of_le hb, Res.ok_bind, h1, Res.pure_eq, hlen]
  · rw [h4 k (by rw [hlen]; exact hk)]
    have hk2 : k < data.length := by omega
    simp [hk2]

theorem decSink_keeps {p : Params} {d : Decoder} (h : d.Inv) (data : List Byte) :
    ∃ d' r, decSink data p d = .ok (d', r) ∧ d'.Inv := by
  by_cases hs : d.inSize = d.cfg.ibs
  · exact ⟨d, .full, by simp [decSink, hs], h⟩
  · obtain ⟨inp', h1, h2, h3, -, -⟩ := decSink_spec (p := p) (data := data) h hs
    have hc := h.cursors
    have hi := h.inSize
    have hd := h.drained
    refine ⟨_, _, h1, { h with
      cursors := ?_, inSize := ?_, drained := ?_, inWf := h2, inBelow := h3 }⟩
    · simp only; omega
    · simp only; omega
    · simp only; omega

/-- `takeAll(D.OUT)` inside the buffer (R113). -/
theorem Decoder.takeAll_spec {d : Decoder} (h : d.outSize ≤ d.cfg.obs) :
    Decoder.takeAll d = .ok (d.pending, { d with outSize := 0 }) := by
  have := readRun_spec (size := d.cfg.obs) (m := d.out) d.outSize 0 (by omega)
  simp [Decoder.takeAll, this, Decoder.pending]

theorem Decoder.drained_inv {d : Decoder} (h : d.Inv) : ({ d with outSize := 0 } : Decoder).Inv :=
  { h with outSize := Nat.zero_le _ }

end Sys2Proof.Machine
end

