-- ==== Sys2Proof/Laws/DecodeRef.lean ====
section
/-! SUPPORT. The decoder and DECODE_REF: whatever is done with a decoder, the bytes it has output and
the bytes its held bits still stand for are together what DECODE_REF gives (R197, R198). -/

namespace Sys2Proof.Machine

/-! ### DECODE_REF, one token at a time -/

/-- Reading a token takes at least one bit. -/
theorem decodeToken_shorter {ly : Layout} {bits rest : List Bool} {i : Instr}
    (h : decodeToken ly bits = .ok (i, rest)) : rest.length < bits.length := by
  have hf : ∀ {n : Nat} {b r : List Bool} {v : Nat}, takeField n b = .ok (v, r) → r.length ≤ b.length := by
    intro n b r v hx
    have := (takeField_ok hx).2
    rw [this]; simp
  match bits with
  | [] => cases h
  | true :: b =>
    simp only [decodeToken] at h
    cases h1 : takeField 8 b with
    | error x => rw [h1] at h; cases h
    | ok y =>
      rw [h1] at h
      have := hf h1
      injection h with h; injection h with _ h
      rw [← h]; simp only [List.length_cons]; omega
  | false :: b =>
    simp only [decodeToken] at h
    cases h1 : takeField ly.windowBits b with
    | error x => rw [h1] at h; cases h
    | ok y =>
      rw [h1] at h
      cases h2 : takeField ly.lookaheadBits y.2 with
      | error x =>
        simp only [bind, Except.bind, h2] at h
        cases h
      | ok z =>
        simp only [bind, Except.bind, h2, pure, Except.pure] at h
        have g1 := hf h1
        have g2 := hf h2
        injection h with h; injection h with _ h
        rw [← h]; simp only [List.length_cons]; omega

/-- The number of rounds does not matter once there are as many as bits. -/
theorem decodeFrom_fuel (ly : Layout) (n m : Nat) (bits : List Bool) (out : List Byte)
    (hn : bits.length ≤ n) (hm : bits.length ≤ m) : decodeFrom ly n bits out = decodeFrom ly m bits out := by
  induction n generalizing m bits out with
  | zero =>
    have : bits = [] := List.eq_nil_of_length_eq_zero (by omega)
    subst this
    cases m <;> rfl
  | succ n ih =>
    cases m with
    | zero =>
      have : bits = [] := List.eq_nil_of_length_eq_zero (by omega)
      subst this; rfl
    | succ m =>
      simp only [decodeFrom]
      cases h : decodeToken ly bits with
      | error x => rfl
      | ok y =>
        have := decodeToken_shorter (rest := y.2) (i := y.1) h
        exact ih m _ _ (by omega) (by omega)

/-- Decoding bits after the bytes `out`. -/
def decodeAll (ly : Layout) (bits : List Bool) (out : List Byte) : List Byte :=
  decodeFrom ly bits.length bits out

theorem decodeAll_token {ly : Layout} {bits rest : List Bool} {i : Instr} (out : List Byte)
    (h : decodeToken ly bits = .ok (i, rest)) :
    decodeAll ly bits out = decodeAll ly rest (expandToken ly i out) := by
  have hs := decodeToken_shorter h
  obtain ⟨n, hn⟩ : ∃ n, bits.length = n + 1 := ⟨bits.length - 1, by omega⟩
  simp only [decodeAll, hn, decodeFrom, h]
  exact decodeFrom_fuel _ _ _ _ _ (by omega) (Nat.le_refl _)

theorem decodeAll_end {ly : Layout} {bits : List Bool} {x : Reject} (out : List Byte)
    (h : decodeToken ly bits = .error x) : decodeAll ly bits out = out := by
  unfold decodeAll
  cases bits.length with
  | zero => rfl
  | succ n => simp only [decodeFrom, h]

theorem expand_prefix (ly : Layout) (dist n : Nat) (out : List Byte) : out <+: expand ly dist n out := by
  induction n generalizing out with
  | zero => exact List.prefix_refl _
  | succ n ih => exact (List.prefix_append out _).trans (ih _)

theorem expandToken_prefix (ly : Layout) (i : Instr) (out : List Byte) : out <+: expandToken ly i out := by
  cases i <;> first
    | exact List.prefix_refl _
    | exact List.prefix_append _ _
    | exact expand_prefix _ _ _ _

/-- What is decoded only grows. -/
theorem decodeFrom_prefix (ly : Layout) (n : Nat) (bits : List Bool) (out : List Byte) :
    out <+: decodeFrom ly n bits out := by
  induction n generalizing bits out with
  | zero => exact List.prefix_refl _
  | succ n ih =>
    simp only [decodeFrom]
    cases decodeToken ly bits with
    | error x => exact List.prefix_refl _
    | ok y => exact (expandToken_prefix ly y.1 out).trans (ih _ _)

/-- More bits decode to more bytes. -/
theorem decodeToken_append {ly : Layout} {bits rest : List Bool} {i : Instr} (more : List Bool)
    (h : decodeToken ly bits = .ok (i, rest)) : decodeToken ly (bits ++ more) = .ok (i, rest ++ more) := by
  have hf : ∀ {n : Nat} {b r : List Bool} {v : Nat}, takeField n b = .ok (v, r) →
      takeField n (b ++ more) = .ok (v, r ++ more) := by
    intro n b r v hx
    obtain ⟨h1, h2⟩ := takeField_ok hx
    rw [h2, List.append_assoc, takeField_bitsOf _ _ _ h1]
  match bits with
  | [] => cases h
  | true :: b =>
    simp only [decodeToken, List.cons_append] at h ⊢
    cases h1 : takeField 8 b with
    | error x => rw [h1] at h; cases h
    | ok y =>
      rw [h1] at h; rw [hf (r := y.2) (v := y.1) h1]
      injection h with h; injection h with h0 h
      rw [← h0, ← h]; rfl
  | false :: b =>
    simp only [decodeToken, List.cons_append] at h ⊢
    cases h1 : takeField ly.windowBits b with
    | error x => rw [h1] at h; cases h
    | ok y =>
      rw [h1] at h
      rw [hf (r := y.2) (v := y.1) h1]
      cases h2 : takeField ly.lookaheadBits y.2 with
      | error x =>
        simp only [bind, Except.bind, h2] at h
        cases h
      | ok z =>
        simp only [bind, Except.bind, h2, pure, Except.pure] at h ⊢
        rw [hf (r := z.2) (v := z.1) h2]
        injection h with h; injection h with h0 h
        rw [← h0, ← h]

theorem decodeAll_prefix (ly : Layout) (bits more : List Bool) (out : List Byte) :
    decodeAll ly bits out <+: decodeAll ly (bits ++ more) out := by
  generalize hn : bits.length = n
  induction n using Nat.strong_induction_on generalizing bits out with
  | _ n ih =>
    cases h : decodeToken ly bits with
    | error x => rw [decodeAll_end out h]; exact decodeFrom_prefix _ _ _ _
    | ok y =>
      rw [decodeAll_token (i := y.1) (rest := y.2) out h,
        decodeAll_token (i := y.1) (rest := y.2 ++ more) out (decodeToken_append more h)]
      exact ih _ (by rw [← hn]; exact decodeToken_shorter (i := y.1) (rest := y.2) h) _ _ rfl

/-! ### The window and the bytes output so far -/

/-- The window holds the last H bytes of 0^H ++ out (R123). -/
def Decoder.Remembers (out : List Byte) (d : Decoder) : Prop :=
  ∀ j, 1 ≤ j → j ≤ d.cfg.window → d.windowByte j = historyByte d.cfg.layout out j

theorem historyByte_append (ly : Layout) (out cs : List Byte) {j : Nat}
    (h2 : j ≤ 2 ^ ly.windowBits) :
    historyByte ly (out ++ cs) j =
      if j ≤ cs.length then cs.getD (cs.length - j) 0 else historyByte ly out (j - cs.length) := by
  unfold historyByte byteAt
  rw [← List.append_assoc]
  have hl : (List.replicate (2 ^ ly.windowBits) (0 : Byte) ++ out).length = 2 ^ ly.windowBits + out.length := by
    simp
  split
  case isTrue h =>
    rw [List.getD_append_right _ _ _ _ (by rw [hl, List.length_append]; omega), hl]
    congr 1
    rw [List.length_append]; omega
  case isFalse h =>
    rw [List.getD_append _ _ _ _ (by rw [hl, List.length_append]; omega)]
    congr 1
    rw [List.length_append]; omega

theorem Decoder.Emitted.remembers {cs out : List Byte} {d d' : Decoder} (c : Decoder.Emitted cs d d')
    (h : d.Remembers out) : d'.Remembers (out ++ cs) := by
  intro j h1 h2
  rw [c.cfg] at h2
  rw [c.window j h1 h2, c.cfg]
  have h2' : j ≤ 2 ^ d.cfg.layout.windowBits := h2
  rw [historyByte_append _ _ _ h2']
  split
  · rfl
  · exact h _ (by omega) (by omega)

/-- Bytes that repeat the window, or themselves where they overlap it, are what a backreference of
DECODE_REF adds (R122, R197). -/
theorem expand_of_copy (ly : Layout) (dist : Nat) (cs : List Byte) (out : List Byte) (h1 : 1 ≤ dist)
    (h2 : dist ≤ 2 ^ ly.windowBits)
    (hc : ∀ i, i < cs.length → cs.getD i 0 =
      if i < dist then historyByte ly out (dist - i) else cs.getD (i - dist) 0) :
    expand ly dist cs.length out = out ++ cs := by
  induction cs generalizing out with
  | nil => simp [expand]
  | cons c cs ih =>
    have h0 := hc 0 (by simp)
    rw [if_pos (by omega), Nat.sub_zero, List.getD_cons_zero] at h0
    simp only [List.length_cons, expand, ← h0]
    rw [ih (out ++ [c]), List.append_assoc]
    · rfl
    · intro i hi
      have := hc (i + 1) (by simp; omega)
      rw [List.getD_cons_succ] at this
      rw [this]
      have happ : ∀ j, 1 ≤ j → j ≤ 2 ^ ly.windowBits → historyByte ly (out ++ [c]) j =
          if j ≤ 1 then c else historyByte ly out (j - 1) := by
        intro j g1 g2
        rw [historyByte_append _ _ _ g2]
        simp only [List.length_singleton]
        split
        · have : 1 - j = 0 := by omega
          rw [this]; rfl
        · rfl
      by_cases ha : i + 1 < dist
      · rw [if_pos ha, if_pos (by omega), happ _ (by omega) (by omega), if_neg (by omega)]
        congr 1
      · rw [if_neg ha]
        by_cases hb : i < dist
        · have hz : i + 1 - dist = 0 := by omega
          have hone : dist - i = 1 := by omega
          rw [if_pos hb, hz, List.getD_cons_zero, hone, happ 1 (Nat.le_refl 1) (by omega), if_pos (Nat.le_refl 1)]
        · rw [if_neg hb, show i + 1 - dist = (i - dist) + 1 by omega, List.getD_cons_succ]

theorem expand_add (ly : Layout) (dist m n : Nat) (out : List Byte) :
    expand ly dist (m + n) out = expand ly dist n (expand ly dist m out) := by
  induction m generalizing out with
  | zero => simp [expand]
  | succ m ih => rw [show m + 1 + n = (m + n) + 1 by omega]; simp only [expand, ih]

/-! ### What a decoder still owes -/

/-- The bits of the token under way that the decoder has taken already. -/
def Decoder.heldBits (d : Decoder) : List Bool :=
  match d.state with
  | .tagBit => []
  | .yieldBackref => []
  | .yieldLiteral => [true]
  | .backrefIndexMsb => [false]
  | .backrefIndexLsb => false :: bitsOf (d.cfg.windowBits - 8) (d.offset >>> 8)
  | .backrefCountMsb => false :: bitsOf d.cfg.windowBits (d.offset - 1)
  | .backrefCountLsb => false ::
      (bitsOf d.cfg.windowBits (d.offset - 1) ++ bitsOf (d.cfg.lookaheadBits - 8) (d.count >>> 8))

/-- All the bytes a decoder that has output `out` comes to have output, given room and the bits `more`
after those it holds. -/
def Decoder.promise (more : List Bool) (out : List Byte) (d : Decoder) : List Byte :=
  decodeAll d.cfg.layout (d.heldBits ++ (d.unread ++ more))
    (if d.state = .yieldBackref then expand d.cfg.layout d.offset d.count out else out)

/-- What one handler step does for DECODE_REF: it outputs some bytes and keeps the promise. -/
structure Decoder.Kept (out : List Byte) (d d' : Decoder) : Prop where
  step : ∃ cs, d'.pending = d.pending ++ cs ∧ d'.Remembers (out ++ cs) ∧
    ∀ more, d'.promise more (out ++ cs) = d.promise more out

theorem Decoder.Kept.refl {out : List Byte} {d : Decoder} (h : d.Remembers out) : Decoder.Kept out d d :=
  ⟨[], by simp, by simpa using h, by simp⟩

theorem Decoder.promise_prefix (more : List Bool) (out : List Byte) (d : Decoder) :
    out <+: d.promise more out := by
  unfold Decoder.promise
  split
  · exact (expand_prefix _ _ _ _).trans (decodeFrom_prefix _ _ _ _)
  · exact decodeFrom_prefix _ _ _ _

theorem Decoder.Consumed.take {n : Nat} {d d' : Decoder} (c : Decoder.Consumed n d d')
    (hn : n ≤ d.unread.length) :
    d.unread = bitsOf n (numberFrom 0 (d.unread.take n)) ++ d'.unread := by
  have hl : (d.unread.take n).length = n := by rw [List.length_take]; omega
  have hb := bitsOf_numberFrom (d.unread.take n)
  rw [hl] at hb
  rw [hb, c.unread, List.take_append_drop]

/-- A handler that reads a field and only sets registers keeps the promise when the bits held before,
the field's bits and the bits held after agree. -/
theorem readField_kept {n : Nat} {use : Nat → Decoder → Res Decoder} {d : Decoder} {out : List Byte}
    (h : d.Inv) (hr : d.Remembers out) (h1 : 1 ≤ n) (h15 : n ≤ 15) (hq : d.state ≠ .yieldBackref)
    (huse : ∀ d1 v, Decoder.Consumed n d d1 → v < 2 ^ n → ∃ o c q, use v d1 =
        .ok { d1 with offset := o, count := c, state := q } ∧
      (q ≠ .yieldBackref →
        ({ d1 with offset := o, count := c, state := q } : Decoder).heldBits = d.heldBits ++ bitsOf n v) ∧
      (q = .yieldBackref → ∃ i, ∀ rest, decodeToken d.cfg.layout (d.heldBits ++ (bitsOf n v ++ rest)) =
          .ok (i, rest) ∧ expandToken d.cfg.layout i out = expand d.cfg.layout o c out))
    {d' : Decoder} (he : Decoder.readField n use d = .ok d') : Decoder.Kept out d d' := by
  rcases Decoder.readField_spec (use := use) h.readable h1 h15 with ⟨-, e⟩ | ⟨hl, d1, c1, e⟩
  · rw [e] at he; injection he with he; subst he; exact Decoder.Kept.refl hr
  · have hv : numberFrom 0 (d.unread.take n) < 2 ^ n := by
      have := numberFrom_lt (d.unread.take n)
      rwa [List.length_take, Nat.min_eq_left hl] at this
    obtain ⟨o, c, q, e2, k1, k2⟩ := huse d1 _ c1 hv
    rw [e, e2] at he; injection he with he
    have hcfg : d'.cfg = d.cfg := by rw [← he]; exact c1.cfg
    have hst : d'.state = q := by rw [← he]
    have hun : d'.unread = d1.unread := by rw [← he]; rfl
    have htake := c1.take hl
    refine ⟨[], ?_, ?_, ?_⟩
    · rw [List.append_nil, ← he]
      show d1.pending = d.pending
      rw [c1.rest]; rfl
    · rw [List.append_nil]
      intro j j1 j2
      rw [hcfg] at j2 ⊢
      have : d'.windowByte j = d.windowByte j := by
        rw [← he]; show d1.windowByte j = _; rw [c1.rest]; rfl
      rw [this]; exact hr j j1 j2
    · intro more
      rw [List.append_nil]
      unfold Decoder.promise
      rw [if_neg hq, hcfg, hst, hun]
      by_cases hy : q = .yieldBackref
      · obtain ⟨i, hi⟩ := k2 hy
        obtain ⟨t1, t2⟩ := hi (d1.unread ++ more)
        have hheld : d'.heldBits = [] := by unfold Decoder.heldBits; rw [hst, hy]
        have hoff : d'.offset = o := by rw [← he]
        have hcnt : d'.count = c := by rw [← he]
        rw [if_pos hy, hheld, List.nil_append, hoff, hcnt, ← t2]
        rw [← List.append_assoc (bitsOf _ _), ← htake] at t1
        rw [decodeAll_token out t1]
      · rw [if_neg hy, ← he, k1 hy, List.append_assoc, ← List.append_assoc (bitsOf _ _), ← htake]

theorem decTagBit_kept {d d' : Decoder} {out : List Byte} (h : d.Inv) (hr : d.Remembers out)
    (hq : d.state = .tagBit) (he : decTagBit d = .ok d') : Decoder.Kept out d d' := by
  have hheld : d.heldBits = [] := by unfold Decoder.heldBits; rw [hq]
  refine readField_kept h hr (n := 1) (by decide) (by decide) (by simp [hq]) (fun d1 v c1 hv => ?_) he
  unfold tagBitRead
  have h01 : v = 0 ∨ v = 1 := by omega
  rcases h01 with rfl | rfl
  · rw [if_neg (by decide)]
    split
    case isTrue hw =>
      exact ⟨d1.offset, d1.count, .backrefIndexMsb, rfl,
        fun _ => by rw [hheld]; rfl, fun hx => by cases hx⟩
    case isFalse hw =>
      refine ⟨0, d1.count, .backrefIndexLsb, rfl, fun _ => ?_, fun hx => by cases hx⟩
      rw [hheld]
      have : d1.cfg.windowBits - 8 = 0 := by omega
      simp [Decoder.heldBits, this, bitsOf]
  · rw [if_pos rfl]
    exact ⟨d1.offset, d1.count, .yieldLiteral, rfl, fun _ => by rw [hheld]; rfl, fun hx => by cases hx⟩

theorem decBackrefIndexMsb_kept {d d' : Decoder} {out : List Byte} (h : d.Inv) (hr : d.Remembers out)
    (hq : d.state = .backrefIndexMsb) (he : decBackrefIndexMsb d = .ok d') : Decoder.Kept out d d' := by
  have hheld : d.heldBits = [false] := by unfold Decoder.heldBits; rw [hq]
  have hw := h.indexMsb hq
  have h15 := h.legal.2.1
  simp only [decBackrefIndexMsb, minus_of_le (Nat.le_of_lt hw), Res.ok_bind] at he
  refine readField_kept h hr (by omega) (by omega) (by simp [hq]) (fun d1 v c1 hv => ?_) he
  refine ⟨v <<< 8, d1.count, .backrefIndexLsb, rfl, fun _ => ?_, fun hx => by cases hx⟩
  have hsh : v <<< 8 >>> 8 = v := by simp [Nat.shiftLeft_shiftRight]
  rw [hheld]
  simp only [Decoder.heldBits, c1.cfg, hsh]
  rfl

theorem decBackrefIndexLsb_kept {d d' : Decoder} {out : List Byte} (h : d.Inv) (hr : d.Remembers out)
    (hq : d.state = .backrefIndexLsb) (he : decBackrefIndexLsb d = .ok d') : Decoder.Kept out d d' := by
  have hheld : d.heldBits = false :: bitsOf (d.cfg.windowBits - 8) (d.offset >>> 8) := by
    unfold Decoder.heldBits; rw [hq]
  have h4 := h.legal.1
  obtain ⟨ha, -⟩ := h.indexLsb hq
  refine readField_kept h hr (by omega) (by omega) (by simp [hq]) (fun d1 v c1 hv => ?_) he
  have ho : d1.offset = d.offset := by rw [c1.rest]
  have hor := or_eq_add ha hv
  have hsplit : bitsOf d.cfg.windowBits (d.offset ||| v) =
      bitsOf (d.cfg.windowBits - 8) (d.offset >>> 8) ++ bitsOf (min d.cfg.windowBits 8) v := by
    have hsum : d.cfg.windowBits - 8 + min d.cfg.windowBits 8 = d.cfg.windowBits := by omega
    conv_lhs => rw [← hsum]
    rw [bitsOf_add, hor]
    congr 1
    · by_cases h8 : 8 < d.cfg.windowBits
      · have hmin : min d.cfg.windowBits 8 = 8 := by omega
        rw [hmin] at ha hv ⊢
        refine bitsOf_congr ?_
        rw [Nat.shiftRight_eq_div_pow, Nat.shiftRight_eq_div_pow]
        congr 1
        omega
      · have hz : d.cfg.windowBits - 8 = 0 := by omega
        rw [hz]; rfl
    · refine bitsOf_congr ?_
      rw [Nat.add_mod, ha, Nat.zero_add, Nat.mod_mod]
  unfold indexLsbRead
  refine ⟨(d1.offset ||| v) + 1, 0, _, rfl, fun hy => ?_, fun hx => ?_⟩
  · rw [hheld, List.cons_append, ← hsplit]
    simp only [Decoder.heldBits, ho, c1.cfg, Nat.add_sub_cancel]
    by_cases h8 : 8 < d.cfg.lookaheadBits
    · simp [h8]
    · have hz : d.cfg.lookaheadBits - 8 = 0 := by omega
      simp [h8, hz, bitsOf]
  · split at hx <;> cases hx

theorem decBackrefCountMsb_kept {d d' : Decoder} {out : List Byte} (h : d.Inv) (hr : d.Remembers out)
    (hq : d.state = .backrefCountMsb) (he : decBackrefCountMsb d = .ok d') : Decoder.Kept out d d' := by
  have hheld : d.heldBits = false :: bitsOf d.cfg.windowBits (d.offset - 1) := by
    unfold Decoder.heldBits; rw [hq]
  have hw := h.countMsb hq
  have h15 := h.legal.2.1
  have hlw := h.legal.2.2.2.1
  simp only [decBackrefCountMsb, minus_of_le (Nat.le_of_lt hw), Res.ok_bind] at he
  refine readField_kept h hr (by omega) (by omega) (by simp [hq]) (fun d1 v c1 hv => ?_) he
  refine ⟨d1.offset, v <<< 8, .backrefCountLsb, rfl, fun _ => ?_, fun hx => by cases hx⟩
  have ho : d1.offset = d.offset := by rw [c1.rest]
  have hsh : v <<< 8 >>> 8 = v := by simp [Nat.shiftLeft_shiftRight]
  rw [hheld]
  simp only [Decoder.heldBits, c1.cfg, ho, hsh, List.cons_append]

theorem decBackrefCountLsb_kept {d d' : Decoder} {out : List Byte} (h : d.Inv) (hr : d.Remembers out)
    (hq : d.state = .backrefCountLsb) (he : decBackrefCountLsb d = .ok d') : Decoder.Kept out d d' := by
  have hheld : d.heldBits = false ::
      (bitsOf d.cfg.windowBits (d.offset - 1) ++ bitsOf (d.cfg.lookaheadBits - 8) (d.count >>> 8)) := by
    unfold Decoder.heldBits; rw [hq]
  have h3 := h.legal.2.2.1
  obtain ⟨ha, hb⟩ := h.countLsb hq
  have hd1 := h.distance (.inr (.inl hq))
  have hdo := h.offset
  refine readField_kept h hr (by omega) (by omega) (by simp [hq]) (fun d1 v c1 hv => ?_) he
  have hc : d1.count = d.count := by rw [c1.rest]
  have ho : d1.offset = d.offset := by rw [c1.rest]
  have hor := or_eq_add ha hv
  have hlt : d.count ||| v < 2 ^ d.cfg.lookaheadBits := by
    rw [hor]
    have : d.cfg.lookahead = 2 ^ d.cfg.lookaheadBits := rfl
    omega
  have hsplit : bitsOf d.cfg.lookaheadBits (d.count ||| v) =
      bitsOf (d.cfg.lookaheadBits - 8) (d.count >>> 8) ++ bitsOf (min d.cfg.lookaheadBits 8) v := by
    have hsum : d.cfg.lookaheadBits - 8 + min d.cfg.lookaheadBits 8 = d.cfg.lookaheadBits := by omega
    conv_lhs => rw [← hsum]
    rw [bitsOf_add, hor]
    congr 1
    · by_cases h8 : 8 < d.cfg.lookaheadBits
      · have hmin : min d.cfg.lookaheadBits 8 = 8 := by omega
        rw [hmin] at ha hv ⊢
        refine bitsOf_congr ?_
        rw [Nat.shiftRight_eq_div_pow, Nat.shiftRight_eq_div_pow]
        congr 1
        omega
      · have hz : d.cfg.lookaheadBits - 8 = 0 := by omega
        rw [hz]; rfl
    · refine bitsOf_congr ?_
      rw [Nat.add_mod, ha, Nat.zero_add, Nat.mod_mod]
  unfold countLsbRead
  refine ⟨d1.offset, (d1.count ||| v) + 1, .yieldBackref, rfl, fun hy => absurd rfl hy, fun _ => ?_⟩
  refine ⟨.bref (d.offset - 1 + 1) ((d.count ||| v) + 1), fun rest => ⟨?_, ?_⟩⟩
  · rw [hheld]
    simp only [List.cons_append, List.append_assoc]
    rw [← List.append_assoc (bitsOf (d.cfg.lookaheadBits - 8) _), ← hsplit]
    simp only [decodeToken, Cfg.layout]
    have hwlt : d.offset - 1 < 2 ^ d.cfg.windowBits := by
      have : d.cfg.window = 2 ^ d.cfg.windowBits := rfl
      omega
    rw [takeField_bitsOf _ _ _ hwlt]
    show (do let (n, rest) ← takeField _ _; return _) = _
    rw [takeField_bitsOf _ _ _ hlt]
    rfl
  · simp only [expandToken, ho, hc]
    rw [Nat.sub_add_cancel hd1]

theorem decYieldLiteral_kept {d d' : Decoder} {out : List Byte} (h : d.Inv) (hr : d.Remembers out)
    (hq : d.state = .yieldLiteral) (he : decYieldLiteral d = .ok d') : Decoder.Kept out d d' := by
  have hheld : d.heldBits = [true] := by unfold Decoder.heldBits; rw [hq]
  unfold decYieldLiteral at he
  by_cases hroom : d.room
  · rw [if_neg (not_not_intro hroom)] at he
    rcases Decoder.readField_spec (use := literalRead) h.readable (n := 8) (by decide) (by decide) with
      ⟨-, e⟩ | ⟨hl, d1, c1, e⟩
    · rw [e] at he; injection he with he; subst he; exact Decoder.Kept.refl hr
    · have hv : numberFrom 0 (d.unread.take 8) < 2 ^ 8 := by
        have := numberFrom_lt (d.unread.take 8)
        rwa [List.length_take, Nat.min_eq_left hl] at this
      have htake := c1.take hl
      generalize numberFrom 0 (d.unread.take 8) = v at e hv htake
      have hr1 : d1.room := by simp only [Decoder.room, c1.cfg, c1.outSize]; exact hroom
      obtain ⟨d2, p, e2, -⟩ := literalRead_spec (c1.inv h) hr1 v
      rw [e, e2] at he; injection he with he
      have hrem1 : d1.Remembers out := by
        intro j j1 j2
        rw [c1.cfg] at j2 ⊢
        have : d1.windowByte j = d.windowByte j := by rw [c1.rest]; rfl
        rw [this]; exact hr j j1 j2
      have hcfg : d'.cfg = d.cfg := by rw [← he]; show d2.cfg = _; rw [p.cfg, c1.cfg]
      have hst : d'.state = .tagBit := by rw [← he]
      have hun : d'.unread = d1.unread := by rw [← he]; show d2.unread = _; rw [p.rest]; rfl
      refine ⟨[BitVec.ofNat 8 v], ?_, ?_, ?_⟩
      · rw [← he]; show d2.pending = _
        rw [p.pending]
        have : d1.pending = d.pending := by rw [c1.rest]; rfl
        rw [this]
      · have := p.remembers hrem1
        intro j j1 j2
        rw [← he] at j2 ⊢
        exact this j j1 j2
      · intro more
        have hheld' : d'.heldBits = [] := by unfold Decoder.heldBits; rw [hst]
        unfold Decoder.promise
        rw [if_neg (by simp [hst]), if_neg (by simp [hq]), hcfg, hheld', hheld, hun, List.nil_append]
        have ht : decodeToken d.cfg.layout ([true] ++ (d.unread ++ more)) =
            .ok (.lit (BitVec.ofNat 8 v), d1.unread ++ more) := by
          rw [htake]
          simp only [List.singleton_append, decodeToken, List.append_assoc]
          rw [takeField_bitsOf _ _ _ hv]; rfl
        rw [decodeAll_token out ht]
        rfl
  · rw [if_pos hroom] at he
    injection he with he; subst he; exact Decoder.Kept.refl hr

theorem decYieldBackref_kept {d d' : Decoder} {out : List Byte} (h : d.Inv) (hr : d.Remembers out)
    (hq : d.state = .yieldBackref) (he : decYieldBackref d = .ok d') : Decoder.Kept out d d' := by
  obtain ⟨d1, cs, p, hlen, hcopy, e, -⟩ := decYieldBackref_spec h hq
  rw [e] at he; injection he with he
  have hd := h.distance (.inr (.inr hq))
  have hdo := h.offset
  have hcfg : d'.cfg = d.cfg := by rw [← he]; exact p.cfg
  have hexp : expand d.cfg.layout d.offset cs.length out = out ++ cs := by
    refine expand_of_copy _ _ _ _ hd hdo fun i hi => ?_
    rw [hcopy i hi]
    split
    · exact hr _ (by omega) (by omega)
    · rfl
  have hheld : d.heldBits = [] := by unfold Decoder.heldBits; rw [hq]
  have hun : d'.unread = d.unread := by rw [← he]; show d1.unread = _; rw [p.rest]; rfl
  refine ⟨cs, ?_, ?_, ?_⟩
  · rw [← he]; exact p.pending
  · have := p.remembers hr
    intro j j1 j2
    rw [← he] at j2 ⊢
    exact this j j1 j2
  · intro more
    have hoff : d'.offset = d.offset := by rw [← he]; show d1.offset = _; rw [p.rest]
    have hcnt : d'.count = d.count - cs.length := by rw [← he]
    have hst : d'.state = if d.count - cs.length = 0 then .tagBit else .yieldBackref := by rw [← he]
    have hsum : d.count = cs.length + (d.count - cs.length) := by omega
    have hall : expand d.cfg.layout d.offset d.count out =
        expand d.cfg.layout d.offset (d.count - cs.length) (out ++ cs) := by
      conv_lhs => rw [hsum]
      rw [expand_add, hexp]
    have hheld' : d'.heldBits = [] := by
      unfold Decoder.heldBits; rw [hst]
      by_cases hz : d.count - cs.length = 0
      · rw [if_pos hz]
      · rw [if_neg hz]
    unfold Decoder.promise
    rw [if_pos hq, hcfg, hheld', hheld, hun, hall, hst, hoff, hcnt]
    by_cases hz : d.count - cs.length = 0
    · rw [if_pos hz, if_neg (by simp), hz]; rfl
    · rw [if_neg hz, if_pos rfl]

/-- Every handler step keeps the promise (R198). -/
theorem decHandler_kept {d d' : Decoder} {out : List Byte} (h : d.Inv) (hr : d.Remembers out)
    (he : decHandler d.state d = .ok d') : Decoder.Kept out d d' := by
  match hs : d.state with
  | .tagBit => rw [hs] at he; exact decTagBit_kept h hr hs he
  | .yieldLiteral => rw [hs] at he; exact decYieldLiteral_kept h hr hs he
  | .backrefIndexMsb => rw [hs] at he; exact decBackrefIndexMsb_kept h hr hs he
  | .backrefIndexLsb => rw [hs] at he; exact decBackrefIndexLsb_kept h hr hs he
  | .backrefCountMsb => rw [hs] at he; exact decBackrefCountMsb_kept h hr hs he
  | .backrefCountLsb => rw [hs] at he; exact decBackrefCountLsb_kept h hr hs he
  | .yieldBackref => rw [hs] at he; exact decYieldBackref_kept h hr hs he

theorem decRun_kept (n : Nat) {d d' : Decoder} {out : List Byte} (h : d.Inv) (hr : d.Remembers out)
    (he : decRun n d = .ok d') : Decoder.Kept out d d' := by
  induction n generalizing d out with
  | zero => injection he with he; subst he; exact Decoder.Kept.refl hr
  | succ n ih =>
    obtain ⟨d1, e1, e2⟩ := Res.bind_ok he
    obtain ⟨d1', e1', st⟩ := decHandler_stepped h
    rw [e1] at e1'; injection e1' with e1'; subst e1'
    obtain ⟨cs1, p1, r1, q1⟩ := (decHandler_kept h hr e1).step
    obtain ⟨cs2, p2, r2, q2⟩ := (ih st.inv r1 e2).step
    refine ⟨cs1 ++ cs2, ?_, ?_, ?_⟩
    · rw [p2, p1, List.append_assoc]
    · rw [← List.append_assoc]; exact r2
    · intro more; rw [← List.append_assoc, q2, q1]

/-- A decoder whose next handler changes nothing, with room for output, owes nothing more. -/
theorem Decoder.promise_stalled {d : Decoder} {out : List Byte} (h : d.Inv)
    (he : decHandler d.state d = .ok d) (hroom : d.room) : d.promise [] out = out := by
  have hsp := h.legal
  have hshort : ∀ {n : Nat} {use : Nat → Decoder → Res Decoder}, 1 ≤ n → n ≤ 15 →
      (∀ v d1, Decoder.Consumed n d d1 → ∀ d2, use v d1 = .ok d2 → d2.state ≠ d.state) →
      Decoder.readField n use d = .ok d → d.unread.length < n := by
    intro n use h1 h15 huse hx
    rcases Decoder.readField_spec (use := use) h.readable h1 h15 with ⟨hl, -⟩ | ⟨hl, d1, c1, e⟩
    · exact hl
    · rw [e] at hx
      exact absurd rfl (huse _ _ c1 _ hx)
  unfold Decoder.promise
  rw [List.append_nil]
  match hs : d.state with
  | .tagBit =>
    rw [hs] at he
    have hl := hshort (n := 1) (by decide) (by decide) (fun v d1 c1 d2 e => by
      unfold tagBitRead at e
      split at e
      · injection e with e; rw [← e]; simp [hs]
      · split at e <;> (injection e with e; rw [← e]; simp [hs])) he
    have hnil : d.unread = [] := List.eq_nil_of_length_eq_zero (by omega)
    simp [Decoder.heldBits, hs, hnil, decodeAll, decodeFrom]
  | .yieldLiteral =>
    rw [hs] at he
    simp only [decHandler, decYieldLiteral, hroom, not_true_eq_false, if_false] at he
    have hl := hshort (n := 8) (by decide) (by decide) (fun v d1 c1 d2 e => by
      have hr1 : d1.room := by simp only [Decoder.room, c1.cfg, c1.outSize]; exact hroom
      obtain ⟨d3, -, e3, -⟩ := literalRead_spec (c1.inv h) hr1 v
      rw [e3] at e; injection e with e; rw [← e]; simp [hs]) he
    rw [if_neg (by simp)]
    refine decodeAll_end (x := .incompleteToken) _ ?_
    have : takeField 8 d.unread = .error .incompleteToken := by unfold takeField; rw [if_neg (by omega)]
    simp [Decoder.heldBits, hs, decodeToken, this, bind, Except.bind]
  | .backrefIndexMsb =>
    rw [hs] at he
    have hw := h.indexMsb hs
    simp only [decHandler, decBackrefIndexMsb, minus_of_le (Nat.le_of_lt hw), Res.ok_bind] at he
    have hl := hshort (by omega) (by omega) (fun v d1 c1 d2 e => by
      injection e with e; rw [← e]; simp [hs]) he
    rw [if_neg (by simp)]
    refine decodeAll_end (x := .incompleteToken) _ ?_
    have : takeField d.cfg.layout.windowBits d.unread = .error .incompleteToken := by
      unfold takeField; rw [if_neg (by simp only [Cfg.layout]; omega)]
    simp [Decoder.heldBits, hs, decodeToken, this, bind, Except.bind]
  | .backrefIndexLsb =>
    rw [hs] at he
    have hl := hshort (by omega) (by omega) (fun v d1 c1 d2 e => by
      injection e with e; rw [← e]; simp only [hs]; split <;> simp) he
    rw [if_neg (by simp)]
    refine decodeAll_end (x := .incompleteToken) _ ?_
    have : takeField d.cfg.layout.windowBits
        (bitsOf (d.cfg.windowBits - 8) (d.offset >>> 8) ++ d.unread) = .error .incompleteToken := by
      unfold takeField
      rw [if_neg (by simp only [Cfg.layout, List.length_append, bitsOf_length]; omega)]
    simp [Decoder.heldBits, hs, decodeToken, this, bind, Except.bind]
  | .backrefCountMsb =>
    rw [hs] at he
    have hw := h.countMsb hs
    simp only [decHandler, decBackrefCountMsb, minus_of_le (Nat.le_of_lt hw), Res.ok_bind] at he
    have hl := hshort (by omega) (by omega) (fun v d1 c1 d2 e => by
      injection e with e; rw [← e]; simp [hs]) he
    rw [if_neg (by simp)]
    refine decodeAll_end (x := .incompleteToken) _ ?_
    have hdo := h.offset
    have hd1 := h.distance (.inl hs)
    have hwlt : d.offset - 1 < 2 ^ d.cfg.windowBits := by
      have : d.cfg.window = 2 ^ d.cfg.windowBits := rfl
      omega
    have h2 : takeField d.cfg.lookaheadBits d.unread = .error .incompleteToken := by
      unfold takeField; rw [if_neg (by omega)]
    simp only [Decoder.heldBits, hs, decodeToken, List.cons_append, Cfg.layout]
    rw [takeField_bitsOf _ _ _ hwlt]
    simp only [bind, Except.bind, h2]
  | .backrefCountLsb =>
    rw [hs] at he
    have hl := hshort (by omega) (by omega) (fun v d1 c1 d2 e => by
      injection e with e; rw [← e]; simp [hs]) he
    rw [if_neg (by simp)]
    refine decodeAll_end (x := .incompleteToken) _ ?_
    have hdo := h.offset
    have hd1 := h.distance (.inr (.inl hs))
    have hwlt : d.offset - 1 < 2 ^ d.cfg.windowBits := by
      have : d.cfg.window = 2 ^ d.cfg.windowBits := rfl
      omega
    have h2 : takeField d.cfg.lookaheadBits
        (bitsOf (d.cfg.lookaheadBits - 8) (d.count >>> 8) ++ d.unread) = .error .incompleteToken := by
      unfold takeField; rw [if_neg (by simp only [List.length_append, bitsOf_length]; omega)]
    simp only [Decoder.heldBits, hs, decodeToken, List.cons_append, Cfg.layout, List.append_assoc]
    rw [takeField_bitsOf _ _ _ hwlt]
    simp only [bind, Except.bind, h2]
  | .yieldBackref =>
    rw [hs] at he
    obtain ⟨d1, cs, p, hlen, -, e, -⟩ := decYieldBackref_spec h hs
    simp only [decHandler] at he
    rw [e] at he; injection he with he
    have hc := h.copying hs
    have hr : d.outSize < d.cfg.obs := hroom
    have h1 : d1.outSize = d.outSize := by rw [← congrArg Decoder.outSize he]
    have h2 := p.outSize
    omega

/-- A reset decoder has output nothing and remembers nothing. -/
theorem Decoder.initial_remembers (cfg : Cfg) : (Decoder.initial cfg).Remembers [] := by
  intro j h1 h2
  have hz : ∀ n i, (List.replicate n (0 : Byte)).getD i 0 = 0 := by
    intro n i
    by_cases hi : i < n
    · rw [List.getD_eq_getElem _ _ (by simpa using hi)]; simp
    · rw [List.getD_eq_default _ _ (by simpa using hi)]
  simp only [historyByte, byteAt, List.append_nil]
  rw [hz]; rfl

theorem Decoder.initial_promise (cfg : Cfg) : (Decoder.initial cfg).promise [] [] = [] := rfl

/-- SINK puts the bits of the bytes it accepts behind the unread ones (R101, R182). -/
theorem decSink_unread {p : Params} {d d' : Decoder} {data : List Byte} {n : Nat} (h : d.Inv)
    (he : decSink data p d = .ok (d', .accepted n)) :
    d'.unread = d.unread ++ (data.take n).flatMap byteBits := by
  by_cases hs : d.inSize = d.cfg.ibs
  · simp [decSink, hs] at he
  · obtain ⟨inp', h1, -, -, h4, h5⟩ := decSink_spec (p := p) (data := data) h hs
    rw [h1] at he
    injection he with he; injection he with he hn; injection hn with hn
    subst he
    have hc := h.cursors
    simp only [Decoder.unread, List.append_assoc]
    congr 1
    rw [← List.flatMap_append]
    congr 1
    rw [hn] at h4 h5 ⊢
    have hnd : n ≤ data.length := by omega
    rw [show d.inSize + n - d.inHead = (d.inSize - d.inHead) + n by omega, List.range_add, List.map_append]
    congr 1
    · refine List.map_congr_left fun i hi => ?_
      have := List.mem_range.1 hi
      exact h5 _ (by omega)
    · rw [List.map_map]
      refine List.ext_getElem (by simp [hnd]) fun i h1 h2 => ?_
      simp only [List.length_map, List.length_range] at h1
      simp only [List.getElem_map, List.getElem_range, Function.comp, List.getElem_take]
      have hidx : d.inHead + (d.inSize - d.inHead + i) = d.inSize + i := by omega
      show Cells.read 0#8 inp' (d.inHead + (d.inSize - d.inHead + i)) = _
      rw [hidx, h4 i h1, List.getD_eq_getElem _ _ (by omega)]

end Sys2Proof.Machine
end

