-- ==== Sys2Proof/Laws/History.lean ====
section
/-! SUPPORT. What the encoder's history operations do: the index links every position to the nearest
earlier position of the same byte, the search finds the longest and nearest match, and the backlog
move slides the bytes down. -/

namespace Sys2Proof.Machine

/-- `k` is the nearest position below `i` holding the byte `v`, or -1 when there is none. -/
def Encoder.LastOf (e : Encoder) (i : Nat) (v : Byte) (x : Int) : Prop :=
  (x = -1 ∧ ∀ j, j < i → e.hbufByte j ≠ v) ∨
  ∃ k : Nat, k < i ∧ x = (k : Int) ∧ e.hbufByte k = v ∧ ∀ j, k < j → j < i → e.hbufByte j ≠ v

theorem Encoder.LastOf.range {e : Encoder} {i : Nat} {v : Byte} {x : Int} (h : e.LastOf i v x) :
    -1 ≤ x ∧ x < (i : Int) := by
  rcases h with ⟨rfl, _⟩ | ⟨k, hk, rfl, _⟩ <;> omega

theorem Encoder.LastOf.succ_same {e : Encoder} {i : Nat} {v : Byte} (h : e.hbufByte i = v) :
    e.LastOf (i + 1) v i :=
  .inr ⟨i, by omega, rfl, h, fun j h1 h2 => absurd h1 (by omega)⟩

theorem Encoder.LastOf.succ_other {e : Encoder} {i : Nat} {v : Byte} {x : Int} (h : e.LastOf i v x)
    (hv : e.hbufByte i ≠ v) : e.LastOf (i + 1) v x := by
  rcases h with ⟨rfl, h⟩ | ⟨k, hk, rfl, hb, h⟩
  · refine .inl ⟨rfl, fun j hj => ?_⟩
    rcases Nat.lt_succ_iff_lt_or_eq.1 hj with hj | rfl
    · exact h j hj
    · exact hv
  · refine .inr ⟨k, by omega, rfl, hb, fun j h1 h2 => ?_⟩
    rcases Nat.lt_succ_iff_lt_or_eq.1 h2 with hj | rfl
    · exact h j h1 hj
    · exact hv

/-- R127's loop inside the buffer: each position gets the last position of its byte, the others keep
their entries. -/
theorem Encoder.linkFrom_spec {e : Encoder} (n : Nat) {i : Nat} {last index : IndexTable}
    (hlast : Cells.wf (-1 : Int) last = true) (hi : Cells.wf (-1 : Int) index = true)
    (hbelow : Cells.below e.cfg.hbufSize index = true) (hn : i + n ≤ e.cfg.hbufSize)
    (hl : ∀ v : Byte, e.LastOf i v (Cells.read (-1) last v.toNat)) :
    ∃ index', Encoder.linkFrom e n i last index = .ok index' ∧ Cells.wf (-1 : Int) index' = true ∧
      Cells.below e.cfg.hbufSize index' = true ∧
      (∀ k, i ≤ k → k < i + n → e.LastOf k (e.hbufByte k) (Cells.read (-1) index' k)) ∧
      ∀ k, k < i ∨ i + n ≤ k → Cells.read (-1) index' k = Cells.read (-1) index k := by
  induction n generalizing i last index with
  | zero => exact ⟨index, rfl, hi, hbelow, fun k h1 h2 => absurd h1 (by omega), fun _ _ => rfl⟩
  | succ n ih =>
    have hlt : i < e.cfg.hbufSize := by omega
    have hnext : ∀ v : Byte, e.LastOf (i + 1) v
        (Cells.read (-1) (Cells.write (-1) last (e.hbufByte i).toNat (i : Int)) v.toNat) := by
      intro v
      by_cases hv : e.hbufByte i = v
      · subst hv
        rw [Cells.read_write_same hlast]
        exact Encoder.LastOf.succ_same rfl
      · rw [Cells.read_write_other (fun h => hv (BitVec.eq_of_toNat_eq h).symm)]
        exact (hl v).succ_other hv
    obtain ⟨index', h1, h2, h3, h4, h5⟩ := ih (i := i + 1)
      (last := Cells.write (-1) last (e.hbufByte i).toNat (i : Int))
      (index := Cells.write (-1) index i (Cells.read (-1) last (e.hbufByte i).toNat))
      (Cells.wf_write hlast) (Cells.wf_write hi) (Cells.below_write hbelow hlt) (by omega) hnext
    refine ⟨index', ?_, h2, h3, fun k hk1 hk2 => ?_, fun k hk => ?_⟩
    · simp only [Encoder.linkFrom, Encoder.hbufAt, readByteAt_of_lt hlt, Res.ok_bind,
        writeAt_of_lt hlt]
      exact h1
    · by_cases hk : k = i
      · subst hk
        rw [h5 k (by omega), Cells.read_write_same hi]
        exact hl _
      · exact h4 k (by omega) (by omega)
    · rw [h5 k (by omega), Cells.read_write_other (by omega)]

/-- `buildIndex()` with the batch inside the buffer (R127, R128). -/
theorem Encoder.buildIndex_spec {e : Encoder} (hi : Cells.wf (-1 : Int) e.index = true)
    (hbelow : Cells.below e.cfg.hbufSize e.index = true) (hb : e.inputSize ≤ e.cfg.ibs) :
    ∃ index', Encoder.buildIndex e = .ok { e with index := index' } ∧
      Cells.wf (-1 : Int) index' = true ∧ Cells.below e.cfg.hbufSize index' = true ∧
      (∀ k, k < e.cfg.window + e.inputSize →
        e.LastOf k (e.hbufByte k) (Cells.read (-1) index' k)) ∧
      ∀ k, e.cfg.window + e.inputSize ≤ k → Cells.read (-1) index' k = e.link k := by
  obtain ⟨index', h1, h2, h3, h4, h5⟩ := Encoder.linkFrom_spec (e := e)
    (e.cfg.window + e.inputSize) (i := 0) (last := []) (index := e.index) rfl hi hbelow
    (by simp only [Cfg.hbufSize]; omega)
    (fun v => .inl ⟨rfl, fun j hj => absurd hj (by omega)⟩)
  exact ⟨index', by simp [Encoder.buildIndex, h1], h2, h3, fun k hk => h4 k (by omega) (by omega),
    fun k hk => h5 k (by omega)⟩

/-! ### The match search -/

theorem Encoder.agree_le (e : Encoder) (p stop n : Nat) : Encoder.agree e p stop n ≤ n := by
  induction n generalizing p stop with
  | zero => simp [Encoder.agree]
  | succ n ih => simp only [Encoder.agree]; split <;> have := ih (p + 1) (stop + 1) <;> omega

/-- R129's inner loop inside the buffer counts the bytes that agree. -/
theorem Encoder.matchLength_spec {e : Encoder} {p stop : Nat} (n len : Nat) (hp : p ≤ stop)
    (h : stop + len + n ≤ e.cfg.hbufSize) :
    Encoder.matchLength e p stop n len = .ok (len + Encoder.agree e (p + len) (stop + len) n) := by
  induction n generalizing len with
  | zero => rfl
  | succ n ih =>
    have h1 : p + len < e.cfg.hbufSize := by omega
    have h2 : stop + len < e.cfg.hbufSize := by omega
    simp only [Encoder.matchLength, Encoder.hbufAt, readByteAt_of_lt h1, readByteAt_of_lt h2,
      Res.ok_bind, Encoder.agree, Encoder.hbufByte]
    by_cases heq : Cells.read 0#8 e.hbuf (p + len) = Cells.read 0#8 e.hbuf (stop + len)
    · rw [if_pos heq, if_pos heq, ih (len + 1) (by omega)]
      simp only [← Nat.add_assoc]
      congr 1
      omega
    · rw [if_neg heq, if_neg heq]; rfl

/-- A candidate whose first byte differs agrees in no byte. -/
theorem Encoder.agree_zero {e : Encoder} {p stop n : Nat} (h : e.hbufByte p ≠ e.hbufByte stop) :
    Encoder.agree e p stop n = 0 := by
  cases n with
  | zero => rfl
  | succ n => simp [Encoder.agree, h]

theorem Encoder.agree_pos {e : Encoder} {p stop n : Nat} (hn : 0 < n)
    (h : e.hbufByte p = e.hbufByte stop) : 0 < Encoder.agree e p stop n := by
  cases n with
  | zero => omega
  | succ n => simp [Encoder.agree, h]

/-- The best match among the candidates of [lo, stop) above position `p`. -/
def Encoder.BestAbove (e : Encoder) (stop lo maxlen : Nat) (p : Int) : Option (Nat × Nat) → Prop
  | none => ∀ q : Nat, lo ≤ q → p < (q : Int) → q < stop → Encoder.agree e q stop maxlen = 0
  | some (best, pos) => lo ≤ pos ∧ p < (pos : Int) ∧ pos < stop ∧ 0 < best ∧
      Encoder.agree e pos stop maxlen = best ∧
      (∀ q : Nat, lo ≤ q → p < (q : Int) → q < stop → Encoder.agree e q stop maxlen ≤ best) ∧
      ∀ q, pos < q → q < stop → Encoder.agree e q stop maxlen < best

/-- What R129's search answers, said without its chain: none when no candidate shares the scan byte,
else the pair R130 determines. -/
def Encoder.SearchResult (e : Encoder) (stop lo maxlen : Nat) : Option (Nat × Nat) → Prop
  | none => ∀ q, lo ≤ q → q < stop → e.hbufByte q ≠ e.hbufByte stop
  | some (best, pos) => Encoder.BestMatch e stop lo maxlen best pos

/-- Above every candidate that is left, the best so far is the best of all. -/
theorem Encoder.searchResult_of_bestAbove {e : Encoder} {stop lo maxlen : Nat} {p : Int}
    {best : Option (Nat × Nat)} (hm : 0 < maxlen) (hp : p < (lo : Int))
    (h : Encoder.BestAbove e stop lo maxlen p best) : Encoder.SearchResult e stop lo maxlen best := by
  match best with
  | none =>
    intro q h1 h2 heq
    have := h q h1 (by omega) h2
    have := Encoder.agree_pos hm heq
    omega
  | some (best, pos) =>
    obtain ⟨h1, h2, h3, h4, h5, h6, h7⟩ := h
    exact ⟨h1, h3, h4, h5, fun q hq1 hq2 => h6 q hq1 (by omega) hq2, h7⟩

/-- The links of a right index below a limit, as the chain walk uses them. -/
def Encoder.LinksBelow (e : Encoder) (limit : Nat) : Prop :=
  ∀ i, i < limit → e.LastOf i (e.hbufByte i) (e.link i)

/-- R129's outer loop on a right index answers the result R130 determines. -/
theorem Encoder.walkChain_spec {e : Encoder} {stop lo maxlen : Nat} (hm : 0 < maxlen)
    (hsize : stop + maxlen ≤ e.cfg.hbufSize) (hlinks : e.LinksBelow stop) (fuel : Nat)
    {best : Option (Nat × Nat)} {p : Int} (hfuel : p + 2 ≤ (fuel : Int))
    (hp : e.LastOf stop (e.hbufByte stop) p ∨
      ∃ i, i < stop ∧ e.hbufByte i = e.hbufByte stop ∧ e.LastOf i (e.hbufByte i) p)
    (hbest : Encoder.BestAbove e stop lo maxlen p best) (hnot : bestLength best < maxlen) :
    ∃ r, Encoder.walkChain e stop lo maxlen fuel best p = .ok r ∧
      Encoder.SearchResult e stop lo maxlen r := by
  have hrange : -1 ≤ p ∧ p < (stop : Int) := by
    rcases hp with h | ⟨i, hi, _, h⟩
    · exact h.range
    · have := h.range; omega
  induction fuel generalizing best p with
  | zero => omega
  | succ fuel ih =>
    simp only [Encoder.walkChain]
    by_cases hend : p = -1 ∨ p < (lo : Int)
    · rw [if_pos hend]
      exact ⟨best, rfl, Encoder.searchResult_of_bestAbove hm (by omega) hbest⟩
    · rw [if_neg hend]
      obtain ⟨k, rfl⟩ : ∃ k : Nat, p = (k : Int) := ⟨p.toNat, by omega⟩
      have hk : k < stop := by omega
      have hlo : lo ≤ k := by omega
      have hbyte : e.hbufByte k = e.hbufByte stop := by
        rcases hp with (⟨h, _⟩ | ⟨j, _, hj, hb, _⟩) | ⟨i, _, hib, (⟨h, _⟩ | ⟨j, _, hj, hb, _⟩)⟩
        · omega
        · have : k = j := by omega
          subst this; exact hb
        · omega
        · have : k = j := by omega
          subst this; exact hb.trans hib
      have hlen := Encoder.matchLength_spec (e := e) (p := k) (stop := stop) maxlen 0 (by omega) (by omega)
      simp only [Nat.zero_add, Nat.add_zero] at hlen
      have hpos := Encoder.agree_pos (e := e) (n := maxlen) hm hbyte
      have hle := Encoder.agree_le e k stop maxlen
      have hnext := hlinks k hk
      have hnr := hnext.range
      simp only [Int.toNat_natCast, hlen, Res.ok_bind]
      -- the best with the candidate k considered
      have hstep : Encoder.BestAbove e stop lo maxlen ((k : Int) - 1)
          (if bestLength best < Encoder.agree e k stop maxlen
            then some (Encoder.agree e k stop maxlen, k) else best) := by
        split
        case isTrue hlt =>
          refine ⟨hlo, by omega, hk, hpos, rfl, fun q h1 h2 h3 => ?_, fun q h1 h2 => ?_⟩
          · by_cases hqk : q = k
            · subst hqk; exact Nat.le_refl _
            · match best with
              | none => have := hbest q h1 (by omega) h3; omega
              | some (b, pos) =>
                have := hbest.2.2.2.2.2.1 q h1 (by omega) h3
                simp only [bestLength] at hlt; omega
          · match best with
            | none => have := hbest q (by omega) (by omega) h2; omega
            | some (b, pos) =>
              have := hbest.2.2.2.2.2.1 q (by omega) (by omega) h2
              simp only [bestLength] at hlt; omega
        case isFalse hlt =>
          match best with
          | none => simp only [bestLength] at hlt; omega
          | some (b, pos) =>
            obtain ⟨h1, h2, h3, h4, h5, h6, h7⟩ := hbest
            refine ⟨h1, by omega, h3, h4, h5, fun q hq1 hq2 hq3 => ?_, h7⟩
            by_cases hqk : q = k
            · subst hqk; simp only [bestLength] at hlt; omega
            · exact h6 q hq1 (by omega) hq3
      generalize (if bestLength best < Encoder.agree e k stop maxlen
            then some (Encoder.agree e k stop maxlen, k) else best) = best' at hstep
      by_cases hfull : bestLength best' = maxlen
      · rw [if_pos hfull]
        refine ⟨best', rfl, ?_⟩
        match best', hstep, hfull with
        | none, _, hfull => simp only [bestLength] at hfull; omega
        | some (b, pos), ⟨h1, h2, h3, h4, h5, h6, h7⟩, hfull =>
          simp only [bestLength] at hfull
          subst hfull
          exact ⟨h1, h3, h4, h5, fun q _ _ => Encoder.agree_le e q stop b, h7⟩
      · rw [if_neg hfull]
        have hks : k < e.cfg.hbufSize := by omega
        simp only [readAt_of_lt hks, Res.ok_bind]
        have hb' : bestLength best' < maxlen := by
          match best' with
          | none => simpa [bestLength] using hm
          | some (b, pos) =>
            have h5 := hstep.2.2.2.2.1
            have := Encoder.agree_le e pos stop maxlen
            simp only [bestLength] at hfull ⊢
            omega
        have habove : Encoder.BestAbove e stop lo maxlen (e.link k) best' := by
          have hgap : ∀ q : Nat, e.link k < (q : Int) → q < k → Encoder.agree e q stop maxlen = 0 := by
            intro q h1 h2
            refine Encoder.agree_zero fun heq => ?_
            rcases hnext with ⟨_, h⟩ | ⟨j, _, hj, _, h⟩
            · exact h q h2 (heq.trans hbyte.symm)
            · exact h q (by omega) h2 (heq.trans hbyte.symm)
          match best', hstep with
          | none, hstep =>
            intro q h1 h2 h3
            by_cases hqk : k ≤ q
            · exact hstep q h1 (by omega) h3
            · exact hgap q h2 (by omega)
          | some (b, pos), ⟨h1, h2, h3, h4, h5, h6, h7⟩ =>
            refine ⟨h1, by omega, h3, h4, h5, fun q hq1 hq2 hq3 => ?_, h7⟩
            by_cases hqk : k ≤ q
            · exact h6 q hq1 (by omega) hq3
            · have := hgap q hq2 (by omega); omega
        have hd : -1 ≤ Cells.read (-1) e.index k ∧ Cells.read (-1) e.index k < (k : Int) := hnr
        exact ih (by omega) (.inr ⟨k, hk, hbyte, hnext⟩) habove hb' (by omega)

/-- `longestMatch` on a right index answers the result R130 determines. -/
theorem Encoder.longestMatch_spec {e : Encoder} {stop lo maxlen : Nat} (hm : 0 < maxlen)
    (hsize : stop + maxlen ≤ e.cfg.hbufSize) (hlinks : e.LinksBelow (stop + 1)) :
    ∃ r, Encoder.longestMatch e stop lo maxlen = .ok r ∧
      Encoder.SearchResult e stop lo maxlen r := by
  have hs : stop < e.cfg.hbufSize := by omega
  have hl := hlinks stop (by omega)
  have hr := hl.range
  have habove : Encoder.BestAbove e stop lo maxlen (e.link stop) none := by
    intro q h1 h2 h3
    refine Encoder.agree_zero fun heq => ?_
    rcases hl with ⟨_, h⟩ | ⟨j, _, hj, _, h⟩
    · exact h q h3 heq
    · exact h q (by omega) h3 heq
  obtain ⟨r, h1, h2⟩ := Encoder.walkChain_spec hm hsize (fun i hi => hlinks i (by omega)) (stop + 1)
    (best := none) (p := e.link stop) (by push_cast; omega) (.inl hl) habove (by simpa [bestLength] using hm)
  exact ⟨r, by simp only [Encoder.longestMatch, readAt_of_lt hs, Res.ok_bind]; exact h1, h2⟩

/-- The chain walk answers on every index whose links go down (R25), a match inside [lo, stop) and no
longer than `maxlen`. -/
theorem Encoder.walkChain_answers {e : Encoder} {stop lo maxlen : Nat}
    (hsize : stop + maxlen ≤ e.cfg.hbufSize) (hdown : ∀ i, -1 ≤ e.link i ∧ e.link i < (i : Int))
    (fuel : Nat) {best : Option (Nat × Nat)} {p : Int} (hfuel : p + 2 ≤ (fuel : Int)) (hp1 : -1 ≤ p)
    (hp2 : p < (stop : Int))
    (hbest : ∀ b ∈ best, 0 < b.1 ∧ b.1 ≤ maxlen ∧ lo ≤ b.2 ∧ b.2 < stop) :
    ∃ r, Encoder.walkChain e stop lo maxlen fuel best p = .ok r ∧
      ∀ b ∈ r, 0 < b.1 ∧ b.1 ≤ maxlen ∧ lo ≤ b.2 ∧ b.2 < stop := by
  induction fuel generalizing best p with
  | zero => omega
  | succ fuel ih =>
    simp only [Encoder.walkChain]
    by_cases hend : p = -1 ∨ p < (lo : Int)
    · rw [if_pos hend]; exact ⟨best, rfl, hbest⟩
    · rw [if_neg hend]
      obtain ⟨k, rfl⟩ : ∃ k : Nat, p = (k : Int) := ⟨p.toNat, by omega⟩
      have hlen := Encoder.matchLength_spec (e := e) (p := k) (stop := stop) maxlen 0 (by omega) (by omega)
      simp only [Nat.zero_add, Nat.add_zero] at hlen
      have hle := Encoder.agree_le e k stop maxlen
      simp only [Int.toNat_natCast, hlen, Res.ok_bind]
      have hb' : ∀ b ∈ (if bestLength best < Encoder.agree e k stop maxlen
            then some (Encoder.agree e k stop maxlen, k) else best),
          0 < b.1 ∧ b.1 ≤ maxlen ∧ lo ≤ b.2 ∧ b.2 < stop := by
        split
        · intro b hb
          simp only [Option.mem_def, Option.some.injEq] at hb
          subst hb
          exact ⟨by simp only; omega, hle, by simp only; omega, by simp only; omega⟩
        · exact hbest
      generalize (if bestLength best < Encoder.agree e k stop maxlen
            then some (Encoder.agree e k stop maxlen, k) else best) = best' at hb'
      by_cases hfull : bestLength best' = maxlen
      · rw [if_pos hfull]; exact ⟨best', rfl, hb'⟩
      · rw [if_neg hfull]
        have hks : k < e.cfg.hbufSize := by omega
        simp only [readAt_of_lt hks, Res.ok_bind]
        have hd : -1 ≤ Cells.read (-1) e.index k ∧ Cells.read (-1) e.index k < (k : Int) := hdown k
        exact ih (by omega) hd.1 (by omega) hb'

/-- `longestMatch` answers on every index whose links go down. -/
theorem Encoder.longestMatch_answers {e : Encoder} {stop lo maxlen : Nat}
    (hsize : stop + maxlen ≤ e.cfg.hbufSize) (hs : stop < e.cfg.hbufSize)
    (hdown : ∀ i, -1 ≤ e.link i ∧ e.link i < (i : Int)) :
    ∃ r, Encoder.longestMatch e stop lo maxlen = .ok r ∧
      ∀ b ∈ r, 0 < b.1 ∧ b.1 ≤ maxlen ∧ lo ≤ b.2 ∧ b.2 < stop := by
  have hd : -1 ≤ Cells.read (-1) e.index stop ∧ Cells.read (-1) e.index stop < (stop : Int) := hdown stop
  obtain ⟨r, h1, h2⟩ := Encoder.walkChain_answers (lo := lo) (maxlen := maxlen) hsize hdown (stop + 1)
    (best := none) (p := Cells.read (-1) e.index stop) (by push_cast; omega) hd.1 hd.2 (by simp)
  exact ⟨r, by simp only [Encoder.longestMatch, readAt_of_lt hs, Res.ok_bind]; exact h1, h2⟩

/-! ### The backlog move -/

/-- SAVE_BACKLOG's move inside the buffer (R154): index `i + k` gets what `m + i + k` held. -/
theorem slideDown_spec {size m : Nat} (n : Nat) {i : Nat} {hbuf : Memory} (h : Memory.wf hbuf = true)
    (hb : Cells.below size hbuf = true) (hn : m + i + n ≤ size) :
    ∃ hbuf', slideDown size m n i hbuf = .ok hbuf' ∧ Memory.wf hbuf' = true ∧
      Cells.below size hbuf' = true ∧
      (∀ k, i ≤ k → k < i + n → Cells.read 0#8 hbuf' k = Cells.read 0#8 hbuf (m + k)) ∧
      ∀ k, k < i ∨ i + n ≤ k → Cells.read 0#8 hbuf' k = Cells.read 0#8 hbuf k := by
  induction n generalizing i hbuf with
  | zero => exact ⟨hbuf, rfl, h, hb, fun k h1 h2 => absurd h1 (by omega), fun _ _ => rfl⟩
  | succ n ih =>
    have h1 : m + i < size := by omega
    have h2 : i < size := by omega
    obtain ⟨hbuf', e1, e2, e3, e4, e5⟩ := ih (i := i + 1)
      (hbuf := Cells.write 0#8 hbuf i (Cells.read 0#8 hbuf (m + i))) (Memory.wf_write h)
      (Cells.below_write hb h2) (by omega)
    refine ⟨hbuf', ?_, e2, e3, fun k hk1 hk2 => ?_, fun k hk => ?_⟩
    · simp only [slideDown, readByteAt_of_lt h1, Res.ok_bind, writeByteAt_of_lt h2]; exact e1
    · by_cases hk : k = i
      · subst hk
        rw [e5 k (by omega), Cells.read_write_same h]
      · rw [e4 k (by omega) (by omega), Cells.read_write_other (by omega)]
    · rw [e5 k (by omega), Cells.read_write_other (by omega)]

end Sys2Proof.Machine
end

