-- ==== Sys2Proof/Laws/Writer.lean ====
section
/-! SUPPORT. What the BitWriter's operations do: they append bits to the stream written so far and
change nothing but E.OUT, E.outSize, E.acc and E.wbits. -/

namespace Sys2Proof.Machine

theorem Encoder.Inv.writable {e : Encoder} (h : e.Inv) : e.Writable :=
  ⟨h.outSize, h.wbits, h.accLow, h.outWf, h.outBelow⟩

theorem Encoder.Pushed.refl {e : Encoder} (h : e.Writable) : Encoder.Pushed [] e e :=
  ⟨rfl, h, by simp, by simp, fun _ _ => rfl⟩

theorem Encoder.Pushed.outSize_le {bits : List Bool} {e e' : Encoder} (h : Encoder.Pushed bits e e')
    (he : e.wbits ≤ 7) : e.outSize ≤ e'.outSize := by
  have := h.total; have := h.writable.wbits; omega

theorem Encoder.Pushed.cfg {bits : List Bool} {e e' : Encoder} (h : Encoder.Pushed bits e e') :
    e'.cfg = e.cfg := by rw [h.rest]

theorem Encoder.Pushed.trans {a b : List Bool} {e e' e'' : Encoder} (he : e.Writable)
    (h : Encoder.Pushed a e e') (h' : Encoder.Pushed b e' e'') : Encoder.Pushed (a ++ b) e e'' := by
  refine ⟨?_, h'.writable, ?_, ?_, fun x hx => ?_⟩
  · rw [h'.rest, h.rest]
  · rw [h'.written, h.written, List.append_assoc]
  · have h1 := h.total; have h2 := h'.total; simp only [List.length_append]; omega
  · have h1 := h.outSize_le he.wbits
    have h2 := h'.outSize_le h.writable.wbits
    rw [h'.kept x (by omega), h.kept x (by omega)]

/-- The pending bytes after one more is stored at E.outSize. -/
theorem pending_store {e : Encoder} {b : Byte} (h : Memory.wf e.out = true) :
    (List.range (e.outSize + 1)).map (fun i => Cells.read 0#8 (Cells.write 0#8 e.out e.outSize b) i)
      = e.pending ++ [b] := by
  rw [List.range_succ, List.map_append, List.map_singleton, Cells.read_write_same h]
  congr 1
  refine List.map_congr_left fun i hi => ?_
  rw [Cells.read_write_other (by have := List.mem_range.1 hi; omega)]

/-- The written bits of the accumulator after one more bit is placed in it. -/
theorem acc_place {acc : Byte} {w : Nat} (hw : w ≤ 7) (b : Bool)
    (h : ∀ k, k + w < 8 → acc.getLsbD k = false) :
    (byteBits (if b then acc ||| (1#8 <<< (7 - w)) else acc)).take (w + 1) =
      (byteBits acc).take w ++ [b] := by
  have key : ∀ k, k < 8 → (if b then acc ||| (1#8 <<< (7 - w)) else acc).getLsbD k =
      (acc.getLsbD k || (b && decide (k = 7 - w))) := by
    intro k hk
    cases b
    · simp
    · simp only [if_true, Bool.true_and, BitVec.getLsbD_or, BitVec.getLsbD_shiftLeft, hk, decide_true]
      congr 1
      by_cases hlt : k < 7 - w
      · simp [hlt, Nat.ne_of_lt hlt]
      · by_cases heq : k = 7 - w
        · simp [heq]
        · have : k - (7 - w) ≠ 0 := by omega
          simp [hlt, heq, this]
  rw [byteBits_eq, byteBits_eq, key 7 (by decide), key 6 (by decide), key 5 (by decide),
    key 4 (by decide), key 3 (by decide), key 2 (by decide), key 1 (by decide), key 0 (by decide)]
  have hz : acc.getLsbD (7 - w) = false := h _ (by omega)
  interval_cases w <;> simp_all

/-- The bits of the accumulator below the write position stay 0. -/
theorem accLow_place {acc : Byte} {w : Nat} (b : Bool)
    (h : ∀ k, k + w < 8 → acc.getLsbD k = false) (k : Nat) (hk : k + (w + 1) < 8) :
    (if b then acc ||| (1#8 <<< (7 - w)) else acc).getLsbD k = false := by
  cases b
  · simpa using h k (by omega)
  · have : k < 7 - w := by omega
    simp [h k (by omega), this]

/-- One bit with room for it. -/
theorem Encoder.pushBit_spec {e : Encoder} (b : Bool) (h : e.Writable)
    (hroom : 8 * e.outSize + e.wbits + 1 < 8 * e.cfg.obs + 8) :
    ∃ e', Encoder.pushBit b e = .ok e' ∧ Encoder.Pushed [b] e e' := by
  have hw := h.wbits
  simp only [Encoder.pushBit, minus_of_le hw, Res.ok_bind]
  split
  case isTrue h7 =>
    have hlt : e.outSize < e.cfg.obs := by omega
    simp only [Encoder.pushByte, writeByteAt_of_lt hlt, Res.ok_bind, Res.pure_eq]
    refine ⟨_, rfl, rfl, ⟨?_, ?_, ?_, Memory.wf_write h.outWf, Cells.below_write h.outBelow hlt⟩,
      ?_, ?_, fun a ha => ?_⟩
    · exact hlt
    · simp
    · simp
    · have h8 := acc_place hw b h.accLow
      simp only [Encoder.written, Encoder.pending, List.take_zero, List.append_nil]
      rw [pending_store h.outWf, List.flatMap_append, List.append_assoc]
      congr 1
      rw [← h8, h7]
      simp
    · simp only [List.length_singleton]; omega
    · exact Cells.read_write_other (by simp only at ha; omega)
  case isFalse h7 =>
    refine ⟨_, rfl, rfl, ⟨h.outSize, ?_, ?_, h.outWf, h.outBelow⟩, ?_, ?_, fun _ _ => rfl⟩
    · simp only; omega
    · exact accLow_place b h.accLow
    · have h8 := acc_place hw b h.accLow
      simp only [Encoder.written, Encoder.pending]
      rw [h8, List.append_assoc]
    · simp only [List.length_singleton]; omega

/-- `pushBits(count, bits)` with room for what it completes (R107, R108): the stream grows by the low
`count` bits, most significant first. -/
theorem Encoder.pushBits_spec (count bits : Nat) {e : Encoder} (h : e.Writable)
    (hroom : 8 * e.outSize + e.wbits + count < 8 * e.cfg.obs + 8) :
    ∃ e', Encoder.pushBits count bits e = .ok e' ∧ Encoder.Pushed (bitsOf count bits) e e' := by
  induction count generalizing e with
  | zero => exact ⟨e, rfl, Encoder.Pushed.refl h⟩
  | succ n ih =>
    obtain ⟨e1, h1, p1⟩ := Encoder.pushBit_spec (bits.testBit n) h (by omega)
    have ht := p1.total
    simp only [List.length_singleton] at ht
    obtain ⟨e2, h2, p2⟩ := ih p1.writable (by rw [p1.cfg]; omega)
    refine ⟨e2, ?_, p1.trans h p2⟩
    simp only [Encoder.pushBits, h1, Res.ok_bind, h2]

/-- One free byte is room for a push of at most 8 bits (R107). -/
theorem Encoder.push_room {e : Encoder} {count : Nat} (h : e.Writable) (hr : e.room) (hc : count ≤ 8) :
    8 * e.outSize + e.wbits + count < 8 * e.cfg.obs + 8 := by
  have h1 := h.wbits
  have h2 : e.outSize < e.cfg.obs := hr
  omega

/-- `flushBits()` of a partial byte with room for it (R110): the stream grows by the zero bits that
fill the byte. -/
theorem Encoder.flushBits_spec {e : Encoder} (h : e.Writable) (hr : e.room) (hw : 0 < e.wbits) :
    ∃ e', Encoder.flushBits e = .ok e' ∧
      Encoder.Pushed (List.replicate (8 - e.wbits) false) e e' ∧ e'.wbits = 0 := by
  have hlt : e.outSize < e.cfg.obs := hr
  have h7 := h.wbits
  simp only [Encoder.flushBits, if_pos hw, Encoder.pushByte, writeByteAt_of_lt hlt, Res.ok_bind,
    Res.pure_eq]
  refine ⟨_, rfl, ⟨rfl, ⟨?_, ?_, ?_, Memory.wf_write h.outWf, Cells.below_write h.outBelow hlt⟩,
    ?_, ?_, fun a ha => ?_⟩, rfl⟩
  · exact hlt
  · simp
  · simp
  · simp only [Encoder.written, Encoder.pending, List.take_zero, List.append_nil]
    rw [pending_store h.outWf, List.flatMap_append, List.append_assoc]
    congr 1
    have hz := h.accLow
    simp only [List.flatMap_cons, List.flatMap_nil, List.append_nil]
    rw [byteBits_eq]
    have z0 := hz 0; have z1 := hz 1; have z2 := hz 2; have z3 := hz 3
    have z4 := hz 4; have z5 := hz 5; have z6 := hz 6
    generalize e.wbits = w at z0 z1 z2 z3 z4 z5 z6 h7 hw
    clear hz
    interval_cases w <;> simp_all [List.replicate]
  · simp only [List.length_replicate]; omega
  · exact Cells.read_write_other (by simp only at ha; omega)

/-- The outgoing field's bits that one push takes are its topmost remaining ones (R85, R111). -/
theorem Encoder.outgoing_bits (e : Encoder) :
    bitsOf (Encoder.outgoingCount e) (Encoder.outgoingValue e) =
      (bitsOf e.outCount e.outBits).take (Encoder.outgoingCount e) := by
  have aux : ∀ m n v, m ≤ n → (bitsOf n v).take m = bitsOf m (v >>> (n - m)) := by
    intro m
    induction m with
    | zero => intros; simp [bitsOf]
    | succ m ih =>
      intro n v hmn
      obtain ⟨k, rfl⟩ : ∃ k, n = k + 1 := ⟨n - 1, by omega⟩
      have hk : k + 1 - (m + 1) = k - m := by omega
      simp only [bitsOf, List.take_succ_cons, hk]
      rw [ih k v (by omega), Nat.testBit_shiftRight]
      congr 2
      omega
  unfold Encoder.outgoingCount Encoder.outgoingValue
  split
  · rw [aux 8 _ _ (by omega)]
    exact bitsOf_congr (by simp)
  · rw [aux _ _ _ (Nat.le_refl _)]
    exact bitsOf_congr (by simp)

/-- `pushOutgoing()` with room (R111): it pushes the topmost bits of the field that are left, at most
8 of them, and counts them off. -/
theorem Encoder.pushOutgoing_spec {e : Encoder} (h : e.Writable) (hr : e.room) :
    ∃ e', Encoder.pushOutgoing e = .ok (min 8 e.outCount, e') ∧
      e'.outCount = e.outCount - min 8 e.outCount ∧
      Encoder.Pushed ((bitsOf e.outCount e.outBits).take 8) e { e' with outCount := e.outCount } := by
  have hcount : Encoder.outgoingCount e = min 8 e.outCount := by
    unfold Encoder.outgoingCount; split <;> omega
  have htake : (bitsOf e.outCount e.outBits).take (Encoder.outgoingCount e) =
      (bitsOf e.outCount e.outBits).take 8 := by
    rw [hcount]
    by_cases h8 : e.outCount ≤ 8
    · rw [List.take_of_length_le (by simp; omega), List.take_of_length_le (by simp; omega)]
    · rw [Nat.min_eq_left (by omega)]
  unfold Encoder.pushOutgoing
  split
  case isTrue hpos =>
    obtain ⟨e', h1, p⟩ := Encoder.pushBits_spec (Encoder.outgoingCount e) (Encoder.outgoingValue e) h
      (Encoder.push_room h hr (by omega))
    rw [Encoder.outgoing_bits, htake] at p
    have hoc : e'.outCount = e.outCount := by rw [p.rest]
    refine ⟨{ e' with outCount := e'.outCount - Encoder.outgoingCount e }, ?_, ?_, ?_⟩
    · rw [hcount] at h1; simp only [hcount, h1, Res.ok_bind, Res.pure_eq]
    · simp [hoc, hcount]
    · have : { { e' with outCount := e'.outCount - Encoder.outgoingCount e } with
          outCount := e.outCount } = e' := by rw [← hoc]
      rw [this]; exact p
  case isFalse hpos =>
    have hz : e.outCount = 0 := by omega
    refine ⟨e, by simp [hz], by simp [hz], ?_⟩
    simp only [hz, bitsOf, List.take_nil]
    have : { e with outCount := 0 } = e := by rw [← hz]
    rw [this]; exact Encoder.Pushed.refl h

end Sys2Proof.Machine
end

