-- ==== Sys2Proof/Laws/Encoder.lean ====
section
/-! SUPPORT. One lemma per encoder handler and command that says everything it does on an encoder that
meets the invariant: what it answers, that the invariant is kept, and that a handler makes progress
unless it is blocked. -/

namespace Sys2Proof.Machine

theorem Encoder.Inv.window_pos {e : Encoder} (_ : e.Inv) : 0 < e.cfg.window := Nat.two_pow_pos _

theorem Encoder.Inv.lookahead_pos {e : Encoder} (_ : e.Inv) : 0 < e.cfg.lookahead := Nat.two_pow_pos _

theorem Encoder.Inv.lookahead_le {e : Encoder} (h : e.Inv) : e.cfg.lookahead ≤ e.cfg.ibs := h.legal.2.2.2.2.1

theorem Encoder.Inv.window_le {e : Encoder} (h : e.Inv) : e.cfg.window ≤ 2 ^ 15 :=
  Nat.pow_le_pow_right (by decide) h.legal.2.1

theorem Encoder.Inv.lookahead_le_window {e : Encoder} (h : e.Inv) : e.cfg.lookahead ≤ e.cfg.window :=
  Nat.pow_le_pow_right (by decide) (by have := h.legal.2.2.2.1; omega)

/-- A freshly constructed or reset encoder meets the invariant (R35). -/
theorem Encoder.initial_inv {cfg : Cfg} (h : legalEncoder cfg) : (Encoder.initial cfg).Inv where
  legal := h
  scan := Nat.le_refl _
  batch := Nat.zero_le _
  outSize := Nat.zero_le _
  wbits := Nat.zero_le _
  matchLen := Nat.zero_le _
  matchDist := Nat.zero_le _
  outBits := by simp [Encoder.initial]
  outCount := Nat.zero_le _
  histFill := Nat.zero_le _
  pendingMatch := by simp [Encoder.initial]
  matchState := by simp [Encoder.initial]
  brIndex := by simp [Encoder.initial]
  brLength := by simp [Encoder.initial]
  literal := by simp [Encoder.initial]
  waiting := by
    have : 0 < 2 ^ cfg.lookaheadBits := Nat.two_pow_pos _
    have := h.2.2.2.2.1
    simp only [Encoder.initial]; intro _; exact ⟨by omega, trivial⟩
  filled := by simp [Encoder.initial]
  fullBatch := by simp [Encoder.initial]
  backlog := by simp [Encoder.initial]
  ending := by simp [Encoder.initial]
  flushed := by simp [Encoder.initial]
  accLow := by simp [Encoder.initial]
  hbufWf := rfl
  hbufBelow := rfl
  outWf := rfl
  outBelow := rfl
  indexWf := rfl
  indexBelow := rfl
  linkDown := fun i => by simp [Encoder.initial, Encoder.link, Cells.read]; omega

/-- The output side of an encoder after a push meets the invariant's output part again. -/
theorem Encoder.Pushed.shape {bits : List Bool} {e e' : Encoder} (h : Encoder.Pushed bits e e') :
    ∃ out outSize acc wbits, e' = { e with out := out, outSize := outSize, acc := acc, wbits := wbits } ∧
      outSize ≤ e.cfg.obs ∧ wbits ≤ 7 ∧ (∀ k, k + wbits < 8 → acc.getLsbD k = false) ∧
      Memory.wf out = true ∧ Cells.below e.cfg.obs out = true := by
  have hw := h.writable
  have hc := h.cfg
  refine ⟨e'.out, e'.outSize, e'.acc, e'.wbits, h.rest, ?_, hw.wbits, hw.accLow, hw.outWf, ?_⟩
  · rw [← hc]; exact hw.outSize
  · rw [← hc]; exact hw.outBelow

/-! ### Handlers -/

/-- FILLED (R127, R128, R148). -/
theorem encFilled_spec {p : Params} {e : Encoder} (h : e.Inv) (hq : e.state = .filled) :
    ∃ index', encFilled p e = .ok { e with index := index', state := .search } ∧
      ({ e with index := index', state := .search } : Encoder).Inv ∧
      ({ e with index := index', state := .search } : Encoder).Linked ∧
      ∀ k, e.cfg.window + e.inputSize ≤ k → Cells.read (-1) index' k = e.link k := by
  obtain ⟨index', h1, h2, h3, h4, h5⟩ := Encoder.buildIndex_spec h.indexWf h.indexBelow h.batch
  refine ⟨index', by simp [encFilled, h1], ?_, h4, h5⟩
  refine { h with
    matchState := ?_, brIndex := ?_, brLength := ?_, literal := ?_, waiting := ?_, filled := ?_,
    fullBatch := ?_, backlog := ?_, ending := ?_, flushed := ?_, indexWf := h2, indexBelow := h3,
    linkDown := ?_ }
  · intro hm; have := h.matchState hm; simp [hq] at this
  · simp
  · simp
  · simp
  · simp
  · simp
  · intro hf _; exact h.fullBatch hf (by simp [hq])
  · simp
  · simp
  · simp
  · intro i
    by_cases hi : i < e.cfg.window + e.inputSize
    · exact Encoder.LastOf.range (h4 i hi)
    · have := h5 i (by omega)
      rw [Encoder.link, this]; exact h.linkDown i

/-- The batch ends in SEARCH (R149). -/
theorem encSearch_end {p : Params} {e : Encoder} (h : e.Inv) (hq : e.state = .search)
    (hend : e.inputSize < e.msi + Encoder.needed e) :
    encSearch p e = .ok { e with state := Encoder.afterBatch e } ∧
      ({ e with state := Encoder.afterBatch e } : Encoder).Inv := by
  refine ⟨by simp [encSearch, hend], ?_⟩
  have hm : ¬ 0 < e.matchLen := fun hm => by have := h.matchState hm; simp [hq] at this
  have hl := h.lookahead_le
  unfold Encoder.afterBatch Encoder.needed at *
  cases hf : e.finishing with
  | true =>
    simp only [hf, if_true] at hend ⊢
    refine { h with
      matchState := fun hm' => absurd hm' hm, brIndex := ?_, brLength := ?_, literal := ?_,
      waiting := ?_, filled := ?_, fullBatch := ?_, backlog := ?_, ending := ?_, flushed := ?_ }
    all_goals simp
  | false =>
    simp only [hf] at hend ⊢
    have hb := h.fullBatch hf (by simp [hq])
    refine { h with
      matchState := fun hm' => absurd hm' hm, brIndex := ?_, brLength := ?_, literal := ?_,
      waiting := ?_, filled := ?_, fullBatch := ?_, backlog := ?_, ending := ?_, flushed := ?_ }
    all_goals simp [hb]
    simp at hend
    omega

/-- SEARCH's literal choice (R149). -/
theorem Encoder.literal_inv {e : Encoder} (h : e.Inv) (hq : e.state = .search)
    (hs : e.msi + 1 ≤ e.inputSize) :
    ({ e with msi := e.msi + 1, matchLen := 0, state := .yieldTagBit } : Encoder).Inv := by
  refine { h with
    scan := hs, matchLen := Nat.zero_le _, pendingMatch := ?_, matchState := ?_, brIndex := ?_,
    brLength := ?_, literal := ?_, waiting := ?_, filled := ?_, fullBatch := ?_, backlog := ?_,
    ending := ?_, flushed := ?_ }
  · simp
  · simp
  · simp
  · simp
  · simp
  · simp
  · simp
  · intro hf _; exact h.fullBatch hf (by simp [hq])
  · simp
  · simp
  · simp

/-- SEARCH's backreference choice (R149). -/
theorem Encoder.match_inv {e : Encoder} (h : e.Inv) (hq : e.state = .search) {len dist : Nat}
    (h1 : 0 < len) (h2 : len ≤ e.cfg.lookahead) (h3 : e.msi + len ≤ e.inputSize) (h4 : 1 ≤ dist)
    (h5 : dist ≤ e.cfg.window) :
    ({ e with matchLen := len, matchDist := dist, state := .yieldTagBit } : Encoder).Inv := by
  refine { h with
    matchLen := h2, matchDist := h5, pendingMatch := ?_, matchState := ?_, brIndex := ?_,
    brLength := ?_, literal := ?_, waiting := ?_, filled := ?_, fullBatch := ?_, backlog := ?_,
    ending := ?_, flushed := ?_ }
  · intro _; exact ⟨h4, h3⟩
  · simp
  · simp
  · simp
  · simp; omega
  · simp
  · simp
  · intro hf _; exact h.fullBatch hf (by simp [hq])
  · simp
  · simp
  · simp

/-- The search floor of an encoder in range (R132). -/
theorem Encoder.searchFloor_spec (p : Params) (e : Encoder) :
    Encoder.searchFloor p e (e.cfg.window + e.msi) = .ok (searchLow p e) := by
  unfold Encoder.searchFloor searchLow
  cases p.zeroHistory with
  | true => simp
  | false =>
    have : min e.cfg.window (e.histFill + e.msi) ≤ e.cfg.window + e.msi := by omega
    simp [this]

theorem searchLow_bounds (p : Params) (e : Encoder) : e.msi ≤ searchLow p e := by
  unfold searchLow
  split
  · omega
  · have : min e.cfg.window (e.histFill + e.msi) ≤ e.cfg.window := Nat.min_le_left _ _
    omega

/-- SEARCH goes on while the bytes it needs are there. -/
theorem Encoder.needed_pos {e : Encoder} (h : e.Inv) : 0 < Encoder.needed e := by
  unfold Encoder.needed
  split
  · omega
  · exact h.lookahead_pos

/-- SEARCH in the middle of the batch, before its choice is known (R149). -/
theorem encSearch_unfold {p : Params} {e : Encoder} (h : e.Inv)
    (hgo : ¬ e.inputSize < e.msi + Encoder.needed e) :
    encSearch p e = (Encoder.longestMatch e (e.cfg.window + e.msi) (searchLow p e)
      (min e.cfg.lookahead (e.inputSize - e.msi)) >>= Encoder.decide e (e.cfg.window + e.msi)) := by
  unfold encSearch
  rw [if_neg hgo, Encoder.searchFloor_spec, Res.ok_bind, minus_of_le h.scan, Res.ok_bind]

/-- SEARCH in the middle of the batch: a literal, or a backreference that fits its ranges. -/
theorem encSearch_go {p : Params} {e : Encoder} (h : e.Inv) (hq : e.state = .search)
    (hgo : ¬ e.inputSize < e.msi + Encoder.needed e) :
    (encSearch p e = .ok { e with msi := e.msi + 1, matchLen := 0, state := .yieldTagBit } ∧
      ({ e with msi := e.msi + 1, matchLen := 0, state := .yieldTagBit } : Encoder).Inv) ∨
    ∃ len dist, 0 < len ∧ e.msi + len ≤ e.inputSize ∧ e.cfg.breakEven < 8 * len ∧
      encSearch p e = .ok { e with matchLen := len, matchDist := dist, state := .yieldTagBit } ∧
      ({ e with matchLen := len, matchDist := dist, state := .yieldTagBit } : Encoder).Inv := by
  have hn := Encoder.needed_pos h
  have hb := h.batch
  have hsc := h.scan
  have hlow := searchLow_bounds p e
  have hstop : e.cfg.window + e.msi < e.cfg.hbufSize := by simp only [Cfg.hbufSize]; omega
  have hsize : e.cfg.window + e.msi + min e.cfg.lookahead (e.inputSize - e.msi) ≤ e.cfg.hbufSize := by
    simp only [Cfg.hbufSize]; omega
  obtain ⟨r, h1, h2⟩ := Encoder.longestMatch_answers (lo := searchLow p e) hsize hstop h.linkDown
  rw [encSearch_unfold h hgo, h1, Res.ok_bind]
  have hlit := Encoder.literal_inv h hq (by omega)
  match r with
  | none => exact .inl ⟨rfl, hlit⟩
  | some (len, pos) =>
    obtain ⟨b1, b2, b3, b4⟩ := h2 _ rfl
    simp only at b1 b2 b3 b4
    simp only [Encoder.decide]
    by_cases hacc : accepts e.cfg len
    · rw [if_pos hacc, minus_of_le (by omega)]
      refine .inr ⟨len, e.cfg.window + e.msi - pos, b1, by omega, hacc.2, rfl, ?_⟩
      exact Encoder.match_inv h hq b1 (by omega) (by omega) (by omega) (by omega)
    · rw [if_neg hacc]
      exact .inl ⟨rfl, hlit⟩

/-- YIELD_TAG_BIT before a literal (R150). -/
theorem encYieldTagBit_literal {p : Params} {e : Encoder} (h : e.Inv) (hr : e.room)
    (hm : e.matchLen = 0) :
    ∃ e1, Encoder.Pushed [true] e e1 ∧ encYieldTagBit p e = .ok { e1 with state := .yieldLiteral } := by
  obtain ⟨e1, h1, p1⟩ := Encoder.pushBits_spec 1 1 h.writable
    (Encoder.push_room h.writable hr (by decide))
  exact ⟨e1, p1, by simp [encYieldTagBit, hr, hm, h1]⟩

/-- YIELD_TAG_BIT before a backreference (R150). -/
theorem encYieldTagBit_match {p : Params} {e : Encoder} (h : e.Inv) (hr : e.room)
    (hm : 0 < e.matchLen) :
    ∃ e1, Encoder.Pushed [false] e e1 ∧ encYieldTagBit p e =
      .ok { e1 with outBits := e.matchDist - 1, outCount := e.cfg.windowBits, state := .yieldBrIndex } := by
  obtain ⟨e1, h1, p1⟩ := Encoder.pushBits_spec 1 0 h.writable
    (Encoder.push_room h.writable hr (by decide))
  have hd : e1.matchDist = e.matchDist := by rw [p1.rest]
  have h1d := (h.pendingMatch hm).1
  have hpos : ¬ e.matchLen = 0 := by omega
  refine ⟨e1, p1, ?_⟩
  simp [encYieldTagBit, hr, hpos, h1, hd, minus_of_le h1d, p1.cfg]

/-- YIELD_LITERAL with room (R151). -/
theorem encYieldLiteral_spec {p : Params} {e : Encoder} (h : e.Inv) (hr : e.room) :
    ∃ e1, Encoder.Pushed (byteBits (e.hbufByte (e.cfg.window + e.msi - 1))) e e1 ∧
      encYieldLiteral p e = .ok { e1 with state := .search } := by
  have hw := h.window_pos
  have hlt : e.cfg.window + e.msi - 1 < e.cfg.hbufSize := by
    have := h.batch; have := h.scan; simp only [Cfg.hbufSize]; omega
  obtain ⟨e1, h1, p1⟩ := Encoder.pushBits_spec 8 (e.hbufByte (e.cfg.window + e.msi - 1)).toNat
    h.writable (Encoder.push_room h.writable hr (Nat.le_refl 8))
  refine ⟨e1, p1, ?_⟩
  have h1le : 1 ≤ e.cfg.window + e.msi := by omega
  simp only [encYieldLiteral, hr, not_true_eq_false, if_false, minus_of_le h1le, Res.ok_bind,
    Encoder.hbufAt, readByteAt_of_lt hlt, h1, Res.pure_eq]

/-- A push of an outgoing field's next bits with room, and bits left (R111, R152, R153). -/
theorem pushOutgoing_some {e : Encoder} (h : e.Inv) (hr : e.room) :
    ∃ e1, Encoder.Pushed ((bitsOf e.outCount e.outBits).take 8) e e1 ∧
      Encoder.pushOutgoing e =
        .ok (min 8 e.outCount, { e1 with outCount := e.outCount - min 8 e.outCount }) := by
  obtain ⟨e', h1, h2, h3⟩ := Encoder.pushOutgoing_spec h.writable hr
  refine ⟨{ e' with outCount := e.outCount }, h3, ?_⟩
  rw [h1, ← h2]

/-- YIELD_BR_INDEX with room and bits left (R152). -/
theorem encYieldBrIndex_push {p : Params} {e : Encoder} (h : e.Inv) (hr : e.room)
    (hc : 0 < e.outCount) :
    ∃ e1, Encoder.Pushed ((bitsOf e.outCount e.outBits).take 8) e e1 ∧
      encYieldBrIndex p e = .ok { e1 with outCount := e.outCount - min 8 e.outCount } := by
  obtain ⟨e1, p1, h1⟩ := pushOutgoing_some h hr
  exact ⟨e1, p1, by simp [encYieldBrIndex, hr, h1, hc]⟩

/-- A push of an outgoing field with no bits left pushes nothing (R111). -/
theorem pushOutgoing_none {e : Encoder} (hc : e.outCount = 0) : Encoder.pushOutgoing e = .ok (0, e) := by
  simp [Encoder.pushOutgoing, Encoder.outgoingCount, hc]

/-- YIELD_BR_INDEX with room and no bits left (R152). -/
theorem encYieldBrIndex_done {p : Params} {e : Encoder} (hr : e.room) (hm : 0 < e.matchLen)
    (hc : e.outCount = 0) :
    encYieldBrIndex p e = .ok { e with
      outBits := e.matchLen - 1, outCount := e.cfg.lookaheadBits, state := .yieldBrLength } := by
  have : 1 ≤ e.matchLen := hm
  simp [encYieldBrIndex, hr, pushOutgoing_none hc, minus_of_le this]

/-- YIELD_BR_LENGTH with room and bits left (R153). -/
theorem encYieldBrLength_push {p : Params} {e : Encoder} (h : e.Inv) (hr : e.room)
    (hc : 0 < e.outCount) :
    ∃ e1, Encoder.Pushed ((bitsOf e.outCount e.outBits).take 8) e e1 ∧
      encYieldBrLength p e = .ok { e1 with outCount := e.outCount - min 8 e.outCount } := by
  obtain ⟨e1, p1, h1⟩ := pushOutgoing_some h hr
  exact ⟨e1, p1, by simp [encYieldBrLength, hr, h1, hc]⟩

/-- YIELD_BR_LENGTH with room and no bits left (R153). -/
theorem encYieldBrLength_done {p : Params} {e : Encoder} (hr : e.room) (hc : e.outCount = 0) :
    encYieldBrLength p e = .ok { e with
      msi := e.msi + e.matchLen, matchLen := 0, state := .search } := by
  simp [encYieldBrLength, hr, pushOutgoing_none hc]

/-- SAVE_BACKLOG (R154). -/
theorem encSaveBacklog_spec {p : Params} {e : Encoder} (h : e.Inv) :
    ∃ hbuf', encSaveBacklog p e = .ok { e with
        hbuf := hbuf', inputSize := e.inputSize - e.msi, msi := 0,
        histFill := min e.cfg.window (e.histFill + e.msi), state := .notFull } ∧
      Memory.wf hbuf' = true ∧ Cells.below e.cfg.hbufSize hbuf' = true ∧
      (∀ k, k < e.cfg.window + (e.inputSize - e.msi) →
        Cells.read 0#8 hbuf' k = e.hbufByte (e.msi + k)) ∧
      ∀ k, e.cfg.window + (e.inputSize - e.msi) ≤ k → Cells.read 0#8 hbuf' k = e.hbufByte k := by
  have hb := h.batch
  have hs := h.scan
  obtain ⟨hbuf', h1, h2, h3, h4, h5⟩ := slideDown_spec (m := e.msi) (i := 0)
    (e.cfg.window + (e.inputSize - e.msi)) h.hbufWf h.hbufBelow (by simp only [Cfg.hbufSize]; omega)
  refine ⟨hbuf', ?_, h2, h3, fun k hk => h4 k (by omega) (by omega), fun k hk => h5 k (by omega)⟩
  simp [encSaveBacklog, minus_of_le hs, h1]

/-- FLUSH_BITS with a partial byte and room (R155). -/
theorem encFlushBits_spec {p : Params} {e : Encoder} (h : e.Inv) (hr : e.room) (hw : 0 < e.wbits) :
    ∃ e1, Encoder.Pushed (List.replicate (8 - e.wbits) false) e e1 ∧ e1.wbits = 0 ∧
      encFlushBits p e = .ok { e1 with state := .done } := by
  obtain ⟨e1, h1, p1, hz⟩ := Encoder.flushBits_spec h.writable hr hw
  refine ⟨e1, p1, hz, ?_⟩
  simp [encFlushBits, Nat.ne_of_gt hw, hr, h1]

/-! ### Progress -/

/-- How many handler steps are left, at most, before POLL answers. -/
def Encoder.stepsLeft (e : Encoder) : Nat :=
  let perToken := 4 + (e.cfg.windowBits + 7) / 8 + (e.cfg.lookaheadBits + 7) / 8
  let fromSearch := (e.inputSize - e.msi) * perToken + 2
  let afterMatch := (e.inputSize - e.msi - e.matchLen) * perToken + 2
  match e.state with
  | .notFull => 0
  | .done => 0
  | .filled => fromSearch + 1
  | .search => fromSearch
  | .yieldTagBit =>
    if e.matchLen = 0 then fromSearch + 2
    else afterMatch + (e.cfg.windowBits + 7) / 8 + (e.cfg.lookaheadBits + 7) / 8 + 3
  | .yieldLiteral => fromSearch + 1
  | .yieldBrIndex => afterMatch + (e.outCount + 7) / 8 + (e.cfg.lookaheadBits + 7) / 8 + 2
  | .yieldBrLength => afterMatch + (e.outCount + 7) / 8 + 1
  | .saveBacklog => 1
  | .flushBits => 1

/-- What one handler step of an encoder that does not rest amounts to: the invariant and CFG are kept,
the flag too, and either there are fewer steps left or the state is blocked on a full output buffer. -/
structure Encoder.Stepped (e e' : Encoder) : Prop where
  inv : e'.Inv
  cfg : e'.cfg = e.cfg
  finishing : e'.finishing = e.finishing
  progress : e'.stepsLeft < e.stepsLeft ∨ (e' = e ∧ e.outSize = e.cfg.obs)

/-- A yielding state without room changes nothing (R150 to R153, R155). -/
theorem Encoder.Stepped.blocked {e : Encoder} (h : e.Inv) (hr : ¬ e.room) : Encoder.Stepped e e :=
  ⟨h, rfl, rfl, .inr ⟨rfl, by have := h.outSize; have : ¬ e.outSize < e.cfg.obs := hr; omega⟩⟩

theorem encFilled_stepped {p : Params} {e : Encoder} (h : e.Inv) (hq : e.state = .filled) :
    ∃ e', encFilled p e = .ok e' ∧ Encoder.Stepped e e' := by
  obtain ⟨index', h1, h2, -, -⟩ := encFilled_spec (p := p) h hq
  exact ⟨_, h1, h2, rfl, rfl, .inl (by simp [Encoder.stepsLeft, hq])⟩

theorem encSearch_stepped {p : Params} {e : Encoder} (h : e.Inv) (hq : e.state = .search) :
    ∃ e', encSearch p e = .ok e' ∧ Encoder.Stepped e e' := by
  by_cases hend : e.inputSize < e.msi + Encoder.needed e
  · obtain ⟨h1, h2⟩ := encSearch_end (p := p) h hq hend
    refine ⟨_, h1, h2, rfl, rfl, .inl ?_⟩
    simp only [Encoder.stepsLeft, hq, Encoder.afterBatch]
    cases e.finishing <;> simp
  · have hn := Encoder.needed_pos h
    have hsplit : ∀ m, 1 ≤ m → e.msi + m ≤ e.inputSize → ∀ k,
        (e.inputSize - e.msi - m) * k + m * k = (e.inputSize - e.msi) * k := by
      intro m _ h2 k
      rw [← Nat.add_mul]; congr 1; omega
    rcases encSearch_go (p := p) h hq hend with ⟨h1, h2⟩ | ⟨len, dist, b1, b2, -, h1, h2⟩
    · refine ⟨_, h1, h2, rfl, rfl, .inl ?_⟩
      have := hsplit 1 (Nat.le_refl 1) (by omega)
        (4 + (e.cfg.windowBits + 7) / 8 + (e.cfg.lookaheadBits + 7) / 8)
      have h3 : e.inputSize - (e.msi + 1) = e.inputSize - e.msi - 1 := by omega
      simp only [Encoder.stepsLeft, hq, h3, if_true]
      omega
    · refine ⟨_, h1, h2, rfl, rfl, .inl ?_⟩
      have h4 := hsplit len b1 b2 (4 + (e.cfg.windowBits + 7) / 8 + (e.cfg.lookaheadBits + 7) / 8)
      have h5 : 1 * (4 + (e.cfg.windowBits + 7) / 8 + (e.cfg.lookaheadBits + 7) / 8) ≤
          len * (4 + (e.cfg.windowBits + 7) / 8 + (e.cfg.lookaheadBits + 7) / 8) :=
        Nat.mul_le_mul_right _ b1
      simp only [Encoder.stepsLeft, hq, if_neg (Nat.ne_of_gt b1)]
      omega

theorem encYieldTagBit_stepped {p : Params} {e : Encoder} (h : e.Inv) (hq : e.state = .yieldTagBit) :
    ∃ e', encYieldTagBit p e = .ok e' ∧ Encoder.Stepped e e' := by
  by_cases hr : e.room
  · by_cases hm : e.matchLen = 0
    · obtain ⟨e1, p1, h1⟩ := encYieldTagBit_literal (p := p) h hr hm
      obtain ⟨out, n, acc, w, rfl, a1, a2, a3, a4, a5⟩ := p1.shape
      refine ⟨_, h1, ?_, rfl, rfl, .inl ?_⟩
      · refine { h with
          outSize := a1, wbits := a2, accLow := a3, outWf := a4, outBelow := a5,
          matchState := ?_, brIndex := ?_, brLength := ?_, literal := ?_, waiting := ?_, filled := ?_,
          fullBatch := ?_, backlog := ?_, ending := ?_, flushed := ?_ }
        · simp [hm]
        · simp
        · simp
        · intro _; exact h.literal (.inl ⟨hq, hm⟩)
        · simp
        · simp
        · intro hf _; exact h.fullBatch hf (by simp [hq])
        · simp
        · simp
        · simp
      · simp [Encoder.stepsLeft, hq, hm]
    · have hpos : 0 < e.matchLen := by omega
      obtain ⟨e1, p1, h1⟩ := encYieldTagBit_match (p := p) h hr hpos
      obtain ⟨out, n, acc, w, rfl, a1, a2, a3, a4, a5⟩ := p1.shape
      have hd := h.matchDist
      have hw := h.window_le
      refine ⟨_, h1, ?_, rfl, rfl, .inl ?_⟩
      · refine { h with
          outSize := a1, wbits := a2, accLow := a3, outWf := a4, outBelow := a5,
          outBits := ?_, outCount := ?_,
          matchState := ?_, brIndex := ?_, brLength := ?_, literal := ?_, waiting := ?_, filled := ?_,
          fullBatch := ?_, backlog := ?_, ending := ?_, flushed := ?_ }
        · simp only; omega
        · exact h.legal.2.1
        · simp
        · intro _; exact ⟨hpos, Nat.le_refl _⟩
        · simp
        · simp
        · simp
        · simp
        · intro hf _; exact h.fullBatch hf (by simp [hq])
        · simp
        · simp
        · simp
      · simp only [Encoder.stepsLeft, hq, if_neg hm]; omega
  · exact ⟨e, by simp [encYieldTagBit, hr], Encoder.Stepped.blocked h hr⟩

theorem encYieldLiteral_stepped {p : Params} {e : Encoder} (h : e.Inv) (hq : e.state = .yieldLiteral) :
    ∃ e', encYieldLiteral p e = .ok e' ∧ Encoder.Stepped e e' := by
  by_cases hr : e.room
  · obtain ⟨e1, p1, h1⟩ := encYieldLiteral_spec (p := p) h hr
    obtain ⟨out, n, acc, w, rfl, a1, a2, a3, a4, a5⟩ := p1.shape
    have hm : ¬ 0 < e.matchLen := fun hm => by have := h.matchState hm; simp [hq] at this
    refine ⟨_, h1, ?_, rfl, rfl, .inl (by simp [Encoder.stepsLeft, hq])⟩
    refine { h with
      outSize := a1, wbits := a2, accLow := a3, outWf := a4, outBelow := a5,
      matchState := ?_, brIndex := ?_, brLength := ?_, literal := ?_, waiting := ?_, filled := ?_,
      fullBatch := ?_, backlog := ?_, ending := ?_, flushed := ?_ }
    · intro hm'; exact absurd hm' hm
    · simp
    · simp
    · simp
    · simp
    · simp
    · intro hf _; exact h.fullBatch hf (by simp [hq])
    · simp
    · simp
    · simp
  · exact ⟨e, by simp [encYieldLiteral, hr], Encoder.Stepped.blocked h hr⟩

theorem encYieldBrIndex_stepped {p : Params} {e : Encoder} (h : e.Inv) (hq : e.state = .yieldBrIndex) :
    ∃ e', encYieldBrIndex p e = .ok e' ∧ Encoder.Stepped e e' := by
  obtain ⟨hm, hcount⟩ := h.brIndex hq
  by_cases hr : e.room
  · by_cases hc : e.outCount = 0
    · have h1 := encYieldBrIndex_done (p := p) hr hm hc
      have hl := h.matchLen
      have hlw := h.lookahead_le_window
      have hw := h.window_le
      have hleg := h.legal
      refine ⟨_, h1, ?_, rfl, rfl, .inl ?_⟩
      · refine { h with
          outBits := ?_, outCount := ?_, matchState := ?_, brIndex := ?_, brLength := ?_, literal := ?_,
          waiting := ?_, filled := ?_, fullBatch := ?_, backlog := ?_, ending := ?_, flushed := ?_ }
        · simp only; omega
        · simp only; omega
        · simp
        · simp
        · intro _; exact ⟨hm, Nat.le_refl _⟩
        · simp
        · simp
        · simp
        · intro hf _; exact h.fullBatch hf (by simp [hq])
        · simp
        · simp
        · simp
      · simp only [Encoder.stepsLeft, hq]; omega
    · obtain ⟨e1, p1, h1⟩ := encYieldBrIndex_push (p := p) h hr (by omega)
      obtain ⟨out, n, acc, w, rfl, a1, a2, a3, a4, a5⟩ := p1.shape
      have hoc := h.outCount
      refine ⟨_, h1, ?_, rfl, rfl, .inl ?_⟩
      · refine { h with
          outSize := a1, wbits := a2, accLow := a3, outWf := a4, outBelow := a5,
          outCount := ?_, brIndex := ?_, brLength := ?_, flushed := ?_ }
        · simp only; omega
        · intro _; exact ⟨hm, by simp only; omega⟩
        · simp [hq]
        · simp [hq]
      · simp only [Encoder.stepsLeft, hq]; omega
  · exact ⟨e, by simp [encYieldBrIndex, hr], Encoder.Stepped.blocked h hr⟩

theorem encYieldBrLength_stepped {p : Params} {e : Encoder} (h : e.Inv)
    (hq : e.state = .yieldBrLength) :
    ∃ e', encYieldBrLength p e = .ok e' ∧ Encoder.Stepped e e' := by
  obtain ⟨hm, hcount⟩ := h.brLength hq
  have hscan := (h.pendingMatch hm).2
  by_cases hr : e.room
  · by_cases hc : e.outCount = 0
    · have h1 := encYieldBrLength_done (p := p) hr hc
      refine ⟨_, h1, ?_, rfl, rfl, .inl ?_⟩
      · refine { h with
          scan := hscan, matchLen := Nat.zero_le _, pendingMatch := ?_,
          matchState := ?_, brIndex := ?_, brLength := ?_, literal := ?_,
          waiting := ?_, filled := ?_, fullBatch := ?_, backlog := ?_, ending := ?_, flushed := ?_ }
        · simp
        · simp
        · simp
        · simp
        · simp
        · simp
        · simp
        · intro hf _; exact h.fullBatch hf (by simp [hq])
        · simp
        · simp
        · simp
      · simp only [Encoder.stepsLeft, hq, Nat.sub_sub]; omega
    · obtain ⟨e1, p1, h1⟩ := encYieldBrLength_push (p := p) h hr (by omega)
      obtain ⟨out, n, acc, w, rfl, a1, a2, a3, a4, a5⟩ := p1.shape
      have hoc := h.outCount
      refine ⟨_, h1, ?_, rfl, rfl, .inl ?_⟩
      · refine { h with
          outSize := a1, wbits := a2, accLow := a3, outWf := a4, outBelow := a5,
          outCount := ?_, brIndex := ?_, brLength := ?_, flushed := ?_ }
        · simp only; omega
        · simp [hq]
        · intro _; exact ⟨hm, by simp only; omega⟩
        · simp [hq]
      · simp only [Encoder.stepsLeft, hq]; omega
  · exact ⟨e, by simp [encYieldBrLength, hr], Encoder.Stepped.blocked h hr⟩

theorem encSaveBacklog_stepped {p : Params} {e : Encoder} (h : e.Inv) (hq : e.state = .saveBacklog) :
    ∃ e', encSaveBacklog p e = .ok e' ∧ Encoder.Stepped e e' := by
  obtain ⟨hbuf', h1, h2, h3, -, -⟩ := encSaveBacklog_spec (p := p) h
  obtain ⟨hb1, hb2⟩ := h.backlog hq
  have hm : ¬ 0 < e.matchLen := fun hm => by have := h.matchState hm; simp [hq] at this
  have hbatch := h.batch
  have hibs := h.lookahead_le
  have hla := h.lookahead_pos
  refine ⟨_, h1, ?_, rfl, rfl, .inl (by simp [Encoder.stepsLeft, hq])⟩
  refine { h with
    scan := Nat.zero_le _, batch := ?_, histFill := Nat.min_le_left _ _, pendingMatch := ?_,
    matchState := ?_, brIndex := ?_, brLength := ?_, literal := ?_, waiting := ?_, filled := ?_,
    fullBatch := ?_, backlog := ?_, ending := ?_, flushed := ?_, hbufWf := h2, hbufBelow := h3 }
  · simp only; omega
  · intro hm'; exact absurd hm' hm
  · intro hm'; exact absurd hm' hm
  · simp
  · simp
  · simp
  · intro _; exact ⟨by simp only; omega, rfl⟩
  · simp
  · simp
  · simp
  · simp
  · simp

theorem encFlushBits_stepped {p : Params} {e : Encoder} (h : e.Inv) (hq : e.state = .flushBits) :
    ∃ e', encFlushBits p e = .ok e' ∧ Encoder.Stepped e e' := by
  have hm : ¬ 0 < e.matchLen := fun hm => by have := h.matchState hm; simp [hq] at this
  have hfin := h.ending (.inl hq)
  by_cases hw : e.wbits = 0
  · refine ⟨{ e with state := .done }, by simp [encFlushBits, hw], ?_, rfl, rfl,
      .inl (by simp [Encoder.stepsLeft, hq])⟩
    refine { h with
      matchState := ?_, brIndex := ?_, brLength := ?_, literal := ?_, waiting := ?_, filled := ?_,
      fullBatch := ?_, backlog := ?_, ending := ?_, flushed := ?_ }
    · intro hm'; exact absurd hm' hm
    · simp
    · simp
    · simp
    · simp
    · simp
    · simp [hfin]
    · simp
    · simp [hfin]
    · intro _; exact hw
  · by_cases hr : e.room
    · obtain ⟨e1, p1, hz, h1⟩ := encFlushBits_spec (p := p) h hr (by omega)
      obtain ⟨out, n, acc, w, rfl, a1, a2, a3, a4, a5⟩ := p1.shape
      refine ⟨_, h1, ?_, rfl, rfl, .inl (by simp [Encoder.stepsLeft, hq])⟩
      refine { h with
        outSize := a1, wbits := a2, accLow := a3, outWf := a4, outBelow := a5,
        matchState := ?_, brIndex := ?_, brLength := ?_, literal := ?_, waiting := ?_, filled := ?_,
        fullBatch := ?_, backlog := ?_, ending := ?_, flushed := ?_ }
      · intro hm'; exact absurd hm' hm
      · simp
      · simp
      · simp
      · simp
      · simp
      · simp [hfin]
      · simp
      · simp [hfin]
      · intro _; exact hz
    · exact ⟨e, by simp [encFlushBits, hw, hr], Encoder.Stepped.blocked h hr⟩

/-- One handler step of an encoder that does not rest. -/
theorem encHandler_stepped {p : Params} {e : Encoder} (h : e.Inv) (hq : resting e.state = false) :
    ∃ e', encHandler e.state p e = .ok e' ∧ Encoder.Stepped e e' := by
  match hs : e.state with
  | .notFull => simp [resting, hs] at hq
  | .done => simp [resting, hs] at hq
  | .filled => exact encFilled_stepped (p := p) h hs
  | .search => exact encSearch_stepped (p := p) h hs
  | .yieldTagBit => exact encYieldTagBit_stepped (p := p) h hs
  | .yieldLiteral => exact encYieldLiteral_stepped (p := p) h hs
  | .yieldBrIndex => exact encYieldBrIndex_stepped (p := p) h hs
  | .yieldBrLength => exact encYieldBrLength_stepped (p := p) h hs
  | .saveBacklog => exact encSaveBacklog_stepped (p := p) h hs
  | .flushBits => exact encFlushBits_stepped (p := p) h hs

/-- One handler step keeps the invariant, in every state. -/
theorem encHandler_inv {p : Params} {e : Encoder} (h : e.Inv) :
    ∃ e', encHandler e.state p e = .ok e' ∧ e'.Inv := by
  cases hr : resting e.state with
  | false => obtain ⟨e', h1, h2⟩ := encHandler_stepped (p := p) h hr; exact ⟨e', h1, h2.inv⟩
  | true =>
    simp only [resting, Bool.or_eq_true, beq_iff_eq] at hr
    rcases hr with hs | hs <;> exact ⟨e, by simp [hs, encHandler, encNotFull, encDone], h⟩

/-! ### POLL -/

/-- Where POLL's loop stops after a handler step (R144). -/
theorem encPollLoop_spec {p : Params} (fuel : Nat) {e : Encoder} (h : e.Inv)
    (hf : e.stepsLeft < fuel) :
    ∃ e' r n, encPollLoop p fuel e = .ok (e', r) ∧ encRun p n e = .ok e' ∧ n ≤ e.stepsLeft + 1 ∧
      e'.Inv ∧ e'.cfg = e.cfg ∧ e'.finishing = e.finishing ∧
      ((r = .pollEmpty ∧ resting e'.state = true) ∨
       (r = .pollMore ∧ resting e'.state = false ∧ e'.outSize = e'.cfg.obs ∧
         e'.state ≠ .search ∧ e'.state ≠ .saveBacklog ∧ e'.state ≠ .filled)) := by
  induction fuel generalizing e with
  | zero => omega
  | succ fuel ih =>
    cases hr : resting e.state with
    | true =>
      have hor : e.state = .notFull ∨ e.state = .done := by simpa [resting] using hr
      refine ⟨e, .pollEmpty, 0, ?_, rfl, by omega, h, rfl, rfl, .inl ⟨rfl, hr⟩⟩
      simp only [encPollLoop]; rw [if_pos hor]
    | false =>
      have hor : ¬ (e.state = .notFull ∨ e.state = .done) := by
        intro hor; rcases hor with hs | hs <;> simp [resting, hs] at hr
      obtain ⟨e1, h1, st⟩ := encHandler_stepped (p := p) h hr
      simp only [encPollLoop, if_neg hor, h1, Res.ok_bind]
      by_cases hstop : e1.state = e.state ∧ e1.outSize = e1.cfg.obs
      · rw [if_pos hstop]
        refine ⟨e1, .pollMore, 1, rfl, by simp [encRun, h1], by omega, st.inv, st.cfg, st.finishing,
          .inr ⟨rfl, by rw [hstop.1]; exact hr, hstop.2, ?_⟩⟩
        rw [hstop.1]
        refine ⟨fun hs => ?_, fun hs => ?_, fun hs => ?_⟩
        · rw [hs] at h1
          by_cases hend : e.inputSize < e.msi + Encoder.needed e
          · rw [encHandler, (encSearch_end (p := p) h hs hend).1] at h1
            injection h1 with h1
            have := hstop.1; rw [← h1, hs] at this
            simp only [Encoder.afterBatch] at this
            split at this <;> cases this
          · rcases encSearch_go (p := p) h hs hend with ⟨h2, -⟩ | ⟨len, dist, -, -, -, h2, -⟩ <;>
            · rw [encHandler, h2] at h1
              injection h1 with h1
              have := hstop.1; rw [← h1, hs] at this; cases this
        · rw [hs] at h1
          obtain ⟨hbuf', h2, -⟩ := encSaveBacklog_spec (p := p) h
          rw [encHandler, h2] at h1
          injection h1 with h1
          have := hstop.1; rw [← h1, hs] at this; cases this
        · rw [hs] at h1
          obtain ⟨index', h2, -⟩ := encFilled_spec (p := p) h hs
          rw [encHandler, h2] at h1
          injection h1 with h1
          have := hstop.1; rw [← h1, hs] at this; cases this
      · rw [if_neg hstop]
        have hless : e1.stepsLeft < e.stepsLeft := by
          rcases st.progress with hp | ⟨hp, ho⟩
          · exact hp
          · exact absurd ⟨by rw [hp], by rw [hp]; exact ho⟩ hstop
        obtain ⟨e', r, n, g1, g2, g3, g4, g5, g6, g7⟩ := ih st.inv (by omega)
        refine ⟨e', r, n + 1, g1, by simp [encRun, h1, g2], by omega, g4, by rw [g5, st.cfg],
          by rw [g6, st.finishing], g7⟩

/-- The steps left are within R160's bound. -/
theorem Encoder.stepsLeft_le {e : Encoder} (h : e.Inv) : e.stepsLeft + 1 ≤ encPollBound e.cfg := by
  have hb := h.batch
  have hleg := h.legal
  have hoc := h.outCount
  have key : ∀ k m, k ≤ e.cfg.ibs →
      k * (4 + (e.cfg.windowBits + 7) / 8 + (e.cfg.lookaheadBits + 7) / 8) + m ≤
      e.cfg.ibs * (4 + (e.cfg.windowBits + 7) / 8 + (e.cfg.lookaheadBits + 7) / 8) + m := by
    intro k m hk
    exact Nat.add_le_add_right (Nat.mul_le_mul_right _ hk) _
  have hbound : encPollBound e.cfg =
      8 * (e.cfg.ibs * (4 + (e.cfg.windowBits + 7) / 8 + (e.cfg.lookaheadBits + 7) / 8)) +
      8 * (4 + (e.cfg.windowBits + 7) / 8 + (e.cfg.lookaheadBits + 7) / 8) + 4 := by
    unfold encPollBound; ring
  have k1 := key (e.inputSize - e.msi) 2 (by omega)
  have k2 := key (e.inputSize - e.msi - e.matchLen) 2 (by omega)
  rw [hbound]
  simp only [Encoder.stepsLeft]
  split
  · omega
  · omega
  · omega
  · omega
  · split <;> omega
  · omega
  · have := (h.brIndex (by assumption)).2; omega
  · have := (h.brLength (by assumption)).2; omega
  · omega
  · omega

/-- POLL on an encoder that meets the invariant (R144, R160). -/
theorem encPoll_spec {p : Params} {e : Encoder} (h : e.Inv) :
    ∃ e' r n, encPoll p e = .ok (e', r) ∧ encRun p n e = .ok e' ∧ n ≤ encPollBound e.cfg ∧
      e'.Inv ∧ e'.cfg = e.cfg ∧ e'.finishing = e.finishing ∧
      ((r = .pollEmpty ∧ resting e'.state = true) ∨
       (r = .pollMore ∧ resting e'.state = false ∧ e'.outSize = e'.cfg.obs ∧
         e'.state ≠ .search ∧ e'.state ≠ .saveBacklog ∧ e'.state ≠ .filled)) := by
  have hb := Encoder.stepsLeft_le h
  obtain ⟨e', r, n, g1, g2, g3, g4⟩ := encPollLoop_spec (p := p) (encPollBound e.cfg + 1) h (by omega)
  exact ⟨e', r, n, g1, g2, by omega, g4⟩

/-! ### The other commands -/

/-- SINK that is accepted (R142). -/
theorem encSink_spec {p : Params} {e : Encoder} {data : List Byte} (h : e.Inv) (ha : e.accepting) :
    ∃ hbuf', encSink data p e = .ok
        ({ e with hbuf := hbuf', inputSize := e.inputSize + min (e.cfg.ibs - e.inputSize) data.length,
                  state := if min (e.cfg.ibs - e.inputSize) data.length = e.cfg.ibs - e.inputSize
                    then .filled else e.state },
          .accepted (min (e.cfg.ibs - e.inputSize) data.length)) ∧
      Memory.wf hbuf' = true ∧ Cells.below e.cfg.hbufSize hbuf' = true ∧
      (∀ k, k < min (e.cfg.ibs - e.inputSize) data.length →
        Cells.read 0#8 hbuf' (e.cfg.window + e.inputSize + k) = data.getD k 0) ∧
      ∀ a, a < e.cfg.window + e.inputSize ∨
          e.cfg.window + e.inputSize + min (e.cfg.ibs - e.inputSize) data.length ≤ a →
        Cells.read 0#8 hbuf' a = e.hbufByte a := by
  have hb := h.batch
  have hlen : (data.take (e.cfg.ibs - e.inputSize)).length = min (e.cfg.ibs - e.inputSize) data.length := by
    simp
  obtain ⟨hbuf', h1, h2, h3, h4, h5⟩ := writeRun_spec (size := e.cfg.hbufSize)
    (data.take (e.cfg.ibs - e.inputSize)) (i := e.cfg.window + e.inputSize) h.hbufWf h.hbufBelow
    (by rw [hlen]; simp only [Cfg.hbufSize]; omega)
  refine ⟨hbuf', ?_, h2, h3, fun k hk => ?_, fun a ha' => h5 a (by rw [hlen]; exact ha')⟩
  · have hna : ¬ ¬ e.accepting := not_not_intro ha
    simp only [encSink, if_neg hna, minus_of_le hb, Res.ok_bind, h1, Res.pure_eq, hlen]
  · rw [h4 k (by rw [hlen]; exact hk)]
    have hk2 : k < data.length := by omega
    simp [hk2]

theorem encSink_inv {p : Params} {e e' : Encoder} {r : Result} {data : List Byte} (h : e.Inv)
    (hs : encSink data p e = .ok (e', r)) : e'.Inv := by
  by_cases ha : e.accepting
  · obtain ⟨hbuf', h1, h2, h3, -, -⟩ := encSink_spec (p := p) (data := data) h ha
    rw [h1] at hs
    injection hs with hs
    injection hs with hs _
    subst hs
    have hb := h.batch
    have hsc := h.scan
    obtain ⟨hw1, hw2⟩ := h.waiting ha.2
    have hm : ¬ 0 < e.matchLen := fun hm => by have := h.matchState hm; simp [ha.2] at this
    refine { h with
      scan := ?_, batch := ?_, pendingMatch := ?_, matchState := ?_, brIndex := ?_, brLength := ?_,
      literal := ?_, waiting := ?_, filled := ?_, fullBatch := ?_, backlog := ?_, ending := ?_,
      flushed := ?_, hbufWf := h2, hbufBelow := h3 }
    · simp only; omega
    · simp only; omega
    · intro hm'; exact absurd hm' hm
    · intro hm'; exact absurd hm' hm
    · simp only [ha.2]; split <;> simp
    · simp only [ha.2]; split <;> simp
    · simp only [ha.2]; split <;> simp
    · simp only [ha.2]
      split
      · simp
      · intro _; exact ⟨by omega, hw2⟩
    · intro _; exact hw2
    · simp only [ha.2]
      split
      · intro _ _; omega
      · simp
    · simp only [ha.2]; split <;> simp
    · simp only [ha.2]; split <;> simp
    · simp only [ha.2]; split <;> simp
  · simp only [encSink, ha, not_false_eq_true, if_true] at hs
    injection hs with hs
    injection hs with hs _
    subst hs; exact h

theorem encSink_answers {p : Params} {e : Encoder} (h : e.Inv) (data : List Byte) :
    ∃ x, encSink data p e = .ok x := by
  by_cases ha : e.accepting
  · obtain ⟨hbuf', h1, -⟩ := encSink_spec (p := p) (data := data) h ha
    exact ⟨_, h1⟩
  · exact ⟨_, by simp only [encSink, ha, not_false_eq_true, if_true]; rfl⟩

theorem Encoder.setFinishing_inv {e : Encoder} (h : e.Inv) : (Encoder.setFinishing e).Inv := by
  by_cases hq : e.state = .notFull
  · have hm : ¬ 0 < e.matchLen := fun hm => by have := h.matchState hm; simp [hq] at this
    simp only [Encoder.setFinishing, if_pos hq]
    refine { h with
      matchState := fun hm' => absurd hm' hm, brIndex := ?_, brLength := ?_, literal := ?_,
      waiting := ?_, filled := ?_, fullBatch := ?_, backlog := ?_, ending := ?_, flushed := ?_ }
    all_goals simp
    exact (h.waiting hq).2
  · simp only [Encoder.setFinishing, if_neg hq]
    exact { h with fullBatch := by simp, ending := by simp }

/-- `takeAll(E.OUT)` inside the buffer (R113). -/
theorem Encoder.takeAll_spec {e : Encoder} (h : e.outSize ≤ e.cfg.obs) :
    Encoder.takeAll e = .ok (e.pending, { e with outSize := 0 }) := by
  have := readRun_spec (size := e.cfg.obs) (m := e.out) e.outSize 0 (by omega)
  simp [Encoder.takeAll, this, Encoder.pending]

theorem Encoder.drained_inv {e : Encoder} (h : e.Inv) : ({ e with outSize := 0 } : Encoder).Inv :=
  { h with outSize := Nat.zero_le _ }

end Sys2Proof.Machine
end

