-- ==== Sys2Proof/Laws/EncodeRef.lean ====
section
/-! SUPPORT. The encoder and ENCODE_REF: whatever is done with an encoder, the bits it has written and
the bits of the tokens it still has to write are together what ENCODE_REF gives (R158). -/

namespace Sys2Proof.Machine

/-! ### ENCODE_REF, one token at a time -/

@[simp] theorem virtualStream_length (ly : Layout) (x : List Byte) :
    (virtualStream ly x).length = 2 ^ ly.windowBits + x.length := by simp [virtualStream]

theorem virtualStream_append (ly : Layout) (x y : List Byte) :
    virtualStream ly (x ++ y) = virtualStream ly x ++ y := by simp [virtualStream]

theorem byteAt_append_left {v y : List Byte} {i : Nat} (h : i < v.length) : byteAt (v ++ y) i = byteAt v i :=
  List.getD_append _ _ _ _ h

theorem tokenOf_pos (ly : Layout) (v : List Byte) (pos : Nat) (b : Nat × Nat) :
    1 ≤ (tokenOf ly v pos b).2 := by
  unfold tokenOf
  by_cases h : 0 < b.1 ∧ 1 + ly.windowBits + ly.lookaheadBits < 8 * b.1
  · rw [if_pos h]; exact h.1
  · rw [if_neg h]

theorem tokenAt_pos (p : Params) (ly : Layout) (v : List Byte) (pos : Nat) : 1 ≤ (tokenAt p ly v pos).2 :=
  tokenOf_pos _ _ _ _

theorem tokensFrom_fuel (p : Params) (ly : Layout) (v : List Byte) (n m pos : Nat)
    (hn : v.length ≤ pos + n) (hm : v.length ≤ pos + m) :
    tokensFrom p ly v n pos = tokensFrom p ly v m pos := by
  induction n generalizing m pos with
  | zero =>
    cases m with
    | zero => rfl
    | succ m => simp only [tokensFrom]; rw [if_neg (by omega)]
  | succ n ih =>
    cases m with
    | zero => simp only [tokensFrom]; rw [if_neg (by omega)]
    | succ m =>
      simp only [tokensFrom]
      split
      · have := tokenAt_pos p ly v pos
        rw [ih m _ (by omega) (by omega)]
      · rfl

theorem bitsFrom_end {p : Params} {ly : Layout} {v : List Byte} {pos : Nat} (h : v.length ≤ pos) :
    bitsFrom p ly v pos = [] := by
  have : v.length - pos = 0 := by omega
  simp [bitsFrom, this, tokensFrom]

theorem bitsFrom_token {p : Params} {ly : Layout} {v : List Byte} {pos : Nat} (h : pos < v.length) :
    bitsFrom p ly v pos =
      tokenBits ly (tokenAt p ly v pos).1 ++ bitsFrom p ly v (pos + (tokenAt p ly v pos).2) := by
  obtain ⟨n, hn⟩ : ∃ n, v.length - pos = n + 1 := ⟨v.length - pos - 1, by omega⟩
  have h1 := tokenAt_pos p ly v pos
  unfold bitsFrom
  rw [hn]
  simp only [tokensFrom, if_pos h, List.flatMap_cons]
  congr 2
  exact tokensFrom_fuel _ _ _ _ _ _ (by omega) (by omega)

theorem encodeTokens_bits (p : Params) (ly : Layout) (x : List Byte) :
    (encodeTokens p ly x).flatMap (tokenBits ly) =
      bitsFrom p ly (virtualStream ly x) (2 ^ ly.windowBits) := by
  unfold encodeTokens bitsFrom
  congr 1
  rw [virtualStream_length, Nat.add_sub_cancel_left]
  rfl

theorem agreement_append {v y : List Byte} {a b : Nat} (n : Nat) (ha : a + n ≤ v.length)
    (hb : b + n ≤ v.length) : agreement (v ++ y) a b n = agreement v a b n := by
  induction n generalizing a b with
  | zero => rfl
  | succ n ih =>
    simp only [agreement]
    rw [byteAt_append_left (by omega), byteAt_append_left (by omega), ih (by omega) (by omega)]

theorem agreement_le (v : List Byte) (a b n : Nat) : agreement v a b n ≤ n := by
  induction n generalizing a b with
  | zero => exact Nat.le_refl 0
  | succ n ih =>
    simp only [agreement]
    split
    · have := ih (a + 1) (b + 1); omega
    · exact Nat.zero_le _

theorem bestOf_append (v : List Byte) (pos maxlen : Nat) (a b : List Nat) (best : Nat × Nat) :
    bestOf v pos maxlen (a ++ b) best = bestOf v pos maxlen b (bestOf v pos maxlen a best) := by
  induction a generalizing best with
  | nil => rfl
  | cons q a ih => simp only [List.cons_append, bestOf, ih]

/-- The best of the candidates [lo, lo + n): the greatest length and the nearest candidate of that
length, or no length at all (R130, R158). -/
theorem bestOf_spec (v : List Byte) (pos maxlen lo n : Nat) :
    let r := bestOf v pos maxlen ((List.range n).map (lo + ·)) (0, 0)
    (r.1 = 0 ∧ ∀ q, lo ≤ q → q < lo + n → agreement v q pos maxlen = 0) ∨
    (0 < r.1 ∧ lo ≤ r.2 ∧ r.2 < lo + n ∧ agreement v r.2 pos maxlen = r.1 ∧
      (∀ q, lo ≤ q → q < lo + n → agreement v q pos maxlen ≤ r.1) ∧
      ∀ q, r.2 < q → q < lo + n → agreement v q pos maxlen < r.1) := by
  induction n with
  | zero => exact .inl ⟨rfl, fun q h1 h2 => absurd h1 (by omega)⟩
  | succ n ih =>
    simp only at ih ⊢
    rw [List.range_succ, List.map_append, List.map_singleton, bestOf_append]
    generalize bestOf v pos maxlen ((List.range n).map (lo + ·)) (0, 0) = r at ih ⊢
    simp only [bestOf]
    have hlast : ∀ q, lo ≤ q → q < lo + (n + 1) → q < lo + n ∨ q = lo + n := by
      intro q h1 h2; omega
    split
    case isTrue h =>
      refine .inr ⟨h.1, by simp only; omega, by simp only; omega, rfl, fun q h1 h2 => ?_, fun q h1 h2 => ?_⟩
      · simp only
        rcases hlast q h1 h2 with h3 | h3
        · rcases ih with ⟨-, g⟩ | ⟨-, -, -, -, g, -⟩
          · rw [g q h1 h3]; exact Nat.zero_le _
          · exact Nat.le_trans (g q h1 h3) h.2
        · rw [h3]
      · simp only at h1; omega
    case isFalse h =>
      rcases ih with ⟨g0, g⟩ | ⟨g1, g2, g3, g4, g5, g6⟩
      · refine .inl ⟨g0, fun q h1 h2 => ?_⟩
        rcases hlast q h1 h2 with h3 | h3
        · exact g q h1 h3
        · rw [h3]; omega
      · have hless : agreement v (lo + n) pos maxlen < r.1 := by omega
        refine .inr ⟨g1, g2, by omega, g4, fun q h1 h2 => ?_, fun q h1 h2 => ?_⟩
        · rcases hlast q h1 h2 with h3 | h3
          · exact g5 q h1 h3
          · rw [h3]; omega
        · rcases hlast q (by omega) h2 with h3 | h3
          · exact g6 q h1 h3
          · rw [h3]; exact hless

/-! ### The encoder's buffer and the bytes accepted so far -/

theorem Encoder.Reads.agree {x : List Byte} {c : Nat} {e : Encoder} (h : e.Reads x c) (y : List Byte)
    (n : Nat) {a b : Nat} (ha : a + n ≤ e.cfg.window + e.inputSize) (hb : b + n ≤ e.cfg.window + e.inputSize) :
    Encoder.agree e a b n = agreement (virtualStream e.cfg.layout (x ++ y)) (c + a) (c + b) n := by
  have ht := h.total
  have hlen : (virtualStream e.cfg.layout x).length = e.cfg.window + x.length := virtualStream_length _ _
  induction n generalizing a b with
  | zero => rfl
  | succ n ih =>
    simp only [Encoder.agree, agreement]
    rw [h.bytes a (by omega), h.bytes b (by omega), virtualStream_append,
      byteAt_append_left (by omega), byteAt_append_left (by omega), ih (by omega) (by omega),
      virtualStream_append]
    rfl

/-- The search floor in the coordinates of the virtual stream (R132, R158). -/
theorem Encoder.Reads.low {p : Params} {x : List Byte} {c : Nat} {e : Encoder} (h : e.Reads x c) :
    (if p.zeroHistory then (c + (e.cfg.window + e.msi)) - 2 ^ e.cfg.layout.windowBits
      else max (2 ^ e.cfg.layout.windowBits)
        (c + (e.cfg.window + e.msi) - 2 ^ e.cfg.layout.windowBits)) = c + searchLow p e := by
  have hw : 2 ^ e.cfg.layout.windowBits = e.cfg.window := rfl
  have hf := h.fill
  rw [hw]
  unfold searchLow
  split
  · omega
  · rw [hf]; omega

/-- The token a search result decides at the scan position, with the bytes it stands for (R131). -/
def Encoder.chosen (e : Encoder) : Option (Nat × Nat) → Instr × Nat
  | some (len, pos) =>
    if accepts e.cfg len then (.bref (e.cfg.window + e.msi - pos) len, len)
    else (.lit (e.hbufByte (e.cfg.window + e.msi)), 1)
  | none => (.lit (e.hbufByte (e.cfg.window + e.msi)), 1)

/-- The token of ENCODE_REF at the scan position is the one the search result decides (R131, R158). -/
theorem Encoder.Reads.token {p : Params} {x y : List Byte} {c : Nat} {e : Encoder} (h : e.Reads x c)
    {maxlen : Nat} {r : Option (Nat × Nat)} (hm : 0 < maxlen) (hmax : e.msi + maxlen ≤ e.inputSize)
    (hbound : maxlen = min e.cfg.lookahead (e.inputSize - e.msi + y.length))
    (hr : Encoder.SearchResult e (e.cfg.window + e.msi) (searchLow p e) maxlen r) :
    tokenAt p e.cfg.layout (virtualStream e.cfg.layout (x ++ y)) (c + (e.cfg.window + e.msi)) =
      Encoder.chosen e r := by
  have ht := h.total
  have hvl : (virtualStream e.cfg.layout (x ++ y)).length = e.cfg.window + (x.length + y.length) := by
    rw [virtualStream_length, List.length_append]; rfl
  have hmx : min (2 ^ e.cfg.layout.lookaheadBits)
      ((virtualStream e.cfg.layout (x ++ y)).length - (c + (e.cfg.window + e.msi))) = maxlen := by
    rw [hbound, hvl]
    show min e.cfg.lookahead _ = _
    congr 1; omega
  have hbyte : byteAt (virtualStream e.cfg.layout (x ++ y)) (c + (e.cfg.window + e.msi)) =
      e.hbufByte (e.cfg.window + e.msi) := by
    have hl1 : (virtualStream e.cfg.layout x).length = e.cfg.window + x.length := virtualStream_length _ _
    rw [h.bytes _ (by omega), virtualStream_append, byteAt_append_left (by omega)]
  have hlowle : searchLow p e ≤ e.cfg.window + e.msi := by
    unfold searchLow; split <;> omega
  have hag : ∀ q, q ≤ e.cfg.window + e.msi →
      agreement (virtualStream e.cfg.layout (x ++ y)) (c + q) (c + (e.cfg.window + e.msi)) maxlen =
        Encoder.agree e q (e.cfg.window + e.msi) maxlen := by
    intro q hq
    exact (h.agree y maxlen (by omega) (by omega)).symm
  have hspec := bestOf_spec (virtualStream e.cfg.layout (x ++ y)) (c + (e.cfg.window + e.msi)) maxlen
    (c + searchLow p e) (c + (e.cfg.window + e.msi) - (c + searchLow p e))
  have hcount : c + searchLow p e + (c + (e.cfg.window + e.msi) - (c + searchLow p e)) =
      c + (e.cfg.window + e.msi) := by omega
  simp only [hcount] at hspec
  unfold tokenAt
  simp only [hmx, h.low (p := p)]
  generalize hb : bestOf (virtualStream e.cfg.layout (x ++ y)) (c + (e.cfg.window + e.msi)) maxlen
    ((List.range (c + (e.cfg.window + e.msi) - (c + searchLow p e))).map (c + searchLow p e + ·)) (0, 0) = b
    at hspec ⊢
  have hbe : 1 + e.cfg.layout.windowBits + e.cfg.layout.lookaheadBits = e.cfg.breakEven := rfl
  unfold tokenOf
  rw [hbe, hbyte]
  obtain ⟨bl, bp⟩ := b
  simp only at hspec ⊢
  match r with
  | none =>
    rcases hspec with ⟨g, -⟩ | ⟨g1, g2, g3, g4, -, -⟩
    · rw [if_neg (by omega)]; rfl
    · obtain ⟨q, rfl⟩ : ∃ q, bp = c + q := ⟨bp - c, by omega⟩
      rw [hag q (by omega)] at g4
      have := Encoder.agree_zero (n := maxlen) (hr q (by omega) (by omega))
      omega
  | some (len, pos) =>
    obtain ⟨b1, b2, b3, b4, b5, b6⟩ := hr
    have hpos := hag pos (by omega)
    rcases hspec with ⟨-, g⟩ | ⟨g1, g2, g3, g4, g5, g6⟩
    · have := g (c + pos) (by omega) (by omega)
      omega
    · obtain ⟨q, rfl⟩ : ∃ q, bp = c + q := ⟨bp - c, by omega⟩
      rw [hag q (by omega)] at g4
      have h1 := g5 (c + pos) (by omega) (by omega)
      have h2 := b5 q (by omega) (by omega)
      have hlen : bl = len := by omega
      subst hlen
      have hqp : q = pos := by
        rcases Nat.lt_trichotomy q pos with hlt | heq | hgt
        · have := g6 (c + pos) (by omega) (by omega); omega
        · exact heq
        · have := b6 q hgt (by omega); omega
      subst hqp
      simp only [Encoder.chosen, accepts]
      have hd : c + (e.cfg.window + e.msi) - (c + q) = e.cfg.window + e.msi - q := by omega
      rw [hd]

/-! ### What an encoder still owes -/

theorem bitsOf_drop {n m : Nat} (v : Nat) (h : m ≤ n) : (bitsOf n v).drop m = bitsOf (n - m) v := by
  obtain ⟨k, rfl⟩ : ∃ k, n = m + k := ⟨n - m, by omega⟩
  rw [bitsOf_add, List.drop_append_of_le_length (by simp), List.drop_of_length_le (by simp)]
  simp

theorem Encoder.written_length (e : Encoder) (hw : e.wbits ≤ 7) :
    e.written.length = 8 * e.outSize + e.wbits := by
  have hf : ∀ l : List Byte, (l.flatMap byteBits).length = 8 * l.length := by
    intro l
    induction l with
    | nil => rfl
    | cons b l ih => simp only [List.flatMap_cons, List.length_append, byteBits_length, ih,
        List.length_cons]; omega
  simp only [Encoder.written, List.length_append, hf, Encoder.pending, List.length_map, List.length_range,
    List.length_take, byteBits_length]
  omega

theorem Encoder.Pushed.kept_reads {bits : List Bool} {e e' : Encoder} (c : Encoder.Pushed bits e e')
    {x : List Byte} {k : Nat} (h : e.Reads x k) : e'.Reads x k := by
  have hr := c.rest
  generalize e'.out = a, e'.outSize = b, e'.acc = f, e'.wbits = g at hr
  subst hr
  exact ⟨h.total, h.bytes, h.fill⟩

/-- What a handler step that writes bits has to show to keep an encoder on its way. -/
theorem Encoder.Faithful.step {p : Params} {drained : List Bool} {x : List Byte} {e e' : Encoder}
    (h : Encoder.Faithful p drained x e) (hi : e'.Inv) (hcfg : e'.cfg = e.cfg)
    (hfin : e'.finishing = e.finishing) (hlinked : scanning e'.state = true → e'.Linked)
    (hcons : e'.state = .flushBits → e'.msi = e'.inputSize) (hd : e.state ≠ .done)
    (hd' : e'.state ≠ .done)
    (hreads : ∀ c, e.Reads x c → ∃ c', e'.Reads x c' ∧
      ∀ y, (e.finishing = true → y = []) → ∃ bits, e'.written = e.written ++ bits ∧
        e.owed p (virtualStream e.cfg.layout (x ++ y)) c =
          bits ++ e'.owed p (virtualStream e.cfg.layout (x ++ y)) c') :
    Encoder.Faithful p drained x e' := by
  refine ⟨hi, h.aligned, hlinked, hcons, ?_, fun hx => absurd hx hd'⟩
  obtain ⟨c, hr, ho⟩ := h.owes
  obtain ⟨c', hr', hs⟩ := hreads c hr
  refine ⟨c', hr', fun _ y hy => ?_⟩
  rw [hfin] at hy
  obtain ⟨bits, hw, hb⟩ := hs y hy
  have := ho hd y hy
  rw [hcfg, hw, ← this, hb]
  simp only [List.append_assoc]


/-! ### The handlers -/

theorem encFilled_faithful {p : Params} {drained : List Bool} {x : List Byte} {e e' : Encoder}
    (h : Encoder.Faithful p drained x e) (hq : e.state = .filled) (he : encFilled p e = .ok e') :
    Encoder.Faithful p drained x e' := by
  obtain ⟨index', h1, h2, h3, -⟩ := encFilled_spec (p := p) h.inv hq
  rw [h1] at he; injection he with he; subst he
  refine h.step h2 rfl rfl (fun _ => h3) (by simp) (by simp [hq]) (by simp) fun c hr => ?_
  refine ⟨c, ⟨hr.total, hr.bytes, hr.fill⟩, fun y _ => ⟨[], ?_, ?_⟩⟩
  · simp [Encoder.written, Encoder.pending]
  · simp [Encoder.owed, Encoder.underWay, hq]

/-- The scan index of a token that ENCODE_REF puts at the scan position. -/
theorem Encoder.owed_search {p : Params} {v : List Byte} {c : Nat} {e : Encoder} (hq : e.state = .search)
    (hv : c + e.cfg.window + e.msi < v.length) :
    e.owed p v c = tokenBits e.cfg.layout (tokenAt p e.cfg.layout v (c + (e.cfg.window + e.msi))).1 ++
      bitsFrom p e.cfg.layout v
        (c + (e.cfg.window + e.msi) + (tokenAt p e.cfg.layout v (c + (e.cfg.window + e.msi))).2) := by
  simp only [Encoder.owed, Encoder.underWay, hq, List.nil_append]
  rw [Nat.add_assoc c, bitsFrom_token (by omega)]

theorem encSearch_faithful {p : Params} {drained : List Bool} {x : List Byte} {e e' : Encoder}
    (h : Encoder.Faithful p drained x e) (hq : e.state = .search) (he : encSearch p e = .ok e') :
    Encoder.Faithful p drained x e' := by
  have hi := h.inv
  have hlink := h.linked (by simp [scanning, hq])
  have hsc := hi.scan
  have hb := hi.batch
  by_cases hend : e.inputSize < e.msi + Encoder.needed e
  · obtain ⟨h1, h2⟩ := encSearch_end (p := p) hi hq hend
    rw [h1] at he; injection he with he; subst he
    refine h.step h2 rfl rfl (fun hs => ?_) (fun hs => ?_) (by simp [hq]) ?_ fun c hr => ?_
    · exfalso; simp only [Encoder.afterBatch] at hs
      split at hs <;> simp [scanning] at hs
    · simp only [Encoder.afterBatch] at hs
      by_cases hf : e.finishing = true
      · simp only [Encoder.needed, hf, if_true] at hend
        show e.msi = e.inputSize
        omega
      · simp [hf] at hs
    · simp only [Encoder.afterBatch]; split <;> simp
    · refine ⟨c, ⟨hr.total, hr.bytes, hr.fill⟩, fun y _ => ⟨[], ?_, ?_⟩⟩
      · simp [Encoder.written, Encoder.pending]
      · have : ({ e with state := Encoder.afterBatch e } : Encoder).underWay = ([], e.msi) := by
          unfold Encoder.afterBatch; cases e.finishing <;> rfl
        simp only [Encoder.owed, this, List.nil_append]
        simp [Encoder.underWay, hq]
  · have hn := Encoder.needed_pos hi
    have hla := hi.lookahead_pos
    have hmax : 0 < min e.cfg.lookahead (e.inputSize - e.msi) := by omega
    have hlinks : e.LinksBelow (e.cfg.window + e.msi + 1) := fun i hi' => hlink i (by omega)
    obtain ⟨r, h1, h2⟩ := Encoder.longestMatch_spec (lo := searchLow p e) hmax
      (by simp only [Cfg.hbufSize]; omega) hlinks
    rw [encSearch_unfold hi hend, h1, Res.ok_bind] at he
    -- the choice, as one token of ENCODE_REF
    have htok : ∀ c, e.Reads x c → ∀ y, (e.finishing = true → y = []) →
        c + e.cfg.window + e.msi < (virtualStream e.cfg.layout (x ++ y)).length ∧
        tokenAt p e.cfg.layout (virtualStream e.cfg.layout (x ++ y)) (c + (e.cfg.window + e.msi)) =
          Encoder.chosen e r := by
      intro c hr y hy
      have ht := hr.total
      refine ⟨?_, hr.token hmax (by omega) ?_ h2⟩
      · rw [virtualStream_length, List.length_append]
        show c + e.cfg.window + e.msi < e.cfg.window + (x.length + y.length)
        omega
      · by_cases hf : e.finishing = true
        · rw [hy hf]; simp
        · simp only [Encoder.needed, hf] at hend
          simp at hend
          omega
    have hlit : (∀ c, e.Reads x c → ∀ y, (e.finishing = true → y = []) →
        tokenAt p e.cfg.layout (virtualStream e.cfg.layout (x ++ y)) (c + (e.cfg.window + e.msi)) =
          (.lit (e.hbufByte (e.cfg.window + e.msi)), 1)) →
        .ok { e with msi := e.msi + 1, matchLen := 0, state := .yieldTagBit } = (.ok e' : Res Encoder) →
        Encoder.Faithful p drained x e' := by
      intro ht heq
      injection heq with heq; subst heq
      refine h.step (Encoder.literal_inv hi hq (by omega)) rfl rfl (fun _ => hlink) (by simp)
        (by simp [hq]) (by simp) fun c hr => ?_
      refine ⟨c, ⟨hr.total, hr.bytes, hr.fill⟩, fun y hy => ⟨[], ?_, ?_⟩⟩
      · simp [Encoder.written, Encoder.pending]
      · rw [Encoder.owed_search hq (htok c hr y hy).1, ht c hr y hy]
        simp only [Encoder.owed, Encoder.underWay, if_true, tokenBits, encode]
        rw [show c + (e.cfg.window + e.msi) + 1 = c + e.cfg.window + (e.msi + 1) by omega,
          show e.cfg.window + (e.msi + 1) - 1 = e.cfg.window + e.msi by omega]
        rfl
    match r with
    | none => exact hlit (fun c hr y hy => (htok c hr y hy).2) he
    | some (len, pos) =>
      simp only [Encoder.decide] at he
      obtain ⟨b1, b2, b3, b4, -, -⟩ := h2
      by_cases hacc : accepts e.cfg len
      · rw [if_pos hacc, minus_of_le (by omega)] at he
        injection he with he; subst he
        have hlow := searchLow_bounds p e
        have hle := Encoder.agree_le e pos (e.cfg.window + e.msi) (min e.cfg.lookahead (e.inputSize - e.msi))
        have hinv := Encoder.match_inv hi hq (len := len) (dist := e.cfg.window + e.msi - pos) b3
          (by omega) (by omega) (by omega) (by omega)
        refine h.step hinv rfl rfl (fun _ => hlink) (by simp) (by simp [hq]) (by simp) fun c hr => ?_
        refine ⟨c, ⟨hr.total, hr.bytes, hr.fill⟩, fun y hy => ⟨[], ?_, ?_⟩⟩
        · simp [Encoder.written, Encoder.pending]
        · have hne : ¬ len = 0 := by omega
          rw [Encoder.owed_search hq (htok c hr y hy).1, (htok c hr y hy).2]
          simp only [Encoder.chosen, if_pos hacc, Encoder.owed, Encoder.underWay, if_neg hne, tokenBits,
            encode]
          rw [show c + (e.cfg.window + e.msi) + len = c + e.cfg.window + (e.msi + len) by omega]
          rfl
      · rw [if_neg hacc] at he
        refine hlit (fun c hr y hy => ?_) he
        rw [(htok c hr y hy).2]
        simp only [Encoder.chosen, if_neg hacc]

theorem Encoder.Pushed.linked {bits : List Bool} {e e' : Encoder} (c : Encoder.Pushed bits e e')
    (h : e.Linked) : e'.Linked := by
  have hr := c.rest
  generalize e'.out = a, e'.outSize = b, e'.acc = f, e'.wbits = g at hr
  subst hr
  exact h

theorem encYieldTagBit_faithful {p : Params} {drained : List Bool} {x : List Byte} {e e' : Encoder}
    (h : Encoder.Faithful p drained x e) (hi' : e'.Inv) (hq : e.state = .yieldTagBit)
    (he : encYieldTagBit p e = .ok e') : Encoder.Faithful p drained x e' := by
  have hi := h.inv
  have hlink := h.linked (by simp [scanning, hq])
  by_cases hr : e.room
  · by_cases hm : e.matchLen = 0
    · obtain ⟨e1, p1, h1⟩ := encYieldTagBit_literal (p := p) hi hr hm
      rw [h1] at he; injection he with he
      have hl1 := p1.linked hlink
      have hw1 := p1.written
      have hrd := fun c => p1.kept_reads (x := x) (k := c)
      have hrest := p1.rest
      generalize e1.out = a, e1.outSize = b, e1.acc = f, e1.wbits = g at hrest
      subst hrest; subst he
      refine h.step hi' rfl rfl (fun _ => hl1) (by simp) (by simp [hq]) (by simp) fun c hr => ?_
      refine ⟨c, ⟨(hrd c hr).total, (hrd c hr).bytes, (hrd c hr).fill⟩, fun y _ => ⟨[true], hw1, ?_⟩⟩
      simp only [Encoder.owed, Encoder.underWay, hq, if_pos hm, litBits]
      rfl
    · obtain ⟨e1, p1, h1⟩ := encYieldTagBit_match (p := p) hi hr (by omega)
      rw [h1] at he; injection he with he
      have hl1 := p1.linked hlink
      have hw1 := p1.written
      have hrd := fun c => p1.kept_reads (x := x) (k := c)
      have hrest := p1.rest
      generalize e1.out = a, e1.outSize = b, e1.acc = f, e1.wbits = g at hrest
      subst hrest; subst he
      refine h.step hi' rfl rfl (fun _ => hl1) (by simp) (by simp [hq]) (by simp) fun c hr => ?_
      refine ⟨c, ⟨(hrd c hr).total, (hrd c hr).bytes, (hrd c hr).fill⟩, fun y _ => ⟨[false], hw1, ?_⟩⟩
      simp only [Encoder.owed, Encoder.underWay, hq, if_neg hm, brefBits]
      rfl
  · simp only [encYieldTagBit, hr, not_false_eq_true, if_true] at he
    injection he with he; subst he; exact h

theorem encYieldLiteral_faithful {p : Params} {drained : List Bool} {x : List Byte} {e e' : Encoder}
    (h : Encoder.Faithful p drained x e) (hi' : e'.Inv) (hq : e.state = .yieldLiteral)
    (he : encYieldLiteral p e = .ok e') : Encoder.Faithful p drained x e' := by
  have hi := h.inv
  have hlink := h.linked (by simp [scanning, hq])
  by_cases hr : e.room
  · obtain ⟨e1, p1, h1⟩ := encYieldLiteral_spec (p := p) hi hr
    rw [h1] at he; injection he with he
    have hl1 := p1.linked hlink
    have hw1 := p1.written
    have hrd := fun c => p1.kept_reads (x := x) (k := c)
    have hrest := p1.rest
    generalize e1.out = a, e1.outSize = b, e1.acc = f, e1.wbits = g at hrest
    subst hrest; subst he
    refine h.step hi' rfl rfl (fun _ => hl1) (by simp) (by simp [hq]) (by simp) fun c hr => ?_
    refine ⟨c, ⟨(hrd c hr).total, (hrd c hr).bytes, (hrd c hr).fill⟩, fun y _ => ⟨_, hw1, ?_⟩⟩
    simp only [Encoder.owed, Encoder.underWay, hq]
    rfl
  · simp only [encYieldLiteral, hr, not_false_eq_true, if_true] at he
    injection he with he; subst he; exact h

/-- The bits of a field that one push takes, and those it leaves (R85). -/
theorem field_push (n v : Nat) :
    bitsOf n v = (bitsOf n v).take 8 ++ bitsOf (n - min 8 n) v := by
  by_cases h : 8 ≤ n
  · conv_lhs => rw [← List.take_append_drop 8 (bitsOf n v)]
    rw [bitsOf_drop v h, Nat.min_eq_left h]
  · have : n - min 8 n = 0 := by omega
    rw [this, List.take_of_length_le (by simp; omega)]
    simp [bitsOf]

theorem encYieldBrIndex_faithful {p : Params} {drained : List Bool} {x : List Byte} {e e' : Encoder}
    (h : Encoder.Faithful p drained x e) (hi' : e'.Inv) (hq : e.state = .yieldBrIndex)
    (he : encYieldBrIndex p e = .ok e') : Encoder.Faithful p drained x e' := by
  have hi := h.inv
  have hlink := h.linked (by simp [scanning, hq])
  have hm := (hi.brIndex hq).1
  by_cases hr : e.room
  · by_cases hc : e.outCount = 0
    · rw [encYieldBrIndex_done hr hm hc] at he; injection he with he; subst he
      refine h.step hi' rfl rfl (fun _ => hlink) (by simp) (by simp [hq]) (by simp) fun c hr => ?_
      refine ⟨c, ⟨hr.total, hr.bytes, hr.fill⟩, fun y _ => ⟨[], ?_, ?_⟩⟩
      · simp [Encoder.written, Encoder.pending]
      · simp [Encoder.owed, Encoder.underWay, hq, hc, bitsOf]
    · obtain ⟨e1, p1, h1⟩ := encYieldBrIndex_push (p := p) hi hr (by omega)
      rw [h1] at he; injection he with he
      have hl1 := p1.linked hlink
      have hw1 := p1.written
      have hrd := fun c => p1.kept_reads (x := x) (k := c)
      have hrest := p1.rest
      generalize e1.out = a, e1.outSize = b, e1.acc = f, e1.wbits = g at hrest
      subst hrest; subst he
      refine h.step hi' rfl rfl (fun _ => hl1) (by simp [hq]) (by simp [hq]) (by simp [hq]) fun c hr => ?_
      refine ⟨c, ⟨(hrd c hr).total, (hrd c hr).bytes, (hrd c hr).fill⟩, fun y _ => ⟨_, hw1, ?_⟩⟩
      simp only [Encoder.owed, Encoder.underWay, hq]
      conv_lhs => rw [field_push e.outCount e.outBits]
      simp only [List.append_assoc]
  · simp only [encYieldBrIndex, hr, not_false_eq_true, if_true] at he
    injection he with he; subst he; exact h

theorem encYieldBrLength_faithful {p : Params} {drained : List Bool} {x : List Byte} {e e' : Encoder}
    (h : Encoder.Faithful p drained x e) (hi' : e'.Inv) (hq : e.state = .yieldBrLength)
    (he : encYieldBrLength p e = .ok e') : Encoder.Faithful p drained x e' := by
  have hi := h.inv
  have hlink := h.linked (by simp [scanning, hq])
  by_cases hr : e.room
  · by_cases hc : e.outCount = 0
    · rw [encYieldBrLength_done hr hc] at he; injection he with he; subst he
      refine h.step hi' rfl rfl (fun _ => hlink) (by simp) (by simp [hq]) (by simp) fun c hr => ?_
      refine ⟨c, ⟨hr.total, hr.bytes, hr.fill⟩, fun y _ => ⟨[], ?_, ?_⟩⟩
      · simp [Encoder.written, Encoder.pending]
      · simp [Encoder.owed, Encoder.underWay, hq, hc, bitsOf]
    · obtain ⟨e1, p1, h1⟩ := encYieldBrLength_push (p := p) hi hr (by omega)
      rw [h1] at he; injection he with he
      have hl1 := p1.linked hlink
      have hw1 := p1.written
      have hrd := fun c => p1.kept_reads (x := x) (k := c)
      have hrest := p1.rest
      generalize e1.out = a, e1.outSize = b, e1.acc = f, e1.wbits = g at hrest
      subst hrest; subst he
      refine h.step hi' rfl rfl (fun _ => hl1) (by simp [hq]) (by simp [hq]) (by simp [hq]) fun c hr => ?_
      refine ⟨c, ⟨(hrd c hr).total, (hrd c hr).bytes, (hrd c hr).fill⟩, fun y _ => ⟨_, hw1, ?_⟩⟩
      simp only [Encoder.owed, Encoder.underWay, hq]
      conv_lhs => rw [field_push e.outCount e.outBits]
      simp only [List.append_assoc]
  · simp only [encYieldBrLength, hr, not_false_eq_true, if_true] at he
    injection he with he; subst he; exact h

theorem encSaveBacklog_faithful {p : Params} {drained : List Bool} {x : List Byte} {e e' : Encoder}
    (h : Encoder.Faithful p drained x e) (hi' : e'.Inv) (hq : e.state = .saveBacklog)
    (he : encSaveBacklog p e = .ok e') : Encoder.Faithful p drained x e' := by
  have hi := h.inv
  have hsc := hi.scan
  obtain ⟨hbuf', h1, -, -, h4, -⟩ := encSaveBacklog_spec (p := p) hi
  rw [h1] at he; injection he with he; subst he
  refine h.step hi' rfl rfl (by simp [scanning]) (by simp) (by simp [hq]) (by simp) fun c hr => ?_
  have ht := hr.total
  have hf := hr.fill
  refine ⟨c + e.msi, ⟨?_, fun i hi'' => ?_, ?_⟩, fun y _ => ⟨[], ?_, ?_⟩⟩
  · simp only; omega
  · simp only at hi''
    show Cells.read 0#8 hbuf' i = _
    rw [h4 i hi'', hr.bytes _ (by omega)]
    congr 1; omega
  · simp only [hf]; omega
  · simp [Encoder.written, Encoder.pending]
  · simp only [Encoder.owed, Encoder.underWay, hq, List.nil_append]
    congr 1; omega

theorem encFlushBits_faithful {p : Params} {drained : List Bool} {x : List Byte} {e e' : Encoder}
    (h : Encoder.Faithful p drained x e) (hi' : e'.Inv) (hq : e.state = .flushBits)
    (he : encFlushBits p e = .ok e') : Encoder.Faithful p drained x e' := by
  have hi := h.inv
  have hfin := hi.ending (.inl hq)
  have hmsi := h.consumed hq
  obtain ⟨c, hr, ho⟩ := h.owes
  have ht := hr.total
  have hall := ho (by simp [hq]) [] (fun _ => rfl)
  have howed : e.owed p (virtualStream e.cfg.layout (x ++ [])) c = [] := by
    simp only [Encoder.owed, Encoder.underWay, hq, List.nil_append]
    refine bitsFrom_end ?_
    rw [virtualStream_length, List.append_nil]
    show e.cfg.window + x.length ≤ _
    omega
  rw [howed, List.append_nil, List.append_nil] at hall
  have hw7 := hi.wbits
  have hlen : (drained ++ e.written).length % 8 = e.wbits := by
    have := h.aligned
    rw [List.length_append, Encoder.written_length e hw7]; omega
  have href : encodeRef p e.cfg.layout x = (drained ++ e.written) ++ padding (drained ++ e.written).length := by
    unfold encodeRef
    rw [encodeTokens_bits, hall]
    rfl
  have hdone : ∀ e2 : Encoder, e2.Inv → e2.cfg = e.cfg → e2.state = .done → e2.Reads x c →
      e2.written = e.written ++ padding (drained ++ e.written).length → Encoder.Faithful p drained x e2 := by
    intro e2 i2 c2 s2 r2 w2
    refine ⟨i2, h.aligned, by simp [scanning, s2], by simp [s2], ⟨c, r2, by simp [s2]⟩, fun _ => ?_⟩
    rw [w2, c2, href, List.append_assoc]
  by_cases hw : e.wbits = 0
  · have : encFlushBits p e = .ok { e with state := .done } := by simp [encFlushBits, hw]
    rw [this] at he; injection he with he; subst he
    refine hdone _ hi' rfl rfl ⟨hr.total, hr.bytes, hr.fill⟩ ?_
    have hp : padding (drained ++ e.written).length = [] := by
      rw [padding, hlen, hw]; rfl
    rw [hp, List.append_nil]; rfl
  · by_cases hroom : e.room
    · obtain ⟨e1, p1, hz, h1⟩ := encFlushBits_spec (p := p) hi hroom (by omega)
      rw [h1] at he; injection he with he
      have hrd := p1.kept_reads hr
      have hw1 := p1.written
      have hc1 := p1.cfg
      subst he
      refine hdone _ hi' hc1 rfl ⟨hrd.total, hrd.bytes, hrd.fill⟩ ?_
      have hp : padding (drained ++ e.written).length = List.replicate (8 - e.wbits) false := by
        rw [padding, hlen, Nat.mod_eq_of_lt (by omega)]
      rw [hp]; exact hw1
    · simp only [encFlushBits, hw, if_false, hroom, not_false_eq_true, if_true] at he
      injection he with he; subst he; exact h

/-- Every handler step keeps an encoder on its way to ENCODE_REF (R158). -/
theorem encHandler_faithful {p : Params} {drained : List Bool} {x : List Byte} {e e' : Encoder}
    (h : Encoder.Faithful p drained x e) (he : encHandler e.state p e = .ok e') :
    Encoder.Faithful p drained x e' := by
  have hi' : e'.Inv := by
    obtain ⟨e2, h1, h2⟩ := encHandler_inv (p := p) h.inv
    rw [he] at h1; injection h1 with h1; rw [h1]; exact h2
  match hs : e.state with
  | .notFull =>
    rw [hs] at he
    simp only [encHandler, encNotFull] at he; injection he with he; subst he; exact h
  | .filled => rw [hs] at he; exact encFilled_faithful h hs he
  | .search => rw [hs] at he; exact encSearch_faithful h hs he
  | .yieldTagBit => rw [hs] at he; exact encYieldTagBit_faithful h hi' hs he
  | .yieldLiteral => rw [hs] at he; exact encYieldLiteral_faithful h hi' hs he
  | .yieldBrIndex => rw [hs] at he; exact encYieldBrIndex_faithful h hi' hs he
  | .yieldBrLength => rw [hs] at he; exact encYieldBrLength_faithful h hi' hs he
  | .saveBacklog => rw [hs] at he; exact encSaveBacklog_faithful h hi' hs he
  | .flushBits => rw [hs] at he; exact encFlushBits_faithful h hi' hs he
  | .done =>
    rw [hs] at he
    simp only [encHandler, encDone] at he; injection he with he; subst he; exact h

theorem encRun_faithful {p : Params} {drained : List Bool} {x : List Byte} (n : Nat) {e e' : Encoder}
    (h : Encoder.Faithful p drained x e) (he : encRun p n e = .ok e') : Encoder.Faithful p drained x e' := by
  induction n generalizing e with
  | zero => injection he with he; subst he; exact h
  | succ n ih =>
    obtain ⟨e1, h1, h2⟩ := Res.bind_ok he
    exact ih (encHandler_faithful h h1) h2

/-! ### The commands -/

/-- A constructed or reset encoder is on its way from nothing. -/
theorem Encoder.initial_faithful (p : Params) {cfg : Cfg} (h : legalEncoder cfg) :
    Encoder.Faithful p [] [] (Encoder.initial cfg) := by
  refine ⟨Encoder.initial_inv h, rfl, by simp [scanning, Encoder.initial], by simp [Encoder.initial],
    ⟨0, ⟨rfl, fun i hi => ?_, by simp [Encoder.initial]⟩, fun _ y _ => ?_⟩, by simp [Encoder.initial]⟩
  · have hi' : i < 2 ^ cfg.windowBits := hi
    have : byteAt (virtualStream cfg.layout []) (0 + i) = 0 := by
      unfold byteAt virtualStream
      rw [List.getD_eq_getElem _ _ (by simpa [Cfg.layout] using hi')]; simp
    show _ = byteAt (virtualStream cfg.layout []) (0 + i)
    rw [this]; rfl
  · simp only [Encoder.initial, Encoder.owed, Encoder.underWay, Encoder.written, Encoder.pending,
      List.range_zero, List.map_nil, List.flatMap_nil, List.take_zero, List.nil_append, Nat.zero_add,
      Nat.add_zero]

theorem encSink_faithful {p : Params} {drained : List Bool} {x data : List Byte} {e e' : Encoder} {n : Nat}
    (h : Encoder.Faithful p drained x e) (he : encSink data p e = .ok (e', .accepted n)) :
    Encoder.Faithful p drained (x ++ data.take n) e' := by
  have hi := h.inv
  have hi' := encSink_inv hi he
  by_cases ha : e.accepting
  · obtain ⟨hbuf', h1, -, -, h4, h5⟩ := encSink_spec (p := p) (data := data) hi ha
    rw [h1] at he
    injection he with he; injection he with he hn; injection hn with hn
    rw [hn] at he h4 h5
    subst he
    have hnd : n ≤ data.length := by omega
    have hlen : (data.take n).length = n := by simp [hnd]
    refine ⟨hi', h.aligned, ?_, ?_, ?_, ?_⟩
    · simp only [ha.2]; split <;> simp [scanning]
    · simp only [ha.2]; split <;> simp
    · obtain ⟨c, hr, ho⟩ := h.owes
      have ht := hr.total
      have hf := hr.fill
      refine ⟨c, ⟨?_, fun i hi'' => ?_, hf⟩, fun _ y _ => ?_⟩
      · simp only [List.length_append, hlen]; omega
      · have hl0 : (virtualStream e.cfg.layout x).length = e.cfg.window + x.length := virtualStream_length _ _
        simp only at hi''
        rw [virtualStream_append]
        show Cells.read 0#8 hbuf' i = _
        by_cases hold : i < e.cfg.window + e.inputSize
        · rw [h5 i (.inl hold), byteAt_append_left (by show _ < (virtualStream e.cfg.layout x).length; omega)]
          exact hr.bytes i hold
        · obtain ⟨k, rfl⟩ : ∃ k, i = e.cfg.window + e.inputSize + k := ⟨i - (e.cfg.window + e.inputSize), by omega⟩
          rw [h4 k (by omega)]
          unfold byteAt
          rw [List.getD_append_right _ _ _ _ (by show (virtualStream e.cfg.layout x).length ≤ _; omega)]
          have hidx : c + (e.cfg.window + e.inputSize + k) - (virtualStream e.cfg.layout x).length = k := by omega
          show _ = (data.take n).getD (c + (e.cfg.window + e.inputSize + k) - (virtualStream e.cfg.layout x).length) 0
          rw [hidx]
          have hk : k < n := by omega
          rw [List.getD_eq_getElem _ _ (by omega), List.getD_eq_getElem _ _ (by omega)]
          simp
      · have hold := ho (by simp [ha.2]) (data.take n ++ y) (by simp [ha.1])
        rw [← List.append_assoc] at hold
        have hw : ∀ q, ({ e with hbuf := hbuf', inputSize := e.inputSize + n, state := q } : Encoder).written =
            e.written := fun _ => rfl
        rw [hw]
        have howed : ∀ v q, (q = .filled ∨ q = .notFull) →
            ({ e with hbuf := hbuf', inputSize := e.inputSize + n, state := q } : Encoder).owed p v c =
              e.owed p v c := by
          intro v q hq
          rcases hq with rfl | rfl <;> simp [Encoder.owed, Encoder.underWay, ha.2]
        rw [howed _ _ (by simp only [ha.2]; split <;> simp)]
        exact hold
    · simp only [ha.2]; split <;> simp
  · simp only [encSink, ha, not_false_eq_true, if_true] at he
    injection he with he; injection he with _ hn; cases hn

theorem Encoder.setFinishing_faithful {p : Params} {drained : List Bool} {x : List Byte} {e : Encoder}
    (h : Encoder.Faithful p drained x e) : Encoder.Faithful p drained x (Encoder.setFinishing e) := by
  have hi' := Encoder.setFinishing_inv h.inv
  obtain ⟨c, hr, ho⟩ := h.owes
  by_cases hq : e.state = .notFull
  · unfold Encoder.setFinishing at hi' ⊢
    rw [if_pos hq] at hi' ⊢
    refine ⟨hi', h.aligned, by simp [scanning], by simp, ⟨c, ⟨hr.total, hr.bytes, hr.fill⟩, fun _ y hy => ?_⟩,
      by simp⟩
    have := ho (by simp [hq]) y (fun _ => hy rfl)
    have ho2 : ∀ v, ({ e with finishing := true, state := .filled } : Encoder).owed p v c = e.owed p v c := by
      intro v; simp [Encoder.owed, Encoder.underWay, hq]
    rw [ho2]; exact this
  · unfold Encoder.setFinishing at hi' ⊢
    rw [if_neg hq] at hi' ⊢
    refine ⟨hi', h.aligned, h.linked, h.consumed, ⟨c, ⟨hr.total, hr.bytes, hr.fill⟩, fun hd y hy => ?_⟩,
      h.complete⟩
    exact ho hd y (fun _ => hy rfl)

theorem Encoder.takeAll_faithful {p : Params} {drained : List Bool} {x : List Byte} {e : Encoder}
    (h : Encoder.Faithful p drained x e) :
    Encoder.Faithful p (drained ++ e.pending.flatMap byteBits) x { e with outSize := 0 } := by
  have hw : ({ e with outSize := 0 } : Encoder).written = (byteBits e.acc).take e.wbits := by
    simp [Encoder.written, Encoder.pending]
  have hsum : drained ++ e.pending.flatMap byteBits ++ ({ e with outSize := 0 } : Encoder).written =
      drained ++ e.written := by
    rw [hw, List.append_assoc]; rfl
  have hlen : (e.pending.flatMap byteBits).length % 8 = 0 := by
    have := Encoder.written_length e h.inv.wbits
    simp only [Encoder.written, List.length_append, List.length_take, byteBits_length] at this
    have := h.inv.wbits
    omega
  obtain ⟨c, hr, ho⟩ := h.owes
  refine ⟨Encoder.drained_inv h.inv, ?_, h.linked, h.consumed,
    ⟨c, ⟨hr.total, hr.bytes, hr.fill⟩, fun hd y hy => ?_⟩, fun hd => ?_⟩
  · have := h.aligned
    rw [List.length_append]; omega
  · rw [hsum]; exact ho hd y hy
  · rw [hsum]; exact h.complete hd

end Sys2Proof.Machine
end

