-- ==== Sys2Proof/Laws/Frames.lean ====
section
/-! SUPPORT. What the primitives, the handlers and the commands never change, in any state at all: the
configuration and the finishing flag (R22, R30), and where the state registers can go (R157, R194). -/

namespace Sys2Proof.Machine

/-! ### Encoder -/

/-- CFG and E.finishing are the same. -/
structure Encoder.Same (e e' : Encoder) : Prop where
  cfg : e'.cfg = e.cfg
  finishing : e'.finishing = e.finishing

theorem Encoder.Same.refl (e : Encoder) : Encoder.Same e e := ⟨rfl, rfl⟩

theorem Encoder.Same.trans {e e' e'' : Encoder} (h : Encoder.Same e e') (h' : Encoder.Same e' e'') :
    Encoder.Same e e'' := ⟨h'.cfg.trans h.cfg, h'.finishing.trans h.finishing⟩

theorem pushBit_same {b : Bool} {e e' : Encoder} (h : Encoder.pushBit b e = .ok e') :
    Encoder.Same e e' ∧ e'.state = e.state := by
  unfold Encoder.pushBit at h
  obtain ⟨place, h1, h2⟩ := Res.bind_ok h
  simp only at h2
  split at h2
  · obtain ⟨out, h3, h4⟩ := Res.bind_ok h2
    cases h4; exact ⟨⟨rfl, rfl⟩, rfl⟩
  · cases h2; exact ⟨⟨rfl, rfl⟩, rfl⟩

theorem pushBits_same {count bits : Nat} {e e' : Encoder} (h : Encoder.pushBits count bits e = .ok e') :
    Encoder.Same e e' ∧ e'.state = e.state := by
  induction count generalizing e with
  | zero => cases h; exact ⟨.refl _, rfl⟩
  | succ count ih =>
    obtain ⟨e1, h1, h2⟩ := Res.bind_ok h
    obtain ⟨a, b⟩ := pushBit_same h1
    obtain ⟨c, d⟩ := ih h2
    exact ⟨a.trans c, d.trans b⟩

theorem pushOutgoing_same {n : Nat} {e e' : Encoder} (h : Encoder.pushOutgoing e = .ok (n, e')) :
    Encoder.Same e e' ∧ e'.state = e.state := by
  unfold Encoder.pushOutgoing at h
  split at h
  · obtain ⟨e1, h1, h2⟩ := Res.bind_ok h
    cases h2
    obtain ⟨a, b⟩ := pushBits_same h1
    exact ⟨⟨a.cfg, a.finishing⟩, b⟩
  · cases h; exact ⟨.refl _, rfl⟩

/-- A handler step keeps CFG and E.finishing and follows an edge of R157. -/
theorem encHandler_same {p : Params} {e e' : Encoder} (h : encHandler e.state p e = .ok e') :
    Encoder.Same e e' ∧ encEdge e.state e'.state = true := by
  cases hq : e.state <;> rw [hq] at h
  case notFull => cases h; exact ⟨.refl _, by rw [hq]; rfl⟩
  case done => cases h; exact ⟨.refl _, by rw [hq]; rfl⟩
  case filled =>
    obtain ⟨e1, h1, h2⟩ := Res.bind_ok h
    obtain ⟨index, -, h4⟩ := Res.bind_ok h1
    cases h4; cases h2; exact ⟨⟨rfl, rfl⟩, rfl⟩
  case search =>
    simp only [encHandler, encSearch] at h
    split at h
    · cases h
      refine ⟨⟨rfl, rfl⟩, ?_⟩
      simp only [Encoder.afterBatch]; split <;> rfl
    · obtain ⟨lo, -, h2⟩ := Res.bind_ok h
      obtain ⟨left, -, h4⟩ := Res.bind_ok h2
      obtain ⟨found, -, h6⟩ := Res.bind_ok h4
      unfold Encoder.decide at h6
      split at h6
      · split at h6
        · obtain ⟨dist, -, h8⟩ := Res.bind_ok h6
          cases h8; exact ⟨⟨rfl, rfl⟩, rfl⟩
        · cases h6; exact ⟨⟨rfl, rfl⟩, rfl⟩
      · cases h6; exact ⟨⟨rfl, rfl⟩, rfl⟩
  case yieldTagBit =>
    simp only [encHandler, encYieldTagBit] at h
    split at h
    · cases h; exact ⟨.refl _, by rw [hq]; rfl⟩
    · split at h
      · obtain ⟨e1, h1, h2⟩ := Res.bind_ok h
        obtain ⟨a, -⟩ := pushBits_same h1
        cases h2; exact ⟨⟨a.cfg, a.finishing⟩, rfl⟩
      · obtain ⟨e1, h1, h2⟩ := Res.bind_ok h
        obtain ⟨a, -⟩ := pushBits_same h1
        obtain ⟨field, -, h4⟩ := Res.bind_ok h2
        cases h4; exact ⟨⟨a.cfg, a.finishing⟩, rfl⟩
  case yieldLiteral =>
    simp only [encHandler, encYieldLiteral] at h
    split at h
    · cases h; exact ⟨.refl _, by rw [hq]; rfl⟩
    · obtain ⟨i, -, h2⟩ := Res.bind_ok h
      obtain ⟨b, -, h4⟩ := Res.bind_ok h2
      obtain ⟨e1, h5, h6⟩ := Res.bind_ok h4
      obtain ⟨a, -⟩ := pushBits_same h5
      cases h6; exact ⟨⟨a.cfg, a.finishing⟩, rfl⟩
  case yieldBrIndex =>
    simp only [encHandler, encYieldBrIndex] at h
    split at h
    · cases h; exact ⟨.refl _, by rw [hq]; rfl⟩
    · obtain ⟨⟨n, e1⟩, h1, h2⟩ := Res.bind_ok h
      obtain ⟨a, b⟩ := pushOutgoing_same h1
      simp only at h2
      split at h2
      · cases h2; exact ⟨a, by rw [b, hq]; rfl⟩
      · obtain ⟨field, -, h4⟩ := Res.bind_ok h2
        cases h4; exact ⟨⟨a.cfg, a.finishing⟩, rfl⟩
  case yieldBrLength =>
    simp only [encHandler, encYieldBrLength] at h
    split at h
    · cases h; exact ⟨.refl _, by rw [hq]; rfl⟩
    · obtain ⟨⟨n, e1⟩, h1, h2⟩ := Res.bind_ok h
      obtain ⟨a, b⟩ := pushOutgoing_same h1
      simp only at h2
      split at h2
      · cases h2; exact ⟨a, by rw [b, hq]; rfl⟩
      · cases h2; exact ⟨⟨a.cfg, a.finishing⟩, rfl⟩
  case saveBacklog =>
    obtain ⟨left, -, h2⟩ := Res.bind_ok h
    obtain ⟨hbuf, -, h4⟩ := Res.bind_ok h2
    cases h4; exact ⟨⟨rfl, rfl⟩, rfl⟩
  case flushBits =>
    simp only [encHandler, encFlushBits] at h
    split at h
    · cases h; exact ⟨⟨rfl, rfl⟩, rfl⟩
    · split at h
      · cases h; exact ⟨.refl _, by rw [hq]; rfl⟩
      · obtain ⟨e1, h1, h2⟩ := Res.bind_ok h
        unfold Encoder.flushBits at h1
        split at h1
        · obtain ⟨out, -, h4⟩ := Res.bind_ok h1
          cases h4; cases h2; exact ⟨⟨rfl, rfl⟩, rfl⟩
        · cases h1; cases h2; exact ⟨⟨rfl, rfl⟩, rfl⟩

theorem encPollLoop_same {p : Params} (fuel : Nat) {e e' : Encoder} {r : Result}
    (h : encPollLoop p fuel e = .ok (e', r)) : Encoder.Same e e' := by
  induction fuel generalizing e with
  | zero => cases h
  | succ fuel ih =>
    unfold encPollLoop at h
    split at h
    · cases h; exact .refl _
    · obtain ⟨e1, h1, h2⟩ := Res.bind_ok h
      have a := (encHandler_same h1).1
      split at h2
      · cases h2; exact a
      · exact a.trans (ih h2)

/-- SINK keeps CFG and E.finishing, and leaves NOT_FULL only with a full batch (R142). -/
theorem encSink_same {p : Params} {data : List Byte} {e e' : Encoder} {r : Result}
    (h : encSink data p e = .ok (e', r)) : Encoder.Same e e' ∧
      (e'.state = e.state ∨ e.state = .notFull ∧ e'.state = .filled ∧ e'.inputSize = e'.cfg.ibs) := by
  unfold encSink at h
  by_cases ha : e.accepting
  · rw [if_neg (not_not_intro ha)] at h
    obtain ⟨space, h1, h2⟩ := Res.bind_ok h
    obtain ⟨hbuf, -, h4⟩ := Res.bind_ok h2
    obtain ⟨m1, m2⟩ := minus_ok h1
    cases h4
    refine ⟨⟨rfl, rfl⟩, ?_⟩
    simp only
    split
    · exact .inr ⟨ha.2, rfl, by omega⟩
    · exact .inl rfl
  · rw [if_pos ha] at h
    cases h; exact ⟨.refl _, .inl rfl⟩

theorem encDrain_same {p : Params} {e e' : Encoder} {r : Result} (h : encDrain p e = .ok (e', r)) :
    e' = { e with outSize := 0 } := by
  obtain ⟨⟨bytes, e1⟩, h1, h2⟩ := Res.bind_ok h
  obtain ⟨bytes', -, h4⟩ := Res.bind_ok h1
  cases h4; cases h2; rfl

/-! ### Decoder -/

/-- CFG and D.state are the same. -/
structure Decoder.Same (d d' : Decoder) : Prop where
  cfg : d'.cfg = d.cfg
  state : d'.state = d.state

theorem Decoder.Same.refl (d : Decoder) : Decoder.Same d d := ⟨rfl, rfl⟩

theorem Decoder.Same.trans {d d' d'' : Decoder} (h : Decoder.Same d d') (h' : Decoder.Same d' d'') :
    Decoder.Same d d'' := ⟨h'.cfg.trans h.cfg, h'.state.trans h.state⟩

theorem readByte_same {d d' : Decoder} {b : Byte} (h : Decoder.readByte d = .ok (b, d')) :
    Decoder.Same d d' := by
  obtain ⟨v, -, h2⟩ := Res.bind_ok h
  cases h2
  unfold Decoder.resetIfDrained
  split <;> exact ⟨rfl, rfl⟩

theorem takeBits_same (n acc : Nat) {d d' : Decoder} {v : Nat} (h : Decoder.takeBits n acc d = .ok (v, d')) :
    Decoder.Same d d' := by
  induction n generalizing acc d with
  | zero => cases h; exact .refl _
  | succ n ih =>
    obtain ⟨⟨b, d1⟩, h1, h2⟩ := Res.bind_ok h
    obtain ⟨d2, h3, h4⟩ := Res.bind_ok h1
    refine Decoder.Same.trans ?_ (ih _ h2)
    cases h4
    unfold Decoder.refill at h3
    split at h3
    · obtain ⟨⟨c, d3⟩, h5, h6⟩ := Res.bind_ok h3
      have := readByte_same h5
      cases h6; exact ⟨this.cfg, this.state⟩
    · cases h3; exact ⟨rfl, rfl⟩

theorem getBits_same {n v : Nat} {d d' : Decoder} (h : Decoder.getBits n d = .ok (some (v, d'))) :
    Decoder.Same d d' := by
  unfold Decoder.getBits at h
  split at h
  · cases h
  · obtain ⟨whole, -, h2⟩ := Res.bind_ok h
    split at h2
    · cases h2
    · obtain ⟨⟨v', d1⟩, h3, h4⟩ := Res.bind_ok h2
      cases h4; exact takeBits_same _ _ h3

/-- A field read stalls with nothing changed, or goes on from a decoder with the same CFG and state. -/
theorem readField_same {n : Nat} {use : Nat → Decoder → Res Decoder} {d d' : Decoder}
    (h : Decoder.readField n use d = .ok d') :
    d' = d ∨ ∃ v d1, Decoder.Same d d1 ∧ use v d1 = .ok d' := by
  obtain ⟨r, h1, h2⟩ := Res.bind_ok h
  match r with
  | none => cases h2; exact .inl rfl
  | some (v, d1) => exact .inr ⟨v, d1, getBits_same h1, h2⟩

theorem windowPush_same {c : Byte} {d d' : Decoder} (h : Decoder.windowPush c d = .ok d') :
    Decoder.Same d d' := by
  obtain ⟨win, -, h2⟩ := Res.bind_ok h
  cases h2; exact ⟨rfl, rfl⟩

theorem emitByte_same {c : Byte} {d d' : Decoder} (h : Decoder.emitByte c d = .ok d') :
    Decoder.Same d d' := by
  obtain ⟨out, -, h2⟩ := Res.bind_ok h
  cases h2; exact ⟨rfl, rfl⟩

theorem copyBytes_same (n : Nat) {d d' : Decoder} (h : Decoder.copyBytes n d = .ok d') :
    Decoder.Same d d' := by
  induction n generalizing d with
  | zero => cases h; exact .refl _
  | succ n ih =>
    obtain ⟨⟨c, d1⟩, h1, h2⟩ := Res.bind_ok h
    obtain ⟨d2, h3, h4⟩ := Res.bind_ok h2
    obtain ⟨c', -, h6⟩ := Res.bind_ok h1
    obtain ⟨d3, h7, h8⟩ := Res.bind_ok h6
    cases h8
    exact (windowPush_same h7).trans ((emitByte_same h3).trans (ih h4))

/-- A handler step keeps CFG and follows an edge of R194. -/
theorem decHandler_same {d d' : Decoder} (h : decHandler d.state d = .ok d') :
    d'.cfg = d.cfg ∧ decEdge d.cfg d.state d'.state = true := by
  have stall : ∀ {q : DecState}, d.state = q → decEdge d.cfg q d.state = true := by
    intro q hq; rw [hq]; cases q <;> simp [decEdge]
  cases hq : d.state <;> rw [hq] at h
  case tagBit =>
    rcases readField_same h with rfl | ⟨v, d1, s, e⟩
    · exact ⟨rfl, stall hq⟩
    · unfold tagBitRead at e
      split at e
      · cases e; exact ⟨s.cfg, by simp [decEdge]⟩
      · split at e <;> cases e
        · exact ⟨s.cfg, by rename_i hw; rw [s.cfg] at hw; simp [decEdge, hw]⟩
        · exact ⟨s.cfg, by rename_i hw; rw [s.cfg] at hw; simp [decEdge, hw]⟩
  case yieldLiteral =>
    simp only [decHandler, decYieldLiteral] at h
    split at h
    · cases h; exact ⟨rfl, stall hq⟩
    · rcases readField_same h with rfl | ⟨v, d1, s, e⟩
      · exact ⟨rfl, stall hq⟩
      · obtain ⟨d2, h2, h3⟩ := Res.bind_ok e
        obtain ⟨d3, h4, h5⟩ := Res.bind_ok h3
        cases h5
        exact ⟨(s.trans ((windowPush_same h2).trans (emitByte_same h4))).cfg, by simp [decEdge]⟩
  case backrefIndexMsb =>
    obtain ⟨n, -, h2⟩ := Res.bind_ok h
    rcases readField_same h2 with rfl | ⟨v, d1, s, e⟩
    · exact ⟨rfl, stall hq⟩
    · cases e; exact ⟨s.cfg, by simp [decEdge]⟩
  case backrefIndexLsb =>
    rcases readField_same h with rfl | ⟨v, d1, s, e⟩
    · exact ⟨rfl, stall hq⟩
    · cases e; exact ⟨s.cfg, by simp [decEdge, s.cfg]⟩
  case backrefCountMsb =>
    obtain ⟨n, -, h2⟩ := Res.bind_ok h
    rcases readField_same h2 with rfl | ⟨v, d1, s, e⟩
    · exact ⟨rfl, stall hq⟩
    · cases e; exact ⟨s.cfg, by simp [decEdge]⟩
  case backrefCountLsb =>
    rcases readField_same h with rfl | ⟨v, d1, s, e⟩
    · exact ⟨rfl, stall hq⟩
    · cases e; exact ⟨s.cfg, by simp [decEdge]⟩
  case yieldBackref =>
    obtain ⟨space, -, h2⟩ := Res.bind_ok h
    simp only at h2
    split at h2
    · cases h2; exact ⟨rfl, stall hq⟩
    · obtain ⟨d1, h3, h4⟩ := Res.bind_ok h2
      have s := copyBytes_same _ h3
      cases h4
      refine ⟨s.cfg, ?_⟩
      simp only [s.state, hq]
      split <;> simp [decEdge]

theorem decPollLoop_same (fuel : Nat) {d d' : Decoder} {r : Result}
    (h : decPollLoop fuel d = .ok (d', r)) : d'.cfg = d.cfg := by
  induction fuel generalizing d with
  | zero => cases h
  | succ fuel ih =>
    obtain ⟨d1, h1, h2⟩ := Res.bind_ok h
    have a := (decHandler_same h1).1
    split at h2
    · cases h2; exact a
    · exact (ih h2).trans a

end Sys2Proof.Machine
end

