-- ==== Sys2Proof/Laws/Exec.lean ====
section
/-! SUPPORT. What an instruction that answers a next state has done, said once for all 31, and that a
wire token leaves CFG as it is. -/

namespace Sys2Proof.Machine

/-- What an instruction that answers a next state has done: a CONSTRUCT, a command on an instance, a
handler step in its state, or a token. -/
inductive ExecShape (i : Instr) (s t : State) : Prop where
  | encC (w l ibs obs : Nat) (hi : i = .encConstruct w l ibs obs) (e : Option Encoder) (r : Result) (ht : t = (s.setEnc e).respond .encoder r)
      (he : ∀ x, e = some x → x = Encoder.initial x.cfg)
  | decC (w l ibs obs : Nat) (hi : i = .decConstruct w l ibs obs) (e : Option Decoder) (r : Result) (ht : t = (s.setDec e).respond .decoder r)
      (he : ∀ x, e = some x → x = Decoder.initial x.cfg)
  | encCmd (e e' : Encoder) (r : Result) (he : s.enc = some e) (ht : t = (s.setEnc (some e')).respond .encoder r) (hc : commandOf .encoder i = true)
      (h : (i = .encReset ∧ encReset s.params e = .ok (e', r)) ∨ (∃ d, i = .encSink d ∧ encSink d s.params e = .ok (e', r)) ∨
        (i = .encPoll ∧ encPoll s.params e = .ok (e', r)) ∨ (i = .encDrain ∧ encDrain s.params e = .ok (e', r)) ∨ (i = .encFinish ∧ encFinish s.params e = .ok (e', r)))
  | decCmd (e e' : Decoder) (r : Result) (he : s.dec = some e) (ht : t = (s.setDec (some e')).respond .decoder r) (hc : commandOf .decoder i = true)
      (h : (i = .decReset ∧ decReset s.params e = .ok (e', r)) ∨ (∃ d, i = .decSink d ∧ decSink d s.params e = .ok (e', r)) ∨
        (i = .decPoll ∧ decPoll s.params e = .ok (e', r)) ∨ (i = .decDrain ∧ decDrain s.params e = .ok (e', r)) ∨ (i = .decFinish ∧ decFinish s.params e = .ok (e', r)))
  | encS (q : EncState) (hi : i = q.instr) (e e' : Encoder) (he : s.enc = some e) (hq : e.state = q) (h : encHandler q s.params e = .ok e') (ht : t = s.setEnc (some e'))
  | decS (q : DecState) (hi : i = q.instr) (e e' : Decoder) (he : s.dec = some e) (hq : e.state = q) (h : decHandler q e = .ok e') (ht : t = s.setDec (some e'))
  | tok (d d' : Decoder) (hd : s.dec = some d) (hi : (∃ b, i = .lit b ∧ consumeLit b d = .ok d') ∨ (∃ a n, i = .bref a n ∧ consumeBref (a-1) (n-1) d = .ok d')) (ht : t = s.setDec (some d'))

/-- Every next state of exec is one of these. -/
theorem exec_shape {i : Instr} {s t : State} (h : exec i s = .next t) : ExecShape i s t := by
  cases i
  case encConstruct w l ibs obs =>
    simp only [exec, execEncConstruct] at h
    split at h <;> (injection h with h; subst h)
    · exact .encC _ _ _ _ rfl _ _ rfl (by rintro x ⟨⟩; rfl)
    · exact .encC _ _ _ _ rfl _ _ rfl (by rintro x ⟨⟩)
  case decConstruct w l ibs obs =>
    simp only [exec, execDecConstruct] at h
    split at h <;> (injection h with h; subst h)
    · exact .decC _ _ _ _ rfl _ _ rfl (by rintro x ⟨⟩; rfl)
    · exact .decC _ _ _ _ rfl _ _ rfl (by rintro x ⟨⟩)
  case lit b =>
    simp only [exec, execLit] at h
    obtain ⟨d, d', h1, -, h2, rfl⟩ := onToken_next h
    exact .tok d d' h1 (.inl ⟨_, rfl, h2⟩) rfl
  case bref a n =>
    simp only [exec, execBref] at h
    split at h
    · obtain ⟨d, d', h1, -, h2, rfl⟩ := onToken_next h
      exact .tok d d' h1 (.inr ⟨_, _, rfl, h2⟩) rfl
    · cases h
  case encReset => simp only [exec, execEncReset] at h; obtain ⟨e, e', r, h1, h2, h3⟩ := encCommand_next h; exact .encCmd e e' r h1 h3 rfl (by simp [h2])
  case encSink => simp only [exec, execEncSink] at h; obtain ⟨e, e', r, h1, h2, h3⟩ := encCommand_next h; exact .encCmd e e' r h1 h3 rfl (by simp [h2])
  case encPoll => simp only [exec, execEncPoll] at h; obtain ⟨e, e', r, h1, h2, h3⟩ := encCommand_next h; exact .encCmd e e' r h1 h3 rfl (by simp [h2])
  case encDrain => simp only [exec, execEncDrain] at h; obtain ⟨e, e', r, h1, h2, h3⟩ := encCommand_next h; exact .encCmd e e' r h1 h3 rfl (by simp [h2])
  case encFinish => simp only [exec, execEncFinish] at h; obtain ⟨e, e', r, h1, h2, h3⟩ := encCommand_next h; exact .encCmd e e' r h1 h3 rfl (by simp [h2])
  case decReset => simp only [exec, execDecReset] at h; obtain ⟨e, e', r, h1, h2, h3⟩ := decCommand_next h; exact .decCmd e e' r h1 h3 rfl (by simp [h2])
  case decSink => simp only [exec, execDecSink] at h; obtain ⟨e, e', r, h1, h2, h3⟩ := decCommand_next h; exact .decCmd e e' r h1 h3 rfl (by simp [h2])
  case decPoll => simp only [exec, execDecPoll] at h; obtain ⟨e, e', r, h1, h2, h3⟩ := decCommand_next h; exact .decCmd e e' r h1 h3 rfl (by simp [h2])
  case decDrain => simp only [exec, execDecDrain] at h; obtain ⟨e, e', r, h1, h2, h3⟩ := decCommand_next h; exact .decCmd e e' r h1 h3 rfl (by simp [h2])
  case decFinish => simp only [exec, execDecFinish] at h; obtain ⟨e, e', r, h1, h2, h3⟩ := decCommand_next h; exact .decCmd e e' r h1 h3 rfl (by simp [h2])
  case encStepNotFull => obtain ⟨e, e', h1, hq, h2, h3⟩ := encStep_next (q := .notFull) (f := encHandler .notFull) h; exact .encS .notFull rfl e e' h1 hq h2 h3
  case encStepFilled => obtain ⟨e, e', h1, hq, h2, h3⟩ := encStep_next (q := .filled) (f := encHandler .filled) h; exact .encS .filled rfl e e' h1 hq h2 h3
  case encStepSearch => obtain ⟨e, e', h1, hq, h2, h3⟩ := encStep_next (q := .search) (f := encHandler .search) h; exact .encS .search rfl e e' h1 hq h2 h3
  case encStepYieldTagBit => obtain ⟨e, e', h1, hq, h2, h3⟩ := encStep_next (q := .yieldTagBit) (f := encHandler .yieldTagBit) h; exact .encS .yieldTagBit rfl e e' h1 hq h2 h3
  case encStepYieldLiteral => obtain ⟨e, e', h1, hq, h2, h3⟩ := encStep_next (q := .yieldLiteral) (f := encHandler .yieldLiteral) h; exact .encS .yieldLiteral rfl e e' h1 hq h2 h3
  case encStepYieldBrIndex => obtain ⟨e, e', h1, hq, h2, h3⟩ := encStep_next (q := .yieldBrIndex) (f := encHandler .yieldBrIndex) h; exact .encS .yieldBrIndex rfl e e' h1 hq h2 h3
  case encStepYieldBrLength => obtain ⟨e, e', h1, hq, h2, h3⟩ := encStep_next (q := .yieldBrLength) (f := encHandler .yieldBrLength) h; exact .encS .yieldBrLength rfl e e' h1 hq h2 h3
  case encStepSaveBacklog => obtain ⟨e, e', h1, hq, h2, h3⟩ := encStep_next (q := .saveBacklog) (f := encHandler .saveBacklog) h; exact .encS .saveBacklog rfl e e' h1 hq h2 h3
  case encStepFlushBits => obtain ⟨e, e', h1, hq, h2, h3⟩ := encStep_next (q := .flushBits) (f := encHandler .flushBits) h; exact .encS .flushBits rfl e e' h1 hq h2 h3
  case encStepDone => obtain ⟨e, e', h1, hq, h2, h3⟩ := encStep_next (q := .done) (f := encHandler .done) h; exact .encS .done rfl e e' h1 hq h2 h3
  case decStepTagBit => obtain ⟨e, e', h1, hq, h2, h3⟩ := decStep_next (q := .tagBit) (f := decHandler .tagBit) h; exact .decS .tagBit rfl e e' h1 hq h2 h3
  case decStepYieldLiteral => obtain ⟨e, e', h1, hq, h2, h3⟩ := decStep_next (q := .yieldLiteral) (f := decHandler .yieldLiteral) h; exact .decS .yieldLiteral rfl e e' h1 hq h2 h3
  case decStepBackrefIndexMsb => obtain ⟨e, e', h1, hq, h2, h3⟩ := decStep_next (q := .backrefIndexMsb) (f := decHandler .backrefIndexMsb) h; exact .decS .backrefIndexMsb rfl e e' h1 hq h2 h3
  case decStepBackrefIndexLsb => obtain ⟨e, e', h1, hq, h2, h3⟩ := decStep_next (q := .backrefIndexLsb) (f := decHandler .backrefIndexLsb) h; exact .decS .backrefIndexLsb rfl e e' h1 hq h2 h3
  case decStepBackrefCountMsb => obtain ⟨e, e', h1, hq, h2, h3⟩ := decStep_next (q := .backrefCountMsb) (f := decHandler .backrefCountMsb) h; exact .decS .backrefCountMsb rfl e e' h1 hq h2 h3
  case decStepBackrefCountLsb => obtain ⟨e, e', h1, hq, h2, h3⟩ := decStep_next (q := .backrefCountLsb) (f := decHandler .backrefCountLsb) h; exact .decS .backrefCountLsb rfl e e' h1 hq h2 h3
  case decStepYieldBackref => obtain ⟨e, e', h1, hq, h2, h3⟩ := decStep_next (q := .yieldBackref) (f := decHandler .yieldBackref) h; exact .decS .yieldBackref rfl e e' h1 hq h2 h3

theorem feedField_cfg {n v use next} {d d' : Decoder} (h : feedField n v use next d = .ok d') (hu : ∀ a b, use v a = .ok b → b.cfg = a.cfg) (hn : ∀ a b, next a = .ok b → b.cfg = a.cfg) : d'.cfg = d.cfg := by
  obtain ⟨r, h1, h2⟩ := Res.bind_ok h
  match r with
  | none => cases h2; rfl
  | some (v, d1) =>
    obtain ⟨d2, h3, h4⟩ := Res.bind_ok h2
    rw [hn _ _ h4, hu _ _ h3, (getBits_same h1).cfg]

theorem tagBitRead_cfg {v} {a b : Decoder} (h : tagBitRead v a = .ok b) : b.cfg = a.cfg := by
  unfold tagBitRead at h; split at h
  · cases h; rfl
  · split at h <;> cases h <;> rfl

theorem literalRead_cfg {v} {a b : Decoder} (h : literalRead v a = .ok b) : b.cfg = a.cfg := by
  obtain ⟨d2, h2, h3⟩ := Res.bind_ok h
  obtain ⟨d3, h4, h5⟩ := Res.bind_ok h3
  cases h5
  exact ((windowPush_same h2).trans (emitByte_same h4)).cfg

theorem decYieldBackref_cfg {d d' : Decoder} (h : decYieldBackref d = .ok d') : d'.cfg = d.cfg := by
    obtain ⟨space, -, h2⟩ := Res.bind_ok h
    split at h2
    · cases h2; rfl
    · obtain ⟨d1, h3, h4⟩ := Res.bind_ok h2
      have s := copyBytes_same _ h3
      cases h4; exact s.cfg

theorem consumeLit_cfg {b} {d d' : Decoder} (h : consumeLit b d = .ok d') : d'.cfg = d.cfg := by
  refine feedField_cfg h (fun a b h => tagBitRead_cfg h) ?_
  intro a b h
  split at h
  · cases h; rfl
  · exact feedField_cfg h (fun a b h => literalRead_cfg h) (by intro a b h; cases h; rfl)

theorem consumeBref_cfg {x n} {d d' : Decoder} (h : consumeBref x n d = .ok d') : d'.cfg = d.cfg := by
  refine feedField_cfg h (fun a b h => tagBitRead_cfg h) ?_
  have hl : ∀ a b, consumeLength n a = .ok b → b.cfg = a.cfg := by
    intro a b h
    unfold consumeLength at h
    simp only at h
    split at h
    · refine feedField_cfg h (by intro a b h; cases h; rfl) (fun a b h => feedField_cfg h (by intro a b h; cases h; rfl) (fun a b h => decYieldBackref_cfg h))
    · exact feedField_cfg h (by intro a b h; cases h; rfl) (fun a b h => decYieldBackref_cfg h)
  intro a b h
  unfold consumeDistance at h
  simp only at h
  split at h
  · refine feedField_cfg h (by intro a b h; cases h; rfl) (fun a b h => feedField_cfg h (by intro a b h; cases h; rfl) hl)
  · exact feedField_cfg h (by intro a b h; cases h; rfl) hl

/-- A step row's meaning is the handler of its state, run in that state. -/
theorem exec_encStep (q : EncState) (s : State) : exec q.instr s = encStep q (encHandler q) s := by
  cases q <;> rfl

/-- A step row's meaning is the handler of its state, run in that state. -/
theorem exec_decStep (q : DecState) (s : State) : exec q.instr s = decStep q (decHandler q) s := by
  cases q <;> rfl

end Sys2Proof.Machine
end

