-- ==== Sys2Proof/Laws/PerInstr.lean ====
section
/-! SUPPORT. Statements made per instruction. The family TableRow: the encoding of an instruction is
selected by its row of spec/opcode_table.json, that is, by the row's group of R99 and its match value. -/

namespace Sys2Proof.Laws

/-- The group of R99 and the value by which an encoded instruction is selected there: 0 a wire token by
its first bit, 1 an encoder state code, 2 a decoder state code, 3 an encoder command word, 4 a decoder
command word. -/
def selector : Code → Nat × Nat
  | .token [] => (0, 2)
  | .token (tag :: _) => (0, tag.toNat)
  | .encState code => (1, code.toNat)
  | .decState code => (2, code.toNat)
  | .command word _ => (if word.getLsbD 7 then 4 else 3, word.toNat)

/-- The row of an instruction as the table writes it: its group and its match value. -/
def row : Instr → Nat × Nat
  | .lit _ => (0, 1)
  | .bref _ _ => (0, 0)
  | .encStepNotFull => (1, 0)
  | .encStepFilled => (1, 1)
  | .encStepSearch => (1, 2)
  | .encStepYieldTagBit => (1, 3)
  | .encStepYieldLiteral => (1, 4)
  | .encStepYieldBrIndex => (1, 5)
  | .encStepYieldBrLength => (1, 6)
  | .encStepSaveBacklog => (1, 7)
  | .encStepFlushBits => (1, 8)
  | .encStepDone => (1, 9)
  | .decStepTagBit => (2, 0)
  | .decStepYieldLiteral => (2, 1)
  | .decStepBackrefIndexMsb => (2, 2)
  | .decStepBackrefIndexLsb => (2, 3)
  | .decStepBackrefCountMsb => (2, 4)
  | .decStepBackrefCountLsb => (2, 5)
  | .decStepYieldBackref => (2, 6)
  | .encConstruct _ _ _ _ => (3, 0)
  | .encReset => (3, 1)
  | .encSink _ => (3, 2)
  | .encPoll => (3, 3)
  | .encDrain => (3, 4)
  | .encFinish => (3, 5)
  | .decConstruct _ _ _ _ => (4, 128)
  | .decReset => (4, 129)
  | .decSink _ => (4, 130)
  | .decPoll => (4, 131)
  | .decDrain => (4, 132)
  | .decFinish => (4, 133)

/-- The encoding is selected by the instruction's row, under every layout. -/
def TableRow.Statement (i : Instr) : Prop := ∀ ly : Layout, selector (encode ly i) = row i

theorem TableRow.lit (b : Byte) : TableRow.Statement (.lit b) := fun _ => rfl
theorem TableRow.bref (d n : Nat) : TableRow.Statement (.bref d n) := fun _ => rfl
theorem TableRow.encStepNotFull : TableRow.Statement .encStepNotFull := fun _ => rfl
theorem TableRow.encStepFilled : TableRow.Statement .encStepFilled := fun _ => rfl
theorem TableRow.encStepSearch : TableRow.Statement .encStepSearch := fun _ => rfl
theorem TableRow.encStepYieldTagBit : TableRow.Statement .encStepYieldTagBit := fun _ => rfl
theorem TableRow.encStepYieldLiteral : TableRow.Statement .encStepYieldLiteral := fun _ => rfl
theorem TableRow.encStepYieldBrIndex : TableRow.Statement .encStepYieldBrIndex := fun _ => rfl
theorem TableRow.encStepYieldBrLength : TableRow.Statement .encStepYieldBrLength := fun _ => rfl
theorem TableRow.encStepSaveBacklog : TableRow.Statement .encStepSaveBacklog := fun _ => rfl
theorem TableRow.encStepFlushBits : TableRow.Statement .encStepFlushBits := fun _ => rfl
theorem TableRow.encStepDone : TableRow.Statement .encStepDone := fun _ => rfl
theorem TableRow.decStepTagBit : TableRow.Statement .decStepTagBit := fun _ => rfl
theorem TableRow.decStepYieldLiteral : TableRow.Statement .decStepYieldLiteral := fun _ => rfl
theorem TableRow.decStepBackrefIndexMsb : TableRow.Statement .decStepBackrefIndexMsb := fun _ => rfl
theorem TableRow.decStepBackrefIndexLsb : TableRow.Statement .decStepBackrefIndexLsb := fun _ => rfl
theorem TableRow.decStepBackrefCountMsb : TableRow.Statement .decStepBackrefCountMsb := fun _ => rfl
theorem TableRow.decStepBackrefCountLsb : TableRow.Statement .decStepBackrefCountLsb := fun _ => rfl
theorem TableRow.decStepYieldBackref : TableRow.Statement .decStepYieldBackref := fun _ => rfl
theorem TableRow.encConstruct (w l ibs obs : Nat) : TableRow.Statement (.encConstruct w l ibs obs) := fun _ => rfl
theorem TableRow.encReset : TableRow.Statement .encReset := fun _ => rfl
theorem TableRow.encSink (data : List Byte) : TableRow.Statement (.encSink data) := fun _ => rfl
theorem TableRow.encPoll : TableRow.Statement .encPoll := fun _ => rfl
theorem TableRow.encDrain : TableRow.Statement .encDrain := fun _ => rfl
theorem TableRow.encFinish : TableRow.Statement .encFinish := fun _ => rfl
theorem TableRow.decConstruct (w l ibs obs : Nat) : TableRow.Statement (.decConstruct w l ibs obs) := fun _ => rfl
theorem TableRow.decReset : TableRow.Statement .decReset := fun _ => rfl
theorem TableRow.decSink (data : List Byte) : TableRow.Statement (.decSink data) := fun _ => rfl
theorem TableRow.decPoll : TableRow.Statement .decPoll := fun _ => rfl
theorem TableRow.decDrain : TableRow.Statement .decDrain := fun _ => rfl
theorem TableRow.decFinish : TableRow.Statement .decFinish := fun _ => rfl

end Sys2Proof.Laws
end

