-- ==== Sys2Proof/Laws/RoundTrip.lean ====
section
/-! SUPPORT. What one token of ENCODE_REF is, and that expanding it gives back the bytes it stands for. -/

namespace Sys2Proof.Machine

theorem agreement_bytes (v : List Byte) (a b n : Nat) (i : Nat) (h : i < agreement v a b n) :
    byteAt v (a + i) = byteAt v (b + i) := by
  induction n generalizing a b i with
  | zero => simp [agreement] at h
  | succ n ih =>
    simp only [agreement] at h
    split at h
    · cases i with
      | zero => simpa
      | succ i => have := ih (a+1) (b+1) i (by omega); rw [show a + (i+1) = a + 1 + i by omega, show b + (i+1) = b+1+i by omega]; exact this
    · omega

/-- The token at an input position is that position's literal, or a backreference that pays and whose
bytes are the input's (R158). -/
theorem tokenAt_cases (p : Params) (ly : Layout) (x : List Byte) (k : Nat) (hk : k < x.length) :
    let v := virtualStream ly x
    let H := 2 ^ ly.windowBits
    (tokenAt p ly v (H + k) = (.lit (x.getD k 0), 1)) ∨
    ∃ q n, tokenAt p ly v (H + k) = (.bref (H + k - q) n, n) ∧ k ≤ q ∧ q < H + k ∧ 0 < n ∧ n ≤ 2 ^ ly.lookaheadBits ∧
      n ≤ x.length - k ∧ 1 + ly.windowBits + ly.lookaheadBits < 8 * n ∧ ∀ i, i < n → byteAt v (q + i) = byteAt v (H + k + i) := by
  intro v H
  have hv : v.length = H + x.length := virtualStream_length _ _
  unfold tokenAt
  simp only
  generalize hlo : (if p.zeroHistory then H + k - 2 ^ ly.windowBits else max (2 ^ ly.windowBits) (H + k - 2 ^ ly.windowBits)) = lo
  have hlo2 : k ≤ lo := by rw [← hlo]; split <;> omega
  have hs := bestOf_spec v (H + k) (min (2 ^ ly.lookaheadBits) (v.length - (H + k))) lo (H + k - lo)
  simp only at hs
  generalize bestOf v (H + k) (min (2 ^ ly.lookaheadBits) (v.length - (H + k))) ((List.range (H + k - lo)).map (lo + ·)) (0, 0) = r at hs
  unfold tokenOf
  have hb : byteAt v (H + k) = x.getD k 0 := by
    unfold byteAt v virtualStream
    rw [List.getD_append_right _ _ _ _ (by simp [H])]
    simp [H]
  by_cases hc : 0 < r.1 ∧ 1 + ly.windowBits + ly.lookaheadBits < 8 * r.1
  · right
    rcases hs with ⟨h1, -⟩ | ⟨h1, h2, h3, h4, -, -⟩
    · omega
    · have := agreement_le v r.2 (H + k) (min (2 ^ ly.lookaheadBits) (v.length - (H + k)))
      rw [h4] at this
      refine ⟨r.2, r.1, by rw [if_pos hc], by omega, by omega, h1, by omega, by omega, hc.2, ?_⟩
      intro i hi
      exact agreement_bytes _ _ _ _ i (by rw [h4]; exact hi)
  · left; rw [if_neg hc, hb]

/-- Expanding a backreference whose bytes are the input's gives back the input's next bytes (R197). -/
theorem expand_copy (ly : Layout) (x : List Byte) (k q n : Nat) (hk : k + n ≤ x.length) (hq1 : k ≤ q) (hq2 : q < 2 ^ ly.windowBits + k)
    (h : ∀ i, i < n → byteAt (virtualStream ly x) (q + i) = byteAt (virtualStream ly x) (2 ^ ly.windowBits + k + i)) :
    expand ly (2 ^ ly.windowBits + k - q) n (x.take k) = x.take (k + n) := by
  have hl : ((x.drop k).take n).length = n := by simp; omega
  have key := expand_of_copy ly (2 ^ ly.windowBits + k - q) ((x.drop k).take n) (x.take k) (by omega) (by omega) ?_
  · rw [hl] at key
    rw [key, List.take_add]
  · intro i hi
    rw [hl] at hi
    have hcs : ∀ j, j < n → ((x.drop k).take n).getD j 0 = byteAt (virtualStream ly x) (2 ^ ly.windowBits + k + j) := by
      intro j hj
      rw [List.getD_eq_getElem _ _ (by rw [hl]; exact hj)]
      unfold byteAt virtualStream
      rw [List.getD_append_right _ _ _ _ (by simp; omega)]
      rw [List.getD_eq_getElem _ _ (by simp; omega)]
      simp
      congr 1; omega
    rw [hcs i hi, ← h i hi]
    split
    · unfold historyByte
      have hvt : List.replicate (2 ^ ly.windowBits) 0 ++ x.take k = (virtualStream ly x).take (2 ^ ly.windowBits + k) := by
        unfold virtualStream
        rw [List.take_append]; simp
      rw [hvt]
      have : (x.take k).length = k := by simp; omega
      rw [this]
      unfold byteAt
      have e1 : 2 ^ ly.windowBits + k - (2 ^ ly.windowBits + k - q - i) = q + i := by omega
      rw [e1]
      have hv : (virtualStream ly x).length = 2 ^ ly.windowBits + x.length := virtualStream_length _ _
      rw [List.getD_eq_getElem _ _ (by omega), List.getD_eq_getElem _ _ (by simp [hv]; omega)]
      simp
    · rw [hcs _ (by omega)]
      congr 1; omega

end Sys2Proof.Machine
end

