-- ==== Sys2Proof/Laws/Tokens.lean ====
section
/-! SUPPORT. What the two wire tokens do as instructions, and that they do what the handlers do on the
token's own bits. -/

namespace Sys2Proof.Machine

/-- The decoder `d` with the backreference registers and the state replaced. -/
abbrev Decoder.withField (d : Decoder) (offset count : Nat) (q : DecState) : Decoder :=
  { d with offset := offset, count := count, state := q }

/-- Taking bits commutes with setting the backreference registers. -/
theorem Decoder.Consumed.withField {n : Nat} {d d' : Decoder} (c : Decoder.Consumed n d d')
    (o k : Nat) (q : DecState) : Decoder.Consumed n (d.withField o k q) (d'.withField o k q) := by
  obtain ⟨r1, r2, r3, r4⟩ := c.readable
  refine ⟨?_, ⟨r1, r2, r3, r4⟩, ?_⟩
  · have h := c.rest
    generalize d'.inHead = ih, d'.inSize = is, d'.curByte = cb, d'.rbits = rb at h
    subst h; rfl
  · have h := c.unread
    simpa [Decoder.unread, Decoder.inByte, Decoder.withField] using h

/-- One field of a token, on a decoder that has consumed `k` bits so far: it stalls there, or goes on
with the next field of a decoder that has consumed the field's bits too. -/
theorem feedField_chain {n v k : Nat} {use : Nat → Decoder → Res Decoder}
    {next : Decoder → Res Decoder} {d d1 : Decoder} (c : Decoder.Consumed k d d1) (h1 : 1 ≤ n)
    (h15 : n ≤ 15) :
    (d.unread.length < k + n ∧ feedField n v use next d1 = .ok d1) ∨
    (k + n ≤ d.unread.length ∨ d.unread.length < k) ∧ ∃ d2, Decoder.Consumed (k + n) d d2 ∧
      n ≤ d1.unread.length ∧ feedField n v use next d1 = (use v d2 >>= next) := by
  have hu : d1.unread.length = d.unread.length - k := by rw [c.unread, List.length_drop]
  rcases feedField_spec (v := v) (use := use) (next := next) c.readable h1 h15 with ⟨hl, e⟩ | ⟨hl, d2, c2, e⟩
  · exact .inl ⟨by omega, e⟩
  · exact .inr ⟨by omega, d2, c.trans c2, hl, e⟩

/-- LIT on a decoder at the beginning of a token (R82, R187, R188). -/
theorem consumeLit_spec {d : Decoder} (h : d.Inv) (b : Byte) :
    (d.unread = [] ∧ consumeLit b d = .ok d) ∨
    (∃ d1, d.unread ≠ [] ∧ Decoder.Consumed 1 d d1 ∧ (¬ d.room ∨ d.unread.length < 9) ∧
      consumeLit b d = .ok { d1 with state := .yieldLiteral } ∧
      ({ d1 with state := .yieldLiteral } : Decoder).Inv) ∨
    ∃ d1 d2, 9 ≤ d.unread.length ∧ d.room ∧ Decoder.Consumed 9 d d1 ∧
      Decoder.Emitted [b] { d1 with state := .yieldLiteral } d2 ∧
      consumeLit b d = .ok { d2 with state := .tagBit } ∧
      ({ d2 with state := .tagBit } : Decoder).Inv := by
  unfold consumeLit
  rcases feedField_chain (v := 1) (use := tagBitRead)
      (next := fun d => if ¬ d.room then .ok d else feedField 8 b.toNat literalRead .ok d)
      (Decoder.Consumed.refl h.readable) (n := 1) (by decide) (by decide) with ⟨hl, e⟩ | ⟨-, d1, c1, hl, e⟩
  · exact .inl ⟨List.eq_nil_of_length_eq_zero (by omega), e⟩
  · rw [Nat.zero_add] at c1
    have hne : d.unread ≠ [] := by intro h0; rw [h0] at hl; simp at hl
    have c1' := c1.withField d.offset d.count .yieldLiteral
    have hd1 : d1.withField d.offset d.count .yieldLiteral = { d1 with state := .yieldLiteral } := by
      have h1 : d1.offset = d.offset := by rw [c1.rest]
      have h2 : d1.count = d.count := by rw [c1.rest]
      rw [← h1, ← h2]
    rw [hd1] at c1'
    obtain ⟨d1', e1, hi1⟩ := tagBitRead_inv (c1.inv h) 1
    have : d1' = { d1 with state := .yieldLiteral } := by
      simp only [tagBitRead, if_true] at e1; injection e1 with e1; exact e1.symm
    subst this
    rw [e, e1, Res.ok_bind]
    have hcfg : d1.cfg = d.cfg := c1.cfg
    have hos : d1.outSize = d.outSize := c1.outSize
    have hroom : ({ d1 with state := .yieldLiteral } : Decoder).room ↔ d.room := by
      simp only [Decoder.room, hcfg, hos]
    have hu1 : ({ d1 with state := .yieldLiteral } : Decoder).unread = d.unread.drop 1 := c1.unread
    by_cases hr : d.room
    · rw [if_neg (not_not_intro (hroom.2 hr))]
      rcases feedField_spec (v := b.toNat) (use := literalRead) (next := .ok)
          (d := { d1 with state := .yieldLiteral }) hi1.readable (n := 8) (by decide) (by decide) with
        ⟨hl8, e8⟩ | ⟨hl8, d2, c2, e8⟩
      · rw [hu1, List.length_drop] at hl8
        exact .inr (.inl ⟨d1, hne, c1, .inr (by omega), e8, hi1⟩)
      · rw [hu1, List.length_drop] at hl8
        have hr2 : d2.room := by
          simp only [Decoder.room, c2.cfg, c2.outSize, hcfg, hos]; exact hr
        obtain ⟨d3, p3, e3, hi3⟩ := literalRead_spec (c2.inv hi1) hr2 b.toNat
        have hb : BitVec.ofNat 8 b.toNat = b := by simp
        rw [hb] at p3
        have hst : d2.state = .yieldLiteral := c2.state
        refine .inr (.inr ⟨d2.withField d.offset d.count d.state, d3, by omega, hr, ?_, ?_, ?_, hi3⟩)
        · have c3 := (c1'.trans c2).withField d.offset d.count d.state
          exact c3
        · have : ({ d2.withField d.offset d.count d.state with state := .yieldLiteral } : Decoder) = d2 := by
            have h1 : d2.offset = d.offset := by rw [c2.rest]; show d1.offset = d.offset; rw [c1.rest]
            have h2 : d2.count = d.count := by rw [c2.rest]; show d1.count = d.count; rw [c1.rest]
            rw [← h1, ← h2, ← hst]
          rw [this]; exact p3
        · rw [e8, e3, Res.ok_bind]
    · rw [if_pos (fun hx => hr (hroom.1 hx))]
      exact .inr (.inl ⟨d1, hne, c1, .inl hr, rfl, hi1⟩)

/-- One field of a token, from a decoder whose backreference registers are known to one whose registers
are known again. -/
theorem feedField_stage {n v k : Nat} {use : Nat → Decoder → Res Decoder}
    {next : Decoder → Res Decoder} {d cur : Decoder} {o c o' c' : Nat} {q q' : DecState}
    (hc : Decoder.Consumed k (d.withField o c q) cur) (hk : k ≤ d.unread.length) (hi : cur.Inv)
    (h1 : 1 ≤ n) (h15 : n ≤ 15)
    (huse : ∀ cur2, cur2.Inv → cur2.cfg = d.cfg → cur2.state = q → cur2.offset = o → cur2.count = c →
      use v cur2 = .ok (cur2.withField o' c' q') ∧ (cur2.withField o' c' q').Inv) :
    (d.unread.length < k + n ∧ feedField n v use next cur = .ok cur) ∨
    (k + n ≤ d.unread.length ∧ ∃ cur2, Decoder.Consumed (k + n) (d.withField o' c' q') cur2 ∧ cur2.Inv ∧
      feedField n v use next cur = next cur2) := by
  have hu : (d.withField o c q).unread = d.unread := rfl
  rcases feedField_chain (v := v) (use := use) (next := next) hc h1 h15 with ⟨hl, e⟩ | ⟨-, d2, c2, hl, e⟩
  · exact .inl ⟨by rw [hu] at hl; exact hl, e⟩
  · have hlen : cur.unread.length = d.unread.length - k := by rw [hc.unread, List.length_drop, hu]
    have hrest := c2.rest
    have hcfg : d2.cfg = d.cfg := by rw [hrest]
    have hq : d2.state = q := by rw [hrest]
    have ho : d2.offset = o := by rw [hrest]
    have hcc : d2.count = c := by rw [hrest]
    have hi2 : d2.Inv := by
      rcases Decoder.getBits_spec hi.readable h1 h15 with ⟨hl', -⟩ | ⟨-, d3, -, c3⟩
      · omega
      · have hi3 := c3.inv hi
        have r3 := c3.rest
        have rc := hc.rest
        obtain ⟨x1, x2, x3, x4⟩ := c2.readable
        generalize d2.inHead = ih, d2.inSize = is, d2.curByte = cb, d2.rbits = rb at x1 x2 x3 x4 hrest
        have hx : d2 = { cur with inHead := ih, inSize := is, curByte := cb, rbits := rb } := by
          rw [hrest, rc]
        have x2' : is ≤ cur.cfg.ibs := by rw [rc]; rw [hrest] at x2; exact x2
        rw [hx]
        exact { hi with cursors := x1, inSize := x2', drained := x3, rbits := x4 }
    obtain ⟨g1, g2⟩ := huse d2 hi2 hcfg hq ho hcc
    refine .inr ⟨by omega, d2.withField o' c' q', c2.withField o' c' q', g2, ?_⟩
    rw [e, g1, Res.ok_bind]

/-- A token that ends before its bits do: some of them are consumed and nothing is output. -/
def Decoder.Stalled (d d' : Decoder) : Prop :=
  ∃ k o c q, k ≤ d.unread.length ∧ Decoder.Consumed k (d.withField o c q) d' ∧ d'.Inv

/-- The upper bits and the low bits of a field are the field (R84). -/
theorem field_split {c v : Nat} (hc : 8 < c) : (v >>> 8) <<< 8 ||| fieldLow c v = v := by
  have hmin : min c 8 = 8 := by omega
  rw [fieldLow, hmin, Nat.shiftLeft_eq, Nat.shiftRight_eq_div_pow,
    or_eq_add (n := 8) (by simp) (Nat.mod_lt _ (by decide))]
  omega

theorem fieldLow_lt (c v : Nat) : fieldLow c v < 2 ^ min c 8 := Nat.mod_lt _ (Nat.two_pow_pos _)

theorem shift_lt {c v : Nat} (hv : v < 2 ^ c) (hc : 8 < c) : v >>> 8 < 2 ^ (c - 8) := by
  rw [Nat.shiftRight_eq_div_pow, Nat.div_lt_iff_lt_mul (by decide), ← Nat.pow_add,
    Nat.sub_add_cancel (by omega)]
  exact hv

/-- A backreference with every bit of its token there (R83, R187 to R193). -/
structure Decoder.BrefRun (dist len : Nat) (d d' : Decoder) (bits : Nat) : Prop where
  run : ∃ d1 d2 cs, Decoder.Consumed bits (d.withField dist len .yieldBackref) d1 ∧
    Decoder.Emitted cs d1 d2 ∧ cs.length = min (d.cfg.obs - d.outSize) len ∧
    (∀ i, i < cs.length → cs.getD i 0 =
      if i < dist then d.windowByte (dist - i) else cs.getD (i - dist) 0) ∧
    d' = { d2 with
      count := len - cs.length,
      state := if len - cs.length = 0 then .tagBit else .yieldBackref }
  inv : d'.Inv

theorem consumeLength_spec {d cur : Decoder} {k o c n : Nat} {q : DecState} (hn : n < 2 ^ d.cfg.lookaheadBits)
    (hq : q = if 8 < d.cfg.lookaheadBits then .backrefCountMsb else .backrefCountLsb) (hcz : c = 0)
    (hc : Decoder.Consumed k (d.withField o c q) cur) (hk : k ≤ d.unread.length) (hi : cur.Inv) :
    (d.unread.length < k + d.cfg.lookaheadBits ∧ ∃ d', consumeLength n cur = .ok d' ∧ d.Stalled d') ∨
    (k + d.cfg.lookaheadBits ≤ d.unread.length ∧
      ∃ d', consumeLength n cur = .ok d' ∧ Decoder.BrefRun o (n + 1) d d' (k + d.cfg.lookaheadBits)) := by
  have hcfg : cur.cfg = d.cfg := by rw [hc.rest]
  have hL3 := hi.legal.2.2.1
  have hL15 : cur.cfg.lookaheadBits ≤ 15 := by
    have := hi.legal.2.1; have := hi.legal.2.2.2.1; omega
  rw [hcfg] at hL3 hL15
  -- the low bits and the copy
  have low : ∀ cur' k' c', Decoder.Consumed k' (d.withField o c' .backrefCountLsb) cur' →
      k' ≤ d.unread.length → cur'.Inv → (c' ||| fieldLow d.cfg.lookaheadBits n) = n →
      (d.unread.length < k' + min d.cfg.lookaheadBits 8 ∧
        ∃ d', feedField (min d.cfg.lookaheadBits 8) (fieldLow d.cfg.lookaheadBits n) countLsbRead
          decYieldBackref cur' = .ok d' ∧ d.Stalled d') ∨
      (k' + min d.cfg.lookaheadBits 8 ≤ d.unread.length ∧
        ∃ d', feedField (min d.cfg.lookaheadBits 8) (fieldLow d.cfg.lookaheadBits n) countLsbRead
          decYieldBackref cur' = .ok d' ∧
          Decoder.BrefRun o (n + 1) d d' (k' + min d.cfg.lookaheadBits 8)) := by
    intro cur' k' c' hc' hk' hi' hor
    rcases feedField_stage (v := fieldLow d.cfg.lookaheadBits n) (use := countLsbRead)
        (next := decYieldBackref) (o' := o) (c' := n + 1) (q' := .yieldBackref)
        (n := min d.cfg.lookaheadBits 8) hc' hk' hi' (by omega) (by omega)
        (fun cur2 h2 hcfg2 hst ho2 hc2 => by
          obtain ⟨d', e', i'⟩ := countLsbRead_inv h2 hst (v := fieldLow d.cfg.lookaheadBits n)
            (by rw [hcfg2]; exact fieldLow_lt _ _)
          have : countLsbRead (fieldLow d.cfg.lookaheadBits n) cur2 =
              .ok (cur2.withField o (n + 1) .yieldBackref) := by
            rw [countLsbRead, hc2, hor, ← ho2]
          rw [this] at e'; injection e' with e'; subst e'
          exact ⟨this, i'⟩) with ⟨hl, e⟩ | ⟨hl, cur2, c2, i2, e⟩
    · exact .inl ⟨hl, cur', e, k', o, c', _, hk', hc', hi'⟩
    · refine .inr ⟨hl, ?_⟩
      have hst : cur2.state = .yieldBackref := by rw [c2.rest]
      have ho2 : cur2.offset = o := by rw [c2.rest]
      have hcc : cur2.count = n + 1 := by rw [c2.rest]
      have hcf : cur2.cfg = d.cfg := by rw [c2.rest]
      have hos : cur2.outSize = d.outSize := by rw [c2.rest]
      have hw : ∀ j, cur2.windowByte j = d.windowByte j := by intro j; rw [c2.rest]; rfl
      obtain ⟨d2, cs, p, hlen, hcopy, e2, i2'⟩ := decYieldBackref_spec i2 hst
      rw [hcc, hcf, hos] at hlen
      rw [hcc] at e2 i2'
      refine ⟨_, by rw [e, e2], ⟨cur2, d2, cs, c2, p, hlen, ?_, rfl⟩, i2'⟩
      intro i hi''
      rw [hcopy i hi'', ho2, hw]
  simp only [consumeLength, hcfg]
  by_cases h8 : 8 < d.cfg.lookaheadBits
  · rw [if_pos h8] at hq ⊢
    subst hq
    rcases feedField_stage (v := n >>> 8) (use := countMsbRead)
        (next := feedField (min d.cfg.lookaheadBits 8) (fieldLow d.cfg.lookaheadBits n) countLsbRead
          decYieldBackref) (o' := o) (c' := (n >>> 8) <<< 8) (q' := .backrefCountLsb)
        (n := d.cfg.lookaheadBits - 8) hc hk hi (by omega) (by omega)
        (fun cur2 h2 hcfg2 hst ho2 hc2 => by
          obtain ⟨d', e', i'⟩ := countMsbRead_inv h2 hst (v := n >>> 8)
            (by rw [hcfg2]; exact shift_lt hn h8)
          have : countMsbRead (n >>> 8) cur2 =
              .ok (cur2.withField o ((n >>> 8) <<< 8) .backrefCountLsb) := by
            rw [countMsbRead, ← ho2]
          rw [this] at e'; injection e' with e'; subst e'
          exact ⟨this, i'⟩) with ⟨hl, e⟩ | ⟨hl, cur2, c2, i2, e⟩
    · exact .inl ⟨by omega, cur, e, k, o, c, _, hk, hc, hi⟩
    · rw [e]
      have hsum : k + (d.cfg.lookaheadBits - 8) + min d.cfg.lookaheadBits 8 = k + d.cfg.lookaheadBits := by
        omega
      have := low cur2 _ _ c2 hl i2 (field_split h8)
      rw [hsum] at this
      exact this
  · rw [if_neg h8] at hq ⊢
    subst hq hcz
    have hmin : min d.cfg.lookaheadBits 8 = d.cfg.lookaheadBits := by omega
    have hlow : fieldLow d.cfg.lookaheadBits n = n := by
      rw [fieldLow, hmin, Nat.mod_eq_of_lt hn]
    have := low cur k 0 hc hk hi (by rw [hlow]; simp)
    rw [hmin] at this ⊢
    exact this

theorem consumeDistance_spec {d cur : Decoder} {k o c v n : Nat} {q : DecState}
    (hv : v < 2 ^ d.cfg.windowBits) (hn : n < 2 ^ d.cfg.lookaheadBits)
    (hq : q = if 8 < d.cfg.windowBits then .backrefIndexMsb else .backrefIndexLsb)
    (hoz : ¬ 8 < d.cfg.windowBits → o = 0)
    (hc : Decoder.Consumed k (d.withField o c q) cur) (hk : k ≤ d.unread.length) (hi : cur.Inv) :
    (d.unread.length < k + d.cfg.windowBits + d.cfg.lookaheadBits ∧
      ∃ d', consumeDistance v n cur = .ok d' ∧ d.Stalled d') ∨
    (k + d.cfg.windowBits + d.cfg.lookaheadBits ≤ d.unread.length ∧
      ∃ d', consumeDistance v n cur = .ok d' ∧
        Decoder.BrefRun (v + 1) (n + 1) d d' (k + d.cfg.windowBits + d.cfg.lookaheadBits)) := by
  have hcfg : cur.cfg = d.cfg := by rw [hc.rest]
  have hW4 := hi.legal.1
  have hW15 := hi.legal.2.1
  rw [hcfg] at hW4 hW15
  have low : ∀ cur' k' o' c', Decoder.Consumed k' (d.withField o' c' .backrefIndexLsb) cur' →
      k' ≤ d.unread.length → cur'.Inv → (o' ||| fieldLow d.cfg.windowBits v) = v →
      k' + min d.cfg.windowBits 8 = k + d.cfg.windowBits →
      (d.unread.length < k + d.cfg.windowBits + d.cfg.lookaheadBits ∧
        ∃ d', feedField (min d.cfg.windowBits 8) (fieldLow d.cfg.windowBits v) indexLsbRead
          (consumeLength n) cur' = .ok d' ∧ d.Stalled d') ∨
      (k + d.cfg.windowBits + d.cfg.lookaheadBits ≤ d.unread.length ∧
        ∃ d', feedField (min d.cfg.windowBits 8) (fieldLow d.cfg.windowBits v) indexLsbRead
          (consumeLength n) cur' = .ok d' ∧
          Decoder.BrefRun (v + 1) (n + 1) d d' (k + d.cfg.windowBits + d.cfg.lookaheadBits)) := by
    intro cur' k' o' c' hc' hk' hi' hor hsum
    rcases feedField_stage (v := fieldLow d.cfg.windowBits v) (use := indexLsbRead)
        (next := consumeLength n) (o' := v + 1) (c' := 0)
        (q' := if 8 < d.cfg.lookaheadBits then .backrefCountMsb else .backrefCountLsb)
        (n := min d.cfg.windowBits 8) hc' hk' hi' (by omega) (by omega)
        (fun cur2 h2 hcfg2 hst ho2 hc2 => by
          obtain ⟨d', e', i'⟩ := indexLsbRead_inv h2 hst (v := fieldLow d.cfg.windowBits v)
            (by rw [hcfg2]; exact fieldLow_lt _ _)
          have : indexLsbRead (fieldLow d.cfg.windowBits v) cur2 =
              .ok (cur2.withField (v + 1) 0
                (if 8 < d.cfg.lookaheadBits then .backrefCountMsb else .backrefCountLsb)) := by
            rw [indexLsbRead, ho2, hor, hcfg2]
            simp only [Decoder.withField, hcfg2]
          rw [this] at e'; injection e' with e'; subst e'
          exact ⟨this, i'⟩) with ⟨hl, e⟩ | ⟨hl, cur2, c2, i2, e⟩
    · exact .inl ⟨by omega, cur', e, k', o', c', _, hk', hc', hi'⟩
    · rw [e]
      have := consumeLength_spec hn rfl rfl c2 hl i2
      rw [hsum] at this
      exact this
  simp only [consumeDistance, hcfg]
  by_cases h8 : 8 < d.cfg.windowBits
  · rw [if_pos h8] at hq ⊢
    subst hq
    rcases feedField_stage (v := v >>> 8) (use := indexMsbRead)
        (next := feedField (min d.cfg.windowBits 8) (fieldLow d.cfg.windowBits v) indexLsbRead
          (consumeLength n)) (o' := (v >>> 8) <<< 8) (c' := c) (q' := .backrefIndexLsb)
        (n := d.cfg.windowBits - 8) hc hk hi (by omega) (by omega)
        (fun cur2 h2 hcfg2 hst ho2 hc2 => by
          obtain ⟨d', e', i'⟩ := indexMsbRead_inv h2 hst (v := v >>> 8)
            (by rw [hcfg2]; exact shift_lt hv h8)
          have : indexMsbRead (v >>> 8) cur2 =
              .ok (cur2.withField ((v >>> 8) <<< 8) c .backrefIndexLsb) := by
            rw [indexMsbRead, ← hc2]
          rw [this] at e'; injection e' with e'; subst e'
          exact ⟨this, i'⟩) with ⟨hl, e⟩ | ⟨hl, cur2, c2, i2, e⟩
    · exact .inl ⟨by omega, cur, e, k, o, c, _, hk, hc, hi⟩
    · rw [e]
      exact low cur2 _ _ _ c2 hl i2 (field_split h8) (by omega)
  · rw [if_neg h8] at hq ⊢
    subst hq
    have ho := hoz h8
    subst ho
    have hmin : min d.cfg.windowBits 8 = d.cfg.windowBits := by omega
    have hlow : fieldLow d.cfg.windowBits v = v := by rw [fieldLow, hmin, Nat.mod_eq_of_lt hv]
    exact low cur k 0 c hc hk hi (by rw [hlow]; simp) (by rw [hmin])

/-- BREF on a decoder at the beginning of a token (R83, R187, R189 to R193): `v` and `n` are the field
values. -/
theorem consumeBref_spec {d : Decoder} {v n : Nat} (h : d.Inv) (hq : d.state = .tagBit)
    (hv : v < 2 ^ d.cfg.windowBits) (hn : n < 2 ^ d.cfg.lookaheadBits) :
    (d.unread.length < d.cfg.breakEven ∧ ∃ d', consumeBref v n d = .ok d' ∧ d.Stalled d') ∨
    (d.cfg.breakEven ≤ d.unread.length ∧ ∃ d', consumeBref v n d = .ok d' ∧
      Decoder.BrefRun (v + 1) (n + 1) d d' d.cfg.breakEven) := by
  have h0 : Decoder.Consumed 0 (d.withField d.offset d.count .tagBit) d := by
    rw [← hq]; exact Decoder.Consumed.refl h.readable
  unfold consumeBref
  rcases feedField_stage (v := 0) (use := tagBitRead) (next := consumeDistance v n)
      (o' := if 8 < d.cfg.windowBits then d.offset else 0) (c' := d.count)
      (q' := if 8 < d.cfg.windowBits then .backrefIndexMsb else .backrefIndexLsb)
      (n := 1) h0 (Nat.zero_le _) h (by decide) (by decide)
      (fun cur2 h2 hcfg2 hst ho2 hc2 => by
        obtain ⟨d', e', i'⟩ := tagBitRead_inv h2 0
        have : tagBitRead 0 cur2 = .ok (cur2.withField
            (if 8 < d.cfg.windowBits then d.offset else 0) d.count
            (if 8 < d.cfg.windowBits then .backrefIndexMsb else .backrefIndexLsb)) := by
          unfold tagBitRead
          rw [if_neg (by decide), hcfg2]
          split
          · simp only [Decoder.withField, ← ho2, ← hc2, ← hcfg2]
          · simp only [Decoder.withField, ← hc2, ← hcfg2]
        rw [this] at e'; injection e' with e'; subst e'
        exact ⟨this, i'⟩) with ⟨hl, e⟩ | ⟨hl, cur2, c2, i2, e⟩
  · refine .inl ⟨?_, d, e, 0, _, _, _, Nat.zero_le _, h0, h⟩
    simp only [Cfg.breakEven]; omega
  · rw [e]
    have := consumeDistance_spec hv hn rfl (fun h8 => by rw [if_neg h8]) c2 hl i2
    simpa only [Cfg.breakEven, Nat.zero_add] using this

/-! ### A token is what the handlers do on its bits -/

/-- A field whose bits come next, read by a handler or consumed by a token. -/
theorem field_here {m w : Nat} {d : Decoder} {rest : List Bool} (h : d.Inv) (h1 : 1 ≤ m) (h15 : m ≤ 15)
    (hw : w < 2 ^ m) (hu : d.unread = bitsOf m w ++ rest) :
    ∃ d1, Decoder.Consumed m d d1 ∧ d1.Inv ∧ d1.unread = rest ∧
      (∀ use, Decoder.readField m use d = use w d1) ∧
      ∀ use next, feedField m w use next d = (use w d1 >>= next) := by
  have hl : m ≤ d.unread.length := by rw [hu]; simp
  rcases Decoder.getBits_spec h.readable h1 h15 with ⟨hl', -⟩ | ⟨-, d1, e, c⟩
  · omega
  · have hnum : numberFrom 0 (d.unread.take m) = w := by
      rw [hu, List.take_append_of_le_length (by simp), List.take_of_length_le (by simp),
        numberFrom_bitsOf, Nat.mod_eq_of_lt hw]
    rw [hnum] at e
    refine ⟨d1, c, c.inv h, ?_, fun use => by simp [Decoder.readField, e], fun use next => by
      simp [feedField, e]⟩
    rw [c.unread, hu, List.drop_append_of_le_length (by simp), List.drop_of_length_le (by simp)]
    rfl

/-- How many handler steps a length field and the copy take. -/
def lengthSteps (c : Cfg) : Nat := if 8 < c.lookaheadBits then 3 else 2

/-- How many handler steps a backreference takes after its tag. -/
def distanceSteps (c : Cfg) : Nat := (if 8 < c.windowBits then 2 else 1) + lengthSteps c

theorem decRun_succ {k : Nat} {d d' : Decoder} (h : decHandler d.state d = .ok d') :
    decRun (k + 1) d = decRun k d' := by simp only [decRun, h, Res.ok_bind]

theorem consumeLength_eq_run {d : Decoder} {n : Nat} {rest : List Bool} (h : d.Inv)
    (hq : d.state = if 8 < d.cfg.lookaheadBits then .backrefCountMsb else .backrefCountLsb)
    (hn : n < 2 ^ d.cfg.lookaheadBits) (hu : d.unread = bitsOf d.cfg.lookaheadBits n ++ rest) :
    consumeLength n d = decRun (lengthSteps d.cfg) d := by
  have hL3 := h.legal.2.2.1
  have hL15 : d.cfg.lookaheadBits ≤ 15 := by have := h.legal.2.1; have := h.legal.2.2.2.1; omega
  have low : ∀ d' : Decoder, d'.Inv → d'.cfg = d.cfg → d'.state = .backrefCountLsb →
      d'.unread = bitsOf (min d.cfg.lookaheadBits 8) (fieldLow d.cfg.lookaheadBits n) ++ rest →
      feedField (min d.cfg.lookaheadBits 8) (fieldLow d.cfg.lookaheadBits n) countLsbRead
        decYieldBackref d' = decRun 2 d' := by
    intro d' h' hc' hq' hu'
    obtain ⟨d1, c1, i1, -, hread, hfeed⟩ := field_here h' (by omega) (by omega) (fieldLow_lt _ _) hu'
    rw [hfeed]
    have hcount : decHandler d'.state d' = countLsbRead (fieldLow d.cfg.lookaheadBits n) d1 := by
      rw [hq']; show Decoder.readField (min d'.cfg.lookaheadBits 8) countLsbRead d' = _
      rw [hc', hread]
    have e1 : countLsbRead (fieldLow d.cfg.lookaheadBits n) d1 = .ok { d1 with
        count := (d1.count ||| fieldLow d.cfg.lookaheadBits n) + 1, state := .yieldBackref } := rfl
    rw [e1] at hcount
    rw [e1, Res.ok_bind, decRun_succ hcount]
    generalize hx : ({ d1 with count := (d1.count ||| fieldLow d.cfg.lookaheadBits n) + 1,
                               state := .yieldBackref } : Decoder) = x
    have hxs : x.state = .yieldBackref := by rw [← hx]
    simp only [decRun, hxs, decHandler]
    cases decYieldBackref x <;> rfl
  unfold consumeLength lengthSteps
  simp only
  by_cases h8 : 8 < d.cfg.lookaheadBits
  · rw [if_pos h8] at hq
    rw [if_pos h8, if_pos h8]
    have hmin : min d.cfg.lookaheadBits 8 = 8 := by omega
    have hsplit : bitsOf d.cfg.lookaheadBits n =
        bitsOf (d.cfg.lookaheadBits - 8) (n >>> 8) ++ bitsOf 8 n := by
      rw [← bitsOf_add, Nat.sub_add_cancel (by omega)]
    rw [hsplit, List.append_assoc] at hu
    obtain ⟨d1, c1, i1, hu1, hread, hfeed⟩ := field_here h (by omega) (by omega) (shift_lt hn h8) hu
    rw [hfeed]
    have hq1 : d1.state = .backrefCountMsb := by rw [c1.state, hq]
    obtain ⟨d2, e2, i2⟩ := countMsbRead_inv i1 hq1 (v := n >>> 8) (by rw [c1.cfg]; exact shift_lt hn h8)
    have hstep : decHandler d.state d = .ok d2 := by
      rw [hq]; show (do Decoder.readField (← minus d.cfg.lookaheadBits 8) countMsbRead d) = _
      rw [minus_of_le (by omega), Res.ok_bind, hread, e2]
    rw [e2, Res.ok_bind, decRun_succ hstep]
    have hd2 : d2 = { d1 with count := (n >>> 8) <<< 8, state := .backrefCountLsb } := by
      injection e2 with e2; exact e2.symm
    refine low d2 i2 (by rw [hd2]; exact c1.cfg) (by rw [hd2]) ?_
    have : d2.unread = d1.unread := by rw [hd2]; rfl
    rw [this, hu1]
    congr 1
    rw [hmin]
    exact bitsOf_congr (by simp [fieldLow, hmin])
  · rw [if_neg h8] at hq
    rw [if_neg h8, if_neg h8]
    have hmin : min d.cfg.lookaheadBits 8 = d.cfg.lookaheadBits := by omega
    refine low d h rfl hq ?_
    rw [hu]
    congr 1
    rw [hmin]
    exact bitsOf_congr (by simp [fieldLow, hmin])

theorem consumeDistance_eq_run {d : Decoder} {v n : Nat} {rest : List Bool} (h : d.Inv)
    (hq : d.state = if 8 < d.cfg.windowBits then .backrefIndexMsb else .backrefIndexLsb)
    (hv : v < 2 ^ d.cfg.windowBits) (hn : n < 2 ^ d.cfg.lookaheadBits)
    (hu : d.unread = bitsOf d.cfg.windowBits v ++ (bitsOf d.cfg.lookaheadBits n ++ rest)) :
    consumeDistance v n d = decRun (distanceSteps d.cfg) d := by
  have hW4 := h.legal.1
  have hW15 := h.legal.2.1
  have low : ∀ d' : Decoder, d'.Inv → d'.cfg = d.cfg → d'.state = .backrefIndexLsb →
      d'.unread = bitsOf (min d.cfg.windowBits 8) (fieldLow d.cfg.windowBits v) ++
        (bitsOf d.cfg.lookaheadBits n ++ rest) →
      feedField (min d.cfg.windowBits 8) (fieldLow d.cfg.windowBits v) indexLsbRead
        (consumeLength n) d' = decRun (lengthSteps d.cfg + 1) d' := by
    intro d' h' hc' hq' hu'
    obtain ⟨d1, c1, i1, hu1, hread, hfeed⟩ := field_here h' (by omega) (by omega) (fieldLow_lt _ _) hu'
    rw [hfeed]
    have hq1 : d1.state = .backrefIndexLsb := by rw [c1.state, hq']
    have hc1 : d1.cfg = d.cfg := by rw [c1.cfg, hc']
    obtain ⟨d2, e2, i2⟩ := indexLsbRead_inv i1 hq1 (v := fieldLow d.cfg.windowBits v)
      (by rw [hc1]; exact fieldLow_lt _ _)
    have hstep : decHandler d'.state d' = .ok d2 := by
      rw [hq']; show Decoder.readField (min d'.cfg.windowBits 8) indexLsbRead d' = _
      rw [hc', hread, e2]
    rw [e2, Res.ok_bind, decRun_succ hstep]
    injection e2 with hd2
    have hc2 : d2.cfg = d.cfg := by rw [← hd2]; exact hc1
    have hu2 : d2.unread = bitsOf d.cfg.lookaheadBits n ++ rest := by rw [← hu1, ← hd2]; rfl
    have := consumeLength_eq_run (n := n) (rest := rest) i2
      (by rw [← hd2]) (by rw [hc2]; exact hn)
      (by rw [hc2]; exact hu2)
    rw [this, hc2]
  unfold consumeDistance distanceSteps
  simp only
  by_cases h8 : 8 < d.cfg.windowBits
  · rw [if_pos h8] at hq
    rw [if_pos h8, if_pos h8]
    have hmin : min d.cfg.windowBits 8 = 8 := by omega
    have hsplit : bitsOf d.cfg.windowBits v =
        bitsOf (d.cfg.windowBits - 8) (v >>> 8) ++ bitsOf 8 v := by
      rw [← bitsOf_add, Nat.sub_add_cancel (by omega)]
    rw [hsplit, List.append_assoc] at hu
    obtain ⟨d1, c1, i1, hu1, hread, hfeed⟩ := field_here h (by omega) (by omega) (shift_lt hv h8) hu
    rw [hfeed]
    have hq1 : d1.state = .backrefIndexMsb := by rw [c1.state, hq]
    obtain ⟨d2, e2, i2⟩ := indexMsbRead_inv i1 hq1 (v := v >>> 8) (by rw [c1.cfg]; exact shift_lt hv h8)
    have hstep : decHandler d.state d = .ok d2 := by
      rw [hq]; show (do Decoder.readField (← minus d.cfg.windowBits 8) indexMsbRead d) = _
      rw [minus_of_le (by omega), Res.ok_bind, hread, e2]
    have hd2 : d2 = { d1 with offset := (v >>> 8) <<< 8, state := .backrefIndexLsb } := by
      injection e2 with e2; exact e2.symm
    rw [e2, Res.ok_bind, show 2 + lengthSteps d.cfg = (lengthSteps d.cfg + 1) + 1 by omega,
      decRun_succ hstep]
    refine low d2 i2 (by rw [hd2]; exact c1.cfg) (by rw [hd2]) ?_
    have : d2.unread = d1.unread := by rw [hd2]; rfl
    rw [this, hu1]
    congr 1
    rw [hmin]
    exact bitsOf_congr (by simp [fieldLow, hmin])
  · rw [if_neg h8] at hq
    rw [if_neg h8, if_neg h8, Nat.add_comm 1]
    have hmin : min d.cfg.windowBits 8 = d.cfg.windowBits := by omega
    refine low d h rfl hq ?_
    rw [hu]
    congr 1
    rw [hmin]
    exact bitsOf_congr (by simp [fieldLow, hmin])

/-- BREF does on its own bits what the handlers do on them (R84, R187 to R193). -/
theorem consumeBref_eq_run {d : Decoder} {v n : Nat} {rest : List Bool} (h : d.Inv)
    (hq : d.state = .tagBit) (hv : v < 2 ^ d.cfg.windowBits) (hn : n < 2 ^ d.cfg.lookaheadBits)
    (hu : d.unread = false :: (bitsOf d.cfg.windowBits v ++ (bitsOf d.cfg.lookaheadBits n ++ rest))) :
    consumeBref v n d = decRun (distanceSteps d.cfg + 1) d := by
  obtain ⟨d1, c1, i1, hu1, hread, hfeed⟩ := field_here (m := 1) (w := 0) h (by decide) (by decide)
    (by decide) (hu.trans rfl)
  obtain ⟨d2, e2, i2⟩ := tagBitRead_inv i1 0
  have hstep : decHandler d.state d = .ok d2 := by
    rw [hq]; show Decoder.readField 1 tagBitRead d = _
    rw [hread, e2]
  rw [consumeBref, hfeed, e2, Res.ok_bind, decRun_succ hstep]
  have hfacts : d2.cfg = d1.cfg ∧ d2.unread = d1.unread ∧
      d2.state = if 8 < d1.cfg.windowBits then .backrefIndexMsb else .backrefIndexLsb := by
    unfold tagBitRead at e2
    rw [if_neg (by decide)] at e2
    split at e2 <;> (injection e2 with e2; subst e2)
    · exact ⟨rfl, rfl, by simp_all⟩
    · exact ⟨rfl, rfl, by simp_all⟩
  obtain ⟨f1, f2, f3⟩ := hfacts
  have hc2 : d2.cfg = d.cfg := by rw [f1, c1.cfg]
  have := consumeDistance_eq_run (v := v) (n := n) (rest := rest) i2
    (by rw [f3, f1]) (by rw [hc2]; exact hv) (by rw [hc2]; exact hn)
    (by rw [hc2, f2, hu1]; rfl)
  rw [this, hc2]

/-- LIT does on its own bits what the handlers do on them (R187, R188). -/
theorem consumeLit_eq_run {d : Decoder} {b : Byte} {rest : List Bool} (h : d.Inv)
    (hq : d.state = .tagBit) (hu : d.unread = true :: (byteBits b ++ rest)) :
    consumeLit b d = decRun 2 d := by
  obtain ⟨d1, c1, i1, hu1, hread, hfeed⟩ := field_here (m := 1) (w := 1) h (by decide) (by decide)
    (by decide) (hu.trans rfl)
  obtain ⟨d2, e2, i2⟩ := tagBitRead_inv i1 1
  have hd2 : d2 = { d1 with state := .yieldLiteral } := by
    simp only [tagBitRead, if_true] at e2; injection e2 with e2; exact e2.symm
  have hstep : decHandler d.state d = .ok d2 := by
    rw [hq]; show Decoder.readField 1 tagBitRead d = _
    rw [hread, e2]
  rw [consumeLit, hfeed, e2, Res.ok_bind, decRun_succ hstep]
  have hq2 : d2.state = .yieldLiteral := by rw [hd2]
  have hu2 : d2.unread = bitsOf 8 b.toNat ++ rest := by rw [hd2]; exact hu1
  obtain ⟨d3, c3, i3, -, hread3, hfeed3⟩ := field_here i2 (by decide) (by decide) b.isLt hu2
  simp only [decRun, hq2, decHandler, decYieldLiteral]
  split
  · rfl
  · rw [hfeed3, hread3]

end Sys2Proof.Machine
end

