-- ==== Sys2Proof/Laws/Runs.lean ====
section
/-! SUPPORT. Runs of handlers: POLL's loop as the run it makes, how runs go on, and the exact registers
after a bit read. -/

namespace Sys2Proof.Machine

theorem encRun_succ {p : Params} {n : Nat} {e e1 : Encoder} (h : encHandler e.state p e = .ok e1) :
    encRun p (n + 1) e = encRun p n e1 := by simp [encRun, h]

theorem resting_iff {q : EncState} : resting q = true ↔ q = .notFull ∨ q = .done := by
  simp [resting]

/-- ENC.POLL's loop is a run of handlers up to its first stopping point (R144). -/
theorem encPollLoop_run {p : Params} (fuel : Nat) {e : Encoder} (h : e.Inv)
    (hf : e.stepsLeft < fuel) :
    ∃ e' r n, encPollLoop p fuel e = .ok (e', r) ∧ encRun p n e = .ok e' ∧ n ≤ e.stepsLeft + 1 ∧
      ((r = .pollEmpty ∧ (e'.state = .notFull ∨ e'.state = .done)) ∨
        (r = .pollMore ∧ e'.outSize = e'.cfg.obs ∧ e'.state ≠ .notFull ∧ e'.state ≠ .done ∧
          ∃ m e1, n = m + 1 ∧ encRun p m e = .ok e1 ∧ e1.state = e'.state)) ∧
      ∀ m, m < n → ∃ a, encRun p m e = .ok a ∧ a.state ≠ .notFull ∧ a.state ≠ .done ∧
        ∀ b, m + 1 < n → encRun p (m + 1) e = .ok b → ¬ (b.state = a.state ∧ b.outSize = b.cfg.obs) := by
  induction fuel generalizing e with
  | zero => omega
  | succ fuel ih =>
    unfold encPollLoop
    by_cases hr : e.state = .notFull ∨ e.state = .done
    · rw [if_pos hr]
      exact ⟨_, _, 0, rfl, rfl, by omega, .inl ⟨rfl, hr⟩, by intro m hm; omega⟩
    · rw [if_neg hr]
      obtain ⟨e1, h1, st⟩ := encHandler_stepped (p := p) h (by
        cases hx : resting e.state with
        | false => rfl
        | true => exact absurd (resting_iff.1 hx) hr)
      simp only [h1, bind, Except.bind]
      by_cases hs : e1.state = e.state ∧ e1.outSize = e1.cfg.obs
      · rw [if_pos hs]
        have hr' := hr
        rw [← hs.1] at hr'
        simp only [not_or] at hr hr'
        refine ⟨_, _, 1, rfl, by simp [encRun, h1], by omega, .inr ⟨rfl, hs.2, hr'.1, hr'.2, 0, e, rfl, rfl, hs.1.symm⟩, ?_⟩
        intro m hm
        obtain rfl : m = 0 := by omega
        exact ⟨e, rfl, hr.1, hr.2, by intro b hb; omega⟩
      · rw [if_neg hs]
        have hlt : e1.stepsLeft < e.stepsLeft := by
          rcases st.progress with hx | ⟨hx, hy⟩
          · exact hx
          · subst hx; exact absurd ⟨rfl, hy⟩ hs
        obtain ⟨e', r, n, g1, g2, g3, g4, g5⟩ := ih st.inv (by omega)
        refine ⟨e', r, n + 1, g1, by rw [encRun_succ h1]; exact g2, by omega, ?_, ?_⟩
        · rcases g4 with g4 | ⟨a, b, c, d, m, e2, x, y, z⟩
          · exact .inl g4
          · exact .inr ⟨a, b, c, d, m + 1, e2, by omega, by rw [encRun_succ h1]; exact y, z⟩
        · intro m hm
          cases m with
          | zero =>
            simp only [not_or] at hr
            refine ⟨e, rfl, hr.1, hr.2, ?_⟩
            intro b _ hb
            rw [encRun_succ h1] at hb
            simp [encRun] at hb; subst hb; exact hs
          | succ m =>
            obtain ⟨a, x1, x2, x3, x4⟩ := g5 m (by omega)
            refine ⟨a, by rw [encRun_succ h1]; exact x1, x2, x3, ?_⟩
            intro b hm' hb
            rw [encRun_succ h1] at hb
            exact x4 b (by omega) hb

/-- The last handler of a run of one more. -/
theorem encRun_snoc {p : Params} {n : Nat} {e e1 e2 : Encoder} (h : encRun p n e = .ok e1) (h' : encRun p (n+1) e = .ok e2) :
    encHandler e1.state p e1 = .ok e2 := by
  induction n generalizing e with
  | zero =>
    simp [encRun] at h; subst h
    obtain ⟨a, x, y⟩ := Res.bind_ok h'
    simp [encRun] at y; subst y; exact x
  | succ n ih =>
    obtain ⟨a, x, y⟩ := Res.bind_ok h
    obtain ⟨a', x', y'⟩ := Res.bind_ok h'
    rw [x] at x'; injection x' with x'; subst x'
    exact ih y y'

theorem encRun_inv {p : Params} (n : Nat) {e e' : Encoder} (h : e.Inv) (he : encRun p n e = .ok e') : e'.Inv := by
  induction n generalizing e with
  | zero => simp [encRun] at he; exact he ▸ h
  | succ n ih =>
    obtain ⟨a, x, y⟩ := Res.bind_ok he
    obtain ⟨a', x', i⟩ := encHandler_inv (p := p) h
    rw [x] at x'; injection x' with x'; subst x'
    exact ih i y

/-- A decoder run goes on with the selected handler. -/
theorem decRun_snoc {n : Nat} {e e1 : Decoder}  (h : decRun n e = .ok e1) :
    decRun (n+1) e = decHandler e1.state e1 := by
  induction n generalizing e with
  | zero =>
    simp [decRun] at h; subst h
    simp [decRun, bind, Except.bind]; cases decHandler e.state e <;> rfl
  | succ n ih =>
    obtain ⟨a, x, y⟩ := Res.bind_ok h
    rw [decRun_succ x]; exact ih y

/-- The decoder after `n` bits are taken, register by register (R102, R103, R105). -/
def Decoder.afterBits (n : Nat) (d : Decoder) : Decoder := { d with
        rbits := d.rbits + 8 * ((n - d.rbits + 7) / 8) - n,
        curByte := if n ≤ d.rbits then d.curByte else d.inByte (d.inHead + (n - d.rbits + 7) / 8 - 1),
        inHead := if d.inHead + (n - d.rbits + 7) / 8 = d.inSize then 0
          else d.inHead + (n - d.rbits + 7) / 8,
        inSize := if d.inHead + (n - d.rbits + 7) / 8 = d.inSize then 0 else d.inSize }

theorem Decoder.afterBits_zero {d : Decoder} (h : d.Readable) : Decoder.afterBits 0 d = d := by
  have := h.drained
  have : (0 - d.rbits + 7) / 8 = 0 := by omega
  cases d; simp_all [Decoder.afterBits]

/-- Taking `n` bits that are there leads to exactly this decoder. -/
theorem Decoder.takeBits_exact (n acc : Nat) {d : Decoder} (h : d.Readable) (hn : n ≤ d.unread.length) {v : Nat} {d' : Decoder}
    (hx : Decoder.takeBits n acc d = .ok (v, d')) : d' = Decoder.afterBits n d := by
  induction n generalizing acc d with
  | zero => simp [Decoder.takeBits] at hx; rw [Decoder.afterBits_zero h]; exact hx.2.symm
  | succ n ih =>
    simp only [Decoder.takeBits] at hx
    obtain ⟨⟨b, d1⟩, h1, h2⟩ := Res.bind_ok hx
    have hb : d.unread ≠ [] := by intro hz; simp [hz] at hn
    obtain ⟨b0, rest, hu⟩ := List.exists_cons_of_ne_nil hb
    obtain ⟨d1', g1, g2⟩ := Decoder.takeBit_spec h hu
    rw [h1] at g1; injection g1 with g1; injection g1 with _ g1; subst g1
    have hl := Decoder.unread_length d
    have := ih _ g2.readable (by rw [g2.unread]; simp; omega) h2
    rw [this]
    have hd := h.drained
    have hc := h.cursors
    have hi := h.inSize
    have hr := h.rbits
    by_cases hz : d.rbits = 0
    · have : d.inHead < d.inSize := by rw [hz] at hl; omega
      have hrf : d1 = { d with
          rbits := 7,
          curByte := d.inByte d.inHead,
          inHead := (if d.inHead + 1 = d.inSize then 0 else d.inHead + 1),
          inSize := (if d.inHead + 1 = d.inSize then 0 else d.inSize) } := by
        have hlt : d.inHead < d.cfg.ibs := by omega
        simp [Decoder.takeBit, Decoder.refill, hz, Decoder.readByte, readByteAt, readAt, hlt, bind, Except.bind, pure, Except.pure, Decoder.resetIfDrained] at h1
        rw [← h1.2]
        by_cases he : d.inHead + 1 = d.inSize <;> simp [he]
      rw [hrf]
      unfold Decoder.afterBits
      simp only [hz]
      have hlen : 8 * (d.inSize - d.inHead) ≥ n + 1 := by omega
      by_cases he : d.inHead + 1 = d.inSize
      · have hn7 : n ≤ 7 := by omega
        have e1 : (n - 7 + 7) / 8 = 0 := by omega
        have e2 : (n + 1 - 0 + 7) / 8 = 1 := by omega
        simp only [e1, e2]; simp [he, hn7, show d.inSize - 1 = d.inHead by omega]
      · by_cases hn7 : n ≤ 7
        · have e1 : (n - 7 + 7) / 8 = 0 := by omega
          have e2 : (n + 1 - 0 + 7) / 8 = 1 := by omega
          simp only [e1, e2]; simp [he, hn7]
        · have e2 : (n + 1 - 0 + 7) / 8 = (n - 7 + 7) / 8 + 1 := by omega
          simp only [if_neg he, e2, if_neg hn7, if_neg (show ¬ n + 1 ≤ 0 by omega)]
          have e3 : d.inHead + 1 + (n - 7 + 7) / 8 = d.inHead + ((n - 7 + 7) / 8 + 1) := by omega
          rw [e3]
          congr 1
          omega
    · have hrf : d1 = { d with rbits := d.rbits - 1 } := by
        simp [Decoder.takeBit, Decoder.refill, hz, bind, Except.bind, pure, Except.pure] at h1
        exact h1.2.symm
      rw [hrf]
      unfold Decoder.afterBits
      simp only
      have e2 : n + 1 - d.rbits = n - (d.rbits - 1) := by omega
      rw [e2]
      have e3 : (n ≤ d.rbits - 1) ↔ (n + 1 ≤ d.rbits) := by omega
      simp only [e3]
      congr 1
      omega

end Sys2Proof.Machine
end

