-- ==== Sys2Proof/Laws/Stall.lean ====
section
/-! SUPPORT. A decoder whose unread bits end before the token they begin: its handlers take some of the
bits, output nothing and stall in the middle of the token (R88, R184). -/

namespace Sys2Proof.Machine

/-- How many bits the token under way still needs, the tag included at its beginning (R82, R83, R86). -/
def Decoder.bitsToCome (d : Decoder) : Nat :=
  match d.state with
  | .tagBit =>
    match d.unread with
    | [] => 1
    | true :: _ => 9
    | false :: _ => 1 + d.cfg.windowBits + d.cfg.lookaheadBits
  | .yieldLiteral => 8
  | .backrefIndexMsb => d.cfg.windowBits + d.cfg.lookaheadBits
  | .backrefIndexLsb => min d.cfg.windowBits 8 + d.cfg.lookaheadBits
  | .backrefCountMsb => d.cfg.lookaheadBits
  | .backrefCountLsb => min d.cfg.lookaheadBits 8
  | .yieldBackref => 0

/-- `d` has taken bits of the token that `d0` is at the beginning of, and the rest of it is not all
there. -/
structure Decoder.Short (d0 d : Decoder) : Prop where
  inv : d.Inv
  taken : ∃ k o c, k ≤ d0.unread.length ∧ Decoder.Consumed k (d0.withField o c d.state) d
  short : d.unread.length < d.bitsToCome
  atTag : d.state = .tagBit → d = d0
  literal : d.state = .yieldLiteral → d0.unread.head? = some true
  field : d.state ≠ .tagBit → d.state ≠ .yieldLiteral → d0.unread.head? = some false

theorem Decoder.Short.notCopying {d0 d : Decoder} (h : Decoder.Short d0 d) : d.state ≠ .yieldBackref := by
  intro hq
  have := h.short
  rw [Decoder.bitsToCome, hq] at this
  exact Nat.not_lt_zero _ this

/-- A handler that reads a field stalls, or goes on in another state with the rest still not there. -/
theorem Decoder.Short.readField {d0 d d' : Decoder} (h : Decoder.Short d0 d) (hi : d'.Inv) {n : Nat}
    {use : Nat → Decoder → Res Decoder} (h1 : 1 ≤ n) (h15 : n ≤ 15)
    (he : Decoder.readField n use d = .ok d')
    (huse : ∀ d1, Decoder.Consumed n d d1 → n ≤ d.unread.length →
      use (numberFrom 0 (d.unread.take n)) d1 = .ok d' → ∃ o c q, d' = d1.withField o c q ∧
        q ≠ .tagBit ∧ q ≠ d.state ∧ d.unread.length - n < (d1.withField o c q).bitsToCome ∧
        (q = .yieldLiteral → d0.unread.head? = some true) ∧
        (q ≠ .yieldLiteral → d0.unread.head? = some false)) :
    d' = d ∨ d'.state ≠ d.state ∧ Decoder.Short d0 d' := by
  rcases Decoder.readField_spec (use := use) h.inv.readable h1 h15 with ⟨-, e⟩ | ⟨hl, d1, c1, e⟩
  · rw [e] at he; injection he with he; exact .inl he.symm
  · rw [e] at he
    obtain ⟨o, c, q, rfl, q1, q2, q3, q4, q5⟩ := huse d1 c1 hl he
    obtain ⟨k, o0, c0, hk, hc⟩ := h.taken
    have hu : d.unread.length = d0.unread.length - k := by
      rw [hc.unread, List.length_drop]; rfl
    have hu1 : (d1.withField o c q).unread.length = d.unread.length - n := by
      show d1.unread.length = _
      rw [c1.unread, List.length_drop]
    exact .inr ⟨q2, hi, ⟨k + n, o, c, by omega, (hc.trans c1).withField o c q⟩, by rw [hu1]; exact q3,
      fun hq => absurd hq q1, q4, fun _ => q5⟩

/-- One handler step: a stall that changes nothing, or the token under way goes on. -/
theorem Decoder.Short.step {d0 d d' : Decoder} (h : Decoder.Short d0 d)
    (he : decHandler d.state d = .ok d') : d' = d ∨ d'.state ≠ d.state ∧ Decoder.Short d0 d' := by
  have hi : d'.Inv := by
    obtain ⟨d2, e, st⟩ := decHandler_stepped h.inv
    rw [he] at e; injection e with e; rw [e]; exact st.inv
  have hs := h.short
  have hW := h.inv.legal
  match hq : d.state with
  | .tagBit =>
    have h0 : d.unread = d0.unread := by rw [h.atTag hq]
    rw [hq] at he
    rw [Decoder.bitsToCome, hq] at hs
    refine hq ▸ h.readField hi (n := 1) (by decide) (by decide) he fun d1 c1 hl e => ?_
    match hu : d.unread with
    | [] => rw [hu] at hl; cases hl
    | true :: rest =>
      rw [hu] at hs e
      simp only [tagBitRead, List.take_succ_cons, List.take_zero, numberFrom] at e
      simp only [List.length_cons] at hs
      injection e with e
      exact ⟨d1.offset, d1.count, .yieldLiteral, e.symm, by simp, by simp [hq],
        by simp only [Decoder.bitsToCome, List.length_cons]; omega, fun _ => by rw [← h0, hu]; rfl,
        fun hx => absurd rfl hx⟩
    | false :: rest =>
      rw [hu] at hs e
      have hd : d0.unread.head? = some false := by rw [← h0, hu]; rfl
      simp only [tagBitRead, List.take_succ_cons, List.take_zero, numberFrom] at e
      simp only [List.length_cons] at hs
      rw [if_neg (by decide)] at e
      by_cases h8 : 8 < d1.cfg.windowBits
      · rw [if_pos h8] at e; injection e with e
        exact ⟨d1.offset, d1.count, .backrefIndexMsb, e.symm, by simp, by simp [hq],
          by simp only [Decoder.bitsToCome, c1.cfg, List.length_cons]; omega, by simp, fun _ => hd⟩
      · rw [if_neg h8] at e; injection e with e
        rw [c1.cfg] at h8
        exact ⟨0, d1.count, .backrefIndexLsb, e.symm, by simp, by simp [hq],
          by simp only [Decoder.bitsToCome, c1.cfg, List.length_cons]; omega, by simp, fun _ => hd⟩
  | .yieldLiteral =>
    rw [hq] at he
    rw [Decoder.bitsToCome, hq] at hs
    simp only [decHandler, decYieldLiteral] at he hs
    split at he
    · injection he with he; exact .inl he.symm
    · rcases Decoder.readField_spec (use := literalRead) h.inv.readable (n := 8) (by decide) (by decide) with
        ⟨-, e⟩ | ⟨hl, -⟩
      · rw [e] at he; injection he with he; exact .inl he.symm
      · omega
  | .backrefIndexMsb =>
    have hd := h.field (by simp [hq]) (by simp [hq])
    have h8 := h.inv.indexMsb hq
    rw [hq] at he
    rw [Decoder.bitsToCome, hq] at hs
    simp only [decHandler, decBackrefIndexMsb, minus_of_le (Nat.le_of_lt h8), Res.ok_bind] at he hs
    refine hq ▸ h.readField hi (by omega) (by omega) he fun d1 c1 hl e => ?_
    injection e with e
    refine ⟨_, d1.count, .backrefIndexLsb, e.symm, by simp, by simp [hq], ?_, by simp, fun _ => hd⟩
    simp only [Decoder.bitsToCome, c1.cfg]; omega
  | .backrefIndexLsb =>
    have hd := h.field (by simp [hq]) (by simp [hq])
    rw [hq] at he
    rw [Decoder.bitsToCome, hq] at hs
    simp only at hs
    refine hq ▸ h.readField hi (n := min d.cfg.windowBits 8) (by omega) (by omega) he fun d1 c1 hl e => ?_
    injection e with e
    refine ⟨_, 0, _, e.symm, by split <;> simp, by split <;> simp [hq], ?_, by split <;> simp, fun _ => hd⟩
    by_cases h8 : 8 < d1.cfg.lookaheadBits
    · rw [if_pos h8]; simp only [Decoder.bitsToCome, c1.cfg]; omega
    · rw [if_neg h8]; rw [c1.cfg] at h8; simp only [Decoder.bitsToCome, c1.cfg]; omega
  | .backrefCountMsb =>
    have hd := h.field (by simp [hq]) (by simp [hq])
    have h8 := h.inv.countMsb hq
    rw [hq] at he
    rw [Decoder.bitsToCome, hq] at hs
    simp only [decHandler, decBackrefCountMsb, minus_of_le (Nat.le_of_lt h8), Res.ok_bind] at he hs
    refine hq ▸ h.readField hi (by omega) (by omega) he fun d1 c1 hl e => ?_
    injection e with e
    refine ⟨d1.offset, _, .backrefCountLsb, e.symm, by simp, by simp [hq], ?_, by simp, fun _ => hd⟩
    simp only [Decoder.bitsToCome, c1.cfg]; omega
  | .backrefCountLsb =>
    rw [hq] at he
    rw [Decoder.bitsToCome, hq] at hs
    rcases Decoder.readField_spec (use := countLsbRead) (n := min d.cfg.lookaheadBits 8) h.inv.readable
        (by omega) (by omega) with ⟨-, e⟩ | ⟨hl, -⟩
    · exact .inl (by
        have : decHandler .backrefCountLsb d = .ok d := e
        rw [this] at he; injection he with he; exact he.symm)
    · simp only at hs; omega
  | .yieldBackref => exact absurd hq h.notCopying

theorem Decoder.Short.run (n : Nat) {d0 d d' : Decoder} (h : Decoder.Short d0 d)
    (he : decRun n d = .ok d') : Decoder.Short d0 d' := by
  induction n generalizing d with
  | zero => injection he with he; exact he ▸ h
  | succ n ih =>
    obtain ⟨d1, e1, e2⟩ := Res.bind_ok he
    rcases h.step e1 with rfl | ⟨-, h1⟩
    · exact ih h e2
    · exact ih h1 e2

/-- The beginning of a token whose bits are not all there (R88). -/
theorem Decoder.Short.start {d : Decoder} (h : d.Inv) (hq : d.state = .tagBit) {why : Reject}
    (he : decodeToken d.cfg.layout d.unread = .error why) : Decoder.Short d d := by
  refine ⟨h, ⟨0, d.offset, d.count, Nat.zero_le _, Decoder.Consumed.refl h.readable⟩, ?_, fun _ => rfl,
    by simp [hq], fun hx => absurd hq hx⟩
  rw [Decoder.bitsToCome, hq]
  match hu : d.unread with
  | [] => exact Nat.zero_lt_one
  | true :: rest =>
    rw [hu] at he
    by_cases hl : 8 ≤ rest.length
    · simp only [decodeToken, takeField_of_le hl] at he; cases he
    · simp only [List.length_cons]; omega
  | false :: rest =>
    rw [hu] at he
    by_cases hl : d.cfg.windowBits + d.cfg.lookaheadBits ≤ rest.length
    · have h1 : d.cfg.layout.windowBits ≤ rest.length := by simp only [Cfg.layout]; omega
      have h2 : d.cfg.layout.lookaheadBits ≤ (rest.drop d.cfg.layout.windowBits).length := by
        simp only [Cfg.layout, List.length_drop]; omega
      simp only [decodeToken, takeField_of_le h1, bind, Except.bind, takeField_of_le h2] at he
      cases he
    · simp only [List.length_cons]; omega

/-- What `stallInToken` does at the beginning of a token whose bits are not all there: some handler
steps, after which the next one changes nothing. -/
theorem stallInToken_spec {s : State} {d : Decoder} {why : Reject} (hs : s.dec = some d) (h : d.Inv)
    (hq : d.state = .tagBit) (he : decodeToken d.cfg.layout d.unread = .error why) :
    ∃ n d1, stallInToken s = .next (s.setDec (some d1)) ∧ decRun n d = .ok d1 ∧
      decHandler d1.state d1 = .ok d1 ∧ Decoder.Short d d1 := by
  obtain ⟨d', r, n, d1, g1, -, g3, -, g5, g6, -⟩ := decPollLoop_spec _ h (Decoder.stepsLeft_lt h)
  have h1 := (Decoder.Short.start h hq he).run n g3
  rcases h1.step g5 with rfl | ⟨hx, -⟩
  · exact ⟨n, d', onToken_of_ok hs hq (by rw [g1]; rfl), g3, g5, h1⟩
  · exact absurd g6 hx

/-- What `stallInToken` leaves, whatever it starts from: the invariant, CFG and everything else. -/
theorem stallInToken_next {s t : State} (h : stallInToken s = .next t) :
    ∃ d d', s.dec = some d ∧ t = s.setDec (some d') ∧ d'.cfg = d.cfg ∧ (d.Inv → d'.Inv) := by
  obtain ⟨d, d', hd, -, e, rfl⟩ := onToken_next h
  match hx : decPollLoop (decPollBound d.cfg) d, e with
  | .ok (d2, r), e =>
    injection e with e; subst e
    refine ⟨d, d2, hd, rfl, decPollLoop_same _ hx, fun hi => ?_⟩
    obtain ⟨d3, r3, n, d1, g1, -, -, -, -, -, g7, -⟩ := decPollLoop_spec _ hi (Decoder.stepsLeft_lt hi)
    rw [hx] at g1; injection g1 with g1; injection g1 with g1 _
    rw [g1]; exact g7

end Sys2Proof.Machine
end

