-- ==== Sys2Proof/Laws/Step.lean ====
section
/-! SUPPORT. What a step that answers a next state has done. -/

namespace Sys2Proof.Machine

/-- Every next state of a step: nothing is asked for, or the request's instruction has run, or a token
request has stalled the decoder in a token whose bits are not all there. -/
theorem step_next {s t : State} (h : step s = .next t) :
    (s.requests = [] ∧ t = s) ∨
    ∃ r rest c, s.requests = r :: rest ∧ fetch s r = .next c ∧
      ((∃ i, decode s.layout c = .ok i ∧ exec i { s with requests := rest } = .next t) ∨
        (decode s.layout c = .error .incompleteToken ∧
          stallInToken { s with requests := rest } = .next t)) := by
  unfold step at h
  split at h
  case h_1 hr => injection h with h; exact .inl ⟨hr, h.symm⟩
  case h_2 r rest hr =>
    have hd : s.dropRequest = { s with requests := rest } := by rw [State.dropRequest, hr]; rfl
    rw [hd] at h
    cases hf : fetch s r with
    | fault x => rw [hf] at h; cases h
    | refused x => rw [hf] at h; cases h
    | next c =>
      rw [hf] at h
      refine .inr ⟨r, rest, c, hr, hf, ?_⟩
      dsimp only at h
      cases hc : decode s.layout c with
      | ok i => rw [hc] at h; exact .inl ⟨i, rfl, h⟩
      | error why =>
        rw [hc] at h
        cases why with
        | incompleteToken => exact .inr ⟨rfl, h⟩
        | reservedBits => cases h
        | reservedOp => cases h
        | unusedStateCode => cases h

end Sys2Proof.Machine
end

