-- ==== Sys2Proof/Tests/Slice0.lean ====
section
/-! SUPPORT. The model's own tests. Expected values are the spec's: its encoding tables, the examples in
its rules, and the vectors of 95_test_vectors.md (named B, X, V, C and P as there), or worked out by
hand from a rule where a comment says so. The second half gives, for every statement with hypotheses,
a concrete state and operands that meet them. -/

namespace Sys2Proof.Machine.Tests

/-! ### Well-formedness: the smoke test -/

theorem test_wellFormed_bref_distance_zero : (Instr.bref 0 1).wellFormed ⟨4, 3⟩ = false := by decide
theorem test_wellFormed_bref_distance_above : (Instr.bref 17 1).wellFormed ⟨4, 3⟩ = false := by decide
theorem test_wellFormed_bref_length_zero : (Instr.bref 1 0).wellFormed ⟨4, 3⟩ = false := by decide
theorem test_wellFormed_bref_length_above : (Instr.bref 1 9).wellFormed ⟨4, 3⟩ = false := by decide
theorem test_wellFormed_construct_window : (Instr.encConstruct 16 3 8 8).wellFormed ⟨4, 3⟩ = false ∧
    (Instr.decConstruct 16 3 8 8).wellFormed ⟨4, 3⟩ = false := by decide
theorem test_wellFormed_construct_lookahead : (Instr.encConstruct 4 16 8 8).wellFormed ⟨4, 3⟩ = false ∧
    (Instr.decConstruct 4 16 8 8).wellFormed ⟨4, 3⟩ = false := by decide

/-! ### Decoding: every constructor by a word written out from the spec's encoding -/

/-- R82: tag 1, then 0x41 = 01000001, first bit first. -/
theorem test_decode_lit :
    decode ⟨8, 4⟩ (.token [true, false, true, false, false, false, false, false, true]) =
      .ok (.lit 0x41) := by decide

/-- R83, W = 8 and L = 4: tag 0, distance 3 as 00000010, length 6 as 0101 (V4's BREF 3,6). -/
theorem test_decode_bref :
    decode ⟨8, 4⟩ (.token [false, false, false, false, false, false, false, true, false,
      false, true, false, true]) = .ok (.bref 3 6) := by decide

/-- R93. -/
theorem test_decode_encoder_states :
    decode ⟨4, 3⟩ (.encState 0b0000) = .ok .encStepNotFull ∧
    decode ⟨4, 3⟩ (.encState 0b0001) = .ok .encStepFilled ∧
    decode ⟨4, 3⟩ (.encState 0b0010) = .ok .encStepSearch ∧
    decode ⟨4, 3⟩ (.encState 0b0011) = .ok .encStepYieldTagBit ∧
    decode ⟨4, 3⟩ (.encState 0b0100) = .ok .encStepYieldLiteral ∧
    decode ⟨4, 3⟩ (.encState 0b0101) = .ok .encStepYieldBrIndex ∧
    decode ⟨4, 3⟩ (.encState 0b0110) = .ok .encStepYieldBrLength ∧
    decode ⟨4, 3⟩ (.encState 0b0111) = .ok .encStepSaveBacklog ∧
    decode ⟨4, 3⟩ (.encState 0b1000) = .ok .encStepFlushBits ∧
    decode ⟨4, 3⟩ (.encState 0b1001) = .ok .encStepDone ∧
    decode ⟨4, 3⟩ (.encState 0b1010) = .error .unusedStateCode ∧
    decode ⟨4, 3⟩ (.encState 0b1111) = .error .unusedStateCode := by decide

/-- R94. -/
theorem test_decode_decoder_states :
    decode ⟨4, 3⟩ (.decState 0b000) = .ok .decStepTagBit ∧
    decode ⟨4, 3⟩ (.decState 0b001) = .ok .decStepYieldLiteral ∧
    decode ⟨4, 3⟩ (.decState 0b010) = .ok .decStepBackrefIndexMsb ∧
    decode ⟨4, 3⟩ (.decState 0b011) = .ok .decStepBackrefIndexLsb ∧
    decode ⟨4, 3⟩ (.decState 0b100) = .ok .decStepBackrefCountMsb ∧
    decode ⟨4, 3⟩ (.decState 0b101) = .ok .decStepBackrefCountLsb ∧
    decode ⟨4, 3⟩ (.decState 0b110) = .ok .decStepYieldBackref ∧
    decode ⟨4, 3⟩ (.decState 0b111) = .error .unusedStateCode := by decide

/-- R95, R97: U = 0. CFG0 = 0x48 is W = 8 and L = 4 (C1). -/
theorem test_decode_encoder_commands :
    decode ⟨4, 3⟩ (.command 0b00000000 ⟨0x48, 64, 8, []⟩) = .ok (.encConstruct 8 4 64 8) ∧
    decode ⟨4, 3⟩ (bareCommand 0b00000001) = .ok .encReset ∧
    decode ⟨4, 3⟩ (.command 0b00000010 ⟨0, 0, 0, [0x41, 0x42]⟩) = .ok (.encSink [0x41, 0x42]) ∧
    decode ⟨4, 3⟩ (bareCommand 0b00000011) = .ok .encPoll ∧
    decode ⟨4, 3⟩ (bareCommand 0b00000100) = .ok .encDrain ∧
    decode ⟨4, 3⟩ (bareCommand 0b00000101) = .ok .encFinish := by decide

/-- R95, R97: U = 1. CFG0 = 0xEF is W = 15 and L = 14 (C6). -/
theorem test_decode_decoder_commands :
    decode ⟨4, 3⟩ (.command 0b10000000 ⟨0xEF, 1, 1, []⟩) = .ok (.decConstruct 15 14 1 1) ∧
    decode ⟨4, 3⟩ (bareCommand 0b10000001) = .ok .decReset ∧
    decode ⟨4, 3⟩ (.command 0b10000010 ⟨0, 0, 0, [0x83]⟩) = .ok (.decSink [0x83]) ∧
    decode ⟨4, 3⟩ (bareCommand 0b10000011) = .ok .decPoll ∧
    decode ⟨4, 3⟩ (bareCommand 0b10000100) = .ok .decDrain ∧
    decode ⟨4, 3⟩ (bareCommand 0b10000101) = .ok .decFinish := by decide

/-- C8 and C9. -/
theorem test_decode_malformed_commands :
    decode ⟨4, 3⟩ (bareCommand 0x06) = .error .reservedOp ∧
    decode ⟨4, 3⟩ (bareCommand 0x87) = .error .reservedOp ∧
    decode ⟨4, 3⟩ (bareCommand 0x0B) = .error .reservedBits := by decide

/-- R86: a token read off a longer sequence leaves the bits after it (V3's stream A0 81 00). -/
theorem test_decode_token_then_rest :
    decodeToken ⟨4, 3⟩ ([0xA0#8, 0x81#8, 0x00#8].flatMap byteBits) =
      .ok (.lit 0x41, [false, false, false, false, false, false, true, false,
        false, false, false, false, false, false, false]) := by decide

/-- Table numbers: a command word, a state code by its width, and a token whose first bit is bit 0. -/
theorem test_decodeTableWord :
    decodeTableWord 8 133 = some .decFinish ∧ decodeTableWord 4 9 = some .encStepDone ∧
    decodeTableWord 3 6 = some .decStepYieldBackref ∧ decodeTableWord 16 1 = some (.lit 0) ∧
    decodeTableWord 16 0 = some (.bref 1 1) ∧ decodeTableWord 8 0xFF = none := by decide

/-! ### States the tests run on, and what they look at -/

/-- A machine with this encoder and no decoder. -/
def onEnc (e : Encoder) : State := { State.reset with enc := some e }

/-- A machine with this decoder and no encoder. -/
def onDec (d : Decoder) : State := { State.reset with dec := some d }

/-- The encoder after an instruction that answers a next state. -/
def encAfter (o : Host.Outcome State Fault Refusal) : Option Encoder :=
  match o with
  | .next t => t.enc
  | _ => none

/-- The decoder after an instruction that answers a next state. -/
def decAfter (o : Host.Outcome State Fault Refusal) : Option Decoder :=
  match o with
  | .next t => t.dec
  | _ => none

/-- The responses given up to after an instruction that answers a next state. -/
def answers (o : Host.Outcome State Fault Refusal) : List Result :=
  match o with
  | .next t => t.responses.map Response.result
  | _ => []

/-- The name an instruction is refused by. -/
def refusal (o : Host.Outcome State Fault Refusal) : Option Refusal :=
  match o with
  | .refused x => some x
  | _ => none

/-- The letters of "AAAA" at E.HBUF[16 ..]. -/
def fourAs : Memory := [(16, 0x41), (17, 0x41), (18, 0x41), (19, 0x41)]

/-- V3 before step 1: W = 4, L = 3, B = 8, OBS = 8, after SINK "AAAA" and FINISH. -/
def v3 : Encoder :=
  { Encoder.initial ⟨4, 3, 8, 8⟩ with state := .filled, inputSize := 4, finishing := true, hbuf := fourAs }

/-- The index of V3: the 16 zeros of the history linked one to the next, then the four letters. -/
def v3Index : IndexTable :=
  [(1, 0), (2, 1), (3, 2), (4, 3), (5, 4), (6, 5), (7, 6), (8, 7), (9, 8), (10, 9), (11, 10), (12, 11),
    (13, 12), (14, 13), (15, 14), (17, 16), (18, 17), (19, 18)]

/-- V3 after step 1. -/
def v3s1 : Encoder := { v3 with state := .search, index := v3Index }
/-- V3 after step 2. -/
def v3s2 : Encoder := { v3s1 with state := .yieldTagBit, msi := 1 }
/-- V3 after step 3. -/
def v3s3 : Encoder := { v3s2 with state := .yieldLiteral, acc := 0x80, wbits := 1 }
/-- V3 after step 4. -/
def v3s4 : Encoder := { v3s3 with state := .search, out := [(0, 0xA0)], outSize := 1 }
/-- V3 after step 5. -/
def v3s5 : Encoder := { v3s4 with state := .yieldTagBit, matchLen := 3, matchDist := 1 }
/-- V3 after step 6. -/
def v3s6 : Encoder := { v3s5 with state := .yieldBrIndex, wbits := 2, outBits := 0, outCount := 4 }
/-- V3 after step 7. -/
def v3s7 : Encoder := { v3s6 with wbits := 6, outCount := 0 }
/-- V3 after step 8. -/
def v3s8 : Encoder := { v3s7 with state := .yieldBrLength, outBits := 2, outCount := 3 }
/-- V3 after step 9: 0x80 and 0b010 at bits 1 and down make 0x81 and one more bit. -/
def v3s9 : Encoder :=
  { v3s8 with out := [(0, 0xA0), (1, 0x81)], outSize := 2, acc := 0, wbits := 1, outCount := 0 }
/-- V3 after step 10. -/
def v3s10 : Encoder := { v3s9 with state := .search, msi := 4, matchLen := 0 }
/-- V3 after step 11. -/
def v3s11 : Encoder := { v3s10 with state := .flushBits }
/-- V3 after step 12: E.OUT is A0 81 00, its last byte equal to what an unlisted index reads as. -/
def v3s12 : Encoder := { v3s11 with state := .done, outSize := 3, wbits := 0 }

/-- V3's stream in D.IN: W = 4, L = 3, IBS = 8, OBS = 8, after SINK [A0 81 00]. -/
def u3 : Decoder := { Decoder.initial ⟨4, 3, 8, 8⟩ with inp := [(0, 0xA0), (1, 0x81)], inSize := 3 }
/-- V3's decoding after step 1. -/
def u3s1 : Decoder := { u3 with state := .yieldLiteral, curByte := 0xA0, rbits := 7, inHead := 1 }
/-- V3's decoding after step 2. -/
def u3s2 : Decoder :=
  { u3s1 with state := .tagBit, curByte := 0x81, inHead := 2, head := 1, outSize := 1,
              win := [(0, 0x41)], out := [(0, 0x41)] }
/-- V3's decoding after step 3. -/
def u3s3 : Decoder := { u3s2 with state := .backrefIndexLsb, rbits := 6 }
/-- V3's decoding after step 4. -/
def u3s4 : Decoder := { u3s3 with state := .backrefCountLsb, rbits := 2, offset := 1 }
/-- V3's decoding after step 5. -/
def u3s5 : Decoder :=
  { u3s4 with state := .yieldBackref, curByte := 0x00, rbits := 7, inHead := 0, inSize := 0, count := 3 }
/-- V3's decoding after step 6. -/
def u3s6 : Decoder :=
  { u3s5 with state := .tagBit, count := 0, head := 4, outSize := 4,
              win := [(0, 0x41), (1, 0x41), (2, 0x41), (3, 0x41)],
              out := [(0, 0x41), (1, 0x41), (2, 0x41), (3, 0x41)] }

/-- A decoder with wide fields, W = 12 and L = 10, and the byte 0xA5 to take bits from. -/
def wide (q : DecState) : Decoder :=
  { Decoder.initial ⟨12, 10, 8, 8⟩ with state := q, curByte := 0xA5, rbits := 8 }

/-! ### Encoder steps (V3 step trace) -/

/-- R147: NOT_FULL runs no handler. -/
theorem test_encStepNotFull :
    encAfter (exec .encStepNotFull (onEnc (Encoder.initial ⟨4, 3, 8, 8⟩))) =
      some (Encoder.initial ⟨4, 3, 8, 8⟩) := by decide

theorem test_encStepFilled : encAfter (exec .encStepFilled (onEnc v3)) = some v3s1 := by decide
theorem test_encStepSearch_literal : encAfter (exec .encStepSearch (onEnc v3s1)) = some v3s2 := by decide
theorem test_encStepSearch_match : encAfter (exec .encStepSearch (onEnc v3s4)) = some v3s5 := by decide
theorem test_encStepYieldTagBit_literal :
    encAfter (exec .encStepYieldTagBit (onEnc v3s2)) = some v3s3 := by decide
theorem test_encStepYieldTagBit_match :
    encAfter (exec .encStepYieldTagBit (onEnc v3s5)) = some v3s6 := by decide
theorem test_encStepYieldLiteral : encAfter (exec .encStepYieldLiteral (onEnc v3s3)) = some v3s4 := by decide
theorem test_encStepYieldBrIndex_push :
    encAfter (exec .encStepYieldBrIndex (onEnc v3s6)) = some v3s7 := by decide
theorem test_encStepYieldBrIndex_done :
    encAfter (exec .encStepYieldBrIndex (onEnc v3s7)) = some v3s8 := by decide
theorem test_encStepYieldBrLength_push :
    encAfter (exec .encStepYieldBrLength (onEnc v3s8)) = some v3s9 := by decide
theorem test_encStepYieldBrLength_done :
    encAfter (exec .encStepYieldBrLength (onEnc v3s9)) = some v3s10 := by decide
theorem test_encStepFlushBits : encAfter (exec .encStepFlushBits (onEnc v3s11)) = some v3s12 := by decide
theorem test_encStepDone : encAfter (exec .encStepDone (onEnc v3s12)) = some v3s12 := by decide

/-- P3 before SAVE_BACKLOG: "abcdabcdab" in E.HBUF[16 ..], three literals emitted. -/
def p3 : Encoder :=
  { Encoder.initial ⟨4, 3, 10, 8⟩ with
    state := .saveBacklog, inputSize := 10, msi := 3,
    hbuf := [(16, 0x61), (17, 0x62), (18, 0x63), (19, 0x64), (20, 0x61), (21, 0x62), (22, 0x63),
      (23, 0x64), (24, 0x61), (25, 0x62)] }

/-- P3 #3: E.inputSize = 7, E.msi = 0, E.histFill = 3; 13 zeros, "abc", then the batch "dabcdab", and
the three bytes above it as they were (R154). -/
theorem test_encStepSaveBacklog :
    encAfter (exec .encStepSaveBacklog (onEnc p3)) = some { p3 with
      state := .notFull, inputSize := 7, msi := 0, histFill := 3,
      hbuf := [(13, 0x61), (14, 0x62), (15, 0x63), (16, 0x64), (17, 0x61), (18, 0x62), (19, 0x63),
        (20, 0x64), (21, 0x61), (22, 0x62), (23, 0x64), (24, 0x61), (25, 0x62)] } := by decide

/-! ### Decoder steps (V3's decoding; wide fields by hand from R189 to R192) -/

theorem test_decStepTagBit_literal : decAfter (exec .decStepTagBit (onDec u3)) = some u3s1 := by decide
theorem test_decStepTagBit_backref : decAfter (exec .decStepTagBit (onDec u3s2)) = some u3s3 := by decide
theorem test_decStepYieldLiteral : decAfter (exec .decStepYieldLiteral (onDec u3s1)) = some u3s2 := by decide
theorem test_decStepBackrefIndexLsb :
    decAfter (exec .decStepBackrefIndexLsb (onDec u3s3)) = some u3s4 := by decide
theorem test_decStepBackrefCountLsb :
    decAfter (exec .decStepBackrefCountLsb (onDec u3s4)) = some u3s5 := by decide
theorem test_decStepYieldBackref : decAfter (exec .decStepYieldBackref (onDec u3s5)) = some u3s6 := by decide

/-- The upper 4 bits of a 12-bit distance field: 0b1010 gives 0xA00. -/
theorem test_decStepBackrefIndexMsb :
    decAfter (exec .decStepBackrefIndexMsb (onDec (wide .backrefIndexMsb))) =
      some { wide .backrefIndexMsb with rbits := 4, offset := 0xA00, state := .backrefIndexLsb } := by
  decide

/-- The upper 2 bits of a 10-bit length field: 0b10 gives 0x200. -/
theorem test_decStepBackrefCountMsb :
    decAfter (exec .decStepBackrefCountMsb (onDec (wide .backrefCountMsb))) =
      some { wide .backrefCountMsb with rbits := 6, count := 0x200, state := .backrefCountLsb } := by
  decide

/-! ### Wire tokens -/

theorem test_lit : decAfter (exec (.lit 0x41) (onDec u3)) = some u3s2 := by decide
theorem test_bref : decAfter (exec (.bref 1 3) (onDec u3s2)) = some u3s6 := by decide

/-- V15: [22] is BREF 5,3 at the stream start; the window before the start reads 0. -/
theorem test_bref_before_start :
    decAfter (exec (.bref 5 3) (onDec { Decoder.initial ⟨4, 3, 8, 8⟩ with inp := [(0, 0x22)], inSize := 1 })) =
      some { Decoder.initial ⟨4, 3, 8, 8⟩ with
        inp := [(0, 0x22)], curByte := 0x22, offset := 5, head := 3, outSize := 3 } := by decide

/-! ### Commands -/

/-- C1, C2, C4 and C6. -/
theorem test_encConstruct :
    answers (exec (.encConstruct 8 4 64 8) State.reset) = [.ok] ∧
    answers (exec (.encConstruct 3 3 64 8) State.reset) = [.configError] ∧
    answers (exec (.encConstruct 4 3 7 8) State.reset) = [.configError] ∧
    answers (exec (.encConstruct 15 14 (2 ^ 14) 1) State.reset) = [.ok] := by decide

/-- C3 and C5. -/
theorem test_decConstruct :
    answers (exec (.decConstruct 8 8 64 8) State.reset) = [.configError] ∧
    answers (exec (.decConstruct 4 3 1 1) State.reset) = [.ok] := by decide

/-- C7: no instance after C3. -/
theorem test_decPoll_without_instance :
    refusal (exec .decPoll { State.reset with dec := decAfter (exec (.decConstruct 8 8 64 8) State.reset) }) =
      some .noInstance := by decide

/-- R141: in the middle of a backreference, and not by writing every register. -/
theorem test_encReset : encAfter (exec .encReset (onEnc v3s8)) = some (Encoder.initial ⟨4, 3, 8, 8⟩) := by decide

/-- R181. -/
theorem test_decReset : decAfter (exec .decReset (onDec u3s4)) = some (Decoder.initial ⟨4, 3, 8, 8⟩) := by decide

/-- An encoder with B = 10 as in P3. -/
def p3Start : Encoder := Encoder.initial ⟨4, 3, 10, 8⟩

/-- P3 #1: ten of the twelve bytes "abcdabcdabcd" fit, and fill the batch. -/
theorem test_encSink :
    encAfter (exec (.encSink [0x61, 0x62, 0x63, 0x64, 0x61, 0x62, 0x63, 0x64, 0x61, 0x62, 0x63, 0x64])
        (onEnc p3Start)) = some { p3 with state := .filled, msi := 0 } ∧
    answers (exec (.encSink [0x61, 0x62, 0x63, 0x64, 0x61, 0x62, 0x63, 0x64, 0x61, 0x62, 0x63, 0x64])
        (onEnc p3Start)) = [.accepted 10] := by decide

/-- C10 and C11: MISUSE while FILLED and after FINISH. -/
theorem test_encSink_misuse :
    answers (exec (.encSink [0x63]) (onEnc { p3 with state := .filled })) = [.misuse] ∧
    answers (exec (.encSink [0x63]) (onEnc v3s12)) = [.misuse] := by decide

/-- V3: POLL runs its twelve steps and answers POLL_EMPTY in DONE. -/
theorem test_encPoll :
    encAfter (exec .encPoll (onEnc v3)) = some v3s12 ∧ answers (exec .encPoll (onEnc v3)) = [.pollEmpty] := by
  decide

/-- P1 before #4: "ABABABAB" sunk with B = 16 and OBS = 2, and FINISH. -/
def p1 : Encoder :=
  { Encoder.initial ⟨4, 3, 16, 2⟩ with
    state := .filled, inputSize := 8, finishing := true,
    hbuf := [(16, 0x41), (17, 0x42), (18, 0x41), (19, 0x42), (20, 0x41), (21, 0x42), (22, 0x41), (23, 0x42)] }

/-- P1 #4: "ABABABAB" with OBS = 2 stops with E.OUT full in YIELD_TAG_BIT. -/
theorem test_encPoll_more :
    answers (exec .encPoll (onEnc p1)) = [.pollMore] ∧
    (encAfter (exec .encPoll (onEnc p1))).map (fun e => (e.state, e.msi, e.matchLen, e.matchDist)) =
      some (.yieldTagBit, 2, 6, 2) ∧
    (encAfter (exec .encPoll (onEnc p1))).map (fun e => (e.acc, e.wbits, e.pending)) =
      some (0x80, 2, [0xA0, 0xD0]) := by decide

/-- P1 #5, the bytes staying in place (R113). -/
theorem test_encDrain :
    encAfter (exec .encDrain (onEnc { p1 with out := [(0, 0xA0), (1, 0xD0)], outSize := 2 })) =
      some { p1 with out := [(0, 0xA0), (1, 0xD0)] } ∧
    answers (exec .encDrain (onEnc { p1 with out := [(0, 0xA0), (1, 0xD0)], outSize := 2 })) =
      [.drained [0xA0, 0xD0]] := by decide

/-- C14's first FINISH. -/
theorem test_encFinish :
    encAfter (exec .encFinish (onEnc (Encoder.initial ⟨4, 3, 8, 8⟩))) =
      some { Encoder.initial ⟨4, 3, 8, 8⟩ with state := .filled, finishing := true } ∧
    answers (exec .encFinish (onEnc (Encoder.initial ⟨4, 3, 8, 8⟩))) = [.more] := by decide

/-- P1 #9. -/
theorem test_encFinish_done :
    encAfter (exec .encFinish (onEnc v3s12)) = some v3s12 ∧
    answers (exec .encFinish (onEnc v3s12)) = [.done] := by decide

/-- P2's decoder: IBS = 2 and OBS = 3. -/
def p2 : Decoder := Decoder.initial ⟨4, 3, 2, 3⟩

/-- P2 #1: two of the four bytes fit. -/
theorem test_decSink :
    decAfter (exec (.decSink [0xA0, 0xD0, 0x83, 0x40]) (onDec p2)) =
      some { p2 with inp := [(0, 0xA0), (1, 0xD0)], inSize := 2 } ∧
    answers (exec (.decSink [0xA0, 0xD0, 0x83, 0x40]) (onDec p2)) = [.accepted 2] := by decide

/-- C12. -/
theorem test_decSink_full :
    answers (exec (.decSink [0x83]) (onDec { p2 with inp := [(0, 0xA0), (1, 0xD0)], inSize := 2 })) =
      [.full] := by decide

/-- P2 before #5: the literal 0x41 output and drained, six bits of 0xD0 left, [83 40] sunk. -/
def p2s4 : Decoder :=
  { p2 with state := .yieldLiteral, curByte := 0xD0, rbits := 6, inSize := 2, head := 1,
            inp := [(0, 0x83), (1, 0x40)], win := [(0, 0x41)], out := [(0, 0x41)] }

/-- P2 #5: POLL_MORE in the middle of the copy. -/
theorem test_decPoll_more :
    decAfter (exec .decPoll (onDec p2s4)) = some { p2s4 with
      state := .yieldBackref, curByte := 0x40, rbits := 6, inSize := 0, offset := 2, count := 4, head := 4,
      outSize := 3, win := [(0, 0x41), (1, 0x42), (2, 0x41), (3, 0x42)],
      out := [(0, 0x42), (1, 0x41), (2, 0x42)] } ∧
    answers (exec .decPoll (onDec p2s4)) = [.pollMore] := by decide

/-- V3's decoding, steps 1 to 9: POLL_EMPTY inside the padding. -/
theorem test_decPoll :
    decAfter (exec .decPoll (onDec u3)) =
      some { u3s6 with state := .backrefCountLsb, rbits := 2, offset := 1 } ∧
    answers (exec .decPoll (onDec u3)) = [.pollEmpty] := by decide

/-- P2 #6. -/
theorem test_decDrain :
    decAfter (exec .decDrain (onDec u3s6)) = some { u3s6 with outSize := 0 } ∧
    answers (exec .decDrain (onDec u3s6)) = [.drained [0x41, 0x41, 0x41, 0x41]] := by decide

/-- V18 under both settings of P_DEC_FINISH_IN_LITERAL. -/
theorem test_decFinish_in_literal :
    answers (exec .decFinish (onDec { u3s1 with inHead := 0, inSize := 0 })) = [.more] ∧
    answers (exec .decFinish { onDec { u3s1 with inHead := 0, inSize := 0 } with
      params := ⟨true, .doneIfEmpty⟩ }) = [.done] := by decide

/-- V19 and V17: DONE inside a backreference's fields, MORE while a copy is owed. -/
theorem test_decFinish :
    answers (exec .decFinish (onDec { u3s4 with inHead := 0, inSize := 0 })) = [.done] ∧
    answers (exec .decFinish (onDec u3s5)) = [.more] := by decide

/-- R96's status numbers. -/
theorem test_status :
    [Result.ok, .accepted 3, .pollEmpty, .drained [], .done].map Result.status = [0, 0, 0, 0, 0] ∧
    [Result.configError, .full, .pollMore, .more].map Result.status = [1, 1, 1, 1] ∧
    Result.misuse.status = 2 := by decide

/-! ### Operations (vectors B and X) -/

/-- What a result of two parts answers. -/
def answered {α : Type} (r : Res α) : Option α :=
  match r with
  | .ok a => some a
  | .error _ => none

/-- B1 and B2: the field whole or nothing. -/
theorem test_getBits :
    answered (Decoder.getBits 1 { Decoder.initial ⟨4, 3, 8, 8⟩ with inp := [(0, 0xA0)], inSize := 1 }) =
      some (some (1, { Decoder.initial ⟨4, 3, 8, 8⟩ with inp := [(0, 0xA0)], curByte := 0xA0, rbits := 7 })) ∧
    answered (Decoder.getBits 8
      { Decoder.initial ⟨4, 3, 8, 8⟩ with inp := [(0, 0xA0)], curByte := 0xA0, rbits := 7 }) = some none := by
  decide

/-- B6: the bits below E.acc's written ones stay 0. -/
theorem test_pushBits :
    answered (Encoder.pushBits 4 0b0001 { Encoder.initial ⟨4, 3, 8, 8⟩ with acc := 0x80, wbits := 2 }) =
      some { Encoder.initial ⟨4, 3, 8, 8⟩ with acc := 0x84, wbits := 6 } := by decide

/-- B7's first push: 8 bits 0x00 of the 12-bit field 9, from an empty accumulator. -/
theorem test_pushOutgoing :
    answered (Encoder.pushOutgoing { Encoder.initial ⟨12, 10, 1024, 8⟩ with outBits := 9, outCount := 12 }) =
      some (8, { Encoder.initial ⟨12, 10, 1024, 8⟩ with outBits := 9, outCount := 4, outSize := 1 }) := by
  decide

/-- B9 and B10. -/
theorem test_flushBits :
    answered (Encoder.flushBits { Encoder.initial ⟨4, 3, 8, 8⟩ with acc := 0x40, wbits := 2 }) =
      some { Encoder.initial ⟨4, 3, 8, 8⟩ with out := [(0, 0x40)], outSize := 1 } ∧
    answered (Encoder.flushBits (Encoder.initial ⟨4, 3, 8, 8⟩)) = some (Encoder.initial ⟨4, 3, 8, 8⟩) := by
  decide

/-- X2 and X3. -/
theorem test_windowCopy :
    answered (Decoder.windowCopy 2
        { Decoder.initial ⟨4, 3, 8, 8⟩ with win := [(0, 0x41), (1, 0x42)], head := 2 }) =
      some (0x41, { Decoder.initial ⟨4, 3, 8, 8⟩ with win := [(0, 0x41), (1, 0x42), (2, 0x41)], head := 3 }) ∧
    answered (Decoder.windowCopy 5 (Decoder.initial ⟨4, 3, 8, 8⟩)) =
      some (0x00, { Decoder.initial ⟨4, 3, 8, 8⟩ with head := 1 }) := by decide

/-- X4's batch "abcdabcda", indexed as X4 gives it. -/
def x4 : Encoder :=
  { Encoder.initial ⟨4, 3, 9, 8⟩ with
    state := .search, inputSize := 9,
    hbuf := [(16, 0x61), (17, 0x62), (18, 0x63), (19, 0x64), (20, 0x61), (21, 0x62), (22, 0x63), (23, 0x64),
      (24, 0x61)],
    index := [(1, 0), (2, 1), (3, 2), (4, 3), (5, 4), (6, 5), (7, 6), (8, 7), (9, 8), (10, 9), (11, 10),
      (12, 11), (13, 12), (14, 13), (15, 14), (20, 16), (21, 17), (22, 18), (23, 19), (24, 20)] }

/-- X4. -/
theorem test_buildIndex : answered (Encoder.buildIndex { x4 with index := [] }) = some x4 := by decide

/-- X5. -/
theorem test_longestMatch : answered (Encoder.longestMatch x4 20 4 5) = some (some (5, 16)) := by decide

/-- X7, X8 and X9. -/
theorem test_accepts :
    ¬ accepts ⟨8, 4, 16, 1⟩ 1 ∧ accepts ⟨8, 4, 16, 1⟩ 2 ∧ ¬ accepts ⟨11, 4, 16, 1⟩ 2 ∧ accepts ⟨11, 4, 16, 1⟩ 3 ∧
      ¬ accepts ⟨15, 14, 2 ^ 14, 1⟩ 3 ∧ accepts ⟨15, 14, 2 ^ 14, 1⟩ 4 := by decide

/-! ### The reference functions and the host procedures -/

/-- V2 and V2b, as tokens. -/
theorem test_encodeTokens_zero_history :
    encodeTokens ⟨true, .more⟩ ⟨4, 3⟩ [0, 0, 0, 0] = [.bref 1 4] ∧
    encodeTokens ⟨false, .more⟩ ⟨4, 3⟩ [0, 0, 0, 0] = [.lit 0, .bref 1 3] := by decide

/-- V7e. -/
theorem test_encodeRef :
    encodeRef Params.default ⟨4, 3⟩ [0x78, 0x79, 0x78, 0x79] =
      [0xBC#8, 0x5E#8, 0x42#8, 0x40#8].flatMap byteBits := by decide

/-- V16: BREF 1,1, which the encoder never emits, and seven padding bits. -/
theorem test_decodeRef :
    decodeRef ⟨4, 3⟩ ([0xA0#8, 0x80#8, 0x00#8].flatMap byteBits) = [0x41, 0x41] := by decide

/-- R211's example. -/
theorem test_encProcess :
    (answered (encProcess Params.default [0x41, 0x42, 0x41, 0x42, 0x41, 0x42, 0x41, 0x42] true
      (Encoder.initial ⟨4, 3, 16, 2⟩))).map (fun x => (x.1, x.2.1)) =
      some ([[0xA0, 0xD0], [0x83, 0x40]], true) := by decide

/-- R212's example. -/
theorem test_decProcess :
    (answered (decProcess Params.default [0xA0, 0xD0, 0x83, 0x40] p2)).map (fun x => (x.1, x.2.1)) =
      some ([[0x41, 0x42, 0x41], [0x42, 0x41, 0x42], [0x41, 0x42]], true) := by decide

/-! ### Steps -/

/-- R237: nothing asked, nothing done. -/
theorem test_step_idle : (match step State.reset with
    | .next t => decide (t = State.reset)
    | _ => false) = true := by decide

/-- C9 as a step. -/
theorem test_step_malformed :
    refusal (step { State.reset with requests := [.command 0x0B Operands.none] }) =
      some (.illegal .reservedBits) := by decide

/-- A command, a handler step and a token placed by withFetchWord run as the very next step. -/
theorem test_withFetchWord :
    answers (step (State.reset.withFetchWord 8 133)) = [.done] ∧
    (encAfter (step (State.reset.withFetchWord 4 1))).map Encoder.state = some .search ∧
    (decAfter (step (State.reset.withFetchWord 16 (1 + 2 * 0x82)))).map Decoder.pending = some [0x41] := by
  decide

/-- V3's decoding, steps 7 to 9: a token request takes the padding's zeros and stalls for the length
field (R88). -/
theorem test_step_incompleteToken :
    decAfter (step { onDec u3s6 with requests := [.token] }) =
      some { u3s6 with state := .backrefCountLsb, rbits := 2, offset := 1 } ∧
    answers (step { onDec u3s6 with requests := [.token] }) = [] := by decide

/-! ### Witnesses: the invariants, checked on a concrete instance -/

/-- Every clause of Encoder.Inv, as a check. -/
def encCheck (e : Encoder) : Bool :=
  decide (legalEncoder e.cfg) && decide (e.msi ≤ e.inputSize ∧ e.inputSize ≤ e.cfg.ibs) &&
  decide (e.outSize ≤ e.cfg.obs ∧ e.wbits ≤ 7 ∧ e.matchLen ≤ e.cfg.lookahead ∧ e.matchDist ≤ e.cfg.window) &&
  decide (e.outBits < 2 ^ 15 ∧ e.outCount ≤ 15 ∧ e.histFill ≤ e.cfg.window) &&
  decide (0 < e.matchLen → 1 ≤ e.matchDist ∧ e.msi + e.matchLen ≤ e.inputSize) &&
  decide (0 < e.matchLen → e.state = .yieldTagBit ∨ e.state = .yieldBrIndex ∨ e.state = .yieldBrLength) &&
  decide (e.state = .yieldBrIndex → 0 < e.matchLen ∧ e.outCount ≤ e.cfg.windowBits) &&
  decide (e.state = .yieldBrLength → 0 < e.matchLen ∧ e.outCount ≤ e.cfg.lookaheadBits) &&
  decide ((e.state = .yieldTagBit ∧ e.matchLen = 0) ∨ e.state = .yieldLiteral → 1 ≤ e.msi) &&
  decide (e.state = .notFull → e.inputSize < e.cfg.ibs ∧ e.msi = 0) &&
  decide (e.state = .filled → e.msi = 0) &&
  decide (e.finishing = false → e.state ≠ .notFull → e.inputSize = e.cfg.ibs) &&
  decide (e.state = .saveBacklog → e.inputSize = e.cfg.ibs ∧ 1 ≤ e.msi) &&
  decide (e.state = .flushBits ∨ e.state = .done → e.finishing = true) &&
  decide (e.state = .done → e.wbits = 0) &&
  ((List.range 8).all fun k => decide (k + e.wbits < 8 → e.acc.getLsbD k = false)) &&
  (Memory.wf e.hbuf && Cells.below e.cfg.hbufSize e.hbuf) &&
  (Memory.wf e.out && Cells.below e.cfg.obs e.out) &&
  (Cells.wf (-1) e.index && Cells.below e.cfg.hbufSize e.index) &&
  e.index.all fun c => decide (-1 ≤ c.2 ∧ c.2 < (c.1 : Int))

theorem linkDown_of_all {cells : IndexTable}
    (h : cells.all (fun c => decide (-1 ≤ c.2 ∧ c.2 < (c.1 : Int))) = true) (i : Nat) :
    -1 ≤ Cells.read (-1) cells i ∧ Cells.read (-1) cells i < (i : Int) := by
  induction cells with
  | nil => exact ⟨by simp [Cells.read], by simp only [Cells.read]; omega⟩
  | cons c rest ih =>
    obtain ⟨k, v⟩ := c
    simp only [List.all_cons, Bool.and_eq_true, decide_eq_true_eq] at h
    simp only [Cells.read]
    split
    · next hk => subst hk; exact h.1
    · exact ih h.2

theorem encCheck_inv {e : Encoder} (h : encCheck e = true) : e.Inv := by
  simp only [encCheck, Bool.and_eq_true, decide_eq_true_eq] at h
  obtain ⟨⟨⟨⟨⟨⟨⟨⟨⟨⟨⟨⟨⟨⟨⟨⟨⟨⟨⟨h1, h2⟩, h3⟩, h4⟩, h5⟩, h6⟩, h7⟩, h8⟩, h9⟩, h10⟩, h11⟩, h12⟩, h13⟩, h14⟩, h15⟩,
    h16⟩, h17⟩, h18⟩, h19⟩, h20⟩ := h
  exact {
    legal := h1, scan := h2.1, batch := h2.2, outSize := h3.1, wbits := h3.2.1, matchLen := h3.2.2.1,
    matchDist := h3.2.2.2, outBits := h4.1, outCount := h4.2.1, histFill := h4.2.2, pendingMatch := h5,
    matchState := h6, brIndex := h7, brLength := h8, literal := h9, waiting := h10, filled := h11,
    fullBatch := h12, backlog := h13, ending := h14, flushed := h15,
    
    accLow := fun k hk => of_decide_eq_true (List.all_eq_true.1 h16 k (List.mem_range.2 (by omega))) hk,
    hbufWf := h17.1, hbufBelow := h17.2, outWf := h18.1,
    outBelow := h18.2, indexWf := h19.1, indexBelow := h19.2, linkDown := linkDown_of_all h20 }

/-- Every clause of Decoder.Inv, as a check. -/
def decCheck (d : Decoder) : Bool :=
  decide (legalDecoder d.cfg) && decide (d.inHead ≤ d.inSize ∧ d.inSize ≤ d.cfg.ibs) &&
  decide (d.inHead = d.inSize → d.inSize = 0) &&
  decide (d.outSize ≤ d.cfg.obs ∧ d.rbits ≤ 8 ∧ d.offset ≤ d.cfg.window ∧ d.count ≤ d.cfg.lookahead) &&
  decide (d.state = .backrefIndexMsb → 8 < d.cfg.windowBits) &&
  decide (d.state = .backrefIndexLsb → d.offset % 2 ^ min d.cfg.windowBits 8 = 0 ∧
    d.offset + 2 ^ min d.cfg.windowBits 8 ≤ d.cfg.window) &&
  decide (d.state = .backrefCountMsb → 8 < d.cfg.lookaheadBits) &&
  decide (d.state = .backrefCountLsb → d.count % 2 ^ min d.cfg.lookaheadBits 8 = 0 ∧
    d.count + 2 ^ min d.cfg.lookaheadBits 8 ≤ d.cfg.lookahead) &&
  decide (d.state = .backrefCountMsb ∨ d.state = .backrefCountLsb ∨ d.state = .yieldBackref → 1 ≤ d.offset) &&
  decide (d.state = .yieldBackref → 1 ≤ d.count) &&
  (Memory.wf d.inp && Cells.below d.cfg.ibs d.inp) &&
  (Memory.wf d.win && Cells.below (min d.head d.cfg.window) d.win) &&
  (Memory.wf d.out && Cells.below d.cfg.obs d.out)

theorem decCheck_inv {d : Decoder} (h : decCheck d = true) : d.Inv := by
  simp only [decCheck, Bool.and_eq_true, decide_eq_true_eq] at h
  obtain ⟨⟨⟨⟨⟨⟨⟨⟨⟨⟨⟨⟨h1, h2⟩, h3⟩, h4⟩, h5⟩, h6⟩, h7⟩, h8⟩, h9⟩, h10⟩, h11⟩, h12⟩, h13⟩ := h
  exact {
    legal := h1, cursors := h2.1, inSize := h2.2, drained := h3, outSize := h4.1, rbits := h4.2.1,
    offset := h4.2.2.1, count := h4.2.2.2, indexMsb := h5, indexLsb := h6, countMsb := h7, countLsb := h8,
    distance := h9, copying := h10, inWf := h11.1, inBelow := h11.2, winWf := h12.1, winBelow := h12.2,
    outWf := h13.1, outBelow := h13.2 }

/-- A state whose instances pass the checks meets the invariant. -/
theorem inv_of_checks {s : State} (he : s.enc.all encCheck = true) (hd : s.dec.all decCheck = true) : s.Inv where
  enc e h := encCheck_inv (by simpa [h] using he)
  dec d h := decCheck_inv (by simpa [h] using hd)

/-- V3's encoder next to V3's decoder, with requests to run. -/
def both (e : Encoder) (d : Decoder) (rs : List Request) : State :=
  { State.reset with enc := some e, dec := some d, requests := rs }

/-- The request of a command without operands. -/
def bareRequest (word : Byte) : Request := .command word Operands.none

/-- Blocked variants: V3's steps with E.OUT full, by one output byte of capacity. -/
def blocked (e : Encoder) : Encoder := { e with cfg := ⟨4, 3, 8, e.outSize⟩ }

/-! ### Witnesses: encodings -/

theorem witness_DecodeOfEncode :
    (Instr.lit 0xFF).wellFormed ⟨4, 3⟩ = true ∧ (Instr.bref 1 1).wellFormed ⟨4, 3⟩ = true ∧
    (Instr.bref 16 8).wellFormed ⟨4, 3⟩ = true ∧ (Instr.encConstruct 15 15 0 0).wellFormed ⟨4, 3⟩ = true ∧
    (Instr.decConstruct 0 0 1 1).wellFormed ⟨4, 3⟩ = true ∧ Instr.encPoll.wellFormed ⟨4, 3⟩ = true := by decide

/-- The shortest bits each tag can be read from, and one bit fewer. -/
theorem witness_TokenBoundaries :
    decodeToken ⟨4, 3⟩ (true :: List.replicate 8 true) = .ok (.lit 0xFF, []) ∧
    decodeToken ⟨4, 3⟩ (false :: List.replicate 7 true) = .ok (.bref 16 8, []) ∧
    decodeToken ⟨4, 3⟩ (true :: List.replicate 7 true) = .error .incompleteToken ∧
    decodeToken ⟨4, 3⟩ (false :: List.replicate 6 true) = .error .incompleteToken := by decide

theorem witness_CommandWords :
    decode ⟨4, 3⟩ (.command 0x05 Operands.none) = .ok .encFinish ∧
    decode ⟨4, 3⟩ (.command 0x80 ⟨0xFF, 0, 0, []⟩) = .ok (.decConstruct 15 15 0 0) := by decide

/-! ### Witnesses: steps -/

theorem witness_StepRunsDecodedInstruction :
    State.reset.requests = [] ∧
    (both v3 u3 [.command 0x05 Operands.none]).requests = .command 0x05 Operands.none :: [] ∧
    fetch (both v3 u3 [.command 0x05 Operands.none]) (.command 0x05 Operands.none) =
      .next (.command 0x05 Operands.none) ∧
    decode (both v3 u3 []).layout (.command 0x05 Operands.none) = .ok .encFinish ∧
    fetch (both v3 u3 [.encStep]) .encStep = .next (.encState 1) ∧
    decode (both v3 u3 []).layout (.encState 1) = .ok .encStepFilled ∧
    fetch (both v3 u3 [.decStep]) .decStep = .next (.decState 0) ∧
    decode (both v3 u3 []).layout (.decState 0) = .ok .decStepTagBit ∧
    (∃ rest, decode (both v3 u3 []).layout (.token u3.unread) = .ok (.lit 0x41) ∧
      decodeToken ⟨4, 3⟩ u3.unread = .ok (.lit 0x41, rest)) ∧
    u3.Inv :=
  ⟨rfl, rfl, rfl, rfl, rfl, rfl, rfl, rfl, ⟨_, rfl, rfl⟩, decCheck_inv (by decide)⟩

/-- The least and the greatest word of each clause, and both ways of losing an instance. -/
theorem witness_MalformedCommandsAreRefused :
    ((0x08#8).toNat / 8 % 16 ≠ 0 ∧ (0x7D#8).toNat / 8 % 16 ≠ 0) ∧
    ((0x06#8).toNat / 8 % 16 = 0 ∧ 6 ≤ (0x06#8).toNat % 8 ∧ (0x87#8).toNat / 8 % 16 = 0 ∧
      6 ≤ (0x87#8).toNat % 8) ∧
    ((0x01#8).toNat / 8 % 16 = 0 ∧ (0x01#8).toNat % 8 ≤ 5 ∧ (0x01#8).toNat % 8 ≠ 0 ∧
      (if (0x01#8).getLsbD 7 then State.reset.dec = none else State.reset.enc = none)) ∧
    ((0x85#8).toNat / 8 % 16 = 0 ∧ (0x85#8).toNat % 8 ≤ 5 ∧ (0x85#8).toNat % 8 ≠ 0 ∧
      (if (0x85#8).getLsbD 7 then State.reset.dec = none else State.reset.enc = none)) ∧
    (∃ t, exec (.encConstruct 3 3 64 8) (onEnc v3) = .next t ∧
      t.responses = (onEnc v3).responses ++ [⟨.encoder, .configError⟩]) ∧
    ∃ t, exec (.decConstruct 8 8 64 8) (onDec u3) = .next t ∧
      t.responses = (onDec u3).responses ++ [⟨.decoder, .configError⟩] :=
  ⟨by decide, by decide, by decide, by decide, ⟨_, rfl, rfl⟩, ⟨_, rfl, rfl⟩⟩

theorem witness_StepsOutsideTheirState :
    (onEnc v3).enc = some v3 ∧ v3.state ≠ .search ∧ (onDec u3).dec = some u3 ∧ u3.state ≠ .yieldBackref ∧
    (onDec u3s1).dec = some u3s1 ∧ u3s1.state ≠ .tagBit ∧ brefFits u3s1.cfg.layout 16 8 = true ∧
    brefFits u3.cfg.layout 17 8 = false ∧ State.reset.enc = none ∧ State.reset.dec = none ∧
    brefFits Layout.smallest 16 8 = true ∧ brefFits Layout.smallest 17 8 = false := by decide

/-! ### Witnesses: invariants and whole-machine rules -/

theorem v3_inv : v3.Inv := encCheck_inv (by decide)
theorem u3_inv : u3.Inv := decCheck_inv (by decide)

/-- V3's FILLED step, and V3's first decoder step. -/
theorem witness_StepKeepsInvariant :
    (both v3 u3 [.encStep, .decStep]).Inv ∧ (∃ t, step (both v3 u3 [.encStep, .decStep]) = .next t) ∧
    ∃ t, step (both v3 u3 [.decStep]) = .next t :=
  ⟨inv_of_checks (by decide) (by decide), ⟨_, rfl⟩, ⟨_, rfl⟩⟩

/-- After V3's FILLED step the index is right. -/
theorem v3s1_linked : v3s1.Linked := by
  obtain ⟨index', h, -, hl, -⟩ := encFilled_spec (p := Params.default) v3_inv rfl
  have : encFilled Params.default v3 = .ok v3s1 := rfl
  rw [this] at h
  cases h
  exact hl

theorem witness_StepKeepsIndexRight :
    (both v3s1 u3 [.encStep]).Inv ∧ (both v3s1 u3 [.encStep]).LinkedWhileScanning ∧
    ∃ t, step (both v3s1 u3 [.encStep]) = .next t := by
  refine ⟨inv_of_checks (by decide) (by decide), ?_, ⟨_, rfl⟩⟩
  intro e he _
  cases he
  exact v3s1_linked

theorem witness_CommandsKeepEncoderAtRest :
    (both v3 u3 [bareRequest 0x03]).Inv ∧ (both v3 u3 [bareRequest 0x03]).CommandInv ∧
    ∃ t, step (both v3 u3 [bareRequest 0x03]) = .next t := by
  refine ⟨inv_of_checks (by decide) (by decide), ⟨rfl, ?_, ?_⟩, ⟨_, rfl⟩⟩ <;>
    (intro e he; cases he; decide)

theorem witness_NoFaultWithinInvariant : (both v3s5 u3s4 []).Inv :=
  inv_of_checks (by decide) (by decide)

theorem witness_ConfigurationIsImmutable : (∃ t, exec .encReset (both v3 u3 []) = .next t) ∧
    (∀ w l ibs obs, Instr.encReset ≠ .encConstruct w l ibs obs) ∧
    ∀ w l ibs obs, Instr.encReset ≠ .decConstruct w l ibs obs :=
  ⟨⟨_, rfl⟩, nofun, nofun⟩

theorem witness_InstancesShareNothing :
    actsOn .encoder .encPoll = true ∧ actsOn .decoder (.lit 0x41) = true ∧
    (both v3 u3 []).params = (onEnc v3).params ∧ (both v3 u3 []).enc = (onEnc v3).enc ∧
    (both v3 u3 []).params = (onDec u3).params ∧ (both v3 u3 []).dec = (onDec u3).dec ∧
    (∃ t, exec .encPoll (both v3 u3 []) = .next t) ∧ ∃ t, exec (.lit 0x41) (both v3 u3 []) = .next t :=
  ⟨rfl, rfl, rfl, rfl, rfl, rfl, ⟨_, rfl⟩, ⟨_, rfl⟩⟩

theorem witness_OneResponsePerCommand :
    (∃ t, exec .decFinish (both v3 u3 []) = .next t) ∧ commandOf .decoder .decFinish = true ∧
    (∃ t, exec .encStepFilled (both v3 u3 []) = .next t) ∧ commandOf .encoder .encStepFilled = false ∧
    commandOf .decoder .encStepFilled = false :=
  ⟨⟨_, rfl⟩, rfl, ⟨_, rfl⟩, rfl, rfl⟩

/-- FINISH, RESET, CONSTRUCT, and an instruction that leaves the flag. -/
theorem witness_FinishingFlag :
    (∃ t e, t.enc = some e ∧ exec .encFinish (onEnc p3Start) = .next t) ∧
    (∃ t e, t.enc = some e ∧ exec .encReset (onEnc v3) = .next t) ∧
    (∃ t e, t.enc = some e ∧ exec (.encConstruct 4 3 8 1) (onEnc v3) = .next t) ∧
    ∃ t e, t.enc = some e ∧ exec .encPoll (onEnc v3) = .next t :=
  ⟨⟨_, _, rfl, rfl⟩, ⟨_, _, rfl, rfl⟩, ⟨_, _, rfl, rfl⟩, ⟨_, _, rfl, rfl⟩⟩

theorem witness_EncoderTransitions :
    (∃ t e, t.enc = some e ∧ exec (EncState.instr .filled) (onEnc v3) = .next t) ∧
    (∃ t e, t.enc = some e ∧ exec (.encSink [0x41]) (onEnc p3Start) = .next t) ∧
    (∃ t e, t.enc = some e ∧ exec .encFinish (onEnc p3Start) = .next t) ∧
    (∃ t e, t.enc = some e ∧ exec .encDrain (onEnc v3s12) = .next t) ∧
    ∃ t e, t.enc = some e ∧ exec .encReset (onEnc v3) = .next t :=
  ⟨⟨_, _, rfl, rfl⟩, ⟨_, _, rfl, rfl⟩, ⟨_, _, rfl, rfl⟩, ⟨_, _, rfl, rfl⟩, ⟨_, _, rfl, rfl⟩⟩

theorem witness_DecoderTransitions :
    (∃ t d, t.dec = some d ∧ exec (DecState.instr .tagBit) (onDec u3) = .next t) ∧
    (∃ t d, t.dec = some d ∧ exec .decDrain (onDec u3s6) = .next t) ∧
    ∃ t d, t.dec = some d ∧ exec .decReset (onDec u3s4) = .next t :=
  ⟨⟨_, _, rfl, rfl⟩, ⟨_, _, rfl, rfl⟩, ⟨_, _, rfl, rfl⟩⟩

/-! ### Witnesses: CONSTRUCT and RESET -/

/-- The smallest and the largest legal operands, and every bound just failed. -/
theorem witness_EncoderConstruct :
    legalEncoder ⟨4, 3, 8, 1⟩ ∧ legalEncoder ⟨15, 14, 2 ^ 14, 1⟩ ∧ ¬ legalEncoder ⟨3, 3, 8, 1⟩ ∧
    ¬ legalEncoder ⟨16, 3, 8, 1⟩ ∧ ¬ legalEncoder ⟨4, 2, 8, 1⟩ ∧ ¬ legalEncoder ⟨4, 4, 16, 1⟩ ∧
    ¬ legalEncoder ⟨4, 3, 7, 1⟩ ∧ ¬ legalEncoder ⟨4, 3, 8, 0⟩ := by decide

theorem witness_DecoderConstruct :
    legalDecoder ⟨4, 3, 1, 1⟩ ∧ legalDecoder ⟨15, 14, 1, 1⟩ ∧ ¬ legalDecoder ⟨3, 3, 1, 1⟩ ∧
    ¬ legalDecoder ⟨16, 3, 1, 1⟩ ∧ ¬ legalDecoder ⟨4, 2, 1, 1⟩ ∧ ¬ legalDecoder ⟨4, 4, 1, 1⟩ ∧
    ¬ legalDecoder ⟨4, 3, 0, 1⟩ ∧ ¬ legalDecoder ⟨4, 3, 1, 0⟩ := by decide

/-- RESET in the middle of a backreference. -/
theorem witness_EncoderReset : (onEnc v3s8).enc = some v3s8 ∧ v3s8.Inv := ⟨rfl, encCheck_inv (by decide)⟩

theorem witness_DecoderReset : (onDec u3s4).dec = some u3s4 ∧ u3s4.Inv := ⟨rfl, decCheck_inv (by decide)⟩

/-! ### Witnesses: SINK, DRAIN, FINISH and POLL -/

theorem witness_EncoderSinkAccepted :
    (onEnc p3Start).enc = some p3Start ∧ p3Start.Inv ∧ p3Start.finishing = false ∧ p3Start.state = .notFull :=
  ⟨rfl, encCheck_inv (by decide), rfl, rfl⟩

/-- Each of the two reasons alone. -/
theorem witness_EncoderSinkRefused :
    (onEnc p3).enc = some p3 ∧ (p3.finishing = true ∨ p3.state ≠ .notFull) ∧
    (onEnc { p3Start with finishing := true }).enc = some { p3Start with finishing := true } := by decide

/-- One byte of space, the least that is accepted, and then none. -/
theorem witness_DecoderSinkAccepted :
    (onDec { p2 with inSize := 1 }).dec = some { p2 with inSize := 1 } ∧ ({ p2 with inSize := 1 } : Decoder).Inv ∧
    ({ p2 with inSize := 1 } : Decoder).inSize < p2.cfg.ibs := ⟨rfl, decCheck_inv (by decide), by decide⟩

theorem witness_DecoderSinkFull :
    (onDec { p2 with inSize := 2 }).dec = some { p2 with inSize := 2 } ∧
    ({ p2 with inSize := 2 } : Decoder).inSize = ({ p2 with inSize := 2 } : Decoder).cfg.ibs := by decide

theorem witness_Drains :
    (onEnc v3s12).enc = some v3s12 ∧ v3s12.Inv ∧ (onDec u3s6).dec = some u3s6 ∧ u3s6.Inv :=
  ⟨rfl, encCheck_inv (by decide), rfl, decCheck_inv (by decide)⟩

theorem witness_EncoderFinish : (onEnc v3s12).enc = some v3s12 ∧ (onEnc p3Start).enc = some p3Start := by decide

theorem witness_DecoderFinish :
    (onDec u3).dec = some u3 ∧ u3.Inv ∧ u3.state = .tagBit ∧ u3s1.Inv ∧ u3s1.state = .yieldLiteral ∧
    u3s3.Inv ∧ u3s3.state = .backrefIndexLsb ∧ u3s5.Inv ∧ u3s5.state = .yieldBackref :=
  ⟨rfl, u3_inv, rfl, decCheck_inv (by decide), rfl, decCheck_inv (by decide), rfl, decCheck_inv (by decide), rfl⟩

theorem witness_EncoderPoll : (onEnc v3).enc = some v3 ∧ v3.Inv := ⟨rfl, v3_inv⟩

theorem witness_DecoderPoll : (onDec u3).dec = some u3 ∧ u3.Inv := ⟨rfl, u3_inv⟩

/-- Two polls of each unit, one that answers POLL_EMPTY and one that answers POLL_MORE. -/
theorem witness_PollIsIdempotent :
    (onEnc p1).Inv ∧ (∃ t u, exec .encPoll (onEnc p1) = .next t ∧ exec .encPoll t = .next u) ∧
    (onDec p2s4).Inv ∧ ∃ t u, exec .decPoll (onDec p2s4) = .next t ∧ exec .decPoll t = .next u :=
  ⟨inv_of_checks (by decide) (by decide), ⟨_, _, rfl, rfl⟩, inv_of_checks (by decide) (by decide), ⟨_, _, rfl, rfl⟩⟩

/-! ### Witnesses: the encoder's handlers -/

theorem witness_EncoderRestingSteps :
    (onEnc p3Start).enc = some p3Start ∧ p3Start.state = .notFull ∧ (onEnc v3s12).enc = some v3s12 ∧
    v3s12.state = .done := by decide

theorem witness_EncoderFilled : (onEnc v3).enc = some v3 ∧ v3.Inv ∧ v3.state = .filled := ⟨rfl, v3_inv, rfl⟩

theorem v3s4_linked : v3s4.Linked := v3s1_linked

/-- V3's step 5: the match at distance 1 of length 3 is the best, and it pays. -/
theorem witness_EncoderSearch_match :
    v3s4.Inv ∧ v3s4.Linked ∧ v3s4.state = .search ∧ v3s4.msi + 1 = 2 ∧ v3s4.msi + 1 ≤ v3s4.inputSize ∧
    v3s4.BestMatch 17 (searchLow Params.default v3s4) 3 3 16 ∧ 1 + 4 + 3 < 8 * 3 := by
  refine ⟨encCheck_inv (by decide), v3s4_linked, rfl, rfl, by decide, ?_, by decide⟩
  refine ⟨by decide, by decide, by decide, by decide, ?_, ?_⟩
  · intro q _ _; exact Encoder.agree_le _ _ _ _
  · intro q h1 h2; omega

/-- V3's step 2: no candidate matches at all, so none pays. -/
theorem witness_EncoderSearch_literal :
    v3s1.Inv ∧ v3s1.Linked ∧ v3s1.state = .search ∧ v3s1.msi + 1 ≤ v3s1.inputSize ∧
    ∀ best pos, v3s1.BestMatch 16 (searchLow Params.default v3s1) 4 best pos → 8 * best ≤ 1 + 4 + 3 := by
  refine ⟨encCheck_inv (by decide), v3s1_linked, rfl, by decide, ?_⟩
  rintro best pos ⟨-, h2, h3, h4, -, -⟩
  have h : ∀ q, q < 16 → v3s1.agree q 16 4 = 0 := by decide
  rw [h pos h2] at h4
  omega

/-- V3's step 11, and the same without FINISH: the last position with a whole lookahead is gone. -/
theorem witness_EncoderSearch_end :
    v3s10.Inv ∧ v3s10.Linked ∧ v3s10.state = .search ∧ v3s10.inputSize < v3s10.msi + 1 ∧
    ({ x4 with msi := 2 } : Encoder).Inv ∧ ({ x4 with msi := 2 } : Encoder).Linked ∧
    ({ x4 with msi := 2 } : Encoder).finishing = false ∧
    ({ x4 with msi := 2 } : Encoder).inputSize < ({ x4 with msi := 2 } : Encoder).msi + 2 ^ 3 := by
  refine ⟨encCheck_inv (by decide), v3s1_linked, rfl, by decide, encCheck_inv (by decide), ?_, rfl, by decide⟩
  obtain ⟨index', h, -, hl, -⟩ := encFilled_spec (p := Params.default) (e := { x4 with index := [], state := .filled })
    (encCheck_inv (by decide)) rfl
  have : encFilled Params.default { x4 with index := [], state := .filled } = .ok x4 := rfl
  rw [this] at h
  cases h
  exact hl

theorem witness_EncoderYieldTagBit :
    ((blocked v3s5).Inv ∧ (blocked v3s5).state = .yieldTagBit ∧ (blocked v3s5).outSize = (blocked v3s5).cfg.obs) ∧
    (v3s2.Inv ∧ v3s2.state = .yieldTagBit ∧ v3s2.outSize < v3s2.cfg.obs ∧ v3s2.matchLen = 0) ∧
    v3s5.Inv ∧ v3s5.state = .yieldTagBit ∧ v3s5.outSize < v3s5.cfg.obs ∧ 0 < v3s5.matchLen :=
  ⟨⟨encCheck_inv (by decide), rfl, rfl⟩, ⟨encCheck_inv (by decide), rfl, by decide, rfl⟩,
    encCheck_inv (by decide), rfl, by decide, by decide⟩

/-- V3's step 4 with room, and without: the buffer of one byte full. -/
theorem witness_EncoderYieldLiteral :
    (v3s3.Inv ∧ v3s3.state = .yieldLiteral ∧ v3s3.outSize < v3s3.cfg.obs) ∧
    (blocked { v3s3 with outSize := 1 }).Inv ∧ (blocked { v3s3 with outSize := 1 }).state = .yieldLiteral ∧
    (blocked { v3s3 with outSize := 1 }).outSize = (blocked { v3s3 with outSize := 1 }).cfg.obs :=
  ⟨⟨encCheck_inv (by decide), rfl, by decide⟩, encCheck_inv (by decide), rfl, rfl⟩

theorem witness_EncoderYieldBrIndex :
    ((blocked v3s6).Inv ∧ (blocked v3s6).state = .yieldBrIndex ∧ (blocked v3s6).outSize = (blocked v3s6).cfg.obs) ∧
    (v3s6.Inv ∧ v3s6.state = .yieldBrIndex ∧ v3s6.outSize < v3s6.cfg.obs ∧ 0 < v3s6.outCount) ∧
    v3s7.Inv ∧ v3s7.state = .yieldBrIndex ∧ v3s7.outSize < v3s7.cfg.obs ∧ v3s7.outCount = 0 :=
  ⟨⟨encCheck_inv (by decide), rfl, rfl⟩, ⟨encCheck_inv (by decide), rfl, by decide, by decide⟩,
    encCheck_inv (by decide), rfl, by decide, rfl⟩

theorem witness_EncoderYieldBrLength :
    ((blocked v3s8).Inv ∧ (blocked v3s8).state = .yieldBrLength ∧ (blocked v3s8).outSize = (blocked v3s8).cfg.obs) ∧
    (v3s8.Inv ∧ v3s8.state = .yieldBrLength ∧ v3s8.outSize < v3s8.cfg.obs ∧ 0 < v3s8.outCount) ∧
    v3s9.Inv ∧ v3s9.state = .yieldBrLength ∧ v3s9.outSize < v3s9.cfg.obs ∧ v3s9.outCount = 0 :=
  ⟨⟨encCheck_inv (by decide), rfl, rfl⟩, ⟨encCheck_inv (by decide), rfl, by decide, by decide⟩,
    encCheck_inv (by decide), rfl, by decide, rfl⟩

theorem witness_EncoderSaveBacklog : (onEnc p3).enc = some p3 ∧ p3.Inv ∧ p3.state = .saveBacklog :=
  ⟨rfl, encCheck_inv (by decide), rfl⟩

/-- Byte-aligned; with bits and no room; with one bit and room. -/
theorem witness_EncoderFlushBits :
    (({ v3s11 with acc := 0, wbits := 0 } : Encoder).Inv ∧
      ({ v3s11 with acc := 0, wbits := 0 } : Encoder).state = .flushBits) ∧
    ((blocked v3s11).Inv ∧ 0 < (blocked v3s11).wbits ∧ (blocked v3s11).outSize = (blocked v3s11).cfg.obs) ∧
    v3s11.Inv ∧ v3s11.state = .flushBits ∧ 0 < v3s11.wbits ∧ v3s11.outSize < v3s11.cfg.obs :=
  ⟨⟨encCheck_inv (by decide), rfl⟩, ⟨encCheck_inv (by decide), by decide, rfl⟩,
    encCheck_inv (by decide), rfl, by decide, by decide⟩

/-! ### Witnesses: the decoder's handlers and the tokens -/

/-- One bit, fifteen bits, and B2's field that is not there. -/
theorem witness_GetBits :
    u3.Inv ∧ 1 ≤ u3.unread.length ∧ 15 ≤ u3.unread.length ∧
    ({ p2 with curByte := 0xA0, rbits := 7 } : Decoder).Inv ∧
    ({ p2 with curByte := 0xA0, rbits := 7 } : Decoder).unread.length < 8 :=
  ⟨u3_inv, by decide, by decide, decCheck_inv (by decide), by decide⟩

theorem witness_DecoderTagBit :
    (p2.Inv ∧ p2.state = .tagBit ∧ p2.unread = []) ∧
    (u3.Inv ∧ u3.state = .tagBit ∧ ∃ rest, u3.unread = true :: rest) ∧
    u3s2.Inv ∧ u3s2.state = .tagBit ∧ ∃ rest, u3s2.unread = false :: rest :=
  ⟨⟨decCheck_inv (by decide), rfl, by decide⟩, ⟨u3_inv, rfl, ⟨_, rfl⟩⟩, decCheck_inv (by decide), rfl, ⟨_, rfl⟩⟩

/-- Without room, without the eighth bit, and with exactly what it takes. -/
theorem witness_DecoderYieldLiteral :
    (({ u3s1 with outSize := 8 } : Decoder).Inv ∧ ({ u3s1 with outSize := 8 } : Decoder).outSize = u3s1.cfg.obs) ∧
    (({ p2 with state := .yieldLiteral, rbits := 7 } : Decoder).Inv ∧
      ({ p2 with state := .yieldLiteral, rbits := 7 } : Decoder).unread.length < 8) ∧
    u3s1.Inv ∧ u3s1.state = .yieldLiteral ∧ u3s1.outSize < u3s1.cfg.obs ∧
    ∃ rest, u3s1.unread = byteBits 0x41 ++ rest :=
  ⟨⟨decCheck_inv (by decide), rfl⟩, ⟨decCheck_inv (by decide), by decide⟩,
    decCheck_inv (by decide), rfl, by decide, ⟨_, rfl⟩⟩

/-- Exactly the bits the field needs, and one fewer. -/
theorem witness_DecoderFieldMsb :
    (({ wide .backrefIndexMsb with rbits := 4 } : Decoder).Inv ∧
      12 - 8 ≤ ({ wide .backrefIndexMsb with rbits := 4 } : Decoder).unread.length ∧
      ({ wide .backrefIndexMsb with rbits := 3 } : Decoder).Inv ∧
      ({ wide .backrefIndexMsb with rbits := 3 } : Decoder).unread.length < 12 - 8) ∧
    ({ wide .backrefCountMsb with rbits := 2, offset := 1 } : Decoder).Inv ∧
    10 - 8 ≤ ({ wide .backrefCountMsb with rbits := 2, offset := 1 } : Decoder).unread.length ∧
    ({ wide .backrefCountMsb with rbits := 1, offset := 1 } : Decoder).Inv ∧
    ({ wide .backrefCountMsb with rbits := 1, offset := 1 } : Decoder).unread.length < 10 - 8 :=
  ⟨⟨decCheck_inv (by decide), by decide, decCheck_inv (by decide), by decide⟩,
    decCheck_inv (by decide), by decide, decCheck_inv (by decide), by decide⟩

theorem witness_DecoderIndexLsb :
    (u3s3.Inv ∧ u3s3.state = .backrefIndexLsb ∧ min 4 8 ≤ u3s3.unread.length) ∧
    ({ p2 with state := .backrefIndexLsb, rbits := 3 } : Decoder).Inv ∧
    ({ p2 with state := .backrefIndexLsb, rbits := 3 } : Decoder).unread.length < min 4 8 :=
  ⟨⟨decCheck_inv (by decide), rfl, by decide⟩, decCheck_inv (by decide), by decide⟩

theorem witness_DecoderCountLsb :
    (u3s4.Inv ∧ u3s4.state = .backrefCountLsb ∧ min 3 8 ≤ u3s4.unread.length) ∧
    ({ p2 with state := .backrefCountLsb, rbits := 2, offset := 1 } : Decoder).Inv ∧
    ({ p2 with state := .backrefCountLsb, rbits := 2, offset := 1 } : Decoder).unread.length < min 3 8 :=
  ⟨⟨decCheck_inv (by decide), rfl, by decide⟩, decCheck_inv (by decide), by decide⟩

/-- V3's copy, and one that finds no room. -/
theorem witness_DecoderYieldBackref :
    (u3s5.Inv ∧ u3s5.state = .yieldBackref) ∧
    ({ u3s5 with outSize := 8 } : Decoder).Inv ∧ ({ u3s5 with outSize := 8 } : Decoder).state = .yieldBackref :=
  ⟨⟨decCheck_inv (by decide), rfl⟩, decCheck_inv (by decide), rfl⟩

theorem witness_LiteralToken :
    (p2.Inv ∧ p2.state = .tagBit ∧ p2.unread = []) ∧
    (({ p2 with rbits := 8 } : Decoder).Inv ∧ ({ p2 with rbits := 8 } : Decoder).unread ≠ [] ∧
      ({ p2 with rbits := 8 } : Decoder).unread.length < 9) ∧
    (({ u3 with outSize := 8 } : Decoder).Inv ∧ ({ u3 with outSize := 8 } : Decoder).outSize = u3.cfg.obs) ∧
    u3.Inv ∧ u3.state = .tagBit ∧ 9 ≤ u3.unread.length ∧ u3.outSize < u3.cfg.obs :=
  ⟨⟨decCheck_inv (by decide), rfl, by decide⟩, ⟨decCheck_inv (by decide), by decide, by decide⟩,
    ⟨decCheck_inv (by decide), rfl⟩, u3_inv, rfl, by decide, by decide⟩

/-- The greatest distance and length, with exactly the bits of the token and with one fewer. -/
theorem witness_BackreferenceToken :
    (({ p2 with rbits := 8 } : Decoder).Inv ∧ 1 + 4 + 3 ≤ ({ p2 with rbits := 8 } : Decoder).unread.length) ∧
    (({ p2 with rbits := 7 } : Decoder).Inv ∧ ({ p2 with rbits := 7 } : Decoder).unread.length < 1 + 4 + 3) ∧
    p2.state = .tagBit ∧ 16 ≤ p2.cfg.window ∧ 8 ≤ p2.cfg.lookahead :=
  ⟨⟨decCheck_inv (by decide), by decide⟩, ⟨decCheck_inv (by decide), by decide⟩, rfl, by decide, by decide⟩

theorem witness_TokenIsARunOfHandlers :
    (u3.Inv ∧ u3.state = .tagBit ∧ ∃ rest, decodeToken u3.cfg.layout u3.unread = .ok (.lit 0x41, rest)) ∧
    u3s2.Inv ∧ u3s2.state = .tagBit ∧ ∃ rest, decodeToken u3s2.cfg.layout u3s2.unread = .ok (.bref 1 3, rest) :=
  ⟨⟨u3_inv, rfl, ⟨_, rfl⟩⟩, decCheck_inv (by decide), rfl, ⟨_, rfl⟩⟩

/-- V3's padding, V18's cut literal, and no bit at all. -/
theorem witness_IncompleteTokenStalls :
    (u3s6.Inv ∧ u3s6.state = .tagBit ∧ u3s6.unread.head? = some false ∧
      decodeToken u3s6.cfg.layout u3s6.unread = .error .incompleteToken) ∧
    (({ u3 with inSize := 1 } : Decoder).Inv ∧ ({ u3 with inSize := 1 } : Decoder).unread.head? = some true ∧
      decodeToken u3.cfg.layout ({ u3 with inSize := 1 } : Decoder).unread = .error .incompleteToken) ∧
    (p2.Inv ∧ p2.state = .tagBit ∧ p2.unread = [] ∧ decodeToken p2.cfg.layout [] = .error .incompleteToken) ∧
    ({ onDec u3s6 with requests := [.token] } : State).requests = .token :: [] :=
  ⟨⟨decCheck_inv (by decide), rfl, rfl, rfl⟩, ⟨decCheck_inv (by decide), rfl, rfl⟩,
    ⟨decCheck_inv (by decide), rfl, rfl, rfl⟩, rfl⟩

/-! ### Witnesses: streams -/

theorem witness_PaddingIsNoToken : Layout.legal ⟨4, 3⟩ ∧ Layout.legal ⟨15, 14⟩ := by decide

/-- A literal that stands for a byte of the input, and a backreference that pays. -/
theorem witness_EncodedTokensPay :
    Instr.lit 0x41 ∈ encodeTokens Params.default ⟨4, 3⟩ [0x41, 0x41, 0x41] ∧
    Instr.bref 1 2 ∈ encodeTokens Params.default ⟨4, 3⟩ [0x41, 0x41, 0x41] := by decide

theorem witness_ReferenceRoundTrip : Layout.legal ⟨4, 3⟩ ∧ Layout.legal ⟨15, 14⟩ := by decide

/-- A fresh encoder given input, told to finish, polled, drained and asked again answers DONE. -/
theorem witness_EncoderIsEncodeRef : legalEncoder ⟨4, 3, 8, 1⟩ ∧
    (∃ s0, exec (.encConstruct 4 3 8 1) State.reset = .next s0) ∧
    (∀ i, i ∈ [Instr.encSink [0x41], .encFinish, .encPoll, .encDrain, .encPoll, .encFinish] →
      streamOf .encoder i = true) ∧
    (match execAll [.encConstruct 4 3 8 1, .encSink [0x41], .encFinish, .encPoll, .encDrain, .encPoll, .encFinish]
        State.reset with
      | .next t => t.responses.getLast? = some ⟨.encoder, .done⟩
      | _ => False) :=
  ⟨by decide, ⟨_, rfl⟩, by decide, rfl⟩

/-- A fresh decoder given V3's first two bytes and polled answers POLL_EMPTY. -/
theorem witness_DecoderIsDecodeRef : legalDecoder ⟨4, 3, 2, 8⟩ ∧
    (∃ s0, exec (.decConstruct 4 3 2 8) State.reset = .next s0) ∧
    (∀ i, i ∈ [Instr.decSink [0xA0, 0x81], .decPoll] → streamOf .decoder i = true) ∧
    (match execAll [.decConstruct 4 3 2 8, .decSink [0xA0, 0x81], .decPoll] State.reset with
      | .next t => t.responses.getLast? = some ⟨.decoder, .pollEmpty⟩
      | _ => False) :=
  ⟨by decide, ⟨_, rfl⟩, by decide, rfl⟩

/-- P3's encoder after its SINK of ten of the twelve bytes is on its way from those ten. -/
theorem p3_faithful : Encoder.Faithful Params.default []
    [0x61, 0x62, 0x63, 0x64, 0x61, 0x62, 0x63, 0x64, 0x61, 0x62] { p3 with state := .filled, msi := 0 } := by
  have h : encSink [0x61, 0x62, 0x63, 0x64, 0x61, 0x62, 0x63, 0x64, 0x61, 0x62, 0x63, 0x64] Params.default
      p3Start = .ok ({ p3 with state := .filled, msi := 0 }, .accepted 10) := by rfl
  exact encSink_faithful (Encoder.initial_faithful Params.default (by decide)) h

/-- CONSTRUCT, RESET, and P3's FILLED step. -/
theorem witness_EncoderStaysFaithful :
    (∃ t e', exec (.encConstruct 4 3 10 8) State.reset = .next t ∧ t.enc = some e') ∧
    ((onEnc v3s8).enc = some v3s8 ∧ v3s8.Inv ∧ ∃ t e', exec .encReset (onEnc v3s8) = .next t ∧
      t.enc = some e') ∧
    (encoderStep .encStepFilled = true ∧ ∃ t e',
      exec .encStepFilled (onEnc { p3 with state := .filled, msi := 0 }) = .next t ∧ t.enc = some e') ∧
    (both { p3 with state := .filled, msi := 0 } u3 [.encStep]).Faithful ∧
    ∃ t, step (both { p3 with state := .filled, msi := 0 } u3 [.encStep]) = .next t := by
  refine ⟨⟨_, _, rfl, rfl⟩, ⟨rfl, encCheck_inv (by decide), _, _, rfl, rfl⟩, ⟨rfl, _, _, rfl, rfl⟩, ?_,
    _, rfl⟩
  intro e he
  cases he
  exact ⟨_, _, p3_faithful⟩

end Sys2Proof.Machine.Tests
end

section
/-! PROOFS. Within the range invariant no meaning faults: the ways into a unit fault only where what they run
faults, and no handler, command or token does. -/

namespace Sys2Proof.Machine

/-! ### The ways into a unit -/

section
variable {s : State} {x : Fault}

theorem encCommand_ne_fault {f : Params → Encoder → Res (Encoder × Result)} (h : s.Inv)
    (hf : ∀ e : Encoder, e.Inv → ∃ e' r, f s.params e = .ok (e', r)) : encCommand f s ≠ .fault x := by
  cases he : s.enc with
  | none => simp [encCommand, he]
  | some e =>
    obtain ⟨e', r, hok⟩ := hf e (h.enc e he)
    simp [encCommand_of_ok he hok]

theorem decCommand_ne_fault {f : Params → Decoder → Res (Decoder × Result)} (h : s.Inv)
    (hf : ∀ d : Decoder, d.Inv → ∃ d' r, f s.params d = .ok (d', r)) : decCommand f s ≠ .fault x := by
  cases hd : s.dec with
  | none => simp [decCommand, hd]
  | some d =>
    obtain ⟨d', r, hok⟩ := hf d (h.dec d hd)
    simp [decCommand_of_ok hd hok]

/-- The premise names the decoder on the port, because a BREF fits or not by that decoder's layout. -/
theorem onToken_ne_fault {f : Decoder → Res Decoder}
    (hf : ∀ d : Decoder, s.dec = some d → d.state = .tagBit → ∃ d', f d = .ok d') :
    onToken f s ≠ .fault x := by
  cases hd : s.dec with
  | none => simp [onToken, hd]
  | some d =>
    by_cases hq : d.state = .tagBit
    · obtain ⟨d', hok⟩ := hf d hd hq
      simp [onToken_of_ok hd hq hok]
    · simp [onToken, hd, hq]

/-- A step row runs the handler of the very state the encoder is in, or is refused (R99). -/
theorem exec_encStep_ne_fault (q : EncState) (h : s.Inv) : exec q.instr s ≠ .fault x := by
  rw [exec_encStep]
  cases he : s.enc with
  | none => simp [encStep, he]
  | some e =>
    by_cases hq : e.state = q
    · subst hq
      obtain ⟨e', hok, -⟩ := encHandler_inv (p := s.params) (h.enc e he)
      simp [encStep_of_ok he rfl hok]
    · simp [encStep, he, hq]

/-- A step row runs the handler of the very state the decoder is in, or is refused (R99). -/
theorem exec_decStep_ne_fault (q : DecState) (h : s.Inv) : exec q.instr s ≠ .fault x := by
  rw [exec_decStep]
  cases hd : s.dec with
  | none => simp [decStep, hd]
  | some d =>
    by_cases hq : d.state = q
    · subst hq
      obtain ⟨d', hok, -⟩ := decHandler_stepped (h.dec d hd)
      simp [decStep_of_ok hd rfl hok]
    · simp [decStep, hd, hq]

end

/-! ### Commands and tokens that answer -/

theorem encPoll_answers {p : Params} {e : Encoder} (h : e.Inv) : ∃ e' r, encPoll p e = .ok (e', r) := by
  obtain ⟨e', r, -, hok, -⟩ := encPoll_spec (p := p) h
  exact ⟨e', r, hok⟩

theorem encDrain_answers {p : Params} {e : Encoder} (h : e.Inv) : ∃ e' r, encDrain p e = .ok (e', r) :=
  ⟨_, _, by rw [encDrain, Encoder.takeAll_spec h.outSize]; rfl⟩

theorem decPoll_answers {p : Params} {d : Decoder} (h : d.Inv) : ∃ d' r, decPoll p d = .ok (d', r) := by
  obtain ⟨d', r, -, -, hok, -⟩ := decPoll_spec (p := p) h
  exact ⟨d', r, hok⟩

theorem decDrain_answers {p : Params} {d : Decoder} (h : d.Inv) : ∃ d' r, decDrain p d = .ok (d', r) :=
  ⟨_, _, by rw [decDrain, Decoder.takeAll_spec h.outSize]; rfl⟩

theorem decFinish_answers {p : Params} {d : Decoder} (h : d.Inv) : ∃ d' r, decFinish p d = .ok (d', r) :=
  ⟨_, _, by rw [decFinish, Decoder.buffered, minus_of_le h.cursors]; rfl⟩

theorem consumeLit_answers {d : Decoder} (h : d.Inv) (b : Byte) : ∃ d', consumeLit b d = .ok d' := by
  obtain ⟨-, hok⟩ | ⟨_, -, -, -, hok, -⟩ | ⟨_, _, -, -, -, -, hok, -⟩ := consumeLit_spec h b
  all_goals exact ⟨_, hok⟩

/-- The fields of a backreference that fits the layout are in range for the decoder's reads (R84). -/
theorem consumeBref_answers {d : Decoder} {dist n : Nat} (h : d.Inv) (hq : d.state = .tagBit)
    (hfit : brefFits d.cfg.layout dist n = true) : ∃ d', consumeBref (dist - 1) (n - 1) d = .ok d' := by
  simp only [brefFits, Bool.and_eq_true, decide_eq_true_eq] at hfit
  obtain ⟨⟨⟨hd1, hd2⟩, hn1⟩, hn2⟩ := hfit
  change dist ≤ 2 ^ d.cfg.windowBits at hd2
  change n ≤ 2 ^ d.cfg.lookaheadBits at hn2
  obtain ⟨-, d', hok, -⟩ | ⟨-, d', hok, -⟩ :=
    consumeBref_spec h hq (v := dist - 1) (n := n - 1) (by omega) (by omega)
  all_goals exact ⟨d', hok⟩

theorem execLit_ne_fault {s : State} {x : Fault} (h : s.Inv) (b : Byte) : execLit b s ≠ .fault x :=
  onToken_ne_fault fun d hd _ => consumeLit_answers (h.dec d hd) b

/-- BREF is refused where its fields do not fit the layout, and answers where they do. -/
theorem execBref_ne_fault {s : State} {x : Fault} (h : s.Inv) (dist n : Nat) :
    execBref dist n s ≠ .fault x := by
  unfold execBref
  split
  case isTrue hfit =>
    refine onToken_ne_fault fun d hd hq => consumeBref_answers (h.dec d hd) hq ?_
    simpa only [State.layout, hd] using hfit
  case isFalse => simp

/-- CONSTRUCT answers OK or CONFIG_ERROR (R140). -/
theorem execEncConstruct_ne_fault (w l ibs obs : Nat) (s : State) (x : Fault) :
    execEncConstruct w l ibs obs s ≠ .fault x := by
  unfold execEncConstruct
  split <;> simp

/-- CONSTRUCT answers OK or CONFIG_ERROR (R180). -/
theorem execDecConstruct_ne_fault (w l ibs obs : Nat) (s : State) (x : Fault) :
    execDecConstruct w l ibs obs s ≠ .fault x := by
  unfold execDecConstruct
  split <;> simp

/-! ### Every instruction -/

/-- Settles O13, by cases on the instruction: a step row runs its state's handler, a command or a token
runs an operation that answers on every unit in range. -/
theorem noFaultWithinInvariant : Obligations.NoFaultWithinInvariant := by
  intro i s x h
  cases i with
  | lit b => exact execLit_ne_fault h b
  | bref dist n => exact execBref_ne_fault h dist n
  | encStepNotFull => exact exec_encStep_ne_fault .notFull h
  | encStepFilled => exact exec_encStep_ne_fault .filled h
  | encStepSearch => exact exec_encStep_ne_fault .search h
  | encStepYieldTagBit => exact exec_encStep_ne_fault .yieldTagBit h
  | encStepYieldLiteral => exact exec_encStep_ne_fault .yieldLiteral h
  | encStepYieldBrIndex => exact exec_encStep_ne_fault .yieldBrIndex h
  | encStepYieldBrLength => exact exec_encStep_ne_fault .yieldBrLength h
  | encStepSaveBacklog => exact exec_encStep_ne_fault .saveBacklog h
  | encStepFlushBits => exact exec_encStep_ne_fault .flushBits h
  | encStepDone => exact exec_encStep_ne_fault .done h
  | decStepTagBit => exact exec_decStep_ne_fault .tagBit h
  | decStepYieldLiteral => exact exec_decStep_ne_fault .yieldLiteral h
  | decStepBackrefIndexMsb => exact exec_decStep_ne_fault .backrefIndexMsb h
  | decStepBackrefIndexLsb => exact exec_decStep_ne_fault .backrefIndexLsb h
  | decStepBackrefCountMsb => exact exec_decStep_ne_fault .backrefCountMsb h
  | decStepBackrefCountLsb => exact exec_decStep_ne_fault .backrefCountLsb h
  | decStepYieldBackref => exact exec_decStep_ne_fault .yieldBackref h
  | encConstruct w l ibs obs => exact execEncConstruct_ne_fault w l ibs obs s x
  | encReset => exact encCommand_ne_fault (f := Machine.encReset) h fun _ _ => ⟨_, _, rfl⟩
  | encSink data => exact encCommand_ne_fault h fun _ he => Prod.exists.1 (encSink_answers he data)
  | encPoll => exact encCommand_ne_fault h fun _ he => encPoll_answers he
  | encDrain => exact encCommand_ne_fault h fun _ he => encDrain_answers he
  | encFinish => exact encCommand_ne_fault (f := Machine.encFinish) h fun _ _ => ⟨_, _, rfl⟩
  | decConstruct w l ibs obs => exact execDecConstruct_ne_fault w l ibs obs s x
  | decReset => exact decCommand_ne_fault (f := Machine.decReset) h fun _ _ => ⟨_, _, rfl⟩
  | decSink data =>
    refine decCommand_ne_fault h fun d hd => ?_
    obtain ⟨d', r, hok, -⟩ := decSink_keeps hd data
    exact ⟨d', r, hok⟩
  | decPoll => exact decCommand_ne_fault h fun _ hd => decPoll_answers hd
  | decDrain => exact decCommand_ne_fault h fun _ hd => decDrain_answers hd
  | decFinish => exact decCommand_ne_fault h fun _ hd => decFinish_answers hd

end Sys2Proof.Machine
end

section
/-! PROOFS. What holds before any command, and that no instruction but CONSTRUCT writes CFG. -/

namespace Sys2Proof.Machine

theorem encPoll_same {p : Params} {e e' : Encoder} {r : Result} (h : encPoll p e = .ok (e', r)) :
    Encoder.Same e e' := encPollLoop_same _ h

theorem encFinish_cfg {p : Params} {e e' : Encoder} {r : Result} (h : encFinish p e = .ok (e', r)) :
    e'.cfg = e.cfg := by
  cases h; rfl

theorem encReset_cfg {p : Params} {e e' : Encoder} {r : Result} (h : encReset p e = .ok (e', r)) :
    e'.cfg = e.cfg := by
  cases h; rfl

theorem decPoll_cfg {p : Params} {d d' : Decoder} {r : Result} (h : decPoll p d = .ok (d', r)) :
    d'.cfg = d.cfg := decPollLoop_same _ h

theorem decSink_cfg {p : Params} {data : List Byte} {d d' : Decoder} {r : Result}
    (h : decSink data p d = .ok (d', r)) : d'.cfg = d.cfg := by
  unfold decSink at h
  split at h
  · cases h; rfl
  · obtain ⟨⟨n, d1⟩, happend, hret⟩ := Res.bind_ok h
    obtain ⟨space, -, htaken⟩ := Res.bind_ok happend
    obtain ⟨inp, -, hd1⟩ := Res.bind_ok htaken
    cases hd1; cases hret; rfl

theorem decDrain_cfg {p : Params} {d d' : Decoder} {r : Result} (h : decDrain p d = .ok (d', r)) :
    d'.cfg = d.cfg := by
  obtain ⟨⟨bytes, d1⟩, htake, hret⟩ := Res.bind_ok h
  obtain ⟨bytes', -, hd1⟩ := Res.bind_ok htake
  cases hd1; cases hret; rfl

theorem decFinish_cfg {p : Params} {d d' : Decoder} {r : Result} (h : decFinish p d = .ok (d', r)) :
    d'.cfg = d.cfg := by
  obtain ⟨whole, -, hret⟩ := Res.bind_ok h
  cases hret; rfl

theorem decReset_cfg {p : Params} {d d' : Decoder} {r : Result} (h : decReset p d = .ok (d', r)) :
    d'.cfg = d.cfg := by
  cases h; rfl

/-- Settles O14, by the shapes of a next state: CONSTRUCT is excluded on its own port, and everything
else keeps CFG of the unit it runs on and leaves the other port as it was. -/
theorem configurationIsImmutable : Obligations.ConfigurationIsImmutable := by
  intro i s t h
  cases exec_shape h with
  | encC w l ibs obs hi e r ht _ =>
    subst ht
    exact ⟨rfl, fun hne => absurd hi (hne w l ibs obs), fun _ => rfl⟩
  | decC w l ibs obs hi d r ht _ =>
    subst ht
    exact ⟨rfl, fun _ => rfl, fun hne => absurd hi (hne w l ibs obs)⟩
  | encCmd e e' r he ht _ hrun =>
    have hcfg : e'.cfg = e.cfg := by
      rcases hrun with ⟨-, hr⟩ | ⟨data, -, hr⟩ | ⟨-, hr⟩ | ⟨-, hr⟩ | ⟨-, hr⟩
      · exact encReset_cfg hr
      · exact (encSink_same hr).1.cfg
      · exact (encPoll_same hr).cfg
      · rw [encDrain_same hr]
      · exact encFinish_cfg hr
    subst ht
    exact ⟨rfl, fun _ => by simp [he, hcfg], fun _ => rfl⟩
  | decCmd d d' r hd ht _ hrun =>
    have hcfg : d'.cfg = d.cfg := by
      rcases hrun with ⟨-, hr⟩ | ⟨data, -, hr⟩ | ⟨-, hr⟩ | ⟨-, hr⟩ | ⟨-, hr⟩
      · exact decReset_cfg hr
      · exact decSink_cfg hr
      · exact decPoll_cfg hr
      · exact decDrain_cfg hr
      · exact decFinish_cfg hr
    subst ht
    exact ⟨rfl, fun _ => rfl, fun _ => by simp [hd, hcfg]⟩
  | encS q _ e e' he hq hrun ht =>
    subst hq ht
    exact ⟨rfl, fun _ => by simp [he, (encHandler_same hrun).1.cfg], fun _ => rfl⟩
  | decS q _ d d' hd hq hrun ht =>
    subst hq ht
    exact ⟨rfl, fun _ => rfl, fun _ => by simp [hd, (decHandler_same hrun).1]⟩
  | tok d d' hd hrun ht =>
    have hcfg : d'.cfg = d.cfg := by
      rcases hrun with ⟨b, -, hr⟩ | ⟨dist, n, -, hr⟩
      · exact consumeLit_cfg hr
      · exact consumeBref_cfg hr
    subst ht
    exact ⟨rfl, fun _ => rfl, fun _ => by simp [hd, hcfg]⟩

/-- Settles O8: each part is a field of the reset state as State.reset writes it down (R9, R240). -/
theorem resetHoldsNoInstance : Obligations.ResetHoldsNoInstance :=
  ⟨rfl, rfl, rfl, rfl⟩

end Sys2Proof.Machine
end

section
/-! PROOFS. What a step runs (R29, R80, R81, R237), and where a step row or a token is refused (R84, R99,
R187). -/

namespace Sys2Proof.Machine

/-! ### What a step fetches and runs -/

section
variable {s : State}

theorem step_of_no_request (h : s.requests = []) : step s = .next s := by
  rw [step, h]

theorem step_of_decoded {r : Request} {rest : List Request} {c : Code} {i : Instr}
    (hr : s.requests = r :: rest) (hf : fetch s r = .next c) (hc : decode s.layout c = .ok i) :
    step s = exec i { s with requests := rest } := by
  simp only [step, hr, hf, hc, State.dropRequest, List.tail_cons]

theorem fetch_encStep {e : Encoder} (he : s.enc = some e) :
    fetch s .encStep = .next (.encState e.state.code) := by
  simp only [fetch, he]

theorem fetch_decStep {d : Decoder} (hd : s.dec = some d) :
    fetch s .decStep = .next (.decState d.state.code) := by
  simp only [fetch, hd]

theorem fetch_token {d : Decoder} (hd : s.dec = some d) (h : d.Inv) :
    fetch s .token = .next (.token d.unread) := by
  simp only [fetch, hd, Decoder.unreadBits_spec h.readable]

/-! ### Refusals -/

variable {q : EncState} {q' : DecState}

theorem exec_encStep_not_selected {e : Encoder} (he : s.enc = some e) (hq : e.state ≠ q) :
    exec q.instr s = .refused .stepNotSelected := by
  simp only [exec_encStep, encStep, he, if_neg hq]

theorem exec_decStep_not_selected {d : Decoder} (hd : s.dec = some d) (hq : d.state ≠ q') :
    exec q'.instr s = .refused .stepNotSelected := by
  simp only [exec_decStep, decStep, hd, if_neg hq]

theorem exec_encStep_no_instance (he : s.enc = none) : exec q.instr s = .refused .noInstance := by
  simp only [exec_encStep, encStep, he]

theorem exec_decStep_no_instance (hd : s.dec = none) : exec q'.instr s = .refused .noInstance := by
  simp only [exec_decStep, decStep, hd]

variable {f : Decoder → Res Decoder}

theorem onToken_not_expected {d : Decoder} (hd : s.dec = some d) (hq : d.state ≠ .tagBit) :
    onToken f s = .refused .tokenNotExpected := by
  simp only [onToken, hd, if_neg hq]

theorem onToken_no_instance (hd : s.dec = none) : onToken f s = .refused .noInstance := by
  simp only [onToken, hd]

theorem State.layout_of_dec {d : Decoder} (hd : s.dec = some d) : s.layout = d.cfg.layout := by
  rw [State.layout, hd]

theorem State.layout_of_no_dec (hd : s.dec = none) : s.layout = Layout.smallest := by
  rw [State.layout, hd]

theorem execBref_of_fits {dist n : Nat} (h : brefFits s.layout dist n = true) :
    execBref dist n s = onToken (consumeBref (dist - 1) (n - 1)) s := if_pos h

theorem execBref_not_encodable {dist n : Nat} (h : brefFits s.layout dist n = false) :
    execBref dist n s = .refused .tokenNotEncodable :=
  if_neg (Bool.eq_false_iff.1 h)

end

/-- Settles O5, by the equation of each part: no request, a decoded one, and what each request fetches. -/
theorem stepRunsDecodedInstruction : Obligations.StepRunsDecodedInstruction :=
  ⟨fun _ h => step_of_no_request h, fun _ _ _ _ _ hr hf hc => step_of_decoded hr hf hc,
    fun _ _ _ => rfl, fun _ _ he => fetch_encStep he, fun _ _ hd => fetch_decStep hd,
    fun _ _ hd h => fetch_token hd h⟩

/-- Settles O7, by the refusal of each way into a unit; a backreference is judged first by the layout of
the decoder on the port, or by the smallest one. -/
theorem stepsOutsideTheirState : Obligations.StepsOutsideTheirState := by
  refine ⟨fun s e q he hq => exec_encStep_not_selected he hq,
    fun s d q hd hq => exec_decStep_not_selected hd hq,
    fun s d b hd hq => onToken_not_expected (f := consumeLit b) hd hq,
    fun s d dist n hd hfit hq => ?_, fun s d dist n hd hfit => ?_,
    fun s q he => exec_encStep_no_instance he, fun s q hd => exec_decStep_no_instance hd,
    fun s b hd => onToken_no_instance (f := consumeLit b) hd,
    fun s dist n hd hfit => ?_, fun s dist n hd hfit => ?_⟩
  · rw [← State.layout_of_dec hd] at hfit
    exact (execBref_of_fits hfit).trans (onToken_not_expected hd hq)
  · rw [← State.layout_of_dec hd] at hfit
    exact execBref_not_encodable hfit
  · rw [← State.layout_of_no_dec hd] at hfit
    exact (execBref_of_fits hfit).trans (onToken_no_instance hd)
  · rw [← State.layout_of_no_dec hd] at hfit
    exact execBref_not_encodable hfit

end Sys2Proof.Machine
end

section
/-! PROOFS. What CONSTRUCT answers (R140, R180), and that every instruction and every step keep the range
invariant (R24, R25, R27, R28, R33). -/

namespace Sys2Proof.Machine

/-! ### CONSTRUCT -/

theorem execEncConstruct_of_legal {w l ibs obs : Nat} (h : legalEncoder ⟨w, l, ibs, obs⟩) (s : State) :
    execEncConstruct w l ibs obs s =
      .next ((s.setEnc (some (Encoder.initial ⟨w, l, ibs, obs⟩))).respond .encoder .ok) := by
  rw [execEncConstruct, encoderCfg, if_pos h]

theorem execEncConstruct_of_not_legal {w l ibs obs : Nat} (h : ¬ legalEncoder ⟨w, l, ibs, obs⟩)
    (s : State) :
    execEncConstruct w l ibs obs s = .next ((s.setEnc none).respond .encoder .configError) := by
  rw [execEncConstruct, encoderCfg, if_neg h]

theorem execDecConstruct_of_legal {w l ibs obs : Nat} (h : legalDecoder ⟨w, l, ibs, obs⟩) (s : State) :
    execDecConstruct w l ibs obs s =
      .next ((s.setDec (some (Decoder.initial ⟨w, l, ibs, obs⟩))).respond .decoder .ok) := by
  rw [execDecConstruct, decoderCfg, if_pos h]

theorem execDecConstruct_of_not_legal {w l ibs obs : Nat} (h : ¬ legalDecoder ⟨w, l, ibs, obs⟩)
    (s : State) :
    execDecConstruct w l ibs obs s = .next ((s.setDec none).respond .decoder .configError) := by
  rw [execDecConstruct, decoderCfg, if_neg h]

/-- Every register and memory of the initial encoder is the reset column's value (R24, R25, R35). -/
theorem Encoder.initial_atReset (cfg : Cfg) : (Encoder.initial cfg).AtReset := by
  constructor <;> intros <;> rfl

/-- Every register and memory of the initial decoder is the reset column's value (R27, R28, R35). -/
theorem Decoder.initial_atReset (cfg : Cfg) : (Decoder.initial cfg).AtReset := by
  constructor <;> intros <;> rfl

/-- Settles O20, by the two answers of CONSTRUCT: a legal configuration's initial encoder, or none. -/
theorem encoderConstruct : Obligations.EncoderConstruct := fun _ _ _ _ s =>
  ⟨fun h => ⟨_, execEncConstruct_of_legal h s, rfl, Encoder.initial_atReset _⟩,
    fun h => execEncConstruct_of_not_legal h s⟩

/-- Settles O21, by the two answers of CONSTRUCT: a legal configuration's initial decoder, or none. -/
theorem decoderConstruct : Obligations.DecoderConstruct := fun _ _ _ _ s =>
  ⟨fun h => ⟨_, execDecConstruct_of_legal h s, rfl, Decoder.initial_atReset _⟩,
    fun h => execDecConstruct_of_not_legal h s⟩

/-! ### What handlers, commands and tokens keep of a unit -/

section
variable {p : Params} {r : Result} {e e' : Encoder} {d d' : Decoder}

theorem encHandler_keeps_inv (h : e.Inv) (hrun : encHandler e.state p e = .ok e') : e'.Inv := by
  obtain ⟨e1, hok, hinv⟩ := encHandler_inv (p := p) h
  cases hrun.symm.trans hok
  exact hinv

theorem encReset_inv (h : e.Inv) (hrun : encReset p e = .ok (e', r)) : e'.Inv := by
  cases hrun
  exact Encoder.initial_inv h.legal

theorem encPoll_inv (h : e.Inv) (hrun : encPoll p e = .ok (e', r)) : e'.Inv := by
  obtain ⟨e1, r1, -, hok, -, -, hinv, -⟩ := encPoll_spec (p := p) h
  cases hrun.symm.trans hok
  exact hinv

theorem encDrain_inv (h : e.Inv) (hrun : encDrain p e = .ok (e', r)) : e'.Inv := by
  rw [encDrain_same hrun]
  exact Encoder.drained_inv h

theorem encFinish_inv (h : e.Inv) (hrun : encFinish p e = .ok (e', r)) : e'.Inv := by
  cases hrun
  exact Encoder.setFinishing_inv h

theorem decHandler_keeps_inv (h : d.Inv) (hrun : decHandler d.state d = .ok d') : d'.Inv := by
  obtain ⟨d1, hok, hstep⟩ := decHandler_stepped h
  cases hrun.symm.trans hok
  exact hstep.inv

theorem decReset_inv (h : d.Inv) (hrun : decReset p d = .ok (d', r)) : d'.Inv := by
  cases hrun
  exact Decoder.initial_inv h.legal

theorem decSink_inv {data : List Byte} (h : d.Inv) (hrun : decSink data p d = .ok (d', r)) :
    d'.Inv := by
  obtain ⟨d1, r1, hok, hinv⟩ := decSink_keeps (p := p) h data
  cases hrun.symm.trans hok
  exact hinv

theorem decPoll_inv (h : d.Inv) (hrun : decPoll p d = .ok (d', r)) : d'.Inv := by
  obtain ⟨d1, r1, -, -, hok, -, -, -, -, -, hinv, -⟩ := decPoll_spec (p := p) h
  cases hrun.symm.trans hok
  exact hinv

theorem decDrain_inv (h : d.Inv) (hrun : decDrain p d = .ok (d', r)) : d'.Inv := by
  rw [decDrain, Decoder.takeAll_spec h.outSize] at hrun
  cases hrun
  exact Decoder.drained_inv h

/-- FINISH changes nothing of a decoder (R185). -/
theorem decFinish_keeps (hrun : decFinish p d = .ok (d', r)) : d' = d := by
  obtain ⟨whole, -, hret⟩ := Res.bind_ok hrun
  cases hret
  rfl

theorem consumeLit_inv {b : Byte} (h : d.Inv) (hrun : consumeLit b d = .ok d') : d'.Inv := by
  obtain ⟨-, hok⟩ | ⟨_, -, -, -, hok, hinv⟩ | ⟨_, _, -, -, -, -, hok, hinv⟩ := consumeLit_spec h b
  all_goals cases hrun.symm.trans hok
  · exact h
  · exact hinv
  · exact hinv

/-- The stored distance and length of a backreference that fits are below the fields' ranges (R84). -/
theorem brefFits_stored {ly : Layout} {dist n : Nat} (h : brefFits ly dist n = true) :
    dist - 1 < 2 ^ ly.windowBits ∧ n - 1 < 2 ^ ly.lookaheadBits := by
  simp only [brefFits, Bool.and_eq_true, decide_eq_true_eq] at h
  omega

theorem Decoder.Stalled.inv (h : d.Stalled d') : d'.Inv := by
  obtain ⟨-, -, -, -, -, -, hinv⟩ := h
  exact hinv

theorem consumeBref_inv {dist n : Nat} (h : d.Inv) (hq : d.state = .tagBit)
    (hfit : brefFits d.cfg.layout dist n = true)
    (hrun : consumeBref (dist - 1) (n - 1) d = .ok d') : d'.Inv := by
  obtain ⟨hdist, hlen⟩ := brefFits_stored hfit
  obtain ⟨-, d1, hok, hstalled⟩ | ⟨-, d1, hok, hbref⟩ := consumeBref_spec h hq hdist hlen
  all_goals cases hrun.symm.trans hok
  · exact hstalled.inv
  · exact hbref.inv

end

/-! ### The state -/

section
variable {s t : State}

theorem State.Inv.setEnc_some (h : s.Inv) {e : Encoder} (he : e.Inv) : (s.setEnc (some e)).Inv :=
  ⟨fun _ hx => Option.some.inj hx ▸ he, h.dec⟩

theorem State.Inv.setEnc_none (h : s.Inv) : (s.setEnc none).Inv := ⟨nofun, h.dec⟩

theorem State.Inv.setDec_some (h : s.Inv) {d : Decoder} (hd : d.Inv) : (s.setDec (some d)).Inv :=
  ⟨h.enc, fun _ hx => Option.some.inj hx ▸ hd⟩

theorem State.Inv.setDec_none (h : s.Inv) : (s.setDec none).Inv := ⟨h.enc, nofun⟩

theorem State.Inv.withRequests (h : s.Inv) (rest : List Request) : { s with requests := rest }.Inv :=
  ⟨h.enc, h.dec⟩

theorem State.Inv.respond (h : s.Inv) (port : Port) (r : Result) : (s.respond port r).Inv :=
  ⟨h.enc, h.dec⟩

theorem execEncConstruct_inv {w l ibs obs : Nat} (h : s.Inv)
    (hx : execEncConstruct w l ibs obs s = .next t) : t.Inv := by
  by_cases hl : legalEncoder ⟨w, l, ibs, obs⟩
  · cases (execEncConstruct_of_legal hl s).symm.trans hx
    exact (h.setEnc_some (Encoder.initial_inv hl)).respond _ _
  · cases (execEncConstruct_of_not_legal hl s).symm.trans hx
    exact h.setEnc_none.respond _ _

theorem execDecConstruct_inv {w l ibs obs : Nat} (h : s.Inv)
    (hx : execDecConstruct w l ibs obs s = .next t) : t.Inv := by
  by_cases hl : legalDecoder ⟨w, l, ibs, obs⟩
  · cases (execDecConstruct_of_legal hl s).symm.trans hx
    exact (h.setDec_some (Decoder.initial_inv hl)).respond _ _
  · cases (execDecConstruct_of_not_legal hl s).symm.trans hx
    exact h.setDec_none.respond _ _

/-- BREF answers only where its fields fit the layout of the decoder on the port (R84). -/
theorem execBref_inv {dist n : Nat} (h : s.Inv) (hx : execBref dist n s = .next t) : t.Inv := by
  cases hfit : brefFits s.layout dist n with
  | true =>
    rw [execBref_of_fits hfit] at hx
    obtain ⟨d, d', hd, hq, hrun, rfl⟩ := onToken_next hx
    rw [State.layout_of_dec hd] at hfit
    exact h.setDec_some (consumeBref_inv (h.dec d hd) hq hfit hrun)
  | false =>
    rw [execBref_not_encodable hfit] at hx
    cases hx

/-- Every instruction keeps the range invariant of both instances. -/
theorem exec_inv {i : Instr} (h : s.Inv) (hx : exec i s = .next t) : t.Inv := by
  cases exec_shape hx with
  | encC w l ibs obs hi =>
    subst hi
    exact execEncConstruct_inv h hx
  | decC w l ibs obs hi =>
    subst hi
    exact execDecConstruct_inv h hx
  | encCmd e e' r he ht _ hrun =>
    subst ht
    have hinv := h.enc e he
    refine (h.setEnc_some ?_).respond _ _
    rcases hrun with ⟨-, hr⟩ | ⟨data, -, hr⟩ | ⟨-, hr⟩ | ⟨-, hr⟩ | ⟨-, hr⟩
    · exact encReset_inv hinv hr
    · exact encSink_inv hinv hr
    · exact encPoll_inv hinv hr
    · exact encDrain_inv hinv hr
    · exact encFinish_inv hinv hr
  | decCmd d d' r hd ht _ hrun =>
    subst ht
    have hinv := h.dec d hd
    refine (h.setDec_some ?_).respond _ _
    rcases hrun with ⟨-, hr⟩ | ⟨data, -, hr⟩ | ⟨-, hr⟩ | ⟨-, hr⟩ | ⟨-, hr⟩
    · exact decReset_inv hinv hr
    · exact decSink_inv hinv hr
    · exact decPoll_inv hinv hr
    · exact decDrain_inv hinv hr
    · exact decFinish_keeps hr ▸ hinv
  | encS q _ e e' he hq hrun ht =>
    subst hq ht
    exact h.setEnc_some (encHandler_keeps_inv (h.enc e he) hrun)
  | decS q _ d d' hd hq hrun ht =>
    subst hq ht
    exact h.setDec_some (decHandler_keeps_inv (h.dec d hd) hrun)
  | tok d d' hd hrun ht =>
    rcases hrun with ⟨b, -, hr⟩ | ⟨dist, n, hi, -⟩
    · subst ht
      exact h.setDec_some (consumeLit_inv (h.dec d hd) hr)
    · subst hi
      exact execBref_inv h hx

end

/-- Settles O10, by what a step can have done: nothing, one instruction, or a stall inside a token. -/
theorem stepKeepsInvariant : Obligations.StepKeepsInvariant := by
  intro s t h hstep
  obtain ⟨-, rfl⟩ | ⟨r, rest, c, -, -, ⟨i, -, hx⟩ | ⟨-, hx⟩⟩ := step_next hstep
  · exact h
  · exact exec_inv (h.withRequests rest) hx
  · obtain ⟨d, d', hd, rfl, -, hkeep⟩ := stallInToken_next hx
    exact (h.withRequests rest).setDec_some (hkeep (h.dec d hd))

end Sys2Proof.Machine
end

section
/-! PROOFS. While a batch is scanned, E.INDEX stays the backward-link table of E.HBUF (R26, R128): FILLED
builds it, the scanning handlers write neither memory, and every other way out of a scan leaves the
scanning states. -/

namespace Sys2Proof.Machine

/-- The part of State.LinkedWhileScanning that is about one encoder. -/
def Encoder.LinkedWhileScanning (e : Encoder) : Prop := scanning e.state = true → e.Linked

theorem Encoder.LinkedWhileScanning.of_not_scanning {e : Encoder} (h : scanning e.state = false) :
    e.LinkedWhileScanning := fun hs => absurd (h.symm.trans hs) Bool.false_ne_true

theorem State.linkedWhileScanning_of_enc {s : State} {e : Encoder} (hs : s.enc = some e)
    (h : e.LinkedWhileScanning) : s.LinkedWhileScanning :=
  fun _ hx => Option.some.inj (hs.symm.trans hx) ▸ h

theorem State.linkedWhileScanning_of_eq {s t : State} (h : s.LinkedWhileScanning) (ht : t.enc = s.enc) :
    t.LinkedWhileScanning := fun e hx => h e (ht ▸ hx)

/-! ### Handlers -/

section
variable {p : Params} {e e' : Encoder}

theorem encFilled_linked (h : e.Inv) (hq : e.state = .filled) (hrun : encFilled p e = .ok e') :
    e'.Linked := by
  obtain ⟨index', hok, -, hlinked, -⟩ := encFilled_spec (p := p) h hq
  cases hrun.symm.trans hok
  exact hlinked

/-- SEARCH ends the scan, or chooses a token without writing E.HBUF or E.INDEX (R149). -/
theorem encSearch_linked (h : e.Inv) (hq : e.state = .search) (hl : e.Linked)
    (hrun : encSearch p e = .ok e') : e'.LinkedWhileScanning := by
  by_cases hend : e.inputSize < e.msi + Encoder.needed e
  · cases hrun.symm.trans (encSearch_end (p := p) h hq hend).1
    refine .of_not_scanning ?_
    simp only [Encoder.afterBatch]
    split <;> rfl
  · obtain ⟨hok, -⟩ | ⟨len, dist, -, -, -, hok, -⟩ := encSearch_go (p := p) h hq hend
    all_goals cases hrun.symm.trans hok; exact fun _ => hl

theorem encYieldTagBit_linked (h : e.Inv) (hl : e.Linked) (hrun : encYieldTagBit p e = .ok e') :
    e'.Linked := by
  by_cases hr : e.room
  · by_cases hm : e.matchLen = 0
    · obtain ⟨e1, hpushed, hok⟩ := encYieldTagBit_literal (p := p) h hr hm
      cases hrun.symm.trans hok
      exact hpushed.linked hl
    · obtain ⟨e1, hpushed, hok⟩ := encYieldTagBit_match (p := p) h hr (Nat.pos_of_ne_zero hm)
      cases hrun.symm.trans hok
      exact hpushed.linked hl
  · rw [encYieldTagBit, if_pos hr] at hrun
    cases hrun
    exact hl

theorem encYieldLiteral_linked (h : e.Inv) (hl : e.Linked) (hrun : encYieldLiteral p e = .ok e') :
    e'.Linked := by
  by_cases hr : e.room
  · obtain ⟨e1, hpushed, hok⟩ := encYieldLiteral_spec (p := p) h hr
    cases hrun.symm.trans hok
    exact hpushed.linked hl
  · rw [encYieldLiteral, if_pos hr] at hrun
    cases hrun
    exact hl

theorem encYieldBrIndex_linked (h : e.Inv) (hq : e.state = .yieldBrIndex) (hl : e.Linked)
    (hrun : encYieldBrIndex p e = .ok e') : e'.Linked := by
  by_cases hr : e.room
  · by_cases hc : e.outCount = 0
    · cases hrun.symm.trans (encYieldBrIndex_done (p := p) hr (h.brIndex hq).1 hc)
      exact hl
    · obtain ⟨e1, hpushed, hok⟩ := encYieldBrIndex_push (p := p) h hr (Nat.pos_of_ne_zero hc)
      cases hrun.symm.trans hok
      exact hpushed.linked hl
  · rw [encYieldBrIndex, if_pos hr] at hrun
    cases hrun
    exact hl

theorem encYieldBrLength_linked (h : e.Inv) (hl : e.Linked) (hrun : encYieldBrLength p e = .ok e') :
    e'.Linked := by
  by_cases hr : e.room
  · by_cases hc : e.outCount = 0
    · cases hrun.symm.trans (encYieldBrLength_done (p := p) hr hc)
      exact hl
    · obtain ⟨e1, hpushed, hok⟩ := encYieldBrLength_push (p := p) h hr (Nat.pos_of_ne_zero hc)
      cases hrun.symm.trans hok
      exact hpushed.linked hl
  · rw [encYieldBrLength, if_pos hr] at hrun
    cases hrun
    exact hl

/-- One handler step keeps the table right while a batch is scanned. -/
theorem encHandler_linked (h : e.Inv) (hl : e.LinkedWhileScanning)
    (hrun : encHandler e.state p e = .ok e') : e'.LinkedWhileScanning := by
  have hedge := (encHandler_same hrun).2
  cases hq : e.state <;> rw [hq] at hrun hedge
  case filled => exact fun _ => encFilled_linked (p := p) h hq hrun
  case search => exact encSearch_linked h hq (hl (by rw [hq]; rfl)) hrun
  case yieldTagBit => exact fun _ => encYieldTagBit_linked (p := p) h (hl (by rw [hq]; rfl)) hrun
  case yieldLiteral => exact fun _ => encYieldLiteral_linked (p := p) h (hl (by rw [hq]; rfl)) hrun
  case yieldBrIndex => exact fun _ => encYieldBrIndex_linked (p := p) h hq (hl (by rw [hq]; rfl)) hrun
  case yieldBrLength => exact fun _ => encYieldBrLength_linked (p := p) h (hl (by rw [hq]; rfl)) hrun
  case notFull => cases hrun; exact hl
  case done => cases hrun; exact hl
  case saveBacklog => exact .of_not_scanning (by rw [eq_of_beq hedge]; rfl)
  case flushBits =>
    refine .of_not_scanning ?_
    obtain hq' | hq' : e'.state = .flushBits ∨ e'.state = .done := by simpa [encEdge] using hedge
    all_goals rw [hq']; rfl

theorem encRun_linked (n : Nat) (h : e.Inv) (hl : e.LinkedWhileScanning) (hrun : encRun p n e = .ok e') :
    e'.LinkedWhileScanning := by
  induction n generalizing e with
  | zero => cases hrun; exact hl
  | succ n ih =>
    obtain ⟨e1, hstep, hrest⟩ := Res.bind_ok hrun
    exact ih (encHandler_keeps_inv h hstep) (encHandler_linked h hl hstep) hrest

/-! ### Commands -/

variable {r : Result}

/-- A SINK that is accepted leaves the encoder outside the scan, and any other changes nothing. -/
theorem encSink_linked {data : List Byte} (hl : e.LinkedWhileScanning)
    (hrun : encSink data p e = .ok (e', r)) : e'.LinkedWhileScanning := by
  by_cases ha : e.accepting
  · refine .of_not_scanning ?_
    obtain hq | ⟨-, hq, -⟩ := (encSink_same hrun).2
    · rw [hq, ha.2]; rfl
    · rw [hq]; rfl
  · rw [encSink, if_pos ha] at hrun
    cases hrun
    exact hl

theorem encPoll_linked (h : e.Inv) (hl : e.LinkedWhileScanning) (hrun : encPoll p e = .ok (e', r)) :
    e'.LinkedWhileScanning := by
  obtain ⟨e1, r1, n, hok, hsteps, -⟩ := encPoll_spec (p := p) h
  cases hrun.symm.trans hok
  exact encRun_linked n h hl hsteps

theorem encDrain_linked (hl : e.LinkedWhileScanning) (hrun : encDrain p e = .ok (e', r)) :
    e'.LinkedWhileScanning := by
  rw [encDrain_same hrun]
  exact hl

/-- FINISH leads from NOT_FULL to FILLED, both outside the scan, and keeps every other state (R145). -/
theorem encFinish_linked (hl : e.LinkedWhileScanning) (hrun : encFinish p e = .ok (e', r)) :
    e'.LinkedWhileScanning := by
  cases hrun
  intro hs
  refine hl ?_
  by_cases hq : e.state = .notFull
  · simp [Encoder.setFinishing, hq, scanning] at hs
  · simpa [Encoder.setFinishing, hq] using hs

end

/-! ### The state -/

theorem execEncConstruct_linked {s t : State} {w l ibs obs : Nat}
    (hx : execEncConstruct w l ibs obs s = .next t) : t.LinkedWhileScanning := by
  by_cases hlegal : legalEncoder ⟨w, l, ibs, obs⟩
  · cases (execEncConstruct_of_legal hlegal s).symm.trans hx
    exact State.linkedWhileScanning_of_enc rfl (.of_not_scanning rfl)
  · cases (execEncConstruct_of_not_legal hlegal s).symm.trans hx
    exact fun _ => nofun

/-- Every instruction keeps the table right while a batch is scanned. -/
theorem exec_linked {i : Instr} {s t : State} (h : s.Inv) (hl : s.LinkedWhileScanning)
    (hx : exec i s = .next t) : t.LinkedWhileScanning := by
  cases exec_shape hx with
  | encC w l ibs obs hi =>
    subst hi
    exact execEncConstruct_linked hx
  | encCmd e e' r he ht _ hrun =>
    subst ht
    refine State.linkedWhileScanning_of_enc rfl ?_
    have hle : e.LinkedWhileScanning := hl e he
    rcases hrun with ⟨-, hr⟩ | ⟨data, -, hr⟩ | ⟨-, hr⟩ | ⟨-, hr⟩ | ⟨-, hr⟩
    · cases hr
      exact .of_not_scanning rfl
    · exact encSink_linked hle hr
    · exact encPoll_linked (h.enc e he) hle hr
    · exact encDrain_linked hle hr
    · exact encFinish_linked hle hr
  | encS q _ e e' he hq hrun ht =>
    subst hq ht
    exact State.linkedWhileScanning_of_enc rfl (encHandler_linked (h.enc e he) (hl e he) hrun)
  | decC _ _ _ _ _ _ _ ht => subst ht; exact State.linkedWhileScanning_of_eq hl rfl
  | decCmd _ _ _ _ ht => subst ht; exact State.linkedWhileScanning_of_eq hl rfl
  | decS _ _ _ _ _ _ _ ht => subst ht; exact State.linkedWhileScanning_of_eq hl rfl
  | tok _ _ _ _ ht => subst ht; exact State.linkedWhileScanning_of_eq hl rfl

/-- Settles O11, by what a step can have done: nothing, one instruction, or a stall of the decoder. -/
theorem stepKeepsIndexRight : Obligations.StepKeepsIndexRight := by
  intro s t h hl hstep
  obtain ⟨-, rfl⟩ | ⟨r, rest, c, -, -, ⟨i, -, hx⟩ | ⟨-, hx⟩⟩ := step_next hstep
  · exact hl
  · exact exec_linked (h.withRequests rest) hl hx
  · obtain ⟨d, d', -, rfl, -⟩ := stallInToken_next hx
    exact State.linkedWhileScanning_of_eq hl rfl

/-- Settles O9: no port holds a unit to show anything of, and no request waits. -/
theorem invariantsAtReset : Obligations.InvariantsAtReset :=
  ⟨⟨nofun, nofun⟩, fun _ => nofun, ⟨rfl, nofun, nofun⟩⟩

end Sys2Proof.Machine
end

section
/-! PROOFS. What acts on one port is a function of that port's unit and the parameters alone (R20, R235),
and who writes E.finishing (R30). -/

namespace Sys2Proof.Machine

/-- A meaning of the encoder port: from its unit and the parameters it determines the unit it leaves
and the responses it adds, and it changes nothing else. -/
def EncoderLocal (f : State → Host.Outcome State Fault Refusal) : Prop :=
  ∀ s s' t : State, s.params = s'.params → s.enc = s'.enc → f s = .next t →
    ∃ e rs, t = { s with enc := e, responses := s.responses ++ rs } ∧
      f s' = .next { s' with enc := e, responses := s'.responses ++ rs }

/-- A meaning of the decoder port, in the same sense. -/
def DecoderLocal (f : State → Host.Outcome State Fault Refusal) : Prop :=
  ∀ s s' t : State, s.params = s'.params → s.dec = s'.dec → f s = .next t →
    ∃ d rs, t = { s with dec := d, responses := s.responses ++ rs } ∧
      f s' = .next { s' with dec := d, responses := s'.responses ++ rs }

/-! ### The ways into a unit -/

theorem State.setEnc_eq (s : State) (e : Option Encoder) :
    s.setEnc e = { s with enc := e, responses := s.responses ++ [] } := by
  rw [List.append_nil]; rfl

theorem State.setDec_eq (s : State) (d : Option Decoder) :
    s.setDec d = { s with dec := d, responses := s.responses ++ [] } := by
  rw [List.append_nil]; rfl

theorem encCommand_local (f : Params → Encoder → Res (Encoder × Result)) :
    EncoderLocal (encCommand f) := by
  intro s s' t hp he hx
  obtain ⟨e, e', r, hs, hrun, rfl⟩ := encCommand_next hx
  exact ⟨some e', [⟨.encoder, r⟩], rfl, encCommand_of_ok (he ▸ hs) (hp ▸ hrun)⟩

theorem decCommand_local (f : Params → Decoder → Res (Decoder × Result)) :
    DecoderLocal (decCommand f) := by
  intro s s' t hp hd hx
  obtain ⟨d, d', r, hs, hrun, rfl⟩ := decCommand_next hx
  exact ⟨some d', [⟨.decoder, r⟩], rfl, decCommand_of_ok (hd ▸ hs) (hp ▸ hrun)⟩

theorem exec_encStep_local (q : EncState) : EncoderLocal (exec q.instr) := by
  intro s s' t hp he hx
  rw [exec_encStep] at hx ⊢
  obtain ⟨e, e', hs, hq, hrun, rfl⟩ := encStep_next hx
  refine ⟨some e', [], s.setEnc_eq _, ?_⟩
  rw [encStep_of_ok (he ▸ hs) hq (hp ▸ hrun), State.setEnc_eq]

theorem exec_decStep_local (q : DecState) : DecoderLocal (exec q.instr) := by
  intro s s' t hp hd hx
  rw [exec_decStep] at hx ⊢
  obtain ⟨d, d', hs, hq, hrun, rfl⟩ := decStep_next hx
  refine ⟨some d', [], s.setDec_eq _, ?_⟩
  rw [decStep_of_ok (hd ▸ hs) hq hrun, State.setDec_eq]

theorem onToken_local (f : Decoder → Res Decoder) : DecoderLocal (onToken f) := by
  intro s s' t hp hd hx
  obtain ⟨d, d', hs, hq, hrun, rfl⟩ := onToken_next hx
  refine ⟨some d', [], s.setDec_eq _, ?_⟩
  rw [onToken_of_ok (hd ▸ hs) hq hrun, State.setDec_eq]

theorem execBref_local (dist n : Nat) : DecoderLocal (execBref dist n) := by
  intro s s' t hp hd hx
  have hlayout : s'.layout = s.layout := by rw [State.layout, State.layout, hd]
  cases hfit : brefFits s.layout dist n with
  | true =>
    rw [execBref_of_fits hfit] at hx
    rw [execBref_of_fits (hlayout ▸ hfit)]
    exact onToken_local _ s s' t hp hd hx
  | false =>
    rw [execBref_not_encodable hfit] at hx
    cases hx

theorem execEncConstruct_local (w l ibs obs : Nat) : EncoderLocal (execEncConstruct w l ibs obs) := by
  intro s s' t _ _ hx
  by_cases h : legalEncoder ⟨w, l, ibs, obs⟩
  · cases (execEncConstruct_of_legal h s).symm.trans hx
    exact ⟨_, [⟨.encoder, .ok⟩], rfl, execEncConstruct_of_legal h s'⟩
  · cases (execEncConstruct_of_not_legal h s).symm.trans hx
    exact ⟨none, [⟨.encoder, .configError⟩], rfl, execEncConstruct_of_not_legal h s'⟩

theorem execDecConstruct_local (w l ibs obs : Nat) : DecoderLocal (execDecConstruct w l ibs obs) := by
  intro s s' t _ _ hx
  by_cases h : legalDecoder ⟨w, l, ibs, obs⟩
  · cases (execDecConstruct_of_legal h s).symm.trans hx
    exact ⟨_, [⟨.decoder, .ok⟩], rfl, execDecConstruct_of_legal h s'⟩
  · cases (execDecConstruct_of_not_legal h s).symm.trans hx
    exact ⟨none, [⟨.decoder, .configError⟩], rfl, execDecConstruct_of_not_legal h s'⟩

/-! ### Every instruction -/

/-- What acts on the encoder: its ten step rows and its six commands. -/
theorem exec_encoderLocal {i : Instr} (h : actsOn .encoder i = true) : EncoderLocal (exec i) := by
  cases i
  case encStepNotFull => exact exec_encStep_local .notFull
  case encStepFilled => exact exec_encStep_local .filled
  case encStepSearch => exact exec_encStep_local .search
  case encStepYieldTagBit => exact exec_encStep_local .yieldTagBit
  case encStepYieldLiteral => exact exec_encStep_local .yieldLiteral
  case encStepYieldBrIndex => exact exec_encStep_local .yieldBrIndex
  case encStepYieldBrLength => exact exec_encStep_local .yieldBrLength
  case encStepSaveBacklog => exact exec_encStep_local .saveBacklog
  case encStepFlushBits => exact exec_encStep_local .flushBits
  case encStepDone => exact exec_encStep_local .done
  case encConstruct w l ibs obs => exact execEncConstruct_local w l ibs obs
  case encReset => exact encCommand_local encReset
  case encSink data => exact encCommand_local (encSink data)
  case encPoll => exact encCommand_local encPoll
  case encDrain => exact encCommand_local encDrain
  case encFinish => exact encCommand_local encFinish
  all_goals cases h

/-- What acts on the decoder: the two tokens, its seven step rows and its six commands. -/
theorem exec_decoderLocal {i : Instr} (h : actsOn .decoder i = true) : DecoderLocal (exec i) := by
  cases i
  case lit b => exact onToken_local (consumeLit b)
  case bref dist n => exact execBref_local dist n
  case decStepTagBit => exact exec_decStep_local .tagBit
  case decStepYieldLiteral => exact exec_decStep_local .yieldLiteral
  case decStepBackrefIndexMsb => exact exec_decStep_local .backrefIndexMsb
  case decStepBackrefIndexLsb => exact exec_decStep_local .backrefIndexLsb
  case decStepBackrefCountMsb => exact exec_decStep_local .backrefCountMsb
  case decStepBackrefCountLsb => exact exec_decStep_local .backrefCountLsb
  case decStepYieldBackref => exact exec_decStep_local .yieldBackref
  case decConstruct w l ibs obs => exact execDecConstruct_local w l ibs obs
  case decReset => exact decCommand_local decReset
  case decSink data => exact decCommand_local (decSink data)
  case decPoll => exact decCommand_local decPoll
  case decDrain => exact decCommand_local decDrain
  case decFinish => exact decCommand_local decFinish
  all_goals cases h

/-- Settles O15, by locality: the frame is the written form of the next state, the independence is the
same unit and responses from the other state. -/
theorem instancesShareNothing : Obligations.InstancesShareNothing := by
  refine ⟨fun i s t hi hx => ?_, fun i s t hi hx => ?_, fun i s s' t hi hp he hx => ?_,
    fun i s s' t hi hp hd hx => ?_⟩
  · obtain ⟨e, rs, rfl, -⟩ := exec_encoderLocal hi s s t rfl rfl hx
    rfl
  · obtain ⟨d, rs, rfl, -⟩ := exec_decoderLocal hi s s t rfl rfl hx
    rfl
  · obtain ⟨e, rs, rfl, hx'⟩ := exec_encoderLocal hi s s' t hp he hx
    exact ⟨_, rs, hx', rfl, rfl, rfl⟩
  · obtain ⟨d, rs, rfl, hx'⟩ := exec_decoderLocal hi s s' t hp hd hx
    exact ⟨_, rs, hx', rfl, rfl, rfl⟩

/-! ### E.finishing -/

/-- A CONSTRUCT that leaves an encoder leaves one that has not been told to finish (R30, R140). -/
theorem execEncConstruct_finishing {w l ibs obs : Nat} {s t : State} {e' : Encoder}
    (hx : execEncConstruct w l ibs obs s = .next t) (ht : t.enc = some e') : e'.finishing = false := by
  by_cases h : legalEncoder ⟨w, l, ibs, obs⟩
  · cases (execEncConstruct_of_legal h s).symm.trans hx
    cases ht
    rfl
  · cases (execEncConstruct_of_not_legal h s).symm.trans hx
    cases ht

theorem finishing_of_same_enc {s t : State} {e e' : Encoder} (he : s.enc = some e)
    (he' : t.enc = some e') (hkeep : t.enc = s.enc) : e'.finishing = e.finishing := by
  cases he'.symm.trans (hkeep.trans he)
  rfl

/-- Settles O17, by the shapes of a next state: CONSTRUCT and RESET make an initial encoder, FINISH sets
the flag, SINK, POLL, DRAIN and the step rows keep it, and the decoder's instructions keep the encoder. -/
theorem finishingFlag : Obligations.FinishingFlag := by
  intro i s t e e' he he' hx
  cases exec_shape hx with
  | encC w l ibs obs hi =>
    subst hi
    exact execEncConstruct_finishing hx he'
  | encCmd e1 e2 r he1 ht _ hrun =>
    subst ht
    cases he.symm.trans he1
    cases he'
    rcases hrun with ⟨rfl, hr⟩ | ⟨data, rfl, hr⟩ | ⟨rfl, hr⟩ | ⟨rfl, hr⟩ | ⟨rfl, hr⟩
    · cases hr; rfl
    · exact (encSink_same hr).1.finishing
    · exact (encPoll_same hr).finishing
    · rw [encDrain_same hr]
    · cases hr; rfl
  | encS q hi e1 e2 he1 hq hrun ht =>
    subst hi hq ht
    cases he.symm.trans he1
    cases he'
    have hsame := (encHandler_same hrun).1.finishing
    cases hq : e.state <;> exact hsame
  | decC w l ibs obs hi _ _ ht =>
    subst hi ht
    exact finishing_of_same_enc he he' rfl
  | decCmd d d' r _ ht _ hrun =>
    subst ht
    have hsame := finishing_of_same_enc he he' rfl
    rcases hrun with ⟨rfl, -⟩ | ⟨data, rfl, -⟩ | ⟨rfl, -⟩ | ⟨rfl, -⟩ | ⟨rfl, -⟩ <;> exact hsame
  | decS q hi _ _ _ _ _ ht =>
    subst hi ht
    have hsame := finishing_of_same_enc he he' rfl
    cases q <;> exact hsame
  | tok d d' _ hrun ht =>
    subst ht
    have hsame := finishing_of_same_enc he he' rfl
    rcases hrun with ⟨b, rfl, -⟩ | ⟨dist, n, rfl, -⟩ <;> exact hsame

end Sys2Proof.Machine
end

section
/-! PROOFS. One response for a command at its port, and none for a handler step or a token (R66, R95). -/

namespace Sys2Proof.Machine

theorem commandOf_decoder_of_encoder {i : Instr} (h : commandOf .encoder i = true) :
    commandOf .decoder i = false := by
  cases i <;> simp [commandOf] at h ⊢

/-- A command belongs to one port (R95). -/
theorem commandOf_port_unique {port port' : Port} {i : Instr} (h : commandOf port i = true)
    (h' : commandOf port' i = true) : port' = port := by
  cases port <;> cases port'
  case encoder.encoder => rfl
  case decoder.decoder => rfl
  case encoder.decoder => cases h'.symm.trans (commandOf_decoder_of_encoder h)
  case decoder.encoder => cases h.symm.trans (commandOf_decoder_of_encoder h')

/-- The responses an instruction adds: one at the port of a command, none for anything else. -/
def AddsItsResponse (i : Instr) (s t : State) : Prop :=
  (∀ port, commandOf port i = true → ∃ r, t.responses = s.responses ++ [⟨port, r⟩]) ∧
  (commandOf .encoder i = false → commandOf .decoder i = false → t.responses = s.responses)

theorem AddsItsResponse.of_command {i : Instr} {s t : State} {port : Port} {r : Result}
    (hc : commandOf port i = true) (ht : t.responses = s.responses ++ [⟨port, r⟩]) :
    AddsItsResponse i s t := by
  refine ⟨fun port' hc' => ?_, fun henc hdec => ?_⟩
  · rw [commandOf_port_unique hc hc']
    exact ⟨r, ht⟩
  · cases port
    case encoder => cases henc.symm.trans hc
    case decoder => cases hdec.symm.trans hc

theorem AddsItsResponse.of_no_command {i : Instr} {s t : State}
    (hc : ∀ port, commandOf port i = false) (ht : t.responses = s.responses) :
    AddsItsResponse i s t :=
  ⟨fun port hc' => absurd ((hc port).symm.trans hc') Bool.false_ne_true, fun _ _ => ht⟩

theorem commandOf_encStep (port : Port) (q : EncState) : commandOf port q.instr = false := by
  cases port <;> cases q <;> rfl

theorem commandOf_decStep (port : Port) (q : DecState) : commandOf port q.instr = false := by
  cases port <;> cases q <;> rfl

theorem commandOf_lit (port : Port) (b : Byte) : commandOf port (.lit b) = false := by
  cases port <;> rfl

theorem commandOf_bref (port : Port) (dist n : Nat) : commandOf port (.bref dist n) = false := by
  cases port <;> rfl

/-- Settles O16, by the shapes of a next state: CONSTRUCT and the commands on a unit end in one response
at their port, a step row and a token only put a unit back. -/
theorem oneResponsePerCommand : Obligations.OneResponsePerCommand := by
  intro i s t h
  change t.requests = s.requests ∧ AddsItsResponse i s t
  cases exec_shape h with
  | encC w l ibs obs hi e r ht => subst hi ht; exact ⟨rfl, .of_command rfl rfl⟩
  | decC w l ibs obs hi d r ht => subst hi ht; exact ⟨rfl, .of_command rfl rfl⟩
  | encCmd e e' r _ ht hc => subst ht; exact ⟨rfl, .of_command hc rfl⟩
  | decCmd d d' r _ ht hc => subst ht; exact ⟨rfl, .of_command hc rfl⟩
  | encS q hi e e' _ _ _ ht =>
    subst hi ht
    exact ⟨rfl, .of_no_command (commandOf_encStep · q) rfl⟩
  | decS q hi d d' _ _ _ ht =>
    subst hi ht
    exact ⟨rfl, .of_no_command (commandOf_decStep · q) rfl⟩
  | tok d d' _ hrun ht =>
    subst ht
    rcases hrun with ⟨b, rfl, -⟩ | ⟨dist, n, rfl, -⟩
    · exact ⟨rfl, .of_no_command (commandOf_lit · b) rfl⟩
    · exact ⟨rfl, .of_no_command (commandOf_bref · dist n) rfl⟩

end Sys2Proof.Machine
end

section
/-! PROOFS. A POLL leaves a unit where the next POLL stops at once: it rests, or its handler changes nothing
any more (R67, R144, R184). -/

namespace Sys2Proof.Machine

/-! ### The encoder -/

section
variable {p : Params} {e e' : Encoder} {r : Result}

/-- FLUSH_BITS goes to DONE or changes nothing (R155). -/
theorem encFlushBits_stays (hrun : encFlushBits p e = .ok e') (hq : e'.state ≠ .done) : e' = e := by
  unfold encFlushBits at hrun
  split at hrun
  · cases hrun
    exact absurd rfl hq
  · split at hrun
    · cases hrun
      rfl
    · obtain ⟨e1, -, hret⟩ := Res.bind_ok hrun
      cases hret
      exact absurd rfl hq

/-- A handler step that keeps the state and leaves E.OUT full is blocked: the step after it changes
nothing. FILLED, SEARCH and SAVE_BACKLOG never keep their state, and the yielding states need room. -/
theorem encHandler_blocked (hrun : encHandler e.state p e = .ok e') (hstay : e'.state = e.state)
    (hfull : e'.outSize = e'.cfg.obs) : encHandler e'.state p e' = .ok e' := by
  have hroom : ¬ e'.room := by rw [Encoder.room, hfull]; exact Nat.lt_irrefl _
  have hedge := (encHandler_same hrun).2
  rw [hstay] at hedge ⊢
  cases hq : e.state <;> rw [hq] at hrun hstay hedge
  case notFull => rfl
  case done => rfl
  case filled => cases hedge
  case search => cases hedge
  case saveBacklog => cases hedge
  case yieldTagBit => exact if_pos hroom
  case yieldLiteral => exact if_pos hroom
  case yieldBrIndex => exact if_pos hroom
  case yieldBrLength => exact if_pos hroom
  case flushBits =>
    obtain rfl := encFlushBits_stays (p := p) hrun (by rw [hstay]; nofun)
    exact hrun

/-- From where POLL's loop has stopped it stops at once, with any rounds left (R144). -/
theorem encPollLoop_again (fuel k : Nat) (hrun : encPollLoop p fuel e = .ok (e', r)) :
    encPollLoop p (k + 1) e' = .ok (e', r) := by
  induction fuel generalizing e with
  | zero => cases hrun
  | succ fuel ih =>
    unfold encPollLoop at hrun
    split at hrun
    case isTrue hrest =>
      cases hrun
      exact if_pos hrest
    case isFalse hrest =>
      obtain ⟨e1, hstep, hgo⟩ := Res.bind_ok hrun
      split at hgo
      case isTrue hstop =>
        cases hgo
        have hblocked := encHandler_blocked hstep hstop.1 hstop.2
        rw [← hstop.1] at hrest
        rw [encPollLoop, if_neg hrest, hblocked, Res.ok_bind, if_pos ⟨rfl, hstop.2⟩, Res.pure_eq]
      case isFalse => exact ih hgo

theorem encPoll_again (hrun : encPoll p e = .ok (e', r)) : encPoll p e' = .ok (e', r) :=
  encPollLoop_again _ _ hrun

end

/-! ### The decoder -/

section
variable {p : Params} {d d' : Decoder} {r : Result}

/-- A field read that keeps the state has stalled, when going on would leave the state. -/
theorem readField_stays {n : Nat} {use : Nat → Decoder → Res Decoder}
    (hrun : Decoder.readField n use d = .ok d') (hstay : d'.state = d.state)
    (huse : ∀ v d1 d2, use v d1 = .ok d2 → d2.state ≠ d.state) : d' = d := by
  obtain hstall | ⟨v, d1, -, hgo⟩ := readField_same hrun
  · exact hstall
  · exact absurd hstay (huse v d1 d' hgo)

theorem tagBitRead_leaves {v : Nat} (hrun : tagBitRead v d = .ok d') : d'.state ≠ .tagBit := by
  unfold tagBitRead at hrun
  split at hrun
  · cases hrun; nofun
  · split at hrun <;> cases hrun <;> nofun

theorem literalRead_leaves {v : Nat} (hrun : literalRead v d = .ok d') : d'.state ≠ .yieldLiteral := by
  obtain ⟨d1, -, hemit⟩ := Res.bind_ok hrun
  obtain ⟨d2, -, hret⟩ := Res.bind_ok hemit
  cases hret
  nofun

theorem indexMsbRead_leaves {v : Nat} (hrun : indexMsbRead v d = .ok d') :
    d'.state ≠ .backrefIndexMsb := by
  cases hrun; nofun

theorem indexLsbRead_leaves {v : Nat} (hrun : indexLsbRead v d = .ok d') :
    d'.state ≠ .backrefIndexLsb := by
  cases hrun
  dsimp only
  split <;> nofun

theorem countMsbRead_leaves {v : Nat} (hrun : countMsbRead v d = .ok d') :
    d'.state ≠ .backrefCountMsb := by
  cases hrun; nofun

theorem countLsbRead_leaves {v : Nat} (hrun : countLsbRead v d = .ok d') :
    d'.state ≠ .backrefCountLsb := by
  cases hrun; nofun

/-- YIELD_BACKREF without room changes nothing (R193). -/
theorem decYieldBackref_of_full (hfull : d.outSize = d.cfg.obs) : decYieldBackref d = .ok d := by
  rw [decYieldBackref, minus_of_le (Nat.le_of_eq hfull), Res.ok_bind, hfull, Nat.sub_self, if_pos rfl,
    Res.pure_eq]

/-- A handler step that keeps D.state is the last one that does anything: the reading states have
stalled, and YIELD_BACKREF has filled D.OUT. -/
theorem decHandler_blocked (h : d.Inv) (hrun : decHandler d.state d = .ok d')
    (hstay : d'.state = d.state) : decHandler d'.state d' = .ok d' := by
  have hsame : d' = d → decHandler d'.state d' = .ok d' := fun heq => by rw [heq] at hrun ⊢; exact hrun
  cases hq : d.state <;> rw [hq] at hrun
  case tagBit =>
    exact hsame (readField_stays hrun hstay fun _ _ _ hgo => hq ▸ tagBitRead_leaves hgo)
  case yieldLiteral =>
    by_cases hr : d.room
    · rw [decHandler, decYieldLiteral, if_neg (not_not_intro hr)] at hrun
      exact hsame (readField_stays hrun hstay fun _ _ _ hgo => hq ▸ literalRead_leaves hgo)
    · rw [decHandler, decYieldLiteral, if_pos hr] at hrun
      exact hsame (Except.ok.inj hrun).symm
  case backrefIndexMsb =>
    obtain ⟨n, -, hread⟩ := Res.bind_ok hrun
    exact hsame (readField_stays hread hstay fun _ _ _ hgo => hq ▸ indexMsbRead_leaves hgo)
  case backrefIndexLsb =>
    exact hsame (readField_stays hrun hstay fun _ _ _ hgo => hq ▸ indexLsbRead_leaves hgo)
  case backrefCountMsb =>
    obtain ⟨n, -, hread⟩ := Res.bind_ok hrun
    exact hsame (readField_stays hread hstay fun _ _ _ hgo => hq ▸ countMsbRead_leaves hgo)
  case backrefCountLsb =>
    exact hsame (readField_stays hrun hstay fun _ _ _ hgo => hq ▸ countLsbRead_leaves hgo)
  case yieldBackref =>
    obtain ⟨d1, hok, hstep⟩ := decYieldBackref_stepped h hq
    cases hrun.symm.trans hok
    obtain ⟨-, heq | hfull⟩ | ⟨hleft, -⟩ := hstep.progress
    · exact hsame heq
    · rw [hstay, hq]
      exact decYieldBackref_of_full (hfull.trans (by rw [hstep.cfg]))
    · exact absurd hstay hleft

theorem decPoll_again (h : d.Inv) (hrun : decPoll p d = .ok (d', r)) : decPoll p d' = .ok (d', r) := by
  obtain ⟨d2, r2, n, d1, hok, -, -, hinv, hstep, hstay, -, -, -, hr, -⟩ := decPoll_spec (p := p) h
  cases hrun.symm.trans hok
  have hblocked := decHandler_blocked hinv hstep hstay
  rw [decPoll, decPollBound, decPollLoop, hblocked, Res.ok_bind, if_pos rfl, ← hr, Res.pure_eq]

end

/-! ### The commands -/

/-- A command that answers the same from where it left the encoder changes nothing the second time. -/
theorem encCommand_twice {f : Params → Encoder → Res (Encoder × Result)} {s t u : State}
    (hf : ∀ e e' r, s.enc = some e → f s.params e = .ok (e', r) → f s.params e' = .ok (e', r))
    (ht : encCommand f s = .next t) (hu : encCommand f t = .next u) :
    u.enc = t.enc ∧ ∃ r, t.responses = s.responses ++ [r] ∧ u.responses = t.responses ++ [r] := by
  obtain ⟨e, e', r, he, hrun, rfl⟩ := encCommand_next ht
  cases hu.symm.trans (encCommand_of_ok rfl (hf e e' r he hrun))
  exact ⟨rfl, _, rfl, rfl⟩

/-- A command that answers the same from where it left the decoder changes nothing the second time. -/
theorem decCommand_twice {f : Params → Decoder → Res (Decoder × Result)} {s t u : State}
    (hf : ∀ d d' r, s.dec = some d → f s.params d = .ok (d', r) → f s.params d' = .ok (d', r))
    (ht : decCommand f s = .next t) (hu : decCommand f t = .next u) :
    u.dec = t.dec ∧ ∃ r, t.responses = s.responses ++ [r] ∧ u.responses = t.responses ++ [r] := by
  obtain ⟨d, d', r, hd, hrun, rfl⟩ := decCommand_next ht
  cases hu.symm.trans (decCommand_of_ok rfl (hf d d' r hd hrun))
  exact ⟨rfl, _, rfl, rfl⟩

/-- Settles O33, by the state each POLL stops in: a second loop of handlers stops there at once. -/
theorem pollIsIdempotent : Obligations.PollIsIdempotent :=
  ⟨fun _ _ _ _ ht hu => encCommand_twice (fun _ _ _ _ hrun => encPoll_again hrun) ht hu,
    fun _ _ _ h ht hu => decCommand_twice (fun d _ _ hd hrun => decPoll_again (h.dec d hd) hrun) ht hu⟩

end Sys2Proof.Machine
end

section
/-! PROOFS. Encodings: what the encoder of the tables writes decodes to the instruction, and exactly which bit
sequences and command words decode (R80 to R99). -/

namespace Sys2Proof

/-! ### Decoding what was encoded -/

theorem decode_litBits (ly : Layout) (b : Byte) : decode ly (.token (litBits b)) = .ok (.lit b) := by
  have h := decodeToken_litBits ly b []
  rw [List.append_nil] at h
  rw [decode, h]; rfl

theorem decode_brefBits {ly : Layout} {d n : Nat} (hfit : brefFits ly d n = true) :
    decode ly (.token (brefBits ly d n)) = .ok (.bref d n) := by
  have h := decodeToken_brefBits hfit []
  rw [List.append_nil] at h
  rw [decode, h]; rfl

theorem decode_encConstruct {ly : Layout} {w l : Nat} (hfit : cfg0Fits w l = true) (ibs obs : Nat) :
    decode ly (encode ly (.encConstruct w l ibs obs)) = .ok (.encConstruct w l ibs obs) := by
  obtain ⟨hw, hl⟩ := cfg0Of_fields hfit
  change Except.ok (Instr.encConstruct (cfg0Window (cfg0Of w l)) (cfg0Lookahead (cfg0Of w l)) ibs obs) = _
  rw [hw, hl]

theorem decode_decConstruct {ly : Layout} {w l : Nat} (hfit : cfg0Fits w l = true) (ibs obs : Nat) :
    decode ly (encode ly (.decConstruct w l ibs obs)) = .ok (.decConstruct w l ibs obs) := by
  obtain ⟨hw, hl⟩ := cfg0Of_fields hfit
  change Except.ok (Instr.decConstruct (cfg0Window (cfg0Of w l)) (cfg0Lookahead (cfg0Of w l)) ibs obs) = _
  rw [hw, hl]

theorem decodeEncState_code (q : EncState) : decodeEncState q.code = .ok q.instr := by
  cases q <;> rfl

theorem decodeDecState_code (q : DecState) : decodeDecState q.code = .ok q.instr := by
  cases q <;> rfl

/-- Settles O1, by the instruction: a token and CONSTRUCT carry fields that read back where they fit, a step
row has the code of its state, and the word of any other command is read as it stands. -/
theorem decodeOfEncode : Obligations.DecodeOfEncode := by
  intro ly i hwf
  cases i with
  | lit b => exact decode_litBits ly b
  | bref d n => exact decode_brefBits hwf
  | encStepNotFull => exact decodeEncState_code .notFull
  | encStepFilled => exact decodeEncState_code .filled
  | encStepSearch => exact decodeEncState_code .search
  | encStepYieldTagBit => exact decodeEncState_code .yieldTagBit
  | encStepYieldLiteral => exact decodeEncState_code .yieldLiteral
  | encStepYieldBrIndex => exact decodeEncState_code .yieldBrIndex
  | encStepYieldBrLength => exact decodeEncState_code .yieldBrLength
  | encStepSaveBacklog => exact decodeEncState_code .saveBacklog
  | encStepFlushBits => exact decodeEncState_code .flushBits
  | encStepDone => exact decodeEncState_code .done
  | decStepTagBit => exact decodeDecState_code .tagBit
  | decStepYieldLiteral => exact decodeDecState_code .yieldLiteral
  | decStepBackrefIndexMsb => exact decodeDecState_code .backrefIndexMsb
  | decStepBackrefIndexLsb => exact decodeDecState_code .backrefIndexLsb
  | decStepBackrefCountMsb => exact decodeDecState_code .backrefCountMsb
  | decStepBackrefCountLsb => exact decodeDecState_code .backrefCountLsb
  | decStepYieldBackref => exact decodeDecState_code .yieldBackref
  | encConstruct w l ibs obs => exact decode_encConstruct hwf ibs obs
  | decConstruct w l ibs obs => exact decode_decConstruct hwf ibs obs
  | encSink data | decSink data => rfl
  | encReset | encPoll | encDrain | encFinish | decReset | decPoll | decDrain | decFinish => rfl

/-! ### Tokens -/

/-- The bits of the token that a first bit begins (R82, R83, R86). -/
def tokenLength (ly : Layout) (tag : Bool) : Nat := if tag then 9 else 1 + ly.windowBits + ly.lookaheadBits

/-- Bits that are there are the bits of some number of their width. -/
theorem exists_bitsOf_append {n : Nat} {bits : List Bool} (h : n ≤ bits.length) :
    ∃ v rest, v < 2 ^ n ∧ bits = bitsOf n v ++ rest := by
  obtain ⟨⟨v, rest⟩, hread⟩ := (takeField_isOk_iff n bits).2 h
  exact ⟨v, rest, takeField_ok hread⟩

/-- A token whose bits are all there is a literal's bits or a fitting backreference's, and then the rest. -/
theorem exists_token_append {ly : Layout} {tag : Bool} {bits : List Bool}
    (h : tokenLength ly tag ≤ bits.length + 1) :
    (tag = true ∧ ∃ b rest, tag :: bits = litBits b ++ rest) ∨
    (tag = false ∧ ∃ d n rest, brefFits ly d n = true ∧ tag :: bits = brefBits ly d n ++ rest) := by
  cases tag with
  | true =>
    obtain ⟨v, rest, hv, rfl⟩ := exists_bitsOf_append (n := 8) (bits := bits) (Nat.le_of_succ_le_succ h)
    exact .inl ⟨rfl, BitVec.ofNat 8 v, rest, by rw [litBits, byteBits_ofNat hv]; rfl⟩
  | false =>
    simp only [tokenLength, Bool.false_eq_true, if_false] at h
    obtain ⟨d, more, hd, rfl⟩ := exists_bitsOf_append (n := ly.windowBits) (bits := bits) (by omega)
    rw [List.length_append, bitsOf_length] at h
    obtain ⟨n, rest, hn, rfl⟩ := exists_bitsOf_append (n := ly.lookaheadBits) (bits := more) (by omega)
    refine .inr ⟨rfl, d + 1, n + 1, rest, ?_, ?_⟩
    · simp only [brefFits, Bool.and_eq_true, decide_eq_true_eq]; omega
    · simp only [brefBits, Nat.add_sub_cancel, List.cons_append, List.append_assoc]

/-- A token whose bits are not all there is not read (R88). -/
theorem decodeToken_of_short {ly : Layout} {tag : Bool} {bits : List Bool}
    (h : bits.length + 1 < tokenLength ly tag) : decodeToken ly (tag :: bits) = .error .incompleteToken := by
  cases tag with
  | true => rw [decodeToken, takeField_of_lt (Nat.lt_of_succ_lt_succ h)]; rfl
  | false =>
    simp only [tokenLength, Bool.false_eq_true, if_false] at h
    by_cases hd : ly.windowBits ≤ bits.length
    · have hn : (bits.drop ly.windowBits).length < ly.lookaheadBits := by rw [List.length_drop]; omega
      simp only [decodeToken, takeField_of_le hd, bind, Except.bind, takeField_of_lt hn]
    · rw [decodeToken, takeField_of_lt (Nat.lt_of_not_le hd)]; rfl

/-- A token that is read is a literal or a fitting backreference, and its encoding is the front of the bits. -/
theorem decodeToken_ok {ly : Layout} {bits rest : List Bool} {i : Instr}
    (h : decodeToken ly bits = .ok (i, rest)) :
    (∃ b, i = .lit b ∧ bits = litBits b ++ rest) ∨
    ∃ d n, i = .bref d n ∧ brefFits ly d n = true ∧ bits = brefBits ly d n ++ rest := by
  cases bits with
  | nil => cases h
  | cons tag bits =>
    by_cases hlen : bits.length + 1 < tokenLength ly tag
    · rw [decodeToken_of_short hlen] at h; cases h
    · rcases exists_token_append (Nat.le_of_not_lt hlen) with ⟨-, b, rest', hb⟩ | ⟨-, d, n, rest', hfit, hb⟩
      · rw [hb, decodeToken_litBits] at h; cases h
        exact .inl ⟨b, rfl, hb⟩
      · rw [hb, decodeToken_brefBits hfit] at h; cases h
        exact .inr ⟨d, n, rfl, hfit, hb⟩

theorem decodeToken_error_iff {ly : Layout} {tag : Bool} {bits : List Bool} :
    (∃ why, decodeToken ly (tag :: bits) = .error why) ↔ bits.length + 1 < tokenLength ly tag := by
  refine ⟨fun ⟨why, h⟩ => ?_, fun h => ⟨_, decodeToken_of_short h⟩⟩
  by_contra hlen
  rcases exists_token_append (Nat.le_of_not_lt hlen) with ⟨-, b, rest, hb⟩ | ⟨-, d, n, rest, hfit, hb⟩
  · rw [hb, decodeToken_litBits] at h; cases h
  · rw [hb, decodeToken_brefBits hfit] at h; cases h

/-- Reading a token fails for want of bits only (R88, R89). -/
theorem decodeToken_error {ly : Layout} {bits : List Bool} {why : Reject}
    (h : decodeToken ly bits = .error why) : why = .incompleteToken := by
  cases bits with
  | nil => cases h; rfl
  | cons tag bits =>
    rw [decodeToken_of_short (decodeToken_error_iff.1 ⟨why, h⟩)] at h
    cases h; rfl

theorem litBits_length (b : Byte) : (litBits b).length = 9 := by simp [litBits]

theorem brefBits_length (ly : Layout) (d n : Nat) :
    (brefBits ly d n).length = 1 + ly.windowBits + ly.lookaheadBits := by
  simp [brefBits]; omega

/-- Settles O2, by the two forms of a token that is read and by the length at which reading fails. -/
theorem tokenBoundaries : Obligations.TokenBoundaries := by
  intro ly tag bits
  refine ⟨fun i rest h => ?_, decodeToken_error_iff, rfl⟩
  rcases decodeToken_ok h with ⟨b, rfl, hb⟩ | ⟨d, n, rfl, hfit, hb⟩
  · obtain ⟨rfl, -⟩ := List.cons.inj hb
    exact ⟨rfl, hb, litBits_length b⟩
  · obtain ⟨rfl, -⟩ := List.cons.inj hb
    exact ⟨hfit, hb, brefBits_length ly d n⟩

/-- Settles O53: a tag 0 begins a token of at least eight bits under a legal layout. -/
theorem paddingIsNoToken : Obligations.PaddingIsNoToken := by
  intro ly k hlegal hk
  obtain ⟨hW, -, hL, -⟩ := hlegal
  cases k with
  | zero => rfl
  | succ k =>
    refine decodeToken_of_short ?_
    simp only [List.length_replicate, tokenLength, Bool.false_eq_true, if_false]
    omega

/-! ### Command words -/

/-- A word without reserved bits is its unit bit and its OP (R95). -/
theorem commandWord_eq {word : Byte} (h : commandReserved word = 0) :
    word = BitVec.ofNat 8 ((if commandUnit word then 0x80 else 0) + commandOp word) := by
  have hlt := word.isLt
  have hunit : commandUnit word = decide (word.toNat / 128 % 2 = 1) :=
    Nat.testBit_eq_decide_div_mod_eq
  apply BitVec.eq_of_toNat_eq
  simp only [hunit, commandReserved, commandOp, BitVec.toNat_ofNat, decide_eq_true_eq] at h ⊢
  split <;> omega

theorem cfg0Fits_fields (cfg0 : Byte) : cfg0Fits (cfg0Window cfg0) (cfg0Lookahead cfg0) = true := by
  have hw : cfg0Window cfg0 < 16 := Nat.mod_lt _ (by decide)
  have hl : cfg0Lookahead cfg0 < 16 := Nat.div_lt_of_lt_mul cfg0.isLt
  exact Bool.and_eq_true_iff.2 ⟨decide_eq_true hw, decide_eq_true hl⟩

theorem decodeEncOp_of_le {op : Nat} (h : op ≤ 5) (ly : Layout) (ops : Operands) :
    ∃ i, decodeEncOp op ops = .ok i ∧ i.wellFormed ly = true ∧ Machine.commandOf .encoder i = true ∧
      ∃ ops', encode ly i = .command (BitVec.ofNat 8 op) ops' := by
  match op, h with
  | 0, _ => exact ⟨_, rfl, cfg0Fits_fields _, rfl, _, rfl⟩
  | 1, _ | 2, _ | 3, _ | 4, _ | 5, _ => exact ⟨_, rfl, rfl, rfl, _, rfl⟩

theorem decodeDecOp_of_le {op : Nat} (h : op ≤ 5) (ly : Layout) (ops : Operands) :
    ∃ i, decodeDecOp op ops = .ok i ∧ i.wellFormed ly = true ∧ Machine.commandOf .decoder i = true ∧
      ∃ ops', encode ly i = .command (BitVec.ofNat 8 (0x80 + op)) ops' := by
  match op, h with
  | 0, _ => exact ⟨_, rfl, cfg0Fits_fields _, rfl, _, rfl⟩
  | 1, _ | 2, _ | 3, _ | 4, _ | 5, _ => exact ⟨_, rfl, rfl, rfl, _, rfl⟩

theorem decodeEncOp_of_gt {op : Nat} (h : 5 < op) (ops : Operands) :
    decodeEncOp op ops = .error .reservedOp := by
  obtain ⟨k, rfl⟩ := Nat.exists_eq_add_of_lt h
  rw [show 5 + k + 1 = k + 6 by omega]; rfl

theorem decodeDecOp_of_gt {op : Nat} (h : 5 < op) (ops : Operands) :
    decodeDecOp op ops = .error .reservedOp := by
  obtain ⟨k, rfl⟩ := Nat.exists_eq_add_of_lt h
  rw [show 5 + k + 1 = k + 6 by omega]; rfl

theorem decodeCommand_reservedBits {word : Byte} (h : commandReserved word ≠ 0) (ops : Operands) :
    decodeCommand word ops = .error .reservedBits := if_pos h

theorem decodeCommand_eq {word : Byte} (h : commandReserved word = 0) (ops : Operands) :
    decodeCommand word ops =
      if commandUnit word then decodeDecOp (commandOp word) ops else decodeEncOp (commandOp word) ops :=
  if_neg (not_not_intro h)

theorem decodeCommand_reservedOp {word : Byte} (h : commandReserved word = 0) (hop : 5 < commandOp word)
    (ops : Operands) : decodeCommand word ops = .error .reservedOp := by
  rw [decodeCommand_eq h, decodeDecOp_of_gt hop, decodeEncOp_of_gt hop, ite_self]

/-- A word that is not malformed is the word of the command it decodes to, at the port bit 7 names (R95). -/
theorem decodeCommand_of_le {word : Byte} (h : commandReserved word = 0) (hop : commandOp word ≤ 5)
    (ly : Layout) (ops : Operands) :
    ∃ i, decodeCommand word ops = .ok i ∧ i.wellFormed ly = true ∧
      Machine.commandOf (if word.getLsbD 7 then .decoder else .encoder) i = true ∧
      ∃ ops', encode ly i = .command word ops' := by
  have hword := commandWord_eq h
  rw [decodeCommand_eq h]
  change ∃ i, _ ∧ _ ∧ Machine.commandOf (if commandUnit word then .decoder else .encoder) i = true ∧ _
  cases hu : commandUnit word with
  | true =>
    obtain ⟨i, hdec, hwf, hof, henc⟩ := decodeDecOp_of_le hop ly ops
    rw [hu, if_pos rfl] at hword
    exact ⟨i, hdec, hwf, hof, hword ▸ henc⟩
  | false =>
    obtain ⟨i, hdec, hwf, hof, henc⟩ := decodeEncOp_of_le hop ly ops
    rw [hu, if_neg Bool.false_ne_true, Nat.zero_add] at hword
    exact ⟨i, hdec, hwf, hof, hword ▸ henc⟩

/-- Settles O3, by the three ways to read a word: its reserved bits, a reserved OP, or one of six commands. -/
theorem commandWords : Obligations.CommandWords := by
  intro ly word ops
  by_cases hbits : commandReserved word = 0
  · by_cases hop : commandOp word ≤ 5
    · obtain ⟨i, hdec, hi⟩ := decodeCommand_of_le hbits hop ly ops
      refine ⟨⟨fun _ => ⟨hbits, hop⟩, fun _ => ⟨i, hdec⟩⟩, fun j hj => ?_⟩
      cases hdec.symm.trans hj
      exact hi
    · have hdec := decodeCommand_reservedOp hbits (Nat.lt_of_not_le hop) ops
      exact ⟨⟨fun ⟨_, h⟩ => (nomatch hdec.symm.trans h), fun h => absurd h.2 hop⟩,
        fun _ h => nomatch hdec.symm.trans h⟩
  · have hdec := decodeCommand_reservedBits hbits ops
    exact ⟨⟨fun ⟨_, h⟩ => (nomatch hdec.symm.trans h), fun h => absurd h.1 hbits⟩,
      fun _ h => nomatch hdec.symm.trans h⟩

/-- Settles O4: each encoding is short enough to be read by computation. -/
theorem writtenOutEncodings : Obligations.WrittenOutEncodings :=
  ⟨rfl, rfl, rfl, rfl, rfl, rfl, rfl, rfl, rfl, rfl, rfl⟩

end Sys2Proof
end

section
/-! PROOFS. What a decoder in range does with a token: where it outputs, where it stalls, that it is a run of
the token's handlers, and what a request for a token whose bits are not all there does (R82 to R89, R187 to
R193). -/

namespace Sys2Proof.Machine

/-! ### LIT and BREF at the beginning of a token -/

section
variable {s : State} {d : Decoder}

theorem exec_lit_of_ok {b : Byte} {d' : Decoder} (hd : s.dec = some d) (hq : d.state = .tagBit)
    (hrun : consumeLit b d = .ok d') : exec (.lit b) s = .next (s.setDec (some d')) :=
  onToken_of_ok hd hq hrun

theorem exec_bref_of_ok {dist n : Nat} {d' : Decoder} (hd : s.dec = some d) (hq : d.state = .tagBit)
    (hfit : brefFits d.cfg.layout dist n = true) (hrun : consumeBref (dist - 1) (n - 1) d = .ok d') :
    exec (.bref dist n) s = .next (s.setDec (some d')) := by
  rw [← State.layout_of_dec hd] at hfit
  exact (execBref_of_fits hfit).trans (onToken_of_ok hd hq hrun)

/-- The decoder port already holds the decoder. -/
theorem State.setDec_self (hd : s.dec = some d) : s.setDec (some d) = s := by
  rw [← hd]; rfl

end

/-- Outputting bytes commutes with setting the state register. -/
theorem Decoder.Emitted.withState {cs : List Byte} {d d' : Decoder} (h : Decoder.Emitted cs d d')
    (q : DecState) : Decoder.Emitted cs { d with state := q } { d' with state := q } where
  rest := by rw [h.rest]
  emittable := { h.emittable with }
  head := h.head
  outSize := h.outSize
  pending := h.pending
  window := h.window
  kept := h.kept

/-- Settles O50, by what the literal's bits lead to: no bit, a tag alone, or the whole token. -/
theorem literalToken : Obligations.LiteralToken := by
  intro s d b hd hinv hq
  have hroom : d.room ↔ d.outSize < d.cfg.obs := Iff.rfl
  rcases consumeLit_spec hinv b with
    ⟨hnil, hrun⟩ | ⟨d1, hne, htag, hstall, hrun, -⟩ | ⟨d1, d2, hlen, hr, htaken, hout, hrun, -⟩
  · have hexec := exec_lit_of_ok hd hq hrun
    rw [State.setDec_self hd] at hexec
    refine ⟨fun _ => hexec, fun hne => absurd hnil hne, fun hlen => ?_⟩
    rw [hnil] at hlen
    exact absurd hlen (by decide)
  · refine ⟨fun hnil => absurd hnil hne, fun _ _ => ⟨d1, htag, exec_lit_of_ok hd hq hrun⟩, fun hlen hr => ?_⟩
    rcases hstall with hstall | hstall
    · exact absurd (hroom.2 hr) hstall
    · omega
  · have hr := hroom.1 hr
    refine ⟨fun hnil => ?_, fun _ hstall => ?_, fun _ _ => ?_⟩
    · rw [hnil] at hlen
      exact absurd hlen (by decide)
    · omega
    · have hout' := hout.withState .tagBit
      have hself : ({ d1 with state := .tagBit } : Decoder) = d1 := by
        rw [← hq, ← htaken.state]
      exact ⟨d1, _, htaken, hself ▸ hout', exec_lit_of_ok hd hq hrun⟩

/-- Settles O51, by whether the token's bits are all there: a stall in one of its fields, or the copy. -/
theorem backreferenceToken : Obligations.BackreferenceToken := by
  intro s d dist n hd hinv hq hd1 hd2 hn1 hn2
  have hfit : brefFits d.cfg.layout dist n = true := by
    simp only [brefFits, Bool.and_eq_true, decide_eq_true_eq]
    exact ⟨⟨⟨hd1, hd2⟩, hn1⟩, hn2⟩
  rcases consumeBref_spec hinv hq (v := dist - 1) (n := n - 1)
      (Nat.sub_one_lt_of_le hd1 hd2) (Nat.sub_one_lt_of_le hn1 hn2) with
    ⟨hshort, d', hrun, k, o, c, q, hk, htaken, -⟩ | ⟨hlong, d', hrun, hcopied⟩
  · exact ⟨fun _ => ⟨d', k, o, c, q, hk, htaken, exec_bref_of_ok hd hq hfit hrun⟩,
      fun hlong => absurd hshort (Nat.not_lt_of_le hlong)⟩
  · refine ⟨fun hshort => absurd hshort (Nat.not_lt_of_le hlong), fun _ => ?_⟩
    rw [Nat.sub_add_cancel hd1, Nat.sub_add_cancel hn1] at hcopied
    obtain ⟨d1, d2, cs, htaken, hout, hlen, hbytes, rfl⟩ := hcopied.run
    refine ⟨d1, d2, cs, htaken, hout, hlen, hbytes, ?_⟩
    have hall : n - cs.length = 0 ↔ cs.length = n := by omega
    rw [exec_bref_of_ok hd hq hfit hrun]
    simp only [hall]

/-- Settles O52, by the two forms of a token that is read: each does what its handlers do on its bits. -/
theorem tokenIsARunOfHandlers : Obligations.TokenIsARunOfHandlers := by
  intro s d i rest hd hinv hq hread
  rcases decodeToken_ok hread with ⟨b, rfl, hb⟩ | ⟨dist, n, rfl, hfit, hb⟩
  · obtain ⟨d', hrun⟩ := consumeLit_answers hinv b
    exact ⟨d', (consumeLit_eq_run hinv hq hb).symm.trans hrun, exec_lit_of_ok hd hq hrun⟩
  · obtain ⟨d', hrun⟩ := consumeBref_answers hinv hq hfit
    refine ⟨d', ?_, exec_bref_of_ok hd hq hfit hrun⟩
    simp only [brefFits, Bool.and_eq_true, decide_eq_true_eq] at hfit
    obtain ⟨⟨⟨hd1, hd2⟩, hn1⟩, hn2⟩ := hfit
    have hbits : d.unread = false :: (bitsOf d.cfg.windowBits (dist - 1) ++
        (bitsOf d.cfg.lookaheadBits (n - 1) ++ rest)) := by
      rw [hb, brefBits, List.cons_append, List.append_assoc]; rfl
    have hsteps : handlerSteps d.cfg (.bref dist n) = distanceSteps d.cfg + 1 := by
      simp only [handlerSteps, distanceSteps, lengthSteps]
      split <;> split <;> rfl
    rw [hsteps, ← consumeBref_eq_run hinv hq (Nat.sub_one_lt_of_le hd1 hd2)
      (Nat.sub_one_lt_of_le hn1 hn2) hbits, hrun]

/-! ### A request for a token whose bits are not all there -/

theorem step_of_incomplete_token {s : State} {d : Decoder} {rest : List Request} {why : Reject}
    (hd : s.dec = some d) (hinv : d.Inv) (hr : s.requests = .token :: rest)
    (hshort : decodeToken d.cfg.layout d.unread = .error why) :
    step s = stallInToken { s with requests := rest } := by
  cases decodeToken_error hshort
  have hdec : decode s.layout (.token d.unread) = .error .incompleteToken := by
    rw [State.layout_of_dec hd, decode, hshort]; rfl
  simp only [step, hr, fetch_token hd hinv, hdec, State.dropRequest, List.tail_cons]

theorem tagBitRead_leaves_tagBit {b : Nat} {d d' : Decoder} (h : tagBitRead b d = .ok d') :
    d'.state ≠ .tagBit := by
  unfold tagBitRead at h
  split at h
  · cases h; nofun
  · split at h <;> (cases h; nofun)

/-- A handler that changes nothing in TAG_BIT has found no bit (R187). -/
theorem unread_of_tagBit_stall {d : Decoder} (hinv : d.Inv) (hq : d.state = .tagBit)
    (hstall : decHandler d.state d = .ok d) : d.unread = [] := by
  rcases Decoder.readField_spec (use := tagBitRead) hinv.readable (n := 1) (by decide) (by decide) with
    ⟨hlen, -⟩ | ⟨-, d1, -, hread⟩
  · exact List.eq_nil_of_length_eq_zero (Nat.lt_one_iff.1 hlen)
  · rw [hq] at hstall
    exact absurd hq (tagBitRead_leaves_tagBit (hread.symm.trans hstall))

/-- Where a token under way stalls: in TAG_BIT without a bit, in YIELD_LITERAL after a tag 1, and in one of
the four field states after a tag 0. -/
theorem Decoder.Short.stall_state {d d1 : Decoder} (h : Decoder.Short d d1)
    (hstall : decHandler d1.state d1 = .ok d1) :
    (d1.state = .tagBit ↔ d.unread = []) ∧ (d1.state = .yieldLiteral ↔ d.unread.head? = some true) := by
  by_cases ht : d1.state = .tagBit
  · have hnil := unread_of_tagBit_stall h.inv ht hstall
    rw [h.atTag ht] at hnil
    simp [ht, hnil]
  · by_cases hl : d1.state = .yieldLiteral
    · have htag := h.literal hl
      have hne : d.unread ≠ [] := by rintro hnil; rw [hnil] at htag; cases htag
      simp [hl, htag, hne]
    · have htag := h.field ht hl
      have hne : d.unread ≠ [] := by rintro hnil; rw [hnil] at htag; cases htag
      simp [ht, hl, htag, hne]

/-- Settles O60, by the run of handlers that `stallInToken` makes and the state it stops in. -/
theorem incompleteTokenStalls : Obligations.IncompleteTokenStalls := by
  intro s d why rest hd hinv hq hr hshort
  obtain ⟨n, d1, hexec, hrun, hstall, htoken⟩ :=
    stallInToken_spec (s := { s with requests := rest }) hd hinv hq hshort
  obtain ⟨k, o, c, hk, htaken⟩ := htoken.taken
  obtain ⟨htag, hlit⟩ := htoken.stall_state hstall
  exact ⟨n, d1, k, o, c, d1.state, hrun, hstall, hk, htaken, htag, hlit, htoken.notCopying,
    (step_of_incomplete_token hd hinv hr hshort).trans hexec⟩

end Sys2Proof.Machine
end

section
/-! PROOFS. A malformed command is refused by name, and a CONSTRUCT that answers CONFIG_ERROR leaves its port
empty (R98, R140, R180). -/

namespace Sys2Proof.Machine

theorem step_of_malformed {s : State} {word : Byte} {ops : Operands} {rest : List Request} {why : Reject}
    (hr : s.requests = .command word ops :: rest) (hdec : decodeCommand word ops = .error why)
    (hwhy : why ≠ .incompleteToken) : step s = .refused (.illegal why) := by
  have hdec' : decode s.layout (.command word ops) = .error why := hdec
  simp only [step, hr, fetch, hdec']

section
variable {s : State}

theorem encCommand_no_instance {f : Params → Encoder → Res (Encoder × Result)} (he : s.enc = none) :
    encCommand f s = .refused .noInstance := by
  rw [encCommand, he]

theorem decCommand_no_instance {f : Params → Decoder → Res (Decoder × Result)} (hd : s.dec = none) :
    decCommand f s = .refused .noInstance := by
  rw [decCommand, hd]

/-- Every encoder command but CONSTRUCT needs an encoder (R98). -/
theorem exec_encOp_no_instance {op : Nat} {ops : Operands} {i : Instr} (hop : op ≠ 0)
    (hdec : decodeEncOp op ops = .ok i) (he : s.enc = none) : exec i s = .refused .noInstance := by
  unfold decodeEncOp at hdec
  split at hdec
  · exact absurd rfl hop
  · cases hdec; exact encCommand_no_instance (f := encReset) he
  · cases hdec; exact encCommand_no_instance (f := encSink ops.data) he
  · cases hdec; exact encCommand_no_instance (f := encPoll) he
  · cases hdec; exact encCommand_no_instance (f := encDrain) he
  · cases hdec; exact encCommand_no_instance (f := encFinish) he
  · cases hdec

/-- Every decoder command but CONSTRUCT needs a decoder (R98). -/
theorem exec_decOp_no_instance {op : Nat} {ops : Operands} {i : Instr} (hop : op ≠ 0)
    (hdec : decodeDecOp op ops = .ok i) (hd : s.dec = none) : exec i s = .refused .noInstance := by
  unfold decodeDecOp at hdec
  split at hdec
  · exact absurd rfl hop
  · cases hdec; exact decCommand_no_instance (f := decReset) hd
  · cases hdec; exact decCommand_no_instance (f := decSink ops.data) hd
  · cases hdec; exact decCommand_no_instance (f := decPoll) hd
  · cases hdec; exact decCommand_no_instance (f := decDrain) hd
  · cases hdec; exact decCommand_no_instance (f := decFinish) hd
  · cases hdec

end

theorem step_command_no_instance {s : State} {word : Byte} {ops : Operands} {rest : List Request}
    (hr : s.requests = .command word ops :: rest) (hbits : commandReserved word = 0)
    (hop : commandOp word ≤ 5) (hop0 : commandOp word ≠ 0)
    (hport : if commandUnit word then s.dec = none else s.enc = none) : step s = .refused .noInstance := by
  obtain ⟨i, hdec, -⟩ := decodeCommand_of_le hbits hop s.layout ops
  rw [step_of_decoded (i := i) hr rfl hdec]
  rw [decodeCommand_eq hbits] at hdec
  cases hu : commandUnit word with
  | true =>
    rw [hu, if_pos rfl] at hdec hport
    exact exec_decOp_no_instance hop0 hdec hport
  | false =>
    rw [hu, if_neg Bool.false_ne_true] at hdec hport
    exact exec_encOp_no_instance hop0 hdec hport

theorem encConstruct_configError {s t : State} {w l ibs obs : Nat}
    (hexec : exec (.encConstruct w l ibs obs) s = .next t)
    (hresp : t.responses = s.responses ++ [⟨.encoder, .configError⟩]) : t.enc = none := by
  by_cases hlegal : legalEncoder ⟨w, l, ibs, obs⟩
  · cases hexec.symm.trans (execEncConstruct_of_legal hlegal s)
    cases List.append_cancel_left (as := s.responses) hresp
  · cases hexec.symm.trans (execEncConstruct_of_not_legal hlegal s)
    rfl

theorem decConstruct_configError {s t : State} {w l ibs obs : Nat}
    (hexec : exec (.decConstruct w l ibs obs) s = .next t)
    (hresp : t.responses = s.responses ++ [⟨.decoder, .configError⟩]) : t.dec = none := by
  by_cases hlegal : legalDecoder ⟨w, l, ibs, obs⟩
  · cases hexec.symm.trans (execDecConstruct_of_legal hlegal s)
    cases List.append_cancel_left (as := s.responses) hresp
  · cases hexec.symm.trans (execDecConstruct_of_not_legal hlegal s)
    rfl

/-- Settles O6, by what a malformed word decodes to, by the port's need of a unit, and by CONSTRUCT's two
answers. -/
theorem malformedCommandsAreRefused : Obligations.MalformedCommandsAreRefused :=
  ⟨fun _ _ ops _ hr hbits => step_of_malformed hr (decodeCommand_reservedBits hbits ops) nofun,
    fun _ _ ops _ hr hbits hop => step_of_malformed hr (decodeCommand_reservedOp hbits hop ops) nofun,
    fun _ _ _ _ hr hbits hop hop0 hport => step_command_no_instance hr hbits hop hop0 hport,
    fun _ _ _ _ _ _ hexec hresp => encConstruct_configError hexec hresp,
    fun _ _ _ _ _ _ hexec hresp => decConstruct_configError hexec hresp⟩

end Sys2Proof.Machine
end

section
/-! PROOFS. Every token of ENCODE_REF is a literal of an input byte or a backreference that pays, and the
tokens cover the input (R90, R131, R158). -/

namespace Sys2Proof.Machine

/-- A literal of a byte of `x`, or a backreference that fits the layout and is shorter than the literals it
stands for (R131). -/
def TokenPays (ly : Layout) (x : List Byte) (i : Instr) : Prop :=
  (∃ b, i = .lit b ∧ b ∈ x) ∨
    ∃ d n, i = .bref d n ∧ 1 ≤ d ∧ d ≤ 2 ^ ly.windowBits ∧ 1 ≤ n ∧ n ≤ 2 ^ ly.lookaheadBits ∧
      1 + ly.windowBits + ly.lookaheadBits < 8 * n

/-- How many bytes a token stands for (R82, R83). -/
def tokenSpan : Instr → Nat
  | .bref _ n => n
  | _ => 1

section
variable (p : Params) (ly : Layout) (x : List Byte)

/-- The token at an input position pays, and the scan moves on by the bytes it stands for, inside the input. -/
theorem tokenAt_pays {k : Nat} (hk : k < x.length) :
    TokenPays ly x (tokenAt p ly (virtualStream ly x) (2 ^ ly.windowBits + k)).1 ∧
      tokenSpan (tokenAt p ly (virtualStream ly x) (2 ^ ly.windowBits + k)).1 =
        (tokenAt p ly (virtualStream ly x) (2 ^ ly.windowBits + k)).2 ∧
      k + (tokenAt p ly (virtualStream ly x) (2 ^ ly.windowBits + k)).2 ≤ x.length := by
  rcases tokenAt_cases p ly x k hk with htok | ⟨q, n, htok, hq1, hq2, hn, hfit, hin, hpays, -⟩
  · rw [htok]
    have hmem : x.getD k 0 ∈ x := by
      rw [List.getD_eq_getElem _ _ hk]
      exact List.getElem_mem hk
    exact ⟨.inl ⟨_, rfl, hmem⟩, rfl, hk⟩
  · rw [htok]
    exact ⟨.inr ⟨_, n, rfl, by omega, by omega, hn, hfit, hpays⟩, rfl, by show k + n ≤ _; omega⟩

/-- From every input position on the tokens pay and stand for the bytes that are left. -/
theorem tokensFrom_pay (fuel : Nat) {k : Nat} (hk : k ≤ x.length) (hfuel : x.length ≤ k + fuel) :
    (∀ i ∈ tokensFrom p ly (virtualStream ly x) fuel (2 ^ ly.windowBits + k), TokenPays ly x i) ∧
      ((tokensFrom p ly (virtualStream ly x) fuel (2 ^ ly.windowBits + k)).map tokenSpan).sum =
        x.length - k := by
  induction fuel generalizing k with
  | zero => exact ⟨nofun, by simp only [tokensFrom, List.map_nil, List.sum_nil]; omega⟩
  | succ fuel ih =>
    rw [tokensFrom, virtualStream_length]
    by_cases hend : k < x.length
    · obtain ⟨hpays, hspan, hin⟩ := tokenAt_pays p ly x hend
      have hpos := tokenAt_pos p ly (virtualStream ly x) (2 ^ ly.windowBits + k)
      obtain ⟨hrest, hsum⟩ := ih hin (by omega)
      rw [if_pos (Nat.add_lt_add_left hend _), Nat.add_assoc]
      refine ⟨List.forall_mem_cons.2 ⟨hpays, hrest⟩, ?_⟩
      rw [List.map_cons, List.sum_cons, hspan, hsum]
      omega
    · rw [if_neg (by omega)]
      exact ⟨nofun, by simp only [List.map_nil, List.sum_nil]; omega⟩

end

/-- Settles O54, by the tokens from the first input position on. -/
theorem encodedTokensPay : Obligations.EncodedTokensPay := fun p ly x =>
  tokensFrom_pay p ly x x.length (k := 0) (Nat.zero_le _) (Nat.le_of_eq (Nat.zero_add _).symm)

end Sys2Proof.Machine
end

section
/-! PROOFS. The bit and buffer primitives as the instructions use them: `getBits` register by register (R102, R103,
R105), DRAIN (R113, R146, R186) and FLUSH_BITS (R110, R155). -/

namespace Sys2Proof.Machine

/-! ### getBits -/

/-- The separate result of R106: nothing is taken when a bit is missing. -/
theorem Decoder.getBits_of_short {n : Nat} {d : Decoder} (h : d.Readable) (h1 : 1 ≤ n) (h15 : n ≤ 15)
    (hshort : d.unread.length < n) : Decoder.getBits n d = .ok none := by
  obtain ⟨-, hget⟩ | ⟨hn, -⟩ := Decoder.getBits_spec h h1 h15
  · exact hget
  · omega

/-- In R105's range `getBits` is R105's loop when the loop's bits are there. -/
theorem Decoder.getBits_of_takeBits {n v : Nat} {d d' : Decoder} (h : d.Readable) (h1 : 1 ≤ n) (h15 : n ≤ 15)
    (hn : n ≤ d.unread.length) (htake : Decoder.takeBits n 0 d = .ok (v, d')) :
    Decoder.getBits n d = .ok (some (v, d')) := by
  have havail := Decoder.unread_length d
  rw [Decoder.getBits, if_neg (by omega), Decoder.buffered, minus_of_le h.cursors, Res.ok_bind,
    if_neg (by omega), htake, Res.ok_bind, Res.pure_eq]

/-- Settles O43: R105's loop leads to exactly the registers of `Decoder.afterBits`. -/
theorem getBits : Obligations.GetBits := by
  intro d n hinv h1 h15
  have h := hinv.readable
  refine ⟨Decoder.getBits_of_short h h1 h15, fun hn => ?_⟩
  obtain ⟨d', htake, hcons⟩ := Decoder.takeBits_spec n 0 h hn
  exact ⟨d', Decoder.getBits_of_takeBits h h1 h15 hn htake, hcons.unread,
    Decoder.takeBits_exact n 0 h hn htake⟩

/-! ### DRAIN -/

theorem encDrain_spec {p : Params} {e : Encoder} (h : e.outSize ≤ e.cfg.obs) :
    encDrain p e = .ok ({ e with outSize := 0 }, .drained e.pending) := by
  rw [encDrain, Encoder.takeAll_spec h]
  rfl

theorem decDrain_spec {p : Params} {d : Decoder} (h : d.outSize ≤ d.cfg.obs) :
    decDrain p d = .ok ({ d with outSize := 0 }, .drained d.pending) := by
  rw [decDrain, Decoder.takeAll_spec h]
  rfl

/-- Settles O28: the copy-out answers the pending bytes and writes the cursor only. -/
theorem drains : Obligations.Drains :=
  ⟨fun _ _ he hinv => encCommand_of_ok he (encDrain_spec hinv.outSize),
    fun _ _ hd hinv => decCommand_of_ok hd (decDrain_spec hinv.outSize)⟩

/-! ### FLUSH_BITS -/

section
variable {p : Params} {e : Encoder}

theorem encFlushBits_of_aligned (hw : e.wbits = 0) : encFlushBits p e = .ok { e with state := .done } := by
  rw [encFlushBits, if_pos hw]

theorem encFlushBits_of_full (hw : 0 < e.wbits) (hfull : e.outSize = e.cfg.obs) : encFlushBits p e = .ok e := by
  rw [encFlushBits, if_neg (by omega), if_pos (by omega)]

/-- A byte-aligned writer holds no bit of a byte (R108, R110). -/
theorem Encoder.Writable.acc_eq_zero (h : e.Writable) (hw : e.wbits = 0) : e.acc = 0 := by
  refine BitVec.eq_of_getLsbD_eq fun k hk => ?_
  rw [h.accLow k (by omega)]
  exact BitVec.getLsbD_zero.symm

end

/-- Putting the encoder back that is on the port changes nothing. -/
theorem State.setEnc_self {s : State} {e : Encoder} (he : s.enc = some e) : s.setEnc (some e) = s := by
  rw [State.setEnc, ← he]

/-- Settles O42, by the three ways through R155: aligned, no room, and a partial byte with room. -/
theorem encoderFlushBits : Obligations.EncoderFlushBits := by
  intro s e he hinv hq
  have hstep {e' : Encoder} (hrun : encFlushBits s.params e = .ok e') :
      exec .encStepFlushBits s = .next (s.setEnc (some e')) := encStep_of_ok he hq hrun
  refine ⟨fun hw => ?_, fun hw hfull => ?_, fun hw hroom => ?_⟩
  · exact hstep (encFlushBits_of_aligned hw)
  · rw [hstep (encFlushBits_of_full hw hfull), State.setEnc_self he]
  · obtain ⟨e1, hpush, haligned, hrun⟩ := encFlushBits_spec (p := s.params) hinv hroom hw
    exact ⟨e1, hpush, haligned, hpush.writable.acc_eq_zero haligned, hstep hrun⟩

end Sys2Proof.Machine
end

section
/-! PROOFS. The two history structures at work: FILLED builds the table of nearest earlier positions (R127,
R128, R148), SEARCH decides by the one best match there is (R130, R131, R149), and YIELD_BACKREF copies out
of the window (R122, R193). -/

namespace Sys2Proof.Machine

/-! ### FILLED -/

/-- Settles O35, by what R127's loop leaves in E.INDEX. -/
theorem encoderFilled : Obligations.EncoderFilled := by
  intro s e he hinv hq
  obtain ⟨index', hrun, -, hlinked, habove⟩ := encFilled_spec (p := s.params) hinv hq
  exact ⟨_, encStep_of_ok he hq hrun, rfl, hlinked, habove⟩

/-! ### SEARCH -/

section
variable {p : Params} {e : Encoder} {stop lo maxlen best pos : Nat} {r : Option (Nat × Nat)}

/-- R130 determines the pair: two best matches have the same length, and neither is nearer. -/
theorem Encoder.BestMatch.unique {best' pos' : Nat} (h : e.BestMatch stop lo maxlen best pos)
    (h' : e.BestMatch stop lo maxlen best' pos') : best = best' ∧ pos = pos' := by
  obtain ⟨hlo, hstop, -, hlen, hmost, hnearest⟩ := h
  obtain ⟨hlo', hstop', -, hlen', hmost', hnearest'⟩ := h'
  have hle := hmost' pos hlo hstop
  have hge := hmost pos' hlo' hstop'
  have hbest : best = best' := by omega
  refine ⟨hbest, ?_⟩
  rcases Nat.lt_trichotomy pos pos' with hlt | heq | hgt
  · have := hnearest pos' hlt hstop'; omega
  · exact heq
  · have := hnearest' pos hgt hstop; omega

/-- A best match shares its first byte with the scan position. -/
theorem Encoder.BestMatch.byte_eq (h : e.BestMatch stop lo maxlen best pos) :
    e.hbufByte pos = e.hbufByte stop := by
  obtain ⟨-, -, hpos, hlen, -⟩ := h
  by_contra hne
  have := Encoder.agree_zero (n := maxlen) hne
  omega

/-- A search answers the best match when there is one. -/
theorem Encoder.SearchResult.eq_some (hr : e.SearchResult stop lo maxlen r)
    (h : e.BestMatch stop lo maxlen best pos) : r = some (best, pos) := by
  match r, hr with
  | none, hnone =>
    have ⟨hlo, hstop, _⟩ := h
    exact absurd h.byte_eq (hnone pos hlo hstop)
  | some (best', pos'), hsome =>
    obtain ⟨rfl, rfl⟩ := h.unique hsome
    rfl

/-- SEARCH's choice of a match that pays (R131). -/
theorem Encoder.decide_of_accepts (hle : pos ≤ stop) (hacc : accepts e.cfg best) :
    e.decide stop (some (best, pos)) =
      .ok { e with matchLen := best, matchDist := stop - pos, state := .yieldTagBit } := by
  rw [Encoder.decide, if_pos hacc, minus_of_le hle, Res.ok_bind, Res.pure_eq]

/-- SEARCH's choice when no match was found that pays (R131). -/
theorem Encoder.decide_of_not_accepts (h : ∀ best pos, r = some (best, pos) → ¬ accepts e.cfg best) :
    e.decide stop r = .ok { e with msi := e.msi + 1, matchLen := 0, state := .yieldTagBit } := by
  match r with
  | none => rfl
  | some (best, pos) => rw [Encoder.decide, if_neg (h best pos rfl), Res.pure_eq]

/-- SEARCH in the middle of the batch decides by the search result that R130 determines (R149). -/
theorem encSearch_eq_decide (h : e.Inv) (hl : e.Linked) (hgo : e.msi + e.needed ≤ e.inputSize) :
    ∃ r, e.SearchResult (e.cfg.window + e.msi) (searchLow p e)
        (min e.cfg.lookahead (e.inputSize - e.msi)) r ∧
      encSearch p e = e.decide (e.cfg.window + e.msi) r := by
  have hneeded := Encoder.needed_pos h
  have hlookahead := h.lookahead_pos
  have hbatch := h.batch
  obtain ⟨r, hrun, hr⟩ := Encoder.longestMatch_spec (e := e) (stop := e.cfg.window + e.msi)
    (lo := searchLow p e) (maxlen := min e.cfg.lookahead (e.inputSize - e.msi)) (by omega)
    (by simp only [Cfg.hbufSize]; omega) (fun i hi => hl i (by omega))
  exact ⟨r, hr, by rw [encSearch_unfold h (Nat.not_lt.2 hgo), hrun, Res.ok_bind]⟩

end

/-- Settles O36, by the end of the batch, and by the best match being the one the search answers. -/
theorem encoderSearch : Obligations.EncoderSearch := by
  intro s e he hinv hl hq
  have hstep {e' : Encoder} (hrun : encSearch s.params e = .ok e') :
      exec .encStepSearch s = .next (s.setEnc (some e')) := encStep_of_ok he hq hrun
  refine ⟨fun hend => hstep (encSearch_end hinv hq hend).1, fun hgo => ?_⟩
  obtain ⟨r, hr, hrun⟩ := encSearch_eq_decide (p := s.params) hinv hl hgo
  refine ⟨fun best pos hbest hpays => hstep ?_, fun hnone => hstep ?_⟩
  · obtain rfl := hr.eq_some hbest
    obtain ⟨-, hpos, hlen, -⟩ := hbest
    rw [hrun, Encoder.decide_of_accepts (Nat.le_of_lt hpos) ⟨hlen, hpays⟩]
  · rw [hrun, Encoder.decide_of_not_accepts]
    rintro best pos rfl ⟨-, hpays⟩
    exact Nat.not_lt.2 (hnone best pos hr) hpays

/-! ### YIELD_BACKREF -/

/-- Settles O49, by R122's copy; all owed bytes are output exactly when none is left. -/
theorem decoderYieldBackref : Obligations.DecoderYieldBackref := by
  intro s d hd hinv hq
  obtain ⟨d1, cs, hemitted, hlen, hbytes, hrun, -⟩ := decYieldBackref_spec hinv hq
  have hnone : d.count - cs.length = 0 ↔ cs.length = d.count := by omega
  simp only [hnone] at hrun
  exact ⟨d1, cs, hemitted, hlen, hbytes, decStep_of_ok hd hq hrun⟩

end Sys2Proof.Machine
end

section
/-! PROOFS. Whatever is done with an encoder, it stays on its way to ENCODE_REF (R124, R125, R158). The laws of
each handler and command are those of EncodeRef; here they are carried to the instructions and the step, with
the bytes handed out and accepted read off the responses. -/

namespace Sys2Proof.Machine

/-- The encoder that an instruction and its responses leave is on its way, from the bytes accepted before and
now, with the bytes handed out before and now. -/
def Encoder.FaithfulAfter (p : Params) (drained : List Bool) (x : List Byte) (i : Instr)
    (rs : List Response) (e' : Encoder) : Prop :=
  Encoder.Faithful p (drained ++ (drainedBytes rs).flatMap byteBits) (x ++ acceptedBytes [i] rs) e'

/-! ### The encoder's commands -/

section
variable {p : Params} {drained : List Bool} {x : List Byte} {i : Instr} {e e' : Encoder} {r : Result}

@[simp] theorem acceptedBytes_no_responses (is : List Instr) : acceptedBytes is [] = [] := by
  rw [acceptedBytes] <;> nofun

/-- Where nothing is handed out and nothing accepted, the encoder has to be on its way from the same. -/
theorem Encoder.Faithful.after {rs : List Response} (h : Encoder.Faithful p drained x e')
    (hdrained : drainedBytes rs = []) (haccepted : acceptedBytes [i] rs = []) :
    Encoder.FaithfulAfter p drained x i rs e' := by
  rw [Encoder.FaithfulAfter, hdrained, haccepted, List.flatMap_nil, List.append_nil, List.append_nil]
  exact h

/-- An accepting encoder takes bytes in (R142), any other answers MISUSE and is left as it is (R143). -/
theorem encSink_faithfulAfter {data : List Byte} (h : Encoder.Faithful p drained x e)
    (hrun : encSink data p e = .ok (e', r)) :
    Encoder.FaithfulAfter p drained x (.encSink data) [⟨.encoder, r⟩] e' := by
  by_cases ha : e.accepting
  · obtain ⟨hbuf', hok, -⟩ := encSink_spec (p := p) (data := data) h.inv ha
    cases hrun.symm.trans hok
    simpa [Encoder.FaithfulAfter, drainedBytes, acceptedBytes, Result.count] using encSink_faithful h hok
  · rw [encSink, if_pos ha] at hrun
    cases hrun
    exact h.after rfl rfl

/-- POLL is a run of handlers (R144). -/
theorem encPoll_faithfulAfter (h : Encoder.Faithful p drained x e) (hrun : encPoll p e = .ok (e', r)) :
    Encoder.FaithfulAfter p drained x .encPoll [⟨.encoder, r⟩] e' := by
  obtain ⟨e1, r1, n, hok, hsteps, -, -, -, -, hr⟩ := encPoll_spec (p := p) h.inv
  cases hrun.symm.trans hok
  have h1 := encRun_faithful n h hsteps
  obtain ⟨rfl, -⟩ | ⟨rfl, -⟩ := hr
  · exact h1.after rfl rfl
  · exact h1.after rfl rfl

theorem encDrain_faithfulAfter (h : Encoder.Faithful p drained x e) (hrun : encDrain p e = .ok (e', r)) :
    Encoder.FaithfulAfter p drained x .encDrain [⟨.encoder, r⟩] e' := by
  cases hrun.symm.trans (encDrain_spec h.inv.outSize)
  simpa [Encoder.FaithfulAfter, drainedBytes, acceptedBytes] using Encoder.takeAll_faithful h

theorem encFinish_faithfulAfter (h : Encoder.Faithful p drained x e) (hrun : encFinish p e = .ok (e', r)) :
    Encoder.FaithfulAfter p drained x .encFinish [⟨.encoder, r⟩] e' := by
  cases hrun
  refine (Encoder.setFinishing_faithful h).after ?_ rfl
  split <;> rfl

end

/-! ### The encoder's instructions -/

/-- The encoder steps are the step rows of its states (R93). -/
theorem exists_instr_of_encoderStep {i : Instr} (h : encoderStep i = true) : ∃ q : EncState, i = q.instr := by
  cases i
  case encStepNotFull => exact ⟨.notFull, rfl⟩
  case encStepFilled => exact ⟨.filled, rfl⟩
  case encStepSearch => exact ⟨.search, rfl⟩
  case encStepYieldTagBit => exact ⟨.yieldTagBit, rfl⟩
  case encStepYieldLiteral => exact ⟨.yieldLiteral, rfl⟩
  case encStepYieldBrIndex => exact ⟨.yieldBrIndex, rfl⟩
  case encStepYieldBrLength => exact ⟨.yieldBrLength, rfl⟩
  case encStepSaveBacklog => exact ⟨.saveBacklog, rfl⟩
  case encStepFlushBits => exact ⟨.flushBits, rfl⟩
  case encStepDone => exact ⟨.done, rfl⟩
  all_goals cases h

theorem encoderStep_instr (q : EncState) : encoderStep q.instr = true := by
  cases q <;> rfl

section
variable {s t : State} {drained : List Bool} {x : List Byte} {i : Instr} {e e' : Encoder}

theorem execEncConstruct_faithful {w l ibs obs : Nat} (hx : execEncConstruct w l ibs obs s = .next t)
    (ht : t.enc = some e') : Encoder.Faithful t.params [] [] e' := by
  by_cases hlegal : legalEncoder ⟨w, l, ibs, obs⟩
  · cases (execEncConstruct_of_legal hlegal s).symm.trans hx
    cases ht
    exact Encoder.initial_faithful _ hlegal
  · cases (execEncConstruct_of_not_legal hlegal s).symm.trans hx
    cases ht

theorem execEncReset_faithful (he : s.enc = some e) (h : e.Inv) (hx : execEncReset s = .next t)
    (ht : t.enc = some e') : Encoder.Faithful t.params [] [] e' := by
  obtain ⟨e1, e2, r, he1, hrun, rfl⟩ := encCommand_next hx
  cases he.symm.trans he1
  cases hrun
  cases ht
  exact Encoder.initial_faithful _ h.legal

/-- A step row runs the handler of the very state the encoder is in (R99). -/
theorem exec_encStep_faithfulAfter (q : EncState) (he : s.enc = some e)
    (h : Encoder.Faithful s.params drained x e) (hx : exec q.instr s = .next t) (ht : t.enc = some e') :
    ∃ rs, t.responses = s.responses ++ rs ∧
      Encoder.FaithfulAfter t.params drained x q.instr rs e' := by
  rw [exec_encStep] at hx
  obtain ⟨e1, e2, he1, rfl, hrun, rfl⟩ := encStep_next hx
  cases he.symm.trans he1
  cases ht
  exact ⟨[], (List.append_nil _).symm, (encHandler_faithful h hrun).after rfl (acceptedBytes_no_responses _)⟩

/-- A command's one response tells what it handed out and accepted (R66). -/
theorem encCommand_faithfulAfter {f : Params → Encoder → Res (Encoder × Result)}
    (hf : ∀ {r}, f s.params e = .ok (e', r) →
      Encoder.FaithfulAfter s.params drained x i [⟨.encoder, r⟩] e')
    (he : s.enc = some e) (hx : encCommand f s = .next t) (ht : t.enc = some e') :
    ∃ rs, t.responses = s.responses ++ rs ∧ Encoder.FaithfulAfter t.params drained x i rs e' := by
  obtain ⟨e1, e2, r, he1, hrun, rfl⟩ := encCommand_next hx
  cases he.symm.trans he1
  cases ht
  exact ⟨_, rfl, hf hrun⟩

theorem exec_stream_faithfulAfter (he : s.enc = some e) (h : Encoder.Faithful s.params drained x e)
    (hi : streamOf .encoder i = true) (hx : exec i s = .next t) (ht : t.enc = some e') :
    ∃ rs, t.responses = s.responses ++ rs ∧ Encoder.FaithfulAfter t.params drained x i rs e' := by
  cases i
  case encSink data => exact encCommand_faithfulAfter (encSink_faithfulAfter h) he hx ht
  case encPoll => exact encCommand_faithfulAfter (encPoll_faithfulAfter h) he hx ht
  case encDrain => exact encCommand_faithfulAfter (encDrain_faithfulAfter h) he hx ht
  case encFinish => exact encCommand_faithfulAfter (encFinish_faithfulAfter h) he hx ht
  all_goals cases hi

theorem exec_faithfulAfter (he : s.enc = some e) (h : Encoder.Faithful s.params drained x e)
    (hi : encoderStep i = true ∨ streamOf .encoder i = true) (hx : exec i s = .next t)
    (ht : t.enc = some e') :
    ∃ rs, t.responses = s.responses ++ rs ∧ Encoder.FaithfulAfter t.params drained x i rs e' := by
  rcases hi with hstep | hstream
  · obtain ⟨q, rfl⟩ := exists_instr_of_encoderStep hstep
    exact exec_encStep_faithfulAfter q he h hx ht
  · exact exec_stream_faithfulAfter he h hstream hx ht

end

/-! ### The state -/

section
variable {s t : State} {i : Instr}

theorem State.faithful_of_eq (h : s.Faithful) (hp : t.params = s.params) (he : t.enc = s.enc) :
    t.Faithful := by
  rw [State.Faithful, hp, he]
  exact h

/-- A step row or a stream command of the encoder goes on from what the encoder was on its way from. -/
theorem State.Faithful.exec_encoder (h : s.Faithful) {e : Encoder} (he : s.enc = some e)
    (hi : encoderStep i = true ∨ streamOf .encoder i = true) (hx : exec i s = .next t) : t.Faithful := by
  intro e' ht
  obtain ⟨drained, x, hfaithful⟩ := h e he
  obtain ⟨rs, -, hafter⟩ := exec_faithfulAfter he hfaithful hi hx ht
  exact ⟨_, _, hafter⟩

/-- Every instruction leaves the encoder on its way: CONSTRUCT and RESET from nothing, the decoder's
instructions as it was. -/
theorem exec_keeps_faithful (h : s.Faithful) (hx : exec i s = .next t) : t.Faithful := by
  cases exec_shape hx with
  | encC w l ibs obs hi =>
    subst hi
    exact fun e' ht => ⟨[], [], execEncConstruct_faithful hx ht⟩
  | encCmd e e' r he _ _ hrun =>
    rcases hrun with ⟨rfl, -⟩ | ⟨data, rfl, -⟩ | ⟨rfl, -⟩ | ⟨rfl, -⟩ | ⟨rfl, -⟩
    · obtain ⟨drained, x, hfaithful⟩ := h e he
      exact fun e' ht => ⟨[], [], execEncReset_faithful he hfaithful.inv hx ht⟩
    all_goals exact h.exec_encoder he (.inr rfl) hx
  | encS q hi e e' he =>
    subst hi
    exact h.exec_encoder he (.inl (encoderStep_instr q)) hx
  | decC _ _ _ _ _ _ _ ht => subst ht; exact State.faithful_of_eq h rfl rfl
  | decCmd _ _ _ _ ht => subst ht; exact State.faithful_of_eq h rfl rfl
  | decS _ _ _ _ _ _ _ ht => subst ht; exact State.faithful_of_eq h rfl rfl
  | tok _ _ _ _ ht => subst ht; exact State.faithful_of_eq h rfl rfl

theorem step_keeps_faithful (h : s.Faithful) (hstep : step s = .next t) : t.Faithful := by
  obtain ⟨-, rfl⟩ | ⟨r, rest, c, -, -, ⟨i, -, hx⟩ | ⟨-, hx⟩⟩ := step_next hstep
  · exact h
  · exact exec_keeps_faithful (s := { s with requests := rest }) h hx
  · obtain ⟨d, d', -, rfl, -⟩ := stallInToken_next hx
    exact State.faithful_of_eq h rfl rfl

end

/-- Settles O59, by the initial encoder, by each handler and command on an encoder on its way, and by what a
step can have done. -/
theorem encoderStaysFaithful : Obligations.EncoderStaysFaithful :=
  ⟨fun _ _ _ _ _ _ _ hx ht => execEncConstruct_faithful hx ht,
    fun _ _ _ _ he hinv hx ht => execEncReset_faithful he hinv hx ht,
    fun _ _ _ _ _ _ _ he h hi hx ht => exec_faithfulAfter he h hi hx ht,
    fun _ _ h hstep => step_keeps_faithful h hstep⟩

end Sys2Proof.Machine
end

section
/-! PROOFS. ENCODE_REF and DECODE_REF as functions of the stream: decoding the tokens of an input, padded to a
byte boundary, gives the input back (R158, R196, R197), and the tokens take at most nine bits for each byte
(R159). -/

namespace Sys2Proof.Machine

/-! ### The round trip -/

theorem padding_eq_replicate (n : Nat) : ∃ k, k ≤ 7 ∧ padding n = List.replicate k false :=
  ⟨(8 - n % 8) % 8, Nat.le_of_lt_succ (Nat.mod_lt _ (by decide)), rfl⟩

section
variable (p : Params) {ly : Layout} {x : List Byte}

/-- The token at an input position reads back as itself, and expanding it after the input's bytes before
that position gives the input's bytes before the next one. -/
theorem tokenAt_decodes {k : Nat} (hk : k < x.length) :
    ∃ i n, tokenAt p ly (virtualStream ly x) (2 ^ ly.windowBits + k) = (i, n) ∧ 1 ≤ n ∧
      k + n ≤ x.length ∧ expandToken ly i (x.take k) = x.take (k + n) ∧
      ∀ rest, decodeToken ly (tokenBits ly i ++ rest) = .ok (i, rest) := by
  rcases tokenAt_cases p ly x k hk with htok | ⟨q, n, htok, hq1, hq2, hn, hfit, hin, -, hsame⟩
  · refine ⟨_, 1, htok, Nat.le_refl 1, hk, ?_, decodeToken_litBits ly _⟩
    rw [expandToken, List.getD_eq_getElem _ _ hk, List.take_append_getElem hk]
  · have hbref : brefFits ly (2 ^ ly.windowBits + k - q) n = true := by
      simp only [brefFits, Bool.and_eq_true, decide_eq_true_eq]; omega
    exact ⟨_, n, htok, hn, by omega, expand_copy ly x k q n (by omega) hq1 hq2 hsame,
      decodeToken_brefBits hbref⟩

/-- Decoding the tokens from an input position on, with bits behind them that are no token, completes the
input. -/
theorem decodeAll_bitsFrom {rest : List Bool} {why : Reject} (hrest : decodeToken ly rest = .error why)
    {k : Nat} (hk : k ≤ x.length) :
    decodeAll ly (bitsFrom p ly (virtualStream ly x) (2 ^ ly.windowBits + k) ++ rest) (x.take k) = x := by
  induction hleft : x.length - k using Nat.strong_induction_on generalizing k with
  | _ left ih =>
    by_cases hend : k < x.length
    · obtain ⟨i, n, htok, hn, hin, hexpand, hread⟩ := tokenAt_decodes p (ly := ly) hend
      rw [bitsFrom_token (by rw [virtualStream_length]; omega), htok, List.append_assoc,
        decodeAll_token _ (hread _), hexpand, Nat.add_assoc]
      exact ih (x.length - (k + n)) (by omega) hin rfl
    · rw [bitsFrom_end (by rw [virtualStream_length]; omega), List.nil_append, decodeAll_end _ hrest,
        List.take_of_length_le (by omega)]

end

/-- Settles O56, by induction over the tokens of the input; the padding behind them is no token. -/
theorem referenceRoundTrip : Obligations.ReferenceRoundTrip := by
  intro p ly x hlegal
  obtain ⟨k, hk, hpad⟩ := padding_eq_replicate ((encodeTokens p ly x).flatMap (tokenBits ly)).length
  have hbits := decodeAll_bitsFrom p (x := x) (paddingIsNoToken ly k hlegal hk) (Nat.zero_le x.length)
  rw [Nat.add_zero, List.take_zero, ← encodeTokens_bits] at hbits
  rw [encodeRef, hpad]
  exact hbits

/-! ### The size bound -/

/-- A token that pays takes at most nine bits for each byte it stands for: a literal exactly nine, a
backreference less than eight (R159). -/
theorem TokenPays.tokenBits_length_le {ly : Layout} {x : List Byte} {i : Instr} (h : TokenPays ly x i) :
    (tokenBits ly i).length ≤ 9 * tokenSpan i := by
  rcases h with ⟨b, rfl, -⟩ | ⟨d, n, rfl, -, -, -, -, hpays⟩
  · exact Nat.le_of_eq (litBits_length b)
  · have hlen : (tokenBits ly (.bref d n)).length = _ := brefBits_length ly d n
    rw [hlen, tokenSpan]
    omega

theorem flatMap_tokenBits_length_le {ly : Layout} {x : List Byte} {is : List Instr}
    (h : ∀ i ∈ is, TokenPays ly x i) :
    (is.flatMap (tokenBits ly)).length ≤ 9 * (is.map tokenSpan).sum := by
  induction is with
  | nil => exact Nat.le_refl 0
  | cons i is ih =>
    obtain ⟨hi, his⟩ := List.forall_mem_cons.1 h
    have hfirst := hi.tokenBits_length_le
    have hrest := ih his
    simp only [List.flatMap_cons, List.length_append, List.map_cons, List.sum_cons]
    omega

/-- Settles O55: every token pays, and the bytes the tokens stand for are the input's. -/
theorem encodedSizeBound : Obligations.EncodedSizeBound := by
  intro p ly x
  obtain ⟨hpay, hsum⟩ := encodedTokensPay p ly x
  change ((encodeTokens p ly x).map tokenSpan).sum = x.length at hsum
  rw [← hsum]
  exact flatMap_tokenBits_length_le hpay

end Sys2Proof.Machine
end

section
/-! PROOFS. The encoder's handlers as instructions: the resting states (R147, R156), the four yielding states
(R150 to R153), the backlog move (R154), and the edges they follow (R157). -/

namespace Sys2Proof.Machine

/-! ### Handlers without room -/

section
variable (p : Params) {e : Encoder}

theorem Encoder.not_room_of_full (hfull : e.outSize = e.cfg.obs) : ¬ e.room := by
  rw [Encoder.room, hfull]
  exact Nat.lt_irrefl _

theorem encYieldTagBit_of_full (hfull : e.outSize = e.cfg.obs) : encYieldTagBit p e = .ok e :=
  if_pos (Encoder.not_room_of_full hfull)

theorem encYieldLiteral_of_full (hfull : e.outSize = e.cfg.obs) : encYieldLiteral p e = .ok e :=
  if_pos (Encoder.not_room_of_full hfull)

theorem encYieldBrIndex_of_full (hfull : e.outSize = e.cfg.obs) : encYieldBrIndex p e = .ok e :=
  if_pos (Encoder.not_room_of_full hfull)

theorem encYieldBrLength_of_full (hfull : e.outSize = e.cfg.obs) : encYieldBrLength p e = .ok e :=
  if_pos (Encoder.not_room_of_full hfull)

end

/-! ### The step rows -/

section
variable {s : State} {e e' : Encoder} {q : EncState}

theorem exec_encStep_of_ok (he : s.enc = some e) (hq : e.state = q)
    (hrun : encHandler q s.params e = .ok e') : exec q.instr s = .next (s.setEnc (some e')) := by
  rw [exec_encStep]
  exact encStep_of_ok he hq hrun

/-- A handler that leaves the encoder as it is leaves the whole state as it is. -/
theorem exec_encStep_unchanged (he : s.enc = some e) (hq : e.state = q)
    (hrun : encHandler q s.params e = .ok e) : exec q.instr s = .next s := by
  rw [exec_encStep_of_ok he hq hrun, State.setEnc_self he]

end

/-- Settles O34: the two resting rows return the encoder they are given. -/
theorem encoderRestingSteps : Obligations.EncoderRestingSteps := fun _ _ he =>
  ⟨fun hq => exec_encStep_unchanged (q := .notFull) he hq rfl,
    fun hq => exec_encStep_unchanged (q := .done) he hq rfl⟩

/-- Settles O37, by the three ways through R150: no room, a literal's tag, and a backreference's tag. -/
theorem encoderYieldTagBit : Obligations.EncoderYieldTagBit := by
  intro s e he hinv hq
  refine ⟨fun hfull => ?_, fun hroom hlit => ?_, fun hroom hmatch => ?_⟩
  · exact exec_encStep_unchanged (q := .yieldTagBit) he hq (encYieldTagBit_of_full s.params hfull)
  · obtain ⟨e1, hpush, hrun⟩ := encYieldTagBit_literal (p := s.params) hinv hroom hlit
    exact ⟨e1, hpush, exec_encStep_of_ok (q := .yieldTagBit) he hq hrun⟩
  · obtain ⟨e1, hpush, hrun⟩ := encYieldTagBit_match (p := s.params) hinv hroom hmatch
    exact ⟨e1, hpush, exec_encStep_of_ok (q := .yieldTagBit) he hq hrun⟩

/-- Settles O38, by the two ways through R151. -/
theorem encoderYieldLiteral : Obligations.EncoderYieldLiteral := by
  intro s e he hinv hq
  refine ⟨fun hfull => ?_, fun hroom => ?_⟩
  · exact exec_encStep_unchanged (q := .yieldLiteral) he hq (encYieldLiteral_of_full s.params hfull)
  · obtain ⟨e1, hpush, hrun⟩ := encYieldLiteral_spec (p := s.params) hinv hroom
    exact ⟨e1, hpush, exec_encStep_of_ok (q := .yieldLiteral) he hq hrun⟩

/-- Settles O39, by the three ways through R152; in this state a match is pending, so that its length minus
one is a number. -/
theorem encoderYieldBrIndex : Obligations.EncoderYieldBrIndex := by
  intro s e he hinv hq
  obtain ⟨hmatch, -⟩ := hinv.brIndex hq
  refine ⟨fun hfull => ?_, fun hroom hleft => ?_, fun hroom hnone => ?_⟩
  · exact exec_encStep_unchanged (q := .yieldBrIndex) he hq (encYieldBrIndex_of_full s.params hfull)
  · obtain ⟨e1, hpush, hrun⟩ := encYieldBrIndex_push (p := s.params) hinv hroom hleft
    exact ⟨e1, hpush, exec_encStep_of_ok (q := .yieldBrIndex) he hq hrun⟩
  · exact exec_encStep_of_ok (q := .yieldBrIndex) he hq
      (encYieldBrIndex_done (p := s.params) hroom hmatch hnone)

/-- Settles O40, by the three ways through R153. -/
theorem encoderYieldBrLength : Obligations.EncoderYieldBrLength := by
  intro s e he hinv hq
  refine ⟨fun hfull => ?_, fun hroom hleft => ?_, fun hroom hnone => ?_⟩
  · exact exec_encStep_unchanged (q := .yieldBrLength) he hq (encYieldBrLength_of_full s.params hfull)
  · obtain ⟨e1, hpush, hrun⟩ := encYieldBrLength_push (p := s.params) hinv hroom hleft
    exact ⟨e1, hpush, exec_encStep_of_ok (q := .yieldBrLength) he hq hrun⟩
  · exact exec_encStep_of_ok (q := .yieldBrLength) he hq (encYieldBrLength_done (p := s.params) hroom hnone)

/-- Settles O41, by what R154's move leaves in E.HBUF; the moved bytes end at the scan's distance below the
batch's end. -/
theorem encoderSaveBacklog : Obligations.EncoderSaveBacklog := by
  intro s e he hinv hq
  obtain ⟨hbuf', hrun, -, -, hmoved, habove⟩ := encSaveBacklog_spec (p := s.params) hinv
  have hend := Nat.add_sub_assoc hinv.scan e.cfg.window
  refine ⟨_, exec_encStep_of_ok (q := .saveBacklog) he hq hrun, rfl, ?_⟩
  rw [hend]
  exact ⟨hmoved, habove⟩

/-! ### The transitions of E.state -/

theorem exec_encStep_edge {q : EncState} {s t : State} {e e' : Encoder} (he : s.enc = some e)
    (he' : t.enc = some e') (hx : exec q.instr s = .next t) : encEdge e.state e'.state = true := by
  rw [exec_encStep] at hx
  obtain ⟨e1, e2, he1, rfl, hrun, rfl⟩ := encStep_next hx
  cases he.symm.trans he1
  cases he'
  exact (encHandler_same hrun).2

/-- A command that leaves `e'` on the port has run on the encoder that was there. -/
theorem encCommand_run {f : Params → Encoder → Res (Encoder × Result)} {s t : State} {e e' : Encoder}
    (he : s.enc = some e) (he' : t.enc = some e') (hx : encCommand f s = .next t) :
    ∃ r, f s.params e = .ok (e', r) := by
  obtain ⟨e1, e2, r, he1, hrun, rfl⟩ := encCommand_next hx
  cases he.symm.trans he1
  cases he'
  exact ⟨r, hrun⟩

/-- Settles O18, by the edge of each handler and by what each command does to the state register. -/
theorem encoderTransitions : Obligations.EncoderTransitions := by
  refine ⟨fun q s t e e' he he' hx => exec_encStep_edge he he' hx, fun s t e e' data he he' hx => ?_,
    fun s t e e' he he' hx => ?_, fun s t e e' he he' hx => ?_, fun s t e e' he he' hx => ?_⟩
  · obtain ⟨r, hrun⟩ := encCommand_run (f := encSink data) he he' hx
    exact (encSink_same hrun).2
  · obtain ⟨r, hrun⟩ := encCommand_run (f := encFinish) he he' hx
    cases hrun
    rfl
  · obtain ⟨r, hrun⟩ := encCommand_run (f := encDrain) he he' hx
    rw [encDrain_same hrun]
  · obtain ⟨r, hrun⟩ := encCommand_run (f := encReset) he he' hx
    cases hrun
    rfl

end Sys2Proof.Machine
end

section
/-! PROOFS. The encoder's commands RESET, SINK and FINISH in full (R141 to R145, R164). -/

namespace Sys2Proof.Machine

/-- Settles O22: RESET makes the initial encoder of CFG, and a legal CFG is what CONSTRUCT makes it of too. -/
theorem encoderReset : Obligations.EncoderReset := fun s e he =>
  ⟨Encoder.initial e.cfg, encCommand_of_ok (f := encReset) he rfl, rfl, Encoder.initial_atReset _,
    fun hinv => execEncConstruct_of_legal hinv.legal s⟩

/-- Settles O24, by what an accepted SINK does to the buffer; an accepting encoder is in NOT_FULL. -/
theorem encoderSinkAccepted : Obligations.EncoderSinkAccepted := by
  intro s e data he hinv hfin hq
  obtain ⟨hbuf', hrun, -, -, hbytes, hkept⟩ :=
    encSink_spec (p := s.params) (data := data) hinv ⟨hfin, hq⟩
  exact ⟨_, encCommand_of_ok he hrun, by rw [hq], hbytes, hkept⟩

theorem encSink_of_not_accepting {p : Params} {data : List Byte} {e : Encoder} (h : ¬ e.accepting) :
    encSink data p e = .ok (e, .misuse) := if_pos h

/-- Settles O25: the encoder is put back as it was. -/
theorem encoderSinkRefused : Obligations.EncoderSinkRefused := by
  intro s e data he hnot
  have hrefuse : ¬ e.accepting := by
    rintro ⟨hfin, hq⟩
    rcases hnot with hfin' | hq'
    · cases hfin.symm.trans hfin'
    · exact hq' hq
  have hx := encCommand_of_ok he (encSink_of_not_accepting (p := s.params) (data := data) hrefuse)
  rw [State.setEnc_self he] at hx
  exact hx

/-- FINISH leaves DONE as it is and leads nowhere else to it (R145). -/
theorem Encoder.setFinishing_state_eq_done (e : Encoder) :
    (Encoder.setFinishing e).state = .done ↔ e.state = .done := by
  rw [Encoder.setFinishing]
  by_cases hq : e.state = .notFull
  · simp [hq]
  · simp [hq]

/-- Settles O29: the answer is by the state afterwards, which is DONE exactly where it was before. -/
theorem encoderFinish : Obligations.EncoderFinish := by
  intro s e he
  have hx : exec .encFinish s = _ := encCommand_of_ok (f := encFinish) he rfl
  simp only [hx, Encoder.setFinishing_state_eq_done]
  rfl

end Sys2Proof.Machine
end

section
/-! PROOFS. POLL as a run of handlers up to its first stopping point (R144, R160), and where a host that places
commands only finds the encoder between them (R145, R213, R248). -/

namespace Sys2Proof.Machine

/-! ### Where POLL stops -/

/-- Settles O31, by the run of handlers that POLL's loop makes; the steps left are within R160's bound. -/
theorem encoderPoll : Obligations.EncoderPoll := by
  intro s e he hinv
  have hbound := Encoder.stepsLeft_le hinv
  obtain ⟨e', r, n, hpoll, hrun, hn, hstop, hfirst⟩ :=
    encPollLoop_run (p := s.params) (encPollBound e.cfg + 1) hinv (by omega)
  exact ⟨n, e', r, hn.trans hbound, hrun, encCommand_of_ok (f := encPoll) he hpoll, hstop, hfirst⟩

/-! ### Between the commands of a host -/

/-- An encoder that has been told to finish is on its way to the end of the stream: it waits for no input and
does not carry the batch over (R145, R149). -/
def Encoder.OnlyEnds (e : Encoder) : Prop :=
  e.finishing = true → e.state ≠ .notFull ∧ e.state ≠ .saveBacklog

/-- Where an encoder stands between the commands of a host (R144, R145, R248). -/
structure Encoder.AtRest (e : Encoder) : Prop where
  notSearch : e.state ≠ .search
  notBacklog : e.state ≠ .saveBacklog
  waiting : e.state = .notFull → e.finishing = false

section
variable {p : Params} {e e' : Encoder} {r : Result}

theorem Encoder.AtRest.onlyEnds (h : e.AtRest) : e.OnlyEnds := by
  refine fun hfin => ⟨fun hq => ?_, h.notBacklog⟩
  cases hfin.symm.trans (h.waiting hq)

theorem Encoder.initial_atRest (cfg : Cfg) : (Encoder.initial cfg).AtRest :=
  ⟨nofun, nofun, fun _ => rfl⟩

/-- SEARCH decides a token, or ends the batch by the flag (R149). -/
theorem encSearch_state (h : e.Inv) (hq : e.state = .search) (hrun : encSearch p e = .ok e') :
    e'.state = .yieldTagBit ∨ e'.state = e.afterBatch := by
  by_cases hend : e.inputSize < e.msi + e.needed
  · cases hrun.symm.trans (encSearch_end (p := p) h hq hend).1
    exact .inr rfl
  · obtain ⟨hok, -⟩ | ⟨len, dist, -, -, -, hok, -⟩ := encSearch_go (p := p) h hq hend
    all_goals cases hrun.symm.trans hok; exact .inl rfl

theorem encEdge_to_notFull {q : EncState} (h : encEdge q .notFull = true) :
    q = .notFull ∨ q = .saveBacklog := by
  cases q <;> simp [encEdge] at h ⊢

theorem encEdge_to_saveBacklog {q : EncState} (h : encEdge q .saveBacklog = true) : q = .search := by
  cases q <;> simp [encEdge] at h ⊢

/-- Only SAVE_BACKLOG leads to NOT_FULL, only SEARCH to SAVE_BACKLOG, and SEARCH not once the flag is set. -/
theorem encHandler_onlyEnds (h : e.Inv) (honly : e.OnlyEnds) (hrun : encHandler e.state p e = .ok e') :
    e'.OnlyEnds := by
  intro hfin'
  obtain ⟨hsame, hedge⟩ := encHandler_same hrun
  have hfin : e.finishing = true := hsame.finishing ▸ hfin'
  obtain ⟨hnf, hnb⟩ := honly hfin
  refine ⟨fun hq' => ?_, fun hq' => ?_⟩
  · rw [hq'] at hedge
    exact (encEdge_to_notFull hedge).elim hnf hnb
  · rw [hq'] at hedge
    have hq := encEdge_to_saveBacklog hedge
    rw [hq] at hrun
    obtain htoken | hbatch := encSearch_state h hq hrun
    · cases hq'.symm.trans htoken
    · rw [Encoder.afterBatch, if_pos hfin] at hbatch
      cases hq'.symm.trans hbatch

theorem encRun_onlyEnds (n : Nat) (h : e.Inv) (honly : e.OnlyEnds) (hrun : encRun p n e = .ok e') :
    e'.OnlyEnds := by
  induction n generalizing e with
  | zero => cases hrun; exact honly
  | succ n ih =>
    obtain ⟨e1, hstep, hrest⟩ := Res.bind_ok hrun
    exact ih (encHandler_keeps_inv h hstep) (encHandler_onlyEnds h honly hstep) hrest

/-- SINK leaves the state register, or goes from NOT_FULL to FILLED (R142, R143). -/
theorem encSink_atRest {data : List Byte} (h : e.AtRest) (hrun : encSink data p e = .ok (e', r)) :
    e'.AtRest := by
  obtain ⟨hsame, hq | ⟨-, hq, -⟩⟩ := encSink_same hrun
  · refine ⟨hq ▸ h.notSearch, hq ▸ h.notBacklog, fun hq' => ?_⟩
    rw [hsame.finishing]
    exact h.waiting (hq.symm.trans hq')
  · constructor <;> rw [hq] <;> nofun

/-- POLL stops where the encoder waits, is complete or is blocked, and does not come to wait once the flag is
set. -/
theorem encPoll_atRest (h : e.Inv) (hrest : e.AtRest) (hrun : encPoll p e = .ok (e', r)) : e'.AtRest := by
  obtain ⟨e1, r1, n, hok, hsteps, -, -, -, hfin, hstop⟩ := encPoll_spec (p := p) h
  cases hrun.symm.trans hok
  have honly := encRun_onlyEnds n h hrest.onlyEnds hsteps
  have hwait : e'.state = .notFull → e'.finishing = false := fun hq =>
    Bool.eq_false_iff.2 fun hset => (honly hset).1 hq
  obtain ⟨-, hresting⟩ | ⟨-, -, -, hns, hnb, -⟩ := hstop
  · obtain hq | hq : e'.state = .notFull ∨ e'.state = .done := resting_iff.1 hresting
    all_goals exact ⟨by rw [hq]; nofun, by rw [hq]; nofun, hwait⟩
  · exact ⟨hns, hnb, hwait⟩

theorem encDrain_atRest (h : e.AtRest) (hrun : encDrain p e = .ok (e', r)) : e'.AtRest := by
  rw [encDrain_same hrun]
  exact ⟨h.notSearch, h.notBacklog, h.waiting⟩

/-- FINISH leaves no encoder waiting (R145). -/
theorem encFinish_atRest (h : e.AtRest) (hrun : encFinish p e = .ok (e', r)) : e'.AtRest := by
  cases hrun
  rw [Encoder.setFinishing]
  by_cases hq : e.state = .notFull
  · rw [if_pos hq]; exact ⟨nofun, nofun, nofun⟩
  · rw [if_neg hq]; exact ⟨h.notSearch, h.notBacklog, fun hq' => absurd hq' hq⟩

end

/-- The encoder on the port, where there is one, is at rest. -/
def State.EncoderAtRest (s : State) : Prop := ∀ e, s.enc = some e → e.AtRest

section
variable {s t : State} {i : Instr}

theorem State.CommandInv.atRest (h : s.CommandInv) : s.EncoderAtRest := fun e he =>
  ⟨(h.rest e he).1, (h.rest e he).2, h.waiting e he⟩

theorem State.CommandInv.of_atRest (hr : s.requests.all Request.isCommand = true)
    (h : s.EncoderAtRest) : s.CommandInv :=
  ⟨hr, fun e he => ⟨(h e he).notSearch, (h e he).notBacklog⟩, fun e he => (h e he).waiting⟩

theorem State.encoderAtRest_of_enc {e : Encoder} (hs : s.enc = some e) (h : e.AtRest) :
    s.EncoderAtRest := fun _ hx => Option.some.inj (hs.symm.trans hx) ▸ h

theorem State.encoderAtRest_of_eq (h : s.EncoderAtRest) (ht : t.enc = s.enc) : t.EncoderAtRest :=
  fun e hx => h e (ht ▸ hx)

theorem execEncConstruct_atRest {w l ibs obs : Nat} (hx : execEncConstruct w l ibs obs s = .next t) :
    t.EncoderAtRest := by
  by_cases hlegal : legalEncoder ⟨w, l, ibs, obs⟩
  · cases (execEncConstruct_of_legal hlegal s).symm.trans hx
    exact State.encoderAtRest_of_enc rfl (Encoder.initial_atRest _)
  · cases (execEncConstruct_of_not_legal hlegal s).symm.trans hx
    exact fun _ => nofun

/-- Every instruction but a step row of the encoder leaves it at rest. -/
theorem exec_atRest (hinv : s.Inv) (h : s.EncoderAtRest) (hi : ∀ q : EncState, i ≠ q.instr)
    (hx : exec i s = .next t) : t.EncoderAtRest := by
  cases exec_shape hx with
  | encC w l ibs obs hc =>
    subst hc
    exact execEncConstruct_atRest hx
  | encCmd e e' r he ht _ hrun =>
    subst ht
    refine State.encoderAtRest_of_enc rfl ?_
    have hrest := h e he
    rcases hrun with ⟨-, hr⟩ | ⟨data, -, hr⟩ | ⟨-, hr⟩ | ⟨-, hr⟩ | ⟨-, hr⟩
    · cases hr
      exact Encoder.initial_atRest _
    · exact encSink_atRest hrest hr
    · exact encPoll_atRest (hinv.enc e he) hrest hr
    · exact encDrain_atRest hrest hr
    · exact encFinish_atRest hrest hr
  | encS q hq => exact absurd hq (hi q)
  | decC _ _ _ _ _ _ _ ht => subst ht; exact State.encoderAtRest_of_eq h rfl
  | decCmd _ _ _ _ ht => subst ht; exact State.encoderAtRest_of_eq h rfl
  | decS _ _ _ _ _ _ _ ht => subst ht; exact State.encoderAtRest_of_eq h rfl
  | tok _ _ _ _ ht => subst ht; exact State.encoderAtRest_of_eq h rfl

/-- A command word decodes to no step row (R95, R98). -/
theorem decode_command_ne_encStep {ly : Layout} {word : Byte} {ops : Operands}
    (hdec : decode ly (.command word ops) = .ok i) (q : EncState) : i ≠ q.instr := by
  rintro rfl
  obtain ⟨-, hof, -⟩ := (commandWords ly word ops).2 _ hdec
  rw [commandOf_encStep] at hof
  cases hof

theorem stallInToken_frame (hx : stallInToken s = .next t) :
    t.enc = s.enc ∧ t.requests = s.requests := by
  obtain ⟨d, d', -, rfl, -⟩ := stallInToken_next hx
  exact ⟨rfl, rfl⟩

end

/-- Settles O12: the one request that a step takes is a command, and no command leaves the encoder in SEARCH
or SAVE_BACKLOG, or waiting with the flag set. -/
theorem commandsKeepEncoderAtRest : Obligations.CommandsKeepEncoderAtRest := by
  intro s t hinv hcmd hstep
  obtain ⟨-, rfl⟩ | ⟨r, rest, c, hr, hf, hrun⟩ := step_next hstep
  · exact hcmd
  · have hall := hcmd.requests
    rw [hr, List.all_cons, Bool.and_eq_true] at hall
    obtain ⟨hfirst, hrest⟩ := hall
    have hs : ({ s with requests := rest } : State).EncoderAtRest := hcmd.atRest
    obtain ⟨i, hdec, hx⟩ | ⟨-, hx⟩ := hrun
    · cases r with
      | command word ops =>
        cases hf
        refine .of_atRest ?_ (exec_atRest (hinv.withRequests rest) hs (decode_command_ne_encStep hdec) hx)
        rw [(oneResponsePerCommand _ _ _ hx).1]
        exact hrest
      | encStep | decStep | token => cases hfirst
    · obtain ⟨henc, hreq⟩ := stallInToken_frame hx
      exact .of_atRest (hreq ▸ hrest) (State.encoderAtRest_of_eq hs henc)

end Sys2Proof.Machine
end

section
/-! PROOFS. Any sequence of stream commands on a fresh encoder: each is answered, and the bits handed out and
written are those of ENCODE_REF (R70, R71, R158). -/

namespace Sys2Proof.Machine

/-! ### Lists of instructions and their responses -/

theorem execAll_append (is : List Instr) {js : List Instr} {s t : State} (h : execAll is s = .next t) :
    execAll (is ++ js) s = execAll js t := by
  induction is generalizing s with
  | nil => cases h; rfl
  | cons i is ih =>
    rw [execAll] at h
    rw [List.cons_append, execAll]
    split at h
    case h_1 => exact ih h
    case h_2 => cases h
    case h_3 => cases h

theorem execAll_snoc {is : List Instr} {i : Instr} {s t u : State} (h : execAll is s = .next t)
    (hi : exec i t = .next u) : execAll (is ++ [i]) s = .next u := by
  rw [execAll_append is h]
  simp only [execAll, hi]

theorem drainedBytes_append (rs rs' : List Response) :
    drainedBytes (rs ++ rs') = drainedBytes rs ++ drainedBytes rs' := List.flatMap_append

/-- What the first instruction of a list had accepted, and what the others had. -/
theorem acceptedBytes_cons (i : Instr) (is : List Instr) (r : Response) (rs : List Response) :
    acceptedBytes (i :: is) (r :: rs) = acceptedBytes [i] [r] ++ acceptedBytes is rs := by
  cases i <;> simp [acceptedBytes]

theorem acceptedBytes_append {is : List Instr} {rs : List Response} (h : rs.length = is.length)
    (js : List Instr) (rs' : List Response) :
    acceptedBytes (is ++ js) (rs ++ rs') = acceptedBytes is rs ++ acceptedBytes js rs' := by
  induction is generalizing rs with
  | nil =>
    cases List.eq_nil_of_length_eq_zero h
    simp
  | cons i is ih =>
    cases rs with
    | nil => cases h
    | cons r rs =>
      rw [List.cons_append, List.cons_append, acceptedBytes_cons, acceptedBytes_cons i is,
        ih (Nat.succ.inj h), List.append_assoc]

/-! ### One stream command -/

section
variable {p : Params} {e e' : Encoder} {r : Result} {i : Instr} {s : State}

theorem encSink_ne_done {data : List Byte} (h : e.Inv) (hrun : encSink data p e = .ok (e', r)) :
    r ≠ .done := by
  by_cases ha : e.accepting
  · obtain ⟨hbuf', hok, -⟩ := encSink_spec (p := p) (data := data) h ha
    cases hrun.symm.trans hok
    nofun
  · cases hrun.symm.trans (encSink_of_not_accepting ha)
    nofun

theorem encPoll_ne_done (h : e.Inv) (hrun : encPoll p e = .ok (e', r)) : r ≠ .done := by
  obtain ⟨e1, r1, n, hok, -, -, -, -, -, hstop⟩ := encPoll_spec (p := p) h
  cases hrun.symm.trans hok
  obtain ⟨rfl, -⟩ | ⟨rfl, -⟩ := hstop <;> nofun

theorem encDrain_ne_done (h : e.Inv) (hrun : encDrain p e = .ok (e', r)) : r ≠ .done := by
  cases hrun.symm.trans (encDrain_spec h.outSize)
  nofun

/-- FINISH answers DONE in DONE only (R145). -/
theorem encFinish_done (hrun : encFinish p e = .ok (e', .done)) : e'.state = .done := by
  have hanswer : encFinish p e = .ok (Encoder.setFinishing e, _) := rfl
  obtain ⟨rfl, hr⟩ := Prod.mk.inj (Except.ok.inj (hanswer.symm.trans hrun))
  by_contra hq
  rw [if_neg hq] at hr
  cases hr

theorem encCommand_answers {f : Params → Encoder → Res (Encoder × Result)} (he : s.enc = some e)
    (hf : ∃ e' r, f s.params e = .ok (e', r))
    (hdone : ∀ {e'}, f s.params e = .ok (e', .done) → e'.state = .done) :
    ∃ e' r, encCommand f s = .next ((s.setEnc (some e')).respond .encoder r) ∧
      (r = .done → e'.state = .done) := by
  obtain ⟨e', r, hrun⟩ := hf
  refine ⟨e', r, encCommand_of_ok he hrun, ?_⟩
  rintro rfl
  exact hdone hrun

/-- A stream command of an encoder in range is answered, and DONE is the answer of a complete stream. -/
theorem exec_stream_answers (he : s.enc = some e) (h : e.Inv) (hi : streamOf .encoder i = true) :
    ∃ e' r, exec i s = .next ((s.setEnc (some e')).respond .encoder r) ∧
      (r = .done → e'.state = .done) := by
  cases i
  case encSink data =>
    exact encCommand_answers he (Prod.exists.1 (encSink_answers h data))
      fun hrun => absurd rfl (encSink_ne_done h hrun)
  case encPoll =>
    exact encCommand_answers he (encPoll_answers h) fun hrun => absurd rfl (encPoll_ne_done h hrun)
  case encDrain =>
    exact encCommand_answers he (encDrain_answers h) fun hrun => absurd rfl (encDrain_ne_done h hrun)
  case encFinish => exact encCommand_answers (f := encFinish) he ⟨_, _, rfl⟩ encFinish_done
  all_goals cases hi

/-- Only CONSTRUCT writes CFG (R22). -/
theorem exec_stream_cfg {t : State} (he : s.enc = some e) (hi : streamOf .encoder i = true)
    (hx : exec i s = .next t) (ht : t.enc = some e') : e'.cfg = e.cfg := by
  obtain ⟨-, hcfg, -⟩ := configurationIsImmutable i s t hx
  have hmap := hcfg (by rintro w l ibs obs rfl; cases hi)
  rw [he, ht] at hmap
  exact Option.some.inj hmap

end

/-! ### Any number of stream commands -/

/-- From `s0` the instructions `is` lead to `t` with the responses `rs`, one for each; the encoder `e` there is
on its way to ENCODE_REF of the accepted bytes, and its stream is complete where the last answer is DONE. -/
structure EncStream (s0 : State) (cfg : Cfg) (is : List Instr) (rs : List Response) (t : State)
    (e : Encoder) : Prop where
  run : execAll is s0 = .next t
  enc : t.enc = some e
  responses : t.responses = s0.responses ++ rs
  answered : rs.length = is.length
  params : t.params = s0.params
  cfg : e.cfg = cfg
  faithful : Encoder.Faithful s0.params ((drainedBytes rs).flatMap byteBits) (acceptedBytes is rs) e
  done : rs.getLast? = some ⟨.encoder, .done⟩ → e.state = .done

section
variable {s0 t : State} {cfg : Cfg} {is : List Instr} {rs : List Response} {e : Encoder}

theorem EncStream.nil (he : s0.enc = some e) (h : Encoder.Faithful s0.params [] [] e) :
    EncStream s0 e.cfg [] [] s0 e where
  run := rfl
  enc := he
  responses := (List.append_nil _).symm
  answered := rfl
  params := rfl
  cfg := rfl
  faithful := h
  done := nofun

/-- One stream command more is answered and keeps the encoder on its way. -/
theorem EncStream.snoc (h : EncStream s0 cfg is rs t e) {i : Instr} (hi : streamOf .encoder i = true) :
    ∃ r t' e', EncStream s0 cfg (is ++ [i]) (rs ++ [r]) t' e' := by
  have hfaithful := h.faithful
  rw [← h.params] at hfaithful
  obtain ⟨e', r, hx, hdone⟩ := exec_stream_answers h.enc hfaithful.inv hi
  obtain ⟨rs1, hrs1, hafter⟩ := exec_stream_faithfulAfter h.enc hfaithful hi hx rfl
  obtain rfl : rs1 = [⟨.encoder, r⟩] := (List.append_cancel_left hrs1).symm
  refine ⟨⟨.encoder, r⟩, _, e', execAll_snoc h.run hx, rfl, ?_, ?_, h.params, ?_, ?_, fun hlast => ?_⟩
  · simp [h.responses]
  · simp [h.answered]
  · rw [exec_stream_cfg h.enc hi hx rfl, h.cfg]
  · rw [drainedBytes_append, List.flatMap_append, acceptedBytes_append h.answered, ← h.params]
    exact hafter
  · rw [List.getLast?_concat] at hlast
    cases hlast
    exact hdone rfl

theorem encStream_of_streamOf (he : s0.enc = some e) (h : Encoder.Faithful s0.params [] [] e)
    (is : List Instr) (his : ∀ i ∈ is, streamOf .encoder i = true) :
    ∃ rs t e', EncStream s0 e.cfg is rs t e' := by
  induction is using List.reverseRecOn with
  | nil => exact ⟨[], s0, e, .nil he h⟩
  | append_singleton is i ih =>
    rw [List.forall_mem_append, List.forall_mem_singleton] at his
    obtain ⟨rs, t, e', hstream⟩ := ih his.1
    obtain ⟨r, t', e'', hnext⟩ := hstream.snoc his.2
    exact ⟨_, t', e'', hnext⟩

/-- Before FINISH what an encoder still owes completes the token bits for every later input (R158). -/
theorem Encoder.Faithful.written_prefix {p : Params} {drained : List Bool} {x : List Byte}
    (h : Encoder.Faithful p drained x e) (hfin : e.finishing = false) (y : List Byte) :
    drained ++ e.written <+:
      (encodeTokens p e.cfg.layout (x ++ y)).flatMap (tokenBits e.cfg.layout) := by
  obtain ⟨c, -, howes⟩ := h.owes
  have hunset : e.finishing ≠ true := by rw [hfin]; nofun
  have hnd : e.state ≠ .done := fun hq => hunset (h.inv.ending (.inr hq))
  rw [encodeTokens_bits]
  exact ⟨_, howes hnd y fun hset => absurd hset hunset⟩

end

theorem execEncConstruct_fresh {w l ibs obs : Nat} {s s0 : State} (hlegal : legalEncoder ⟨w, l, ibs, obs⟩)
    (hx : execEncConstruct w l ibs obs s = .next s0) :
    s0.params = s.params ∧ s0.enc = some (Encoder.initial ⟨w, l, ibs, obs⟩) := by
  cases (execEncConstruct_of_legal hlegal s).symm.trans hx
  exact ⟨rfl, rfl⟩

/-- Settles O57: after any sequence of stream commands the encoder is on its way to ENCODE_REF of the accepted
bytes, and an answer DONE is that of a complete stream. -/
theorem encoderIsEncodeRef : Obligations.EncoderIsEncodeRef := by
  intro w l ibs obs s s0 is hlegal hconstruct his
  obtain ⟨hparams, henc⟩ := execEncConstruct_fresh hlegal hconstruct
  obtain ⟨rs, t, e, hstream⟩ := encStream_of_streamOf henc (Encoder.initial_faithful _ hlegal) is his
  have hlayout : e.cfg.layout = ⟨w, l⟩ := by rw [hstream.cfg]; rfl
  have hfaithful := hstream.faithful
  rw [hparams] at hfaithful
  refine ⟨t, e, rs, hstream.run, hstream.enc, hstream.responses, fun hfin y => ?_, fun hlast => ?_⟩
  · rw [← hlayout]
    exact hfaithful.written_prefix hfin y
  · rw [← hlayout]
    exact hfaithful.complete (hstream.done hlast)

end Sys2Proof.Machine
end

section
/-! PROOFS. The decoder's commands RESET, SINK, FINISH and POLL in full (R181 to R185, R199, R200). -/

namespace Sys2Proof.Machine

/-- Settles O23: RESET makes the initial decoder of CFG, and a legal CFG is what CONSTRUCT makes it of too. -/
theorem decoderReset : Obligations.DecoderReset := fun s d hd =>
  ⟨Decoder.initial d.cfg, decCommand_of_ok (f := decReset) hd rfl, rfl, Decoder.initial_atReset _,
    fun hinv => execDecConstruct_of_legal hinv.legal s⟩

section
variable {s : State} {d : Decoder}

/-- A command that leaves the decoder as it is only responds. -/
theorem decCommand_unchanged {f : Params → Decoder → Res (Decoder × Result)} {r : Result}
    (hd : s.dec = some d) (hrun : f s.params d = .ok (d, r)) :
    decCommand f s = .next (s.respond .decoder r) := by
  rw [decCommand_of_ok hd hrun, State.setDec_self hd]

theorem decSink_of_full {p : Params} {data : List Byte} (hfull : d.inSize = d.cfg.ibs) :
    decSink data p d = .ok (d, .full) := if_pos hfull

/-- FINISH answers by D.state and the whole bytes buffered (R185). -/
theorem decFinish_spec {p : Params} (h : d.inHead ≤ d.inSize) :
    decFinish p d = .ok (d, finishAnswer p d.state (d.inSize - d.inHead)) := by
  rw [decFinish, Decoder.buffered, minus_of_le h]
  rfl

end

/-- Settles O26, by what a SINK with space does to the buffer. -/
theorem decoderSinkAccepted : Obligations.DecoderSinkAccepted := by
  intro s d data hd hinv hspace
  obtain ⟨inp', hrun, -, -, hbytes, hkept⟩ :=
    decSink_spec (p := s.params) (data := data) hinv (Nat.ne_of_lt hspace)
  exact ⟨_, decCommand_of_ok hd hrun, rfl, hbytes, hkept⟩

/-- Settles O27: the decoder is put back as it was. -/
theorem decoderSinkFull : Obligations.DecoderSinkFull := fun _ _ _ hd hfull =>
  decCommand_unchanged hd (decSink_of_full hfull)

/-- Settles O30: the decoder is put back as it was, and the answer is read off R185's table by the state. -/
theorem decoderFinish : Obligations.DecoderFinish := by
  intro s d hd hinv
  have hx : exec .decFinish s = _ := decCommand_unchanged hd (decFinish_spec (p := s.params) hinv.cursors)
  refine ⟨fun hq => ?_, fun hq => ?_, fun hq => ?_⟩
  · rw [hx]
    obtain hq | hq | hq | hq | hq := hq <;> rw [hq, finishAnswer]
  · rw [hx, hq, finishAnswer]
  · rw [hx, hq, finishAnswer]

/-- Settles O32, by the run of handlers that POLL's loop makes; the steps left are within R199's bound. -/
theorem decoderPoll : Obligations.DecoderPoll := by
  intro s d hd hinv
  obtain ⟨d', r, n, d1, hpoll, hbound, hrun, -, hstep, hstay, -, -, -, rfl, hfirst⟩ :=
    decPoll_spec (p := s.params) hinv
  exact ⟨n, d1, d', hbound, hrun, hstep, hstay, decCommand_of_ok hd hpoll, hfirst⟩

end Sys2Proof.Machine
end

section
/-! PROOFS. The decoder's handlers as instructions: the states that read a field (R187 to R192), and the edges of
D.state that handlers and commands follow (R181, R194). -/

namespace Sys2Proof.Machine

/-! ### The step rows -/

section
variable {s : State} {d d' : Decoder} {q : DecState}

theorem exec_decStep_of_ok (hd : s.dec = some d) (hq : d.state = q) (hrun : decHandler q d = .ok d') :
    exec q.instr s = .next (s.setDec (some d')) := by
  rw [exec_decStep]
  exact decStep_of_ok hd hq hrun

/-- A handler that leaves the decoder as it is leaves the whole state as it is. -/
theorem exec_decStep_unchanged (hd : s.dec = some d) (hq : d.state = q)
    (hrun : decHandler q d = .ok d) : exec q.instr s = .next s := by
  rw [exec_decStep_of_ok hd hq hrun, State.setDec_self hd]

end

/-! ### Reading a field -/

section
variable {n : Nat} {use : Nat → Decoder → Res Decoder} {s : State} {d : Decoder} {q : DecState}

theorem Decoder.readField_of_short (h : d.Readable) (h1 : 1 ≤ n) (h15 : n ≤ 15)
    (hshort : d.unread.length < n) : Decoder.readField n use d = .ok d := by
  rw [Decoder.readField, Decoder.getBits_of_short h h1 h15 hshort]
  rfl

/-- `v` is the number the first `n` unread bits of `d` spell, and `d1` is `d` with exactly these taken. -/
structure Decoder.FieldRead (n : Nat) (d : Decoder) (v : Nat) (d1 : Decoder) : Prop where
  bits : Decoder.getBits n d = .ok (some (v, d1))
  consumed : Decoder.Consumed n d d1
  value : v = numberFrom 0 (d.unread.take n)
  lt : v < 2 ^ n

theorem Decoder.exists_fieldRead (h : d.Readable) (h1 : 1 ≤ n) (h15 : n ≤ 15)
    (hn : n ≤ d.unread.length) : ∃ d1 v, Decoder.FieldRead n d v d1 := by
  obtain ⟨hshort, -⟩ | ⟨-, d1, hbits, hcons⟩ := Decoder.getBits_spec h h1 h15
  · omega
  · have hlt := numberFrom_lt (d.unread.take n)
    rw [List.length_take, Nat.min_eq_left hn] at hlt
    exact ⟨d1, _, hbits, hcons, rfl, hlt⟩

theorem Decoder.FieldRead.readField {v : Nat} {d1 : Decoder} (h : Decoder.FieldRead n d v d1) :
    Decoder.readField n use d = use v d1 := by
  rw [Decoder.readField, h.bits]
  rfl

/-- A state whose handler reads a field: without its bits nothing changes, and with them the handler goes on
with the field's value. -/
theorem exec_fieldStep (hd : s.dec = some d) (hinv : d.Inv) (hq : d.state = q) (h1 : 1 ≤ n) (h15 : n ≤ 15)
    (hfield : decHandler q d = Decoder.readField n use d) :
    (d.unread.length < n → exec q.instr s = .next s) ∧
    (n ≤ d.unread.length → ∃ d1 v, Decoder.FieldRead n d v d1 ∧
      ∀ d', use v d1 = .ok d' → exec q.instr s = .next (s.setDec (some d'))) := by
  refine ⟨fun hshort => ?_, fun hn => ?_⟩
  · exact exec_decStep_unchanged hd hq (hfield.trans (Decoder.readField_of_short hinv.readable h1 h15 hshort))
  · obtain ⟨d1, v, hread⟩ := Decoder.exists_fieldRead hinv.readable h1 h15 hn
    exact ⟨d1, v, hread, fun d' huse =>
      exec_decStep_of_ok hd hq (hfield.trans (hread.readField.trans huse))⟩

end

/-! ### TAG_BIT and YIELD_LITERAL -/

theorem tagBitRead_toNat (b : Bool) (d : Decoder) :
    tagBitRead b.toNat d = .ok (
      if b then { d with state := .yieldLiteral }
      else if 8 < d.cfg.windowBits then { d with state := .backrefIndexMsb }
      else { d with offset := 0, state := .backrefIndexLsb }) := by
  cases b with
  | true => rfl
  | false => by_cases hw : 8 < d.cfg.windowBits <;> simp [tagBitRead, hw]

/-- Settles O44, by the one bit that is read. -/
theorem decoderTagBit : Obligations.DecoderTagBit := by
  intro s d hd hinv hq
  obtain ⟨hstall, hgo⟩ :=
    exec_fieldStep (q := .tagBit) (use := tagBitRead) hd hinv hq (Nat.le_refl 1) (by decide) rfl
  refine ⟨fun hnone => hstall (by simp [hnone]), fun b rest hbits => ?_⟩
  obtain ⟨d1, v, hread, hrun⟩ := hgo (by simp [hbits])
  obtain rfl : v = b.toNat := by
    rw [hread.value, hbits]
    simp [numberFrom]
  refine ⟨d1, hread.bits, hread.consumed, ?_⟩
  rw [← hread.consumed.cfg]
  exact hrun _ (tagBitRead_toNat b d1)

theorem decYieldLiteral_of_full {d : Decoder} (hfull : d.outSize = d.cfg.obs) :
    decYieldLiteral d = .ok d := by
  rw [decYieldLiteral, if_pos (by rw [Decoder.room, hfull]; exact Nat.lt_irrefl _)]

/-- A byte's bits at the front of a bit sequence spell the byte (R13). -/
theorem numberFrom_take_byteBits (b : Byte) (rest : List Bool) :
    numberFrom 0 ((byteBits b ++ rest).take 8) = b.toNat := by
  rw [List.take_left' (byteBits_length b), byteBits, numberFrom_bitsOf, Nat.mod_eq_of_lt b.isLt]

/-- Settles O45: with room the handler reads an eight-bit field and outputs the byte it spells. -/
theorem decoderYieldLiteral : Obligations.DecoderYieldLiteral := by
  intro s d hd hinv hq
  have hstep (hroom : d.room) := exec_fieldStep (q := .yieldLiteral) (use := literalRead) hd hinv hq
    (n := 8) (by decide) (by decide) (if_neg (not_not_intro hroom))
  refine ⟨fun hblocked => ?_, fun b rest hroom hbits => ?_⟩
  · by_cases hroom : d.room
    · exact (hstep hroom).1 (hblocked.resolve_left (Nat.ne_of_lt hroom))
    · have hle := hinv.outSize
      exact exec_decStep_unchanged (q := .yieldLiteral) hd hq (decYieldLiteral_of_full (by omega))
  · obtain ⟨d1, v, hread, hrun⟩ := (hstep hroom).2 (by simp [hbits])
    obtain rfl : v = b.toNat := by rw [hread.value, hbits, numberFrom_take_byteBits]
    have hroom1 : d1.room := by
      rw [Decoder.room, hread.consumed.cfg, hread.consumed.outSize]
      exact hroom
    obtain ⟨d2, hemitted, hok, -⟩ := literalRead_spec (hread.consumed.inv hinv) hroom1 b.toNat
    rw [BitVec.ofNat_toNat, BitVec.setWidth_eq] at hemitted
    exact ⟨d1, d2, hread.bits, hread.consumed, hemitted, hrun _ hok⟩

/-! ### The fields of a backreference -/

/-- Settles O46: the MSB states read the bits of the field above its low eight. -/
theorem decoderFieldMsb : Obligations.DecoderFieldMsb := by
  refine ⟨fun s d hd hinv hq => ?_, fun s d hd hinv hq => ?_⟩
  all_goals obtain ⟨-, h15, -, hlw, -⟩ := hinv.legal
  · have hwide := hinv.indexMsb hq
    obtain ⟨hstall, hgo⟩ := exec_fieldStep (q := .backrefIndexMsb) (use := indexMsbRead) hd hinv hq
      (n := d.cfg.windowBits - 8) (by omega) (by omega)
      (by rw [decHandler, decBackrefIndexMsb, minus_of_le (Nat.le_of_lt hwide), Res.ok_bind])
    refine ⟨hstall, fun hn => ?_⟩
    obtain ⟨d1, v, hread, hrun⟩ := hgo hn
    exact ⟨d1, v, hread.bits, hread.consumed, hread.value,
      hrun _ (by rw [indexMsbRead, Nat.shiftLeft_eq, Nat.mul_comm])⟩
  · have hwide := hinv.countMsb hq
    obtain ⟨hstall, hgo⟩ := exec_fieldStep (q := .backrefCountMsb) (use := countMsbRead) hd hinv hq
      (n := d.cfg.lookaheadBits - 8) (by omega) (by omega)
      (by rw [decHandler, decBackrefCountMsb, minus_of_le (Nat.le_of_lt hwide), Res.ok_bind])
    refine ⟨hstall, fun hn => ?_⟩
    obtain ⟨d1, v, hread, hrun⟩ := hgo hn
    exact ⟨d1, v, hread.bits, hread.consumed, hread.value,
      hrun _ (by rw [countMsbRead, Nat.shiftLeft_eq, Nat.mul_comm])⟩

/-- Settles O47: the low bits of D.offset are free where they are read, so that or and sum agree. -/
theorem decoderIndexLsb : Obligations.DecoderIndexLsb := by
  intro s d hd hinv hq
  have h4 := hinv.legal.1
  obtain ⟨hfree, -⟩ := hinv.indexLsb hq
  obtain ⟨hstall, hgo⟩ := exec_fieldStep (q := .backrefIndexLsb) (use := indexLsbRead) hd hinv hq
    (n := min d.cfg.windowBits 8) (by omega) (by omega) rfl
  refine ⟨hstall, fun hn => ?_⟩
  obtain ⟨d1, v, hread, hrun⟩ := hgo hn
  have hor := or_eq_add hfree hread.lt
  have hoffset : d1.offset = d.offset := by rw [hread.consumed.rest]
  exact ⟨d1, v, hread.bits, hread.consumed, hread.value, hor,
    hrun _ (by rw [indexLsbRead, hoffset, hor, hread.consumed.cfg])⟩

/-- Settles O48: the low bits of D.count are free where they are read, so that or and sum agree. -/
theorem decoderCountLsb : Obligations.DecoderCountLsb := by
  intro s d hd hinv hq
  have h3 := hinv.legal.2.2.1
  obtain ⟨hfree, -⟩ := hinv.countLsb hq
  obtain ⟨hstall, hgo⟩ := exec_fieldStep (q := .backrefCountLsb) (use := countLsbRead) hd hinv hq
    (n := min d.cfg.lookaheadBits 8) (by omega) (by omega) rfl
  refine ⟨hstall, fun hn => ?_⟩
  obtain ⟨d1, v, hread, hrun⟩ := hgo hn
  have hor := or_eq_add hfree hread.lt
  have hcount : d1.count = d.count := by rw [hread.consumed.rest]
  exact ⟨d1, v, hread.bits, hread.consumed, hread.value, hor,
    hrun _ (by rw [countLsbRead, hcount, hor])⟩

/-! ### The transitions of D.state -/

section
variable {s t : State} {d d' : Decoder}

theorem exec_decStep_edge {q : DecState} (hd : s.dec = some d) (hd' : t.dec = some d')
    (hx : exec q.instr s = .next t) : decEdge d.cfg d.state d'.state = true := by
  rw [exec_decStep] at hx
  obtain ⟨d1, d2, hd1, rfl, hrun, rfl⟩ := decStep_next hx
  cases hd.symm.trans hd1
  cases hd'
  exact (decHandler_same hrun).2

/-- A command that leaves `d'` on the port has run on the decoder that was there. -/
theorem decCommand_run {f : Params → Decoder → Res (Decoder × Result)} (hd : s.dec = some d)
    (hd' : t.dec = some d') (hx : decCommand f s = .next t) : ∃ r, f s.params d = .ok (d', r) := by
  obtain ⟨d1, d2, r, hd1, hrun, rfl⟩ := decCommand_next hx
  cases hd.symm.trans hd1
  cases hd'
  exact ⟨r, hrun⟩

end

section
variable {p : Params} {d d' : Decoder} {r : Result}

theorem decSink_state {data : List Byte} (hrun : decSink data p d = .ok (d', r)) : d'.state = d.state := by
  unfold decSink at hrun
  split at hrun
  · cases hrun; rfl
  · obtain ⟨⟨n, d1⟩, happend, hret⟩ := Res.bind_ok hrun
    obtain ⟨space, -, htaken⟩ := Res.bind_ok happend
    obtain ⟨inp, -, hd1⟩ := Res.bind_ok htaken
    cases hd1; cases hret; rfl

theorem decDrain_state (hrun : decDrain p d = .ok (d', r)) : d'.state = d.state := by
  obtain ⟨⟨bytes, d1⟩, htake, hret⟩ := Res.bind_ok hrun
  obtain ⟨bytes', -, hd1⟩ := Res.bind_ok htake
  cases hd1; cases hret; rfl

end

/-- Settles O19, by the edge of each handler and by what each command does to the state register. -/
theorem decoderTransitions : Obligations.DecoderTransitions := by
  refine ⟨fun q s t d d' hd hd' hx => exec_decStep_edge hd hd' hx, fun i s t d d' hd hd' hx hi => ?_,
    fun s t d d' hd hd' hx => ?_⟩
  · obtain rfl | rfl | ⟨data, rfl⟩ := hi
    · obtain ⟨r, hrun⟩ := decCommand_run (f := decDrain) hd hd' hx
      exact decDrain_state hrun
    · obtain ⟨r, hrun⟩ := decCommand_run (f := decFinish) hd hd' hx
      rw [decFinish_keeps hrun]
    · obtain ⟨r, hrun⟩ := decCommand_run (f := decSink data) hd hd' hx
      exact decSink_state hrun
  · obtain ⟨r, hrun⟩ := decCommand_run (f := decReset) hd hd' hx
    cases hrun
    rfl

end Sys2Proof.Machine
end

section
/-! PROOFS. Any sequence of stream commands on a fresh decoder: each is answered, and the bytes handed out and
pending are those of DECODE_REF as far as the accepted bytes go (R70, R71, R197, R198). -/

namespace Sys2Proof.Machine

/-! ### A decoder on its way to DECODE_REF -/

/-- A decoder of the layout `ly` that has handed out the bytes `drained` and accepted the bytes `z`: its window
holds its output (R123), and whatever bits follow, its output and what it still comes to output are DECODE_REF of
the accepted bytes and those bits (R197, R198). -/
structure Decoder.Faithful (ly : Layout) (drained z : List Byte) (d : Decoder) : Prop where
  inv : d.Inv
  layout : d.cfg.layout = ly
  remembers : d.Remembers (drained ++ d.pending)
  promise : ∀ more, d.promise more (drained ++ d.pending) = decodeRef ly (z.flatMap byteBits ++ more)

/-- The next handler changes nothing, and not for want of room: where POLL answers POLL_EMPTY (R184). -/
structure Decoder.Starved (d : Decoder) : Prop where
  stalled : decHandler d.state d = .ok d
  room : d.room

section
variable {ly : Layout} {drained z : List Byte} {d d' : Decoder}

theorem Decoder.initial_faithful {cfg : Cfg} (h : legalDecoder cfg) :
    Decoder.Faithful cfg.layout [] [] (Decoder.initial cfg) where
  inv := Decoder.initial_inv h
  layout := rfl
  remembers := Decoder.initial_remembers cfg
  promise _ := rfl

theorem Decoder.Faithful.promise_accepted (h : Decoder.Faithful ly drained z d) :
    d.promise [] (drained ++ d.pending) = decodeRef ly (z.flatMap byteBits) := by
  rw [h.promise, List.append_nil]

/-- What has been output is never taken back (R198). -/
theorem Decoder.Faithful.output_prefix (h : Decoder.Faithful ly drained z d) :
    drained ++ d.pending <+: decodeRef ly (z.flatMap byteBits) := by
  rw [← h.promise_accepted]
  exact Decoder.promise_prefix [] _ d

/-- A starved decoder has output all its bits stand for. -/
theorem Decoder.Faithful.output_eq (h : Decoder.Faithful ly drained z d) (hs : d.Starved) :
    drained ++ d.pending = decodeRef ly (z.flatMap byteBits) := by
  rw [← h.promise_accepted, Decoder.promise_stalled h.inv hs.stalled hs.room]

/-- What keeps the promise of DECODE_REF keeps a decoder on its way. -/
theorem Decoder.Kept.faithful (hkept : Decoder.Kept (drained ++ d.pending) d d')
    (h : Decoder.Faithful ly drained z d) (hinv : d'.Inv) (hcfg : d'.cfg = d.cfg) :
    Decoder.Faithful ly drained z d' := by
  obtain ⟨cs, hpending, hrem, hpromise⟩ := hkept.step
  rw [List.append_assoc, ← hpending] at hrem hpromise
  exact ⟨hinv, hcfg ▸ h.layout, hrem, fun more => (hpromise more).trans (h.promise more)⟩

/-- POLL is a run of handlers with the one that changes no state at its end (R184), and each keeps the promise. -/
theorem decPoll_kept {p : Params} {r : Result} {out : List Byte} (h : d.Inv) (hr : d.Remembers out)
    (hrun : decPoll p d = .ok (d', r)) : Decoder.Kept out d d' := by
  obtain ⟨d2, r2, n, d1, hok, -, hsteps, -, hlast, -⟩ := decPoll_spec (p := p) h
  cases hrun.symm.trans hok
  exact decRun_kept (n + 1) h hr ((decRun_snoc hsteps).trans hlast)

/-- POLL answers POLL_EMPTY where the decoder is starved (R184). -/
theorem decPoll_starved {p : Params} (h : d.Inv) (hrun : decPoll p d = .ok (d', .pollEmpty)) : d'.Starved := by
  obtain ⟨d2, r2, n, d1, hok, -, -, -, hlast, hstay, hinv', -, hstop, hanswer, -⟩ := decPoll_spec (p := p) h
  cases hrun.symm.trans hok
  have hnotfull : d'.outSize ≠ d'.cfg.obs := by
    intro hfull
    rw [if_pos hfull] at hanswer
    cases hanswer
  obtain rfl | hfull := hstop
  · exact ⟨hlast, Nat.lt_of_le_of_ne hinv'.outSize hnotfull⟩
  · exact absurd hfull hnotfull

/-- SINK puts the bytes it accepts behind the unread ones, so that their bits are the first of those to come
(R182). -/
theorem decSink_faithful {p : Params} {data : List Byte} {n : Nat} (h : Decoder.Faithful ly drained z d)
    (hrun : decSink data p d = .ok (d', .accepted n)) : Decoder.Faithful ly drained (z ++ data.take n) d' := by
  have hunread := decSink_unread h.inv hrun
  have hinv' := decSink_inv h.inv hrun
  by_cases hfull : d.inSize = d.cfg.ibs
  · cases hrun.symm.trans (decSink_of_full hfull)
  · obtain ⟨inp', hok, -⟩ := decSink_spec (p := p) (data := data) h.inv hfull
    cases hrun.symm.trans hok
    refine ⟨hinv', h.layout, h.remembers, fun more => ?_⟩
    rw [Decoder.promise, hunread, List.append_assoc, List.flatMap_append, List.append_assoc, ← h.promise]
    rfl

/-- DRAIN hands the pending bytes out and empties the buffer by its cursor (R186). -/
theorem Decoder.Faithful.drain (h : Decoder.Faithful ly drained z d) :
    Decoder.Faithful ly (drained ++ d.pending) z { d with outSize := 0 } := by
  have hnone : ({ d with outSize := 0 } : Decoder).pending = [] := rfl
  refine ⟨Decoder.drained_inv h.inv, h.layout, ?_, fun more => ?_⟩
  · rw [hnone, List.append_nil]
    exact h.remembers
  · rw [hnone, List.append_nil]
    exact h.promise more

end

/-! ### One stream command -/

/-- What an answered stream command leaves: the decoder on its way, with the bytes accepted and handed out read
off the response, and starved where the answer is POLL_EMPTY. -/
structure Decoder.FaithfulAfter (ly : Layout) (drained z : List Byte) (i : Instr) (r : Result)
    (d' : Decoder) : Prop where
  faithful : Decoder.Faithful ly (drained ++ drainedBytes [⟨.decoder, r⟩])
    (z ++ acceptedBytes [i] [⟨.decoder, r⟩]) d'
  starved : r = .pollEmpty → d'.Starved

section
variable {p : Params} {ly : Layout} {drained z : List Byte} {d : Decoder}

/-- Where nothing is handed out and nothing accepted, the decoder has to be on its way from the same. -/
theorem Decoder.Faithful.after {i : Instr} {r : Result} {d' : Decoder} (h : Decoder.Faithful ly drained z d')
    (hdrained : drainedBytes [⟨.decoder, r⟩] = []) (haccepted : acceptedBytes [i] [⟨.decoder, r⟩] = [])
    (hstarved : r = .pollEmpty → d'.Starved) : Decoder.FaithfulAfter ly drained z i r d' := by
  refine ⟨?_, hstarved⟩
  rw [hdrained, haccepted, List.append_nil, List.append_nil]
  exact h

theorem decSink_faithfulAfter (data : List Byte) (h : Decoder.Faithful ly drained z d) :
    ∃ d' r, decSink data p d = .ok (d', r) ∧
      Decoder.FaithfulAfter ly drained z (.decSink data) r d' := by
  by_cases hfull : d.inSize = d.cfg.ibs
  · exact ⟨d, .full, decSink_of_full hfull, h.after rfl rfl nofun⟩
  · obtain ⟨inp', hrun, -⟩ := decSink_spec (p := p) (data := data) h.inv hfull
    refine ⟨_, _, hrun, ?_, nofun⟩
    simpa [drainedBytes, acceptedBytes, Result.count] using decSink_faithful h hrun

theorem decPoll_faithfulAfter (h : Decoder.Faithful ly drained z d) :
    ∃ d' r, decPoll p d = .ok (d', r) ∧ Decoder.FaithfulAfter ly drained z .decPoll r d' := by
  obtain ⟨d', r, n, d1, hrun, -, -, -, -, -, hinv, hcfg, -, hanswer, -⟩ := decPoll_spec (p := p) h.inv
  have hfaithful := (decPoll_kept h.inv h.remembers hrun).faithful h hinv hcfg
  refine ⟨d', r, hrun, hfaithful.after ?_ rfl fun hr => decPoll_starved h.inv (hr ▸ hrun)⟩
  rw [hanswer]
  split <;> rfl

theorem decDrain_faithfulAfter (h : Decoder.Faithful ly drained z d) :
    ∃ d' r, decDrain p d = .ok (d', r) ∧ Decoder.FaithfulAfter ly drained z .decDrain r d' := by
  refine ⟨_, _, decDrain_spec h.inv.outSize, ?_, nofun⟩
  simpa [drainedBytes, acceptedBytes] using h.drain

theorem finishAnswer_cases (p : Params) (q : DecState) (n : Nat) :
    finishAnswer p q n = .done ∨ finishAnswer p q n = .more := by
  cases q
  case yieldBackref => exact .inr rfl
  all_goals exact ite_eq_or_eq _ _ _

/-- FINISH changes nothing (R185). -/
theorem decFinish_faithfulAfter (h : Decoder.Faithful ly drained z d) :
    ∃ d' r, decFinish p d = .ok (d', r) ∧ Decoder.FaithfulAfter ly drained z .decFinish r d' := by
  refine ⟨d, _, decFinish_spec h.inv.cursors, ?_⟩
  obtain hr | hr := finishAnswer_cases p d.state (d.inSize - d.inHead)
  all_goals
    rw [hr]
    exact h.after rfl rfl nofun

/-- A stream command of a decoder on its way is answered and leaves it on its way. -/
theorem exec_decStream_faithfulAfter {s : State} {i : Instr} (hd : s.dec = some d)
    (h : Decoder.Faithful ly drained z d) (hi : streamOf .decoder i = true) :
    ∃ d' r, exec i s = .next ((s.setDec (some d')).respond .decoder r) ∧
      Decoder.FaithfulAfter ly drained z i r d' := by
  have hcommand {f : Params → Decoder → Res (Decoder × Result)}
      (hf : ∃ d' r, f s.params d = .ok (d', r) ∧ Decoder.FaithfulAfter ly drained z i r d') :
      ∃ d' r, decCommand f s = .next ((s.setDec (some d')).respond .decoder r) ∧
        Decoder.FaithfulAfter ly drained z i r d' := by
    obtain ⟨d', r, hrun, hafter⟩ := hf
    exact ⟨d', r, decCommand_of_ok hd hrun, hafter⟩
  cases i
  case decSink data => exact hcommand (decSink_faithfulAfter data h)
  case decPoll => exact hcommand (decPoll_faithfulAfter h)
  case decDrain => exact hcommand (decDrain_faithfulAfter h)
  case decFinish => exact hcommand (decFinish_faithfulAfter h)
  all_goals cases hi

end

/-! ### Any number of stream commands -/

/-- From `s0` the instructions `is` lead to `t` with the responses `rs`, one for each; the decoder `d` there is
on its way to DECODE_REF of the accepted bytes, and starved where the last answer is POLL_EMPTY. -/
structure DecStream (s0 : State) (ly : Layout) (is : List Instr) (rs : List Response) (t : State)
    (d : Decoder) : Prop where
  run : execAll is s0 = .next t
  dec : t.dec = some d
  responses : t.responses = s0.responses ++ rs
  answered : rs.length = is.length
  faithful : Decoder.Faithful ly (drainedBytes rs) (acceptedBytes is rs) d
  starved : rs.getLast? = some ⟨.decoder, .pollEmpty⟩ → d.Starved

section
variable {s0 t : State} {ly : Layout} {is : List Instr} {rs : List Response} {d : Decoder}

theorem DecStream.nil (hd : s0.dec = some d) (h : Decoder.Faithful ly [] [] d) :
    DecStream s0 ly [] [] s0 d where
  run := rfl
  dec := hd
  responses := (List.append_nil _).symm
  answered := rfl
  faithful := h
  starved := nofun

/-- One stream command more is answered and keeps the decoder on its way. -/
theorem DecStream.snoc (h : DecStream s0 ly is rs t d) {i : Instr} (hi : streamOf .decoder i = true) :
    ∃ r t' d', DecStream s0 ly (is ++ [i]) (rs ++ [r]) t' d' := by
  obtain ⟨d', r, hx, hafter⟩ := exec_decStream_faithfulAfter h.dec h.faithful hi
  refine ⟨⟨.decoder, r⟩, _, d', execAll_snoc h.run hx, rfl, ?_, ?_, ?_, fun hlast => ?_⟩
  · simp [h.responses]
  · simp [h.answered]
  · rw [drainedBytes_append, acceptedBytes_append h.answered]
    exact hafter.faithful
  · rw [List.getLast?_concat] at hlast
    cases hlast
    exact hafter.starved rfl

theorem decStream_of_streamOf (hd : s0.dec = some d) (h : Decoder.Faithful ly [] [] d)
    (is : List Instr) (his : ∀ i ∈ is, streamOf .decoder i = true) :
    ∃ rs t d', DecStream s0 ly is rs t d' := by
  induction is using List.reverseRecOn with
  | nil => exact ⟨[], s0, d, .nil hd h⟩
  | append_singleton is i ih =>
    rw [List.forall_mem_append, List.forall_mem_singleton] at his
    obtain ⟨rs, t, d', hstream⟩ := ih his.1
    obtain ⟨r, t', d'', hnext⟩ := hstream.snoc his.2
    exact ⟨_, t', d'', hnext⟩

end

theorem execDecConstruct_fresh {w l ibs obs : Nat} {s s0 : State} (hlegal : legalDecoder ⟨w, l, ibs, obs⟩)
    (hx : execDecConstruct w l ibs obs s = .next s0) :
    s0.dec = some (Decoder.initial ⟨w, l, ibs, obs⟩) := by
  cases (execDecConstruct_of_legal hlegal s).symm.trans hx
  rfl

/-- Settles O58: after any sequence of stream commands the decoder is on its way to DECODE_REF of the accepted
bytes, and an answer POLL_EMPTY is that of a starved decoder. -/
theorem decoderIsDecodeRef : Obligations.DecoderIsDecodeRef := by
  intro w l ibs obs s s0 is hlegal hconstruct his
  obtain ⟨rs, t, d, hstream⟩ := decStream_of_streamOf (execDecConstruct_fresh hlegal hconstruct)
    (Decoder.initial_faithful hlegal) is his
  exact ⟨t, d, rs, hstream.run, hstream.dec, hstream.responses, hstream.faithful.output_prefix,
    fun hlast => hstream.faithful.output_eq (hstream.starved hlast)⟩

end Sys2Proof.Machine
end
